-- ==== Sys2Proof/Word.lean ====
section
/-! DEFINITION. The word types of the machine (R14, R32): bytes, halves, words, doublewords, lane masks. -/
namespace Sys2Proof

abbrev Byte := BitVec 8
abbrev W16 := BitVec 16
abbrev W32 := BitVec 32
abbrev W64 := BitVec 64
abbrev W128 := BitVec 128

/-- One bit per lane of a group, bit `l` for lane `l` (R4: a group is 32 lanes). -/
abbrev Mask := BitVec 32

/-- One value per lane of a group. -/
abbrev Lanes (α : Type) := Vector α 32

end Sys2Proof
end

