-- ==== Sys2Proof/Syntax.lean ====
section
/-! DEFINITION. The syntax of Sceow (R15 to R55) and of the machine's other steps: `Instr` has one constructor for every row
of spec/opcode_table.json, in the table's order. -/
namespace Sys2Proof

/-- Operand types of TY, codes 0 to 13 in order (R27). -/
inductive Ty where
  | b32 | i32 | b64 | i64 | b16 | i16 | b8 | i8 | f32 | f64 | f16 | bf16 | e4m3 | e5m2
  deriving DecidableEq, Repr

/-- Rounding modes of RM (R28). -/
inductive Rm where
  | rn | rz | ru | rd | rs
  deriving DecidableEq, Repr

/-- Scopes, codes 0 to 6 (R12). -/
inductive Scope where
  | grp | blk | quad | die | pkg | pod | sys
  deriving DecidableEq, Repr

/-- The fields every instruction word carries beside its operation (R15, R18, R24, R25). -/
structure Hdr where
  sp    : Bool
  stall : BitVec 3
  hold  : BitVec 2
  gn    : Bool
  gp    : BitVec 3
  deriving DecidableEq, Repr

/-- Source slot B of the ALU layout (R26, R29): `imm32` keeps the whole extension word. -/
inductive BSrc where
  | reg (n : BitVec 8)
  | uni (n : BitVec 8)
  | imm8 (x : BitVec 8)
  | imm32 (x : W64)
  deriving DecidableEq, Repr

/-- An instruction of the ALU layout (R26). -/
structure Alu where
  u  : Bool
  ty : Ty
  rm : Rm
  os : BitVec 3
  d  : BitVec 8
  a  : BitVec 8
  b  : BSrc
  c  : BitVec 8
  deriving DecidableEq, Repr

/-- The extension word of a memory instruction (R59, R128): none, a byte offset, or a place word. -/
inductive MemExt where
  | none
  | off (w : W64)
  | place (w : W64)
  deriving DecidableEq, Repr

/-- An instruction of the memory layout (R30, R128, R155 to R162). `op` is OP of an atomic, the failure order of CAS,
NR of CADD, S of FESET, and zero elsewhere. -/
structure MemForm where
  sid : BitVec 4
  sc  : BitVec 3
  cp  : BitVec 2
  wd  : BitVec 4
  ord : BitVec 2
  op  : BitVec 4
  ext : MemExt
  d   : BitVec 8
  a   : BitVec 8
  b   : BitVec 8
  deriving DecidableEq, Repr

/-- CPY, CPYG and CPYR (R163 to R166); `ctr` is the counter address of the `.ctr` form. -/
structure CopyForm where
  sid : BitVec 4
  sc  : BitVec 3
  cp  : BitVec 2
  wd  : BitVec 4
  op  : BitVec 3
  ctr : Option W64
  d   : BitVec 8
  a   : BitVec 8
  b   : BitVec 8
  deriving DecidableEq, Repr

/-- SETP (R115). -/
structure SetpForm where
  u   : Bool
  ty  : Ty
  cmp : BitVec 3
  cb  : BitVec 3
  d   : BitVec 8
  a   : BitVec 8
  b   : BSrc
  c   : BitVec 8
  deriving DecidableEq, Repr

/-- CVT and CVTSR (R221): field C read as DE, SE and STY. -/
structure CvtForm where
  u   : Bool
  ty  : Ty
  rm  : Rm
  sat : Bool
  mg  : Bool
  de  : BitVec 2
  se  : BitVec 2
  sty : Ty
  d   : BitVec 8
  a   : BitVec 8
  b   : BSrc
  deriving DecidableEq, Repr

/-- WCOND (R171). -/
structure WcondForm where
  kind : BitVec 3
  s    : Bool
  cls  : BitVec 2
  d    : BitVec 8
  a    : BitVec 8
  b    : BitVec 8
  deriving DecidableEq, Repr

/-- WAIT (R172). -/
structure WaitForm where
  mask : BitVec 4
  any  : Bool
  mw   : Bool
  sc   : BitVec 3
  d    : BitVec 8
  b    : BitVec 8
  c    : BitVec 8
  deriving DecidableEq, Repr

/-- Offsets and count in the extension word of a matrix-stream instruction (R264). -/
structure MatExt where
  xr : BitVec 12
  xk : BitVec 12
  xb : BitVec 12
  xn : BitVec 8
  deriving DecidableEq, Repr

/-- The three forms of MSCALE (R268). -/
inductive MScale where
  | scalar (x : W32)
  | row (t : BitVec 8) (off : BitVec 12)
  | col (t : BitVec 8) (off : BitVec 12)
  deriving DecidableEq, Repr

/-- A group of the machine: its block's index in State and its index in the block. -/
structure GRef where
  blk : Nat
  grp : Nat
  deriving DecidableEq, Repr

/-- Outstanding-counter classes (R167). -/
inductive CopyClass where
  | copy | gather | coll
  deriving DecidableEq, Repr

/-- Who fetches a code line: a group, or a block's matrix sequencer (R234, R314). -/
inductive Fetcher where
  | group (r : GRef)
  | stream (blk : Nat)
  deriving DecidableEq, Repr

/-- A firmware stage that the boot ROM loads: its image and its signature (R349). -/
structure Firmware where
  image : List Byte
  sig   : List Byte
  deriving DecidableEq, Repr

/-- What a request on a Pellor link asks for at a physical address of the target device (R142), and a chunk's contribution
to a switch reduction (R347). -/
inductive RemoteOp where
  | load (addr : Nat) (size : Nat)
  | store (addr : Nat) (data : List Byte)
  | atom (addr : Nat) (op : BitVec 4) (wd : BitVec 4) (x : W64)
  | cas (addr : Nat) (wd : BitVec 4) (cmp new : W64)
  | cadd (addr : Nat) (x : W64)
  /-- A counter add that a sum of 2^64 or more leaves at 2^64 − 1 (R168, R321). -/
  | addMax (addr : Nat) (x : W64)
  | contribute (set : Nat) (dst : W64) (data : List Byte)
  | fullEmpty (addr : Nat) (size : Nat) (need : Option Bool) (data : Option (List Byte)) (fill : Option Bool)
  deriving DecidableEq, Repr

/-- The Pellor link that a control or marker flit arrives on, and how many times in a row it failed its CRC there (R343). -/
structure OnLink where
  link  : Nat
  fails : Nat
  deriving DecidableEq, Repr

/-- Where a trigger message comes from: the device that sent it, and the Pellor link it arrives on; none for this device's own
trigger (R355). -/
structure Origin where
  flit   : Option OnLink
  device : Nat
  deriving DecidableEq, Repr

/-- The set of a switch reduction that an abort names, and the Pellor link the abort arrives on (R347). -/
structure SetOn where
  flit : OnLink
  num  : Nat
  deriving DecidableEq, Repr

/-- The flit header fields of a message, the link that each of its flits arrives on, and how many times in a row each failed its
CRC there (R343, R345). -/
structure MsgHdr where
  flits : List Nat
  vc   : BitVec 2
  src  : Nat
  dst  : Nat
  seq  : Nat
  fails : List Nat
  deriving DecidableEq, Repr

/-- One constructor per row of spec/opcode_table.json. The first 143 are issued by groups and matrix streams; the
others are the steps of the machine's other agents (spec/95_what_each_step_holds.md). -/
inductive Instr where
  -- control, OPC 0x00 to 0x08
  | nop (h : Hdr)
  | blk (stall : BitVec 3) (label : W16) (ft : Bool) (len : BitVec 12)
  | want (h : Hdr) (label : W16)
  | wantv (h : Hdr) (a : BitVec 8)
  | call (h : Hdr) (entry : W16) (a : BitVec 8)
  | callv (h : Hdr) (entry : W16) (a : BitVec 8)
  | ret (h : Hdr)
  | exit (h : Hdr)
  | yield (h : Hdr) (n : BitVec 8)
  -- integer, OPC 0x10 to 0x19
  | iadd (h : Hdr) (x : Alu)
  | isub (h : Hdr) (x : Alu)
  | imul (h : Hdr) (x : Alu)
  | imulh (h : Hdr) (x : Alu)
  | imad (h : Hdr) (x : Alu)
  | imadw (h : Hdr) (x : Alu)
  | imin (h : Hdr) (x : Alu)
  | imax (h : Hdr) (x : Alu)
  | iabs (h : Hdr) (x : Alu)
  | ineg (h : Hdr) (x : Alu)
  -- logic and bit fields, OPC 0x20 to 0x2E
  | and (h : Hdr) (x : Alu)
  | or (h : Hdr) (x : Alu)
  | xor (h : Hdr) (x : Alu)
  | andn (h : Hdr) (x : Alu)
  | not (h : Hdr) (x : Alu)
  | shl (h : Hdr) (x : Alu)
  | shr (h : Hdr) (x : Alu)
  | sar (h : Hdr) (x : Alu)
  | rotl (h : Hdr) (x : Alu)
  | clz (h : Hdr) (x : Alu)
  | ctz (h : Hdr) (x : Alu)
  | popc (h : Hdr) (x : Alu)
  | brev (h : Hdr) (x : Alu)
  | bfx (h : Hdr) (x : Alu)
  | bfi (h : Hdr) (x : Alu)
  -- moves, OPC 0x30 to 0x33
  | lea (h : Hdr) (x : Alu)
  | sel (h : Hdr) (x : Alu)
  | mov (h : Hdr) (x : Alu)
  | movi (h : Hdr) (x : Alu)
  -- FP32, OPC 0x40 to 0x4E
  | fadd (h : Hdr) (x : Alu)
  | fsub (h : Hdr) (x : Alu)
  | fmul (h : Hdr) (x : Alu)
  | ffma (h : Hdr) (x : Alu)
  | fmin (h : Hdr) (x : Alu)
  | fmax (h : Hdr) (x : Alu)
  | frnd (h : Hdr) (x : Alu)
  | fcls (h : Hdr) (x : Alu)
  | frcp (h : Hdr) (x : Alu)
  | frsq (h : Hdr) (x : Alu)
  | fsqrt (h : Hdr) (x : Alu)
  | fex2 (h : Hdr) (x : Alu)
  | flg2 (h : Hdr) (x : Alu)
  | fsin (h : Hdr) (x : Alu)
  | fcos (h : Hdr) (x : Alu)
  -- FP64 and packed halves, OPC 0x50 to 0x5A
  | dadd (h : Hdr) (x : Alu)
  | dmul (h : Hdr) (x : Alu)
  | dfma (h : Hdr) (x : Alu)
  | dmin (h : Hdr) (x : Alu)
  | dmax (h : Hdr) (x : Alu)
  | hadd2 (h : Hdr) (x : Alu)
  | hmul2 (h : Hdr) (x : Alu)
  | hfma2 (h : Hdr) (x : Alu)
  -- conversions, OPC 0x60 and 0x61
  | cvt (h : Hdr) (x : CvtForm)
  | cvtsr (h : Hdr) (x : CvtForm)
  -- predicates and lane exchange, OPC 0x70 to 0x79
  | setp (h : Hdr) (x : SetpForm)
  | plop (h : Hdr) (u : Bool) (lut : BitVec 8) (d a b c : BitVec 8)
  | p2v (h : Hdr) (u : Bool) (d : BitVec 8)
  | v2p (h : Hdr) (u : Bool) (mask : BitVec 7) (a : BitVec 8)
  | shfl (h : Hdr) (mode : BitVec 2) (d a : BitVec 8) (b : BSrc)
  | vote (h : Hdr) (mode : BitVec 2) (ng : Bool) (d a : BitVec 8)
  | ballot (h : Hdr) (ud ng : Bool) (d a : BitVec 8)
  | match_ (h : Hdr) (ty : Ty) (d a : BitVec 8)
  | redux (h : Hdr) (ud : Bool) (op : BitVec 3) (ty : Ty) (d a : BitVec 8)
  | v2s (h : Hdr) (sel : BitVec 2) (d a b : BitVec 8)
  -- memory, OPC 0x80 to 0x94
  | ld (h : Hdr) (x : MemForm)
  | st (h : Hdr) (x : MemForm)
  | ldu (h : Hdr) (x : MemForm)
  | pft (h : Hdr) (x : MemForm)
  | ldw (h : Hdr) (x : MemForm)
  | ldcn (h : Hdr) (x : MemForm)
  | stf (h : Hdr) (x : MemForm)
  | ste (h : Hdr) (x : MemForm)
  | feget (h : Hdr) (x : MemForm)
  | feset (h : Hdr) (x : MemForm)
  | atom (h : Hdr) (x : MemForm)
  | red (h : Hdr) (x : MemForm)
  | cas (h : Hdr) (x : MemForm)
  | cadd (h : Hdr) (x : MemForm)
  | mst (h : Hdr) (x : MemForm)
  -- copies, OPC 0x95 to 0x97
  | cpy (h : Hdr) (x : CopyForm)
  | cpyg (h : Hdr) (x : CopyForm)
  | cpyr (h : Hdr) (x : CopyForm)
  -- waits, barriers, fences, OPC 0xA0 to 0xA8
  | wcond (h : Hdr) (x : WcondForm)
  | wait (h : Hdr) (x : WaitForm)
  | bar (h : Hdr) (sc : BitVec 3) (la : Bool) (d a c : BitVec 8)
  | bara (h : Hdr) (sc : BitVec 3) (d a : BitVec 8)
  | sig (h : Hdr) (imm : Bool) (sc : BitVec 3) (d b : BitVec 8)
  | fence (h : Hdr) (sc : BitVec 3) (kind : BitVec 2) (mask : W16)
  | fencex (h : Hdr) (mask : W16)
  | fetchb (h : Hdr) (sc : BitVec 3)
  | tfetch (h : Hdr) (d c : BitVec 8)
  -- matrix, OPC 0xB0 to 0xBC
  | mstart (h : Hdr) (a : BitVec 8)
  | mstartResume (h : Hdr)
  | mstartRetry (h : Hdr)
  | mend
  | mtile (h : Hdr) (d a : BitVec 8)
  | mtileMemory (d : BitVec 8) (addr : W64)
  | mma (ck isat : Bool) (d a b : BitVec 8) (x : MatExt)
  | mmas (d a b c : BitVec 8) (x : MatExt)
  | mzero (d n : BitVec 8)
  | mscale (d a : BitVec 8) (m : MScale)
  | mdrain (sat mx : Bool) (d a b : BitVec 8) (xr xk : BitVec 12)
  | mldacc (d a : BitVec 8) (xr xk : BitVec 12)
  | cpyaccRd (h : Hdr) (d a b : BitVec 8)
  | cpyaccWr (h : Hdr) (d a b : BitVec 8)
  | cpyaccSt (h : Hdr) (sid : BitVec 4) (d a b : BitVec 8)
  | cpyaccLd (h : Hdr) (sid : BitVec 4) (d a b : BitVec 8)
  | msig (sc : BitVec 3) (d v : BitVec 8)
  | mwait (sc : BitVec 3) (a : BitVec 8) (v : W32)
  | mchk (a : BitVec 8) (xr xk : BitVec 12) (xn : BitVec 8)
  -- numbers and flags, OPC 0xD0 to 0xD4
  | rng (h : Hdr) (x : Alu)
  | qpk (h : Hdr) (zf : BitVec 3) (d a c : BitVec 8)
  | qpkTile (h : Hdr) (zf : BitVec 3) (sid : BitVec 4) (sc : BitVec 3) (d a c : BitVec 8)
  | qunpk (h : Hdr) (zf : BitVec 3) (d a : BitVec 8)
  | qunpkTile (h : Hdr) (zf : BitVec 3) (sid : BitVec 4) (sc : BitVec 3) (ck : Bool) (d a : BitVec 8)
  | flrd (h : Hdr) (src : BitVec 2) (clr : Bool) (d : BitVec 8)
  | flclr (h : Hdr) (src : BitVec 2) (mask : BitVec 8)
  -- monitors, OPC 0xD8 to 0xDC
  | moncfg (h : Hdr) (d a : BitVec 8)
  | monref (h : Hdr) (d a b : BitVec 8)
  | monrdC (h : Hdr) (d a : BitVec 8)
  | monrdP (h : Hdr) (d a : BitVec 8)
  | monrdSt (h : Hdr) (d a : BitVec 8)
  | monclr (h : Hdr) (d : BitVec 8)
  | monstp (h : Hdr) (d : BitVec 8)
  -- traps and special registers, OPC 0xE0 to 0xEB
  | trap (h : Hdr) (code : BitVec 8)
  | trapKill (h : Hdr) (code : BitVec 8)
  | bkpt (h : Hdr) (n : BitVec 8)
  | eret (h : Hdr)
  | eretx (h : Hdr)
  | ewrd (h : Hdr) (kind : BitVec 4) (nw : BitVec 2) (d a : BitVec 8)
  | ewwr (h : Hdr) (kind : BitVec 4) (nw : BitVec 2) (a b : BitVec 8)
  | trig (h : Hdr) (sc : BitVec 3) (n : BitVec 8)
  | rdsr (h : Hdr) (ud : Bool) (num : BitVec 8) (d : BitVec 8)
  | wrsr (h : Hdr) (num : BitVec 8) (a : BitVec 8)
  | grow (h : Hdr) (imm : Bool) (d b : BitVec 8)
  | shrink (h : Hdr) (imm : Bool) (d b : BitVec 8)
  -- steps of the group's own sequencer and of the units that serve it
  | emulatedEncoding (h : Hdr) (cause : BitVec 8) (raw ext : W64) (long uniform : Bool)
  | deliveredCauseEntry (r : GRef)
  | resultArrival (r : GRef) (k : Nat)
  | census
  | sweepEnd
  | remoteParkDelay (r : GRef)
  | sideLogReplay (r : GRef)
  | copyRetire (r : GRef) (cls : CopyClass)
  | copyAbort (r : GRef) (cls : CopyClass)
  | waitRetest (r : GRef)
  | waitTimeout (r : GRef)
  | waitRemotePoll (r : GRef)
  | faultServiceRewalk (ctx : Nat)
  | codeLineFill (f : Fetcher) (line : W64)
  | matrixPass (quad : Nat)
  | sequencerResume (blk : Nat)
  | tileCommit (launch : Nat)
  -- the March core
  | placement (launch : Nat)
  | timeSliceExpiry (q : Nat)
  | blockRestore (launch : Nat)
  | nopPacket (q : Nat) (order : Bool)
  | launch (q : Nat) (order : Bool) (record ctr add : W64)
  | copy (q : Nat) (order : Bool) (src dst len ctr add : W64)
  | write (q : Nat) (order : Bool) (addr : W64) (data : List Byte)
  | signal (q : Nat) (order : Bool) (ctr add : W64) (scope : BitVec 8)
  | waitc (q : Nat) (order : Bool) (ctr value timeout : W64)
  | waitcTimeout (q : Nat)
  | wsig (q : Nat) (order : Bool) (addr : W64) (data : List Byte) (ctr add : W64)
  | fencePacket (q : Nat) (order : Bool) (scope : BitVec 8)
  | tstamp (q : Nat) (order : Bool) (addr : W64)
  -- the host, the security block and the fabric
  | queueWriteIndex (q : Nat) (index : W64)
  | hostMemRead (pa : Nat) (size : Nat)
  | hostMemWrite (pa : Nat) (data : List Byte)
  | invalidationRequest (ctx : Nat) (base len : W64)
  | preemptQueue (q : Nat)
  | setPowerLimit (watts : Nat)
  | destroyContext (ctx : Nat)
  | keygen (ctx : Nat)
  | tag (ctx : Nat) (base : W64) (count : Nat) (desc table : W64)
  | attest (ctx : Nat) (nonce report : W64)
  | registerWrite (offset : Nat) (data : List Byte)
  | pellorRequest (m : MsgHdr) (op : RemoteOp)
  | pellorResponse (m : MsgHdr) (data : List Byte)
  | permitReturn (link : OnLink) (vc n : Nat)
  | marker (link : OnLink)
  | triggerMessage (n : Nat) (origin : Origin) (tick : W64)
  | scanReadout
  | reductionAbort (dst : W64) (set : SetOn) (sources : List (List Byte))
  | switchChunkTimeout (dst : W64) (set : Nat)
  | reset (stages : List Firmware)
  | hbmTrainingComplete
  | powerAdjust (island : Nat) (lowered : Bool)
  | hbmScrub (pa : Nat)
  | stepRequest (r : GRef)
  | queueDescriptorWrite (q : Nat) (enable clearStop : Bool)
  | debuggerResume (r : GRef) (focus : Option Nat)
  | badStreamWord (blk : Nat) (word ext : W64)
  | islandPoweredUp (island : Nat)
  | podConfiguration (own : Nat) (devices : List Nat) (tick : W64)
  | hostPortLinkUp (rate : Nat)
  deriving DecidableEq, Repr

end Sys2Proof
end

