-- ==== Sys2Proof/WellFormed.lean ====
section
/-! DEFINITION. Which instructions the encoding admits. A word that is not the encoding of a well-formed instruction of its
opcode is a reserved modifier form (R12, R16, R17, R25 to R33, R37, R40, R47 and each instruction's own list). -/
namespace Sys2Proof

/-- The types whose values occupy an even:odd pair (R27). -/
def Ty.is64 : Ty → Bool
  | .b64 | .i64 | .f64 => true
  | _ => false

/-- The integer types (R203). -/
def Ty.isInt : Ty → Bool
  | .b32 | .i32 | .b64 | .i64 | .b16 | .i16 | .b8 | .i8 => true
  | _ => false

/-- The two's-complement types. -/
def Ty.isSigned : Ty → Bool
  | .i32 | .i64 | .i16 | .i8 => true
  | _ => false

/-- Width in bits (R203 to R206). -/
def Ty.width : Ty → Nat
  | .b32 | .i32 | .f32 => 32
  | .b64 | .i64 | .f64 => 64
  | .b16 | .i16 | .f16 | .bf16 => 16
  | .b8 | .i8 | .e4m3 | .e5m2 => 8

def even8 (n : BitVec 8) : Bool := n &&& 1#8 == 0#8
def quad8 (n : BitVec 8) : Bool := n &&& 3#8 == 0#8
def oct8 (n : BitVec 8) : Bool := n &&& 7#8 == 0#8

/-- A uniform register field names s0 to s127 (R32, R33). -/
def sOk (n : BitVec 8) : Bool := n < 128#8
def sPair (n : BitVec 8) : Bool := sOk n && even8 n
/-- A field that `u` makes uniform (R33, R96). -/
def rOk (u : Bool) (n : BitVec 8) : Bool := !u || sOk n
/-- A register field of a type: pairs start even (R27). -/
def tyOk (ty : Ty) (n : BitVec 8) : Bool := !ty.is64 || even8 n

/-- Slot B of an ALU form under R26, R27, R29 and R33. -/
def bOk (u : Bool) (ty : Ty) : BSrc → Bool
  | .reg n => !u && tyOk ty n
  | .uni n => sOk n && tyOk ty n
  | .imm8 _ => ty != .e4m3 && ty != .e5m2
  | .imm32 w => ty.is64 || w >>> 32 == 0#64

/-- A register slot that a form reads or writes. -/
def Alu.slot (x : Alu) (n : BitVec 8) : Bool := rOk x.u n && tyOk x.ty n

/-- Slots D A B (R96). -/
def Alu.binary (x : Alu) : Bool := x.slot x.d && x.slot x.a && bOk x.u x.ty x.b && x.c == 0#8
/-- Slots D A B C (R96). -/
def Alu.ternary (x : Alu) : Bool := x.slot x.d && x.slot x.a && bOk x.u x.ty x.b && x.slot x.c
/-- Slots D A, with BF = 00 and B = 0 (R96). -/
def Alu.unary (x : Alu) : Bool := x.slot x.d && x.slot x.a && x.b == .reg 0#8 && x.c == 0#8

def Ty.oneOf (ty : Ty) (l : List Ty) : Bool := l.contains ty
def intTys : List Ty := [.b32, .i32, .b64, .i64]

/-- No rounding and at most the low `k` values of OS (R28, R100). -/
def Alu.plain (x : Alu) (k : Nat) : Bool := x.rm == .rn && x.os.toNat < k

/-- A place word that is not a reserved form (R47): for a turn string, an eject among the turns and zero after it. -/
def turnsOk : Nat → Nat → Bool
  | 0, _ => false
  | k + 1, t => if t % 4 == 3 then t / 4 == 0 else turnsOk k (t / 4)

def placeOk (w : W64) : Bool :=
  if w.getLsbD 63 then
    (w.extractLsb' 58 5 == 0#5) && (w.extractLsb' 52 4).toNat < 12 && (w.extractLsb' 48 4).toNat < 12
      && w.extractLsb' 0 48 == 0#48
  else w.extractLsb' 48 13 == 0#13 && turnsOk 24 (w.extractLsb' 0 48).toNat

/-- The extension of a memory form; only LD, LDU, ST, ATOM, RED and CAS carry a place word (R145). -/
def MemExt.ok (place : Bool) : MemExt → Bool
  | .none | .off _ => true
  | .place w => place && placeOk w

/-- The register group that a width uses (R130, R158). -/
def wdGroup (wd : BitVec 4) (n : BitVec 8) : Bool :=
  match wd.toNat with
  | 5 | 8 | 10 => even8 n
  | 6 => quad8 n
  | _ => true

def MemForm.base (x : MemForm) (place : Bool) : Bool := x.sc != 7#3 && even8 x.a && x.ext.ok place
def ordAcq (o : BitVec 2) : Bool := o == 0#2 || o == 1#2
def ordRel (o : BitVec 2) : Bool := o == 0#2 || o == 2#2

def MemForm.load (x : MemForm) : Bool :=
  x.base true && x.wd.toNat ≤ 6 && ordAcq x.ord && x.op == 0#4 && wdGroup x.wd x.d && x.b == 0#8
def MemForm.store (x : MemForm) : Bool :=
  x.base true && x.wd.toNat ≤ 6 && x.wd != 1#4 && x.wd != 3#4 && ordRel x.ord && x.op == 0#4 && wdGroup x.wd x.b && x.d == 0#8
def MemForm.feWidth (x : MemForm) : Bool := x.wd == 4#4 || x.wd == 5#4 || x.wd == 6#4
def MemForm.feLoad (x : MemForm) : Bool :=
  x.base false && x.feWidth && x.cp == 0#2 && ordAcq x.ord && x.op == 0#4 && wdGroup x.wd x.d && x.b == 0#8
def MemForm.feStore (x : MemForm) : Bool :=
  x.base false && x.feWidth && x.cp == 0#2 && ordRel x.ord && x.op == 0#4 && wdGroup x.wd x.b && x.d == 0#8

/-- The types of WD for atomics (R158), and the operations each takes. -/
def atomTyOk (wd : BitVec 4) : Bool := [4, 5, 7, 8, 9, 10].contains wd.toNat
def atomOpOk (wd op : BitVec 4) : Bool :=
  op.toNat ≤ 2 || (op.toNat ≤ 6 && (wd == 4#4 || wd == 5#4))
def MemForm.atomic (x : MemForm) : Bool :=
  x.base true && x.cp == 0#2 && atomTyOk x.wd && atomOpOk x.wd x.op && wdGroup x.wd x.b

def CopyForm.base (x : CopyForm) : Bool := x.sc != 7#3 && sPair x.a

/-- The special registers of R37 that exist, and those that move through a pair. -/
def srListed (n : BitVec 8) : Bool :=
  [0x00, 0x01, 0x02, 0x03, 0x04, 0x05, 0x08, 0x09, 0x0A, 0x0B, 0x0C, 0x0D, 0x0E, 0x0F, 0x10, 0x11, 0x12,
   0x18, 0x19, 0x1A, 0x1C, 0x1D, 0x1E, 0x1F].contains n.toNat
def sr64 (n : BitVec 8) : Bool := [0x05, 0x0E, 0x11, 0x12, 0x1A, 0x1C, 0x1D, 0x1E, 0x1F].contains n.toNat
/-- Special registers that WRSR may name (R37: neither RO nor H). -/
def srWritable (n : BitVec 8) : Bool := [0x08, 0x09, 0x0A, 0x0B, 0x0C, 0x0D, 0x0E, 0x10].contains n.toNat

/-- Handler-bank fields: h0 to h31 or hs0 to hs15 (R34, R299). -/
def bankField (n : BitVec 8) : Bool := n ≥ 224#8 || (n ≥ 112#8 && n < 128#8)

/-- Operand A of EWRD and EWWR by KIND (R301). -/
def ewOperand (kind : BitVec 4) (a : BitVec 8) : Bool :=
  match kind.toNat with
  | 0 => a < 4#8
  | 1 => true
  | 2 => sOk a
  | 3 | 4 => a < 7#8
  | 7 | 9 => a < 16#8
  | 8 => a < 4#8
  | 5 | 6 | 10 | 11 | 12 => a == 0#8
  | _ => false
def ewNw (kind : BitVec 4) (nw : BitVec 2) : Bool :=
  if kind == 1#4 || kind == 2#4 then nw != 3#2 else nw == 0#2

/-- CVT and CVTSR share R221's list. -/
def CvtForm.base (x : CvtForm) : Bool :=
  rOk x.u x.d && tyOk x.ty x.d && rOk x.u x.a && tyOk x.sty x.a
    && x.se.toNat * x.sty.width < 32
    && (if x.mg then x.ty.width < 32 && x.de.toNat * x.ty.width < 32 else x.de == 0#2)
    && (!x.sat || (x.ty.isInt && x.sty.isInt) || (!x.ty.isInt && x.ty != .e4m3))

/-- The pairs that CVTSR accepts (R223). -/
def cvtsrPair (sty ty : Ty) : Bool :=
  match sty with
  | .f64 => ty.oneOf [.f32, .bf16, .f16, .e4m3, .e5m2]
  | .f32 => ty.oneOf [.bf16, .f16, .e4m3, .e5m2]
  | .f16 | .bf16 => ty.oneOf [.e4m3, .e5m2]
  | _ => false

def scBar (sc : BitVec 3) : Bool := sc != 0#3 && sc != 6#3 && sc != 7#3
def zfOk (zf : BitVec 3) : Bool := zf == 1#3 || zf == 2#3 || zf == 3#3
def f32Only (x : Alu) : Bool := x.ty == .f32
def f64Only (x : Alu) : Bool := x.ty == .f64
def halfTy (x : Alu) : Bool := x.ty == .f16 || x.ty == .bf16

/-- The well-formed instructions: every operand value that the encoding admits and no other. -/
def Instr.wf : Instr → Bool
  | .nop _ => true
  | .blk _ label _ _ => label < 0xFFFE#16
  | .want _ label => label < 0xFFFE#16
  | .wantv _ _ => true
  | .call _ _ a => sPair a
  | .callv _ _ a => even8 a
  | .ret _ | .exit _ | .yield _ _ => true
  | .iadd _ x | .isub _ x => x.ty.oneOf intTys && x.plain 2 && x.binary
  | .imul _ x | .imulh _ x | .imin _ x | .imax _ x => x.ty.oneOf intTys && x.plain 1 && x.binary
  | .imad _ x => x.ty.oneOf intTys && x.plain 2 && x.ternary
  | .imadw _ x => x.ty.oneOf [.b32, .i32] && x.plain 1 && x.ternary && even8 x.d && even8 x.c
  | .iabs _ x | .ineg _ x => x.ty.oneOf [.i32, .i64] && x.plain 2 && x.unary
  | .and _ x | .or _ x | .xor _ x | .andn _ x | .shl _ x | .shr _ x | .rotl _ x =>
    x.ty.oneOf [.b32, .b64] && x.plain 1 && x.binary
  | .sar _ x => x.ty.oneOf [.i32, .i64] && x.plain 1 && x.binary
  | .not _ x | .clz _ x | .ctz _ x | .popc _ x | .brev _ x => x.ty.oneOf [.b32, .b64] && x.plain 1 && x.unary
  | .bfx _ x => x.ty.oneOf intTys && x.plain 1 && x.binary
  | .bfi _ x => x.ty.oneOf [.b32, .b64] && x.plain 1 && x.ternary
  | .lea _ x => x.ty.oneOf [.b32, .i32] && x.plain 8 && x.binary && even8 x.d && even8 x.a
  | .sel _ x => x.ty.oneOf [.b32, .b64] && x.plain 2 && x.slot x.d && x.slot x.a && bOk x.u x.ty x.b && x.c < 8#8
  | .mov _ x => x.ty.oneOf [.b32, .b64] && x.plain 1 && x.slot x.d && bOk x.u x.ty x.b && x.a == 0#8 && x.c == 0#8
  | .movi _ x => x.ty.oneOf [.b32, .i32] && x.plain 1 && x.slot x.d && x.a == 0#8 && (!x.u || x.c == 0#8)
      && (match x.b with | .imm8 _ => true | .imm32 w => w >>> 32 == 0#64 | _ => false)
  | .fadd _ x | .fsub _ x | .fmul _ x =>
    f32Only x && x.os == 0#3 && x.slot x.d && x.slot x.a && bOk x.u x.ty x.b && (if x.rm == .rs then x.slot x.c else x.c == 0#8)
  | .ffma _ x => f32Only x && x.rm != .rs && x.os < 4#3 && x.ternary
  | .fmin _ x | .fmax _ x => f32Only x && x.plain 2 && x.binary
  | .frnd _ x | .frcp _ x | .fsqrt _ x => f32Only x && x.rm != .rs && x.os == 0#3 && x.unary
  | .fcls _ x => x.ty.oneOf [.f32, .f64] && x.plain 1 && x.unary
  | .frsq _ x | .fex2 _ x | .flg2 _ x | .fsin _ x | .fcos _ x => f32Only x && x.plain 1 && x.unary
  | .dadd _ x | .dmul _ x => f64Only x && x.rm != .rs && x.os == 0#3 && x.binary
  | .dfma _ x => f64Only x && x.rm != .rs && x.os < 4#3 && x.ternary
  | .dmin _ x | .dmax _ x => f64Only x && x.plain 2 && x.binary
  | .hadd2 _ x | .hmul2 _ x => halfTy x && x.rm != .rs && x.os == 0#3 && x.binary
  | .hfma2 _ x => halfTy x && x.rm != .rs && x.os < 4#3 && x.ternary
  | .cvt _ x => x.base && x.rm != .rs && x.b == .reg 0#8
  | .cvtsr _ x => x.base && x.rm == .rn && cvtsrPair x.sty x.ty
      && (match x.b with | .reg _ => !x.u | .uni n => sOk n | _ => false)
  | .setp _ x => x.ty.oneOf [.b32, .i32, .b64, .i64, .f32, .f64] && x.d < 8#8 && x.c < 8#8
      && rOk x.u x.a && tyOk x.ty x.a && bOk x.u x.ty x.b
      && (!x.ty.isInt || x.cmp < 6#3) && (x.cb &&& 3#3 != 0#3 || (x.cb == 0#3 && x.c == 0#8))
  | .plop _ _ _ d a b c => d < 8#8 && a < 8#8 && b < 8#8 && c < 8#8
  | .p2v _ u d => rOk u d
  | .v2p _ u _ a => rOk u a
  | .shfl _ _ _ _ b => (match b with | .reg _ => true | .uni n => sOk n | .imm8 _ => true | .imm32 _ => false)
  | .vote _ mode _ d a => mode != 3#2 && d < 8#8 && a < 8#8
  | .ballot _ ud _ d a => rOk ud d && a < 8#8
  | .match_ _ ty d a => ty.oneOf [.b32, .b64] && tyOk ty d && tyOk ty a
  | .redux _ ud op ty d _ => rOk ud d && ty.oneOf [.b32, .i32, .f32] && op < (if ty == .f32 then 3#3 else 6#3)
  | .v2s _ sl d _ b => sOk d && (match sl.toNat with | 0 => b < 32#8 | 1 => sOk b | 2 => b == 0#8 | _ => false)
  | .ld _ x => x.load
  | .ldu _ x => x.load && sOk x.d && sOk x.a
  | .st _ x => x.store
  | .pft _ x => x.base false && x.wd == 0#4 && x.cp != 3#2 && x.ord == 0#2 && x.op == 0#4 && x.d == 0#8 && x.b == 0#8
  | .ldw _ x | .ldcn _ x => x.feLoad
  | .stf _ x | .ste _ x => x.feStore
  | .feget _ x => x.base false && x.wd == 4#4 && x.cp == 0#2 && x.ord == 0#2 && x.op == 0#4 && x.b == 0#8
  | .feset _ x => x.base false && x.wd == 4#4 && x.cp == 0#2 && ordRel x.ord && x.op < 2#4 && x.d == 0#8 && x.b == 0#8
  | .atom _ x => x.atomic && wdGroup x.wd x.d
  | .red _ x => x.atomic && ordRel x.ord && x.d == 0#8
  | .cas _ x => x.base true && x.cp == 0#2 && (x.wd == 4#4 || x.wd == 5#4) && x.op < 2#4 && wdGroup x.wd x.d
      && (if x.wd == 4#4 then even8 x.b else quad8 x.b)
  | .cadd _ x => x.base false && x.cp == 0#2 && x.wd == 5#4 && x.op < 2#4 && even8 x.b
      && (if x.op == 1#4 then x.d == 0#8 else even8 x.d)
  | .mst _ x => x.base false && x.feWidth && ordRel x.ord && x.op == 0#4 && wdGroup x.wd x.b && x.d == 0#8
  | .cpy _ x => x.base && x.wd ≥ 7#4 && x.wd ≤ 9#4 && x.op == 0#3 && sPair x.d && sOk x.b
  | .cpyg _ x => x.base && x.wd ≥ 7#4 && x.wd ≤ 9#4 && x.op == 0#3 && x.d == 0#8 && x.b == 0#8
  | .cpyr _ x => x.base && atomTyOk x.wd && x.op < 3#3 && sPair x.d && sOk x.b
  | .wcond _ x => x.d < 4#8 && (match x.kind.toNat with
      | 1 => sPair x.a && sPair x.b && !x.s && x.cls == 0#2
      | 2 => x.a < 16#8 && sOk x.b && !x.s && x.cls == 0#2
      | 3 => x.a == 0#8 && x.b != 0#8 && !x.s && x.cls != 3#2
      | 4 => sPair x.a && x.b == 0#8 && x.cls == 0#2
      | 5 => x.a < 16#8 && sOk x.b && !x.s && x.cls == 0#2
      | _ => false)
  | .wait _ x => x.mask != 0#4 && x.sc != 7#3 && x.d < 8#8 && sOk x.b && (if x.mw then sOk x.c else x.c == 0#8)
  | .bar _ sc la d a c => scBar sc && d < 8#8 && a < 16#8 && (if la then c < 8#8 else c == 0#8)
  | .bara _ sc d a => scBar sc && sOk d && a < 16#8
  | .sig _ imm sc d b => scBar sc && d < 16#8 && (if imm then b != 0#8 else sOk b)
  | .fence _ sc kind mask => sc != 7#3 && kind != 3#2 && mask != 0#16
  | .fencex _ mask => mask != 0#16
  | .fetchb _ sc => sc != 7#3
  | .tfetch _ d c => sOk d && quad8 d && c < 8#8
  | .mstart _ a => sPair a
  | .mstartResume _ | .mstartRetry _ | .mend => true
  | .mtile _ d a => d < 16#8 && sOk a && quad8 a
  | .mtileMemory d _ => d < 16#8
  | .mma _ _ d a b _ => d < 32#8 && a < 16#8 && b < 16#8
  | .mmas d a b c _ => d < 32#8 && a < 16#8 && b < 16#8 && c < 16#8
  | .mzero d n => d < 32#8 && n ≥ 1#8 && n ≤ 32#8
  | .mscale d a m => d < 32#8 && a < 32#8 && (match m with | .scalar _ => true | .row t _ => t < 16#8 | .col t _ => t < 16#8)
  | .mdrain _ mx d a b _ _ => d < 16#8 && a < 32#8 && (if mx then b < 16#8 else b == 0#8)
  | .mldacc d a _ _ => d < 32#8 && a < 16#8
  | .cpyaccRd _ _ a b => a < 32#8 && sOk b
  | .cpyaccWr _ d _ b => d < 32#8 && sOk b
  | .cpyaccSt _ _ d a b => sPair d && a < 32#8 && sOk b
  | .cpyaccLd _ _ d a b => d < 32#8 && sPair a && sOk b
  | .msig sc d v => scBar sc && d < 16#8 && v != 0#8
  | .mwait sc a _ => scBar sc && a < 16#8
  | .mchk a _ _ _ => a < 16#8
  | .rng _ x => x.ty == .b32 && x.plain 1 && x.slot x.d && x.slot x.a && x.c == 0#8
      && (match x.b with | .reg n => !x.u && even8 n | .uni n => sPair n | _ => false)
  | .qpk _ zf _ _ _ | .qunpk _ zf _ _ => zfOk zf
  | .qpkTile _ zf _ sc d a c => zfOk zf && sc != 7#3 && sPair d && sPair a && sOk c
  | .qunpkTile _ zf _ sc _ d a => zfOk zf && sc != 7#3 && sPair d && sPair a
  | .flrd _ src _ d => sOk d && src != 3#2 && (src != 2#2 || d ≤ 123#8)
  | .flclr _ src mask => src < 2#2 && mask != 0#8 && mask < 128#8
  | .moncfg _ d a => d < 8#8 && sOk a && oct8 a
  | .monref _ d a b => d < 8#8 && sOk a && quad8 a && sPair b
  | .monrdC _ d a | .monrdP _ d a => sOk d && oct8 d && a < 8#8
  | .monrdSt _ d a => sOk d && a < 8#8
  | .monclr _ d | .monstp _ d => d < 8#8
  | .trap _ code => code ≥ 0xF0#8
  | .trapKill _ _ => true
  | .bkpt h _ => h.sp
  | .eret _ | .eretx _ => true
  | .ewrd _ kind nw d a => ewOperand kind a && ewNw kind nw && bankField d
  | .ewwr _ kind nw a b => ewOperand kind a && ewNw kind nw && bankField b
  | .trig _ sc n => (sc == 4#3 || sc == 5#3) && n < 16#8
  | .rdsr _ ud num d => srListed num && (!sr64 num || even8 d) && (!ud || (sOk d && num != 0#8))
  | .wrsr _ num a => srWritable num && sOk a && (!sr64 num || even8 a)
  | .grow _ imm d b | .shrink _ imm d b => sOk d && (if imm then b ≥ 1#8 && b ≤ 31#8 else sOk b)
  -- the events of other agents carry no encoding
  | .emulatedEncoding .. | .deliveredCauseEntry .. | .resultArrival .. | .census | .sweepEnd | .remoteParkDelay ..
  | .sideLogReplay .. | .copyRetire .. | .copyAbort .. | .waitRetest .. | .waitTimeout .. | .waitRemotePoll ..
  | .faultServiceRewalk .. | .codeLineFill .. | .matrixPass .. | .sequencerResume .. | .tileCommit .. | .placement ..
  | .timeSliceExpiry .. | .blockRestore .. | .nopPacket .. | .launch .. | .copy .. | .write .. | .signal .. | .waitc ..
  | .waitcTimeout .. | .wsig .. | .fencePacket .. | .tstamp .. | .queueWriteIndex .. | .hostMemRead .. | .hostMemWrite ..
  | .invalidationRequest .. | .preemptQueue .. | .setPowerLimit .. | .destroyContext .. | .keygen .. | .tag .. | .attest ..
  | .registerWrite .. | .pellorRequest .. | .pellorResponse .. | .permitReturn .. | .marker .. | .triggerMessage ..
  | .scanReadout | .reductionAbort .. | .switchChunkTimeout .. | .reset .. | .hbmTrainingComplete | .powerAdjust ..
  | .hbmScrub .. | .stepRequest .. | .queueDescriptorWrite .. | .debuggerResume .. | .badStreamWord .. | .islandPoweredUp ..
  | .podConfiguration .. | .hostPortLinkUp .. => true

end Sys2Proof
end

