-- ==== Sys2Proof/Decode.lean ====
section
/-! DEFINITION. Decoding (R15, R26 to R31, R51 to R55, R61, R235): from a 64-bit word and its extension word to an
instruction, or a refusal by name; then the encoder, written from the same tables. -/
namespace Sys2Proof

/-! ### Fields of a word (R15) -/

/-- The fields of an instruction word, with its extension word (zero when L = 0). -/
structure Raw where
  l     : Bool
  sp    : Bool
  stall : BitVec 3
  hold  : BitVec 2
  gn    : Bool
  gp    : BitVec 3
  opc   : BitVec 8
  d     : BitVec 8
  a     : BitVec 8
  b     : BitVec 8
  c     : BitVec 8
  md    : BitVec 13
  ext   : W64
  deriving DecidableEq, Repr

def rawOf (w ext : W64) : Raw :=
  { l := w.getLsbD 63, sp := w.getLsbD 62, stall := w.extractLsb' 59 3, hold := w.extractLsb' 57 2,
    gn := w.getLsbD 56, gp := w.extractLsb' 53 3, opc := w.extractLsb' 45 8, d := w.extractLsb' 37 8,
    a := w.extractLsb' 29 8, b := w.extractLsb' 21 8, c := w.extractLsb' 13 8, md := w.extractLsb' 0 13,
    ext := if w.getLsbD 63 then ext else 0#64 }

def Raw.hdr (r : Raw) : Hdr := { sp := r.sp, stall := r.stall, hold := r.hold, gn := r.gn, gp := r.gp }

/-- Bit `i` and fields of MOD. -/
def Raw.m (r : Raw) (i : Nat) : Bool := r.md.getLsbD i
def Raw.mf (r : Raw) (lo n : Nat) : BitVec n := r.md.extractLsb' lo n

/-- TY codes (R27). -/
def tyOf : Nat → Option Ty
  | 0 => some .b32 | 1 => some .i32 | 2 => some .b64 | 3 => some .i64 | 4 => some .b16 | 5 => some .i16
  | 6 => some .b8 | 7 => some .i8 | 8 => some .f32 | 9 => some .f64 | 10 => some .f16 | 11 => some .bf16
  | 12 => some .e4m3 | 13 => some .e5m2 | _ => none

/-- RM codes (R28). -/
def rmOf : Nat → Option Rm
  | 0 => some .rn | 1 => some .rz | 2 => some .ru | 3 => some .rd | 4 => some .rs | _ => none

/-- Scope codes (R12). -/
def scopeOf : Nat → Option Scope
  | 0 => some .grp | 1 => some .blk | 2 => some .quad | 3 => some .die | 4 => some .pkg | 5 => some .pod
  | 6 => some .sys | _ => none

/-- Slot B by BF (R26, R29); the L bit must agree with BF = 11. -/
def Raw.bsrc (r : Raw) : Option BSrc :=
  match (r.mf 11 2).toNat with
  | 0 => if r.l then none else some (.reg r.b)
  | 1 => if r.l then none else some (.uni r.b)
  | 2 => if r.l then none else some (.imm8 r.b)
  | _ => if r.l && r.b == 0#8 then some (.imm32 r.ext) else none

/-- The ALU layout (R26). -/
def Raw.alu (r : Raw) : Option Alu := do
  let b ← r.bsrc
  let ty ← tyOf (r.mf 6 4).toNat
  let rm ← rmOf (r.mf 3 3).toNat
  return { u := r.m 10, ty := ty, rm := rm, os := r.mf 0 3, d := r.d, a := r.a, b := b, c := r.c }

/-- CVT and CVTSR (R221). -/
def Raw.cvt (r : Raw) : Option CvtForm := do
  let b ← r.bsrc
  let ty ← tyOf (r.mf 6 4).toNat
  let rm ← rmOf (r.mf 3 3).toNat
  let sty ← tyOf (r.c.extractLsb' 0 4).toNat
  if r.m 2 then none else
  return { u := r.m 10, ty := ty, rm := rm, sat := r.m 0, mg := r.m 1, de := r.c.extractLsb' 6 2,
           se := r.c.extractLsb' 4 2, sty := sty, d := r.d, a := r.a, b := b }

/-- SETP (R115). -/
def Raw.setp (r : Raw) : Option SetpForm := do
  let b ← r.bsrc
  let ty ← tyOf (r.mf 6 4).toNat
  return { u := r.m 10, ty := ty, cmp := r.mf 3 3, cb := r.mf 0 3, d := r.d, a := r.a, b := b, c := r.c }

/-- The extension word by L and PL (R59, R128): PL = 1 needs L = 1. -/
def Raw.memExt (r : Raw) (pl : Bool) : Option MemExt :=
  if r.l then some (if pl then .place r.ext else .off r.ext) else if pl then none else some .none

/-- The memory layout (R30), with OP taken from bits 6:3 of field C, PL from bit 2 and ORD from bits 1:0. -/
def Raw.mem (r : Raw) : Option MemForm := do
  let e ← r.memExt (r.c.getLsbD 2)
  if r.c.getLsbD 7 then none else
  return { sid := r.mf 9 4, sc := r.mf 6 3, cp := r.mf 4 2, wd := r.mf 0 4, ord := r.c.extractLsb' 0 2,
           op := r.c.extractLsb' 3 4, ext := e, d := r.d, a := r.a, b := r.b }

/-- CPY, CPYG and CPYR (R164 to R166): L and CT agree. -/
def Raw.copy (r : Raw) : Option CopyForm :=
  if r.l != r.c.getLsbD 0 || r.c.extractLsb' 4 4 != 0#4 then none
  else some { sid := r.mf 9 4, sc := r.mf 6 3, cp := r.mf 4 2, wd := r.mf 0 4, op := r.c.extractLsb' 1 3,
              ctr := if r.l then some r.ext else none, d := r.d, a := r.a, b := r.b }

/-- XR, XK, XB and XN of an extension word (R264). -/
def matExt (w : W64) : MatExt :=
  { xr := w.extractLsb' 52 12, xk := w.extractLsb' 40 12, xb := w.extractLsb' 28 12, xn := w.extractLsb' 20 8 }

/-! ### Decode -/

/-- Why an encoding does not execute (R54). -/
inductive Reject where
  | retired       -- 0xF0 to 0xFF: cause 0x82
  | unassigned    -- cause 0x80
  | disabled      -- cause 0x81
  | reservedForm  -- cause 0x84
  deriving DecidableEq, Repr

def Reject.cause : Reject → BitVec 8
  | .retired => 0x82#8
  | .unassigned => 0x80#8
  | .disabled => 0x81#8
  | .reservedForm => 0x84#8

/-- What decode takes from the group: its context's two maps (R53) and whether it is in handler mode. -/
structure DecodeEnv where
  disable  : BitVec 256
  emuClass : BitVec 256
  handler  : Bool
  deriving DecidableEq, Repr

def DecodeEnv.plain : DecodeEnv := { disable := 0, emuClass := 0, handler := false }

/-- The assigned opcodes of R51. -/
def assigned (opc : Nat) : Bool :=
  opc ≤ 0x08 || (0x10 ≤ opc && opc ≤ 0x19) || (0x20 ≤ opc && opc ≤ 0x2E) || (0x30 ≤ opc && opc ≤ 0x33)
    || (0x40 ≤ opc && opc ≤ 0x4E) || (0x50 ≤ opc && opc ≤ 0x54) || (0x58 ≤ opc && opc ≤ 0x5A)
    || opc == 0x60 || opc == 0x61 || (0x70 ≤ opc && opc ≤ 0x79) || (0x80 ≤ opc && opc ≤ 0x89)
    || (0x90 ≤ opc && opc ≤ 0x97) || (0xA0 ≤ opc && opc ≤ 0xA8) || (0xB0 ≤ opc && opc ≤ 0xBC)
    || (0xD0 ≤ opc && opc ≤ 0xD4) || (0xD8 ≤ opc && opc ≤ 0xDC) || (0xE0 ≤ opc && opc ≤ 0xE6)
    || (0xE8 ≤ opc && opc ≤ 0xEB)

/-- Opcodes whose disable bit is ignored (R53). -/
def neverDisabled (opc : Nat) : Bool := opc ≤ 0x01 || (0xE0 ≤ opc && opc ≤ 0xE5) || opc == 0xE8

/-- Opcodes of uniform class whatever MOD holds (R52). -/
def uniformOpc (opc : Nat) : Bool :=
  opc == 0x08 || opc == 0x82 || (0x95 ≤ opc && opc ≤ 0x97) || (0xA0 ≤ opc && opc ≤ 0xA8)
    || (0xB0 ≤ opc && opc ≤ 0xBC) || opc == 0xD3 || opc == 0xD4 || (0xD8 ≤ opc && opc ≤ 0xDC)
    || (0xE1 ≤ opc && opc ≤ 0xE3) || opc == 0xE6 || opc == 0xEA || opc == 0xEB

/-- Opcodes with a U bit at MOD bit 10 (R26, R97). -/
def hasU (opc : Nat) : Bool := (0x10 ≤ opc && opc ≤ 0x6F) || opc == 0xD0 || (0x70 ≤ opc && opc ≤ 0x73)

/-- The guard class of an encoding (R52, R53): `true` is uniform. -/
def guardUniform (env : DecodeEnv) (r : Raw) : Bool :=
  if assigned r.opc.toNat then uniformOpc r.opc.toNat || (hasU r.opc.toNat && r.m 10)
  else env.emuClass.getLsbD r.opc.toNat

/-- Everything a form may not use is zero (R17, R31), and L = 0. -/
def Raw.only (r : Raw) (zeros : List (BitVec 8)) (mod : Bool) : Bool := !r.l && mod && zeros.all (· == 0#8)

/-- The typed instruction of an assigned opcode, before its well-formedness is tested; `none` where a field that
the form does not use is not zero, or a code is reserved. -/
def parseCode (r : Raw) : Option Instr :=
  let h := r.hdr
  let alu (k : Hdr → Alu → Instr) : Option Instr := r.alu.map (k h)
  let mem (k : Hdr → MemForm → Instr) : Option Instr := r.mem.map (k h)
  let cp (k : Hdr → CopyForm → Instr) : Option Instr := r.copy.map (k h)
  let ok (c : Bool) (i : Instr) : Option Instr := if c then some i else none
  let modZ := r.md == 0#13
  match r.opc.toNat with
  | 0x00 => ok (r.only [r.d, r.a, r.b, r.c] modZ) (.nop h)
  | 0x02 => ok (r.only [r.b, r.c] modZ) (.want h (r.d ++ r.a))
  | 0x03 => ok (r.only [r.d, r.b, r.c] modZ) (.wantv h r.a)
  | 0x04 => ok (r.only [r.c] modZ) (.call h (r.d ++ r.b) r.a)
  | 0x05 => ok (r.only [r.c] modZ) (.callv h (r.d ++ r.b) r.a)
  | 0x06 => ok (r.only [r.d, r.a, r.b, r.c] modZ) (.ret h)
  | 0x07 => ok (r.only [r.d, r.a, r.b, r.c] modZ) (.exit h)
  | 0x08 => ok (r.only [r.d, r.a, r.b, r.c] (r.mf 8 5 == 0#5)) (.yield h (r.mf 0 8))
  | 0x10 => alu .iadd
  | 0x11 => alu .isub
  | 0x12 => alu .imul
  | 0x13 => alu .imulh
  | 0x14 => alu .imad
  | 0x15 => alu .imadw
  | 0x16 => alu .imin
  | 0x17 => alu .imax
  | 0x18 => alu .iabs
  | 0x19 => alu .ineg
  | 0x20 => alu .and
  | 0x21 => alu .or
  | 0x22 => alu .xor
  | 0x23 => alu .andn
  | 0x24 => alu .not
  | 0x25 => alu .shl
  | 0x26 => alu .shr
  | 0x27 => alu .sar
  | 0x28 => alu .rotl
  | 0x29 => alu .clz
  | 0x2A => alu .ctz
  | 0x2B => alu .popc
  | 0x2C => alu .brev
  | 0x2D => alu .bfx
  | 0x2E => alu .bfi
  | 0x30 => alu .lea
  | 0x31 => alu .sel
  | 0x32 => alu .mov
  | 0x33 => alu .movi
  | 0x40 => alu .fadd
  | 0x41 => alu .fsub
  | 0x42 => alu .fmul
  | 0x43 => alu .ffma
  | 0x44 => alu .fmin
  | 0x45 => alu .fmax
  | 0x46 => alu .frnd
  | 0x47 => alu .fcls
  | 0x48 => alu .frcp
  | 0x49 => alu .frsq
  | 0x4A => alu .fsqrt
  | 0x4B => alu .fex2
  | 0x4C => alu .flg2
  | 0x4D => alu .fsin
  | 0x4E => alu .fcos
  | 0x50 => alu .dadd
  | 0x51 => alu .dmul
  | 0x52 => alu .dfma
  | 0x53 => alu .dmin
  | 0x54 => alu .dmax
  | 0x58 => alu .hadd2
  | 0x59 => alu .hmul2
  | 0x5A => alu .hfma2
  | 0x60 => r.cvt.map (.cvt h)
  | 0x61 => r.cvt.map (.cvtsr h)
  | 0x70 => r.setp.map (.setp h)
  | 0x71 => ok (!r.l && r.mf 11 2 == 0#2 && r.mf 8 2 == 0#2) (.plop h (r.m 10) (r.mf 0 8) r.d r.a r.b r.c)
  | 0x72 => ok (r.only [r.a, r.b, r.c] (r.mf 11 2 == 0#2 && r.mf 0 10 == 0#10)) (.p2v h (r.m 10) r.d)
  | 0x73 => ok (r.only [r.d, r.b, r.c] (r.mf 11 2 == 0#2 && r.mf 7 3 == 0#3)) (.v2p h (r.m 10) (r.mf 0 7) r.a)
  | 0x74 => match r.bsrc with
    | some b => ok (!r.l && r.c == 0#8 && r.mf 2 9 == 0#9) (.shfl h (r.mf 0 2) r.d r.a b)
    | none => none
  | 0x75 => ok (r.only [r.b, r.c] (r.mf 3 10 == 0#10)) (.vote h (r.mf 0 2) (r.m 2) r.d r.a)
  | 0x76 => ok (r.only [r.b, r.c] (r.mf 11 2 == 0#2 && r.mf 3 7 == 0#7 && r.mf 0 2 == 0#2)) (.ballot h (r.m 10) (r.m 2) r.d r.a)
  | 0x77 => match tyOf (r.mf 6 4).toNat with
    | some ty => ok (r.only [r.b, r.c] (r.mf 10 3 == 0#3 && r.mf 0 6 == 0#6)) (.match_ h ty r.d r.a)
    | none => none
  | 0x78 => match tyOf (r.mf 6 4).toNat with
    | some ty => ok (r.only [r.b, r.c] (r.mf 11 2 == 0#2 && r.mf 3 3 == 0#3)) (.redux h (r.m 10) (r.mf 0 3) ty r.d r.a)
    | none => none
  | 0x79 => ok (r.only [r.c] (r.mf 2 11 == 0#11)) (.v2s h (r.mf 0 2) r.d r.a r.b)
  | 0x80 => mem .ld
  | 0x81 => mem .st
  | 0x82 => mem .ldu
  | 0x83 => mem .pft
  | 0x84 => mem .ldw
  | 0x85 => mem .ldcn
  | 0x86 => mem .stf
  | 0x87 => mem .ste
  | 0x88 => mem .feget
  | 0x89 => mem .feset
  | 0x90 => mem .atom
  | 0x91 => mem .red
  | 0x92 => mem .cas
  | 0x93 => mem .cadd
  | 0x94 => mem .mst
  | 0x95 => cp .cpy
  | 0x96 => cp .cpyg
  | 0x97 => cp .cpyr
  | 0xA0 => ok (r.only [r.c] (r.mf 6 7 == 0#7))
      (.wcond h { kind := r.mf 0 3, s := r.m 3, cls := r.mf 4 2, d := r.d, a := r.a, b := r.b })
  | 0xA1 => ok (r.only [r.a] (r.mf 9 4 == 0#4))
      (.wait h { mask := r.mf 0 4, any := r.m 4, mw := r.m 5, sc := r.mf 6 3, d := r.d, b := r.b, c := r.c })
  | 0xA2 => ok (r.only [r.b] (r.mf 9 4 == 0#4 && r.mf 4 2 == 0#2 && r.mf 0 3 == 0#3))
      (.bar h (r.mf 6 3) (r.m 3) r.d r.a r.c)
  | 0xA3 => ok (r.only [r.b, r.c] (r.mf 9 4 == 0#4 && r.mf 0 6 == 0#6)) (.bara h (r.mf 6 3) r.d r.a)
  | 0xA4 => ok (r.only [r.a, r.c] (r.mf 9 2 == 0#2 && r.mf 0 6 == 0#6 && (r.mf 11 2 == 1#2 || r.mf 11 2 == 2#2)))
      (.sig h (r.mf 11 2 == 2#2) (r.mf 6 3) r.d r.b)
  | 0xA5 => ok (r.only [r.d, r.a] (r.mf 9 4 == 0#4 && r.mf 0 4 == 0#4)) (.fence h (r.mf 6 3) (r.mf 4 2) (r.c ++ r.b))
  | 0xA6 => ok (r.only [r.d, r.a] modZ) (.fencex h (r.c ++ r.b))
  | 0xA7 => ok (r.only [r.d, r.a, r.b, r.c] (r.mf 9 4 == 0#4 && r.mf 0 6 == 0#6)) (.fetchb h (r.mf 6 3))
  | 0xA8 => ok (r.only [r.a, r.b] modZ) (.tfetch h r.d r.c)
  | 0xB0 => match r.md.toNat with
    | 0 => ok (r.only [r.d, r.b, r.c] true) (.mstart h r.a)
    | 1 => ok (r.only [r.d, r.a, r.b, r.c] true) (.mstartResume h)
    | 2 => ok (r.only [r.d, r.a, r.b, r.c] true) (.mstartRetry h)
    | _ => none
  | 0xB2 => ok (r.only [r.b, r.c] modZ) (.mtile h r.d r.a)
  | 0xB9 => match (r.mf 0 2).toNat with
    | 0 => ok (r.only [r.c] (r.mf 2 11 == 0#11)) (.cpyaccRd h r.d r.a r.b)
    | 1 => ok (r.only [r.c] (r.mf 2 11 == 0#11)) (.cpyaccWr h r.d r.a r.b)
    | 2 => ok (r.only [r.c] (r.mf 2 7 == 0#7)) (.cpyaccSt h (r.mf 9 4) r.d r.a r.b)
    | _ => ok (r.only [r.c] (r.mf 2 7 == 0#7)) (.cpyaccLd h (r.mf 9 4) r.d r.a r.b)
  | 0xD0 => alu .rng
  | 0xD1 =>
    if r.m 5 then ok (r.only [r.b] (r.mf 3 2 == 0#2)) (.qpkTile h (r.mf 0 3) (r.mf 9 4) (r.mf 6 3) r.d r.a r.c)
    else ok (r.only [r.b] (r.mf 3 10 == 0#10)) (.qpk h (r.mf 0 3) r.d r.a r.c)
  | 0xD2 =>
    if r.m 5 then ok (r.only [r.b, r.c] (r.mf 3 1 == 0#1)) (.qunpkTile h (r.mf 0 3) (r.mf 9 4) (r.mf 6 3) (r.m 4) r.d r.a)
    else ok (r.only [r.b, r.c] (r.mf 3 10 == 0#10)) (.qunpk h (r.mf 0 3) r.d r.a)
  | 0xD3 => ok (r.only [r.a, r.b, r.c] (r.mf 3 10 == 0#10)) (.flrd h (r.mf 0 2) (r.m 2) r.d)
  | 0xD4 => ok (r.only [r.d, r.a, r.c] (r.mf 2 11 == 0#11)) (.flclr h (r.mf 0 2) r.b)
  | 0xD8 => ok (r.only [r.b, r.c] modZ) (.moncfg h r.d r.a)
  | 0xD9 => ok (r.only [r.c] modZ) (.monref h r.d r.a r.b)
  | 0xDA => match r.md.toNat with
    | 0 => ok (r.only [r.b, r.c] true) (.monrdC h r.d r.a)
    | 1 => ok (r.only [r.b, r.c] true) (.monrdP h r.d r.a)
    | 2 => ok (r.only [r.b, r.c] true) (.monrdSt h r.d r.a)
    | _ => none
  | 0xDB => ok (r.only [r.a, r.b, r.c] modZ) (.monclr h r.d)
  | 0xDC => ok (r.only [r.a, r.b, r.c] modZ) (.monstp h r.d)
  | 0xE0 => if r.m 0 then ok (r.only [r.d, r.a, r.c] (r.mf 1 12 == 0#12)) (.trapKill h r.b)
    else ok (r.only [r.d, r.a, r.c] modZ) (.trap h r.b)
  | 0xE1 => ok (r.only [r.d, r.a, r.c] modZ) (.bkpt h r.b)
  | 0xE2 => ok (r.only [r.d, r.a, r.b, r.c] modZ) (.eret h)
  | 0xE3 => ok (r.only [r.d, r.a, r.b, r.c] modZ) (.eretx h)
  | 0xE4 => ok (r.only [r.b, r.c] (r.mf 6 7 == 0#7)) (.ewrd h (r.mf 0 4) (r.mf 4 2) r.d r.a)
  | 0xE5 => ok (r.only [r.d, r.c] (r.mf 6 7 == 0#7)) (.ewwr h (r.mf 0 4) (r.mf 4 2) r.a r.b)
  | 0xE6 => ok (r.only [r.d, r.a, r.c] (r.mf 9 4 == 0#4 && r.mf 0 6 == 0#6)) (.trig h (r.mf 6 3) r.b)
  | 0xE8 => ok (r.only [r.a, r.b, r.c] (r.mf 11 2 == 0#2 && r.mf 8 2 == 0#2)) (.rdsr h (r.m 10) (r.mf 0 8) r.d)
  | 0xE9 => ok (r.only [r.d, r.b, r.c] (r.mf 8 5 == 0#5)) (.wrsr h (r.mf 0 8) r.a)
  | 0xEA => ok (r.only [r.a, r.c] (r.mf 0 11 == 0#11 && (r.mf 11 2 == 1#2 || r.mf 11 2 == 2#2)))
      (.grow h (r.mf 11 2 == 2#2) r.d r.b)
  | 0xEB => ok (r.only [r.a, r.c] (r.mf 0 11 == 0#11 && (r.mf 11 2 == 1#2 || r.mf 11 2 == 2#2)))
      (.shrink h (r.mf 11 2 == 2#2) r.d r.b)
  | _ => none

/-- Forms reserved by the level the group runs at (R91, R291, R301): calls, waits on words and barriers in handler
mode, and the handler's own instructions outside it. -/
def modeOk (handler : Bool) : Instr → Bool
  | .call .. | .callv .. | .ldw .. | .ldcn .. | .stf .. | .bar .. | .bara .. => !handler
  | .eret .. | .eretx .. | .ewrd .. | .ewwr .. => handler
  | _ => true

/-- Decode a word that stands in a block (R54): the first condition that holds decides. A BLK word inside a block is
a reserved modifier form (R61). -/
def decodeWord (env : DecodeEnv) (w ext : W64) : Except Reject Instr :=
  let r := rawOf w ext
  let opc := r.opc.toNat
  if opc ≥ 0xF0 then .error .retired
  else if !assigned opc then .error .unassigned
  else if env.disable.getLsbD opc && !neverDisabled opc then .error .disabled
  else match parseCode r with
    | some i => if i.wf && modeOk env.handler i then .ok i else .error .reservedForm
    | none => .error .reservedForm

/-- Every word settles to an instruction: one that does not execute becomes the step that enters the emulation
handler (R13, R54). A BLK word acts on all of Active, whatever its guard field holds (R61), and so does a reserved form of NOP,
whose guard has no effect (R25, R55). -/
def settle (env : DecodeEnv) (w ext : W64) : Instr :=
  match decodeWord env w ext with
  | .ok i => i
  | .error e =>
    let r := rawOf w ext
    let h := if r.opc.toNat ≤ 1 then { r.hdr with gn := false, gp := 7#3 } else r.hdr
    .emulatedEncoding h e.cause w r.ext r.l (guardUniform env r)

/-- A header word (R61): `none` when it is no BLK or a malformed one. -/
def decodeHeader (w : W64) : Option Instr :=
  let r := rawOf w 0
  if r.opc == 1#8 && !r.l && !r.sp && r.hold == 0#2 && !r.gn && r.gp == 7#3 && r.b == 0#8 && r.c == 0#8
      && (r.d ++ r.a : W16) < 0xFFFE#16 then
    some (.blk r.stall (r.d ++ r.a) (r.m 12) (r.mf 0 12))
  else none

/-- The typed instruction of a stream word (R236, R264). -/
def parseStream (r : Raw) : Option Instr :=
  let x := matExt r.ext
  let ok (c : Bool) (i : Instr) : Option Instr := if c then some i else none
  let z := fun (l : List (BitVec 8)) => l.all (· == 0#8)
  match r.opc.toNat with
  | 0xB1 => ok (r.only [r.d, r.a, r.b, r.c] (r.md == 0#13)) .mend
  | 0xB2 => ok (r.l && z [r.a, r.b, r.c] && r.md == 1#13) (.mtileMemory r.d r.ext)
  | 0xB3 => ok (r.l && r.c == 0#8 && r.mf 2 11 == 0#11 && r.ext.extractLsb' 0 20 == 0#20)
      (.mma (r.m 0) (r.m 1) r.d r.a r.b x)
  | 0xB4 => ok (r.l && r.md == 0#13 && r.ext.extractLsb' 0 20 == 0#20) (.mmas r.d r.a r.b r.c x)
  | 0xB5 => ok (r.only [r.a, r.c] (r.md == 0#13)) (.mzero r.d r.b)
  | 0xB6 => match r.md.toNat with
    | 0 => ok (r.l && z [r.b, r.c] && r.ext.extractLsb' 32 32 == 0#32) (.mscale r.d r.a (.scalar (r.ext.extractLsb' 0 32)))
    | 1 => ok (r.l && r.c == 0#8 && r.ext.extractLsb' 12 52 == 0#52) (.mscale r.d r.a (.row r.b (r.ext.extractLsb' 0 12)))
    | 2 => ok (r.l && r.c == 0#8 && r.ext.extractLsb' 12 52 == 0#52) (.mscale r.d r.a (.col r.b (r.ext.extractLsb' 0 12)))
    | _ => none
  | 0xB7 => ok (r.l && r.c == 0#8 && r.mf 2 11 == 0#11 && r.ext.extractLsb' 0 40 == 0#40)
      (.mdrain (r.m 0) (r.m 1) r.d r.a r.b x.xr x.xk)
  | 0xB8 => ok (r.l && z [r.b, r.c] && r.md == 0#13 && r.ext.extractLsb' 0 40 == 0#40) (.mldacc r.d r.a x.xr x.xk)
  | 0xBA => ok (r.only [r.a, r.c] (r.mf 9 4 == 0#4 && r.mf 0 6 == 0#6)) (.msig (r.mf 6 3) r.d r.b)
  | 0xBB => ok (r.l && z [r.d, r.b, r.c] && r.mf 9 4 == 0#4 && r.mf 0 6 == 0#6 && r.ext.extractLsb' 32 32 == 0#32)
      (.mwait (r.mf 6 3) r.a (r.ext.extractLsb' 0 32))
  | 0xBC => ok (r.l && z [r.d, r.b, r.c] && r.md == 0#13 && x.xb == 0#12 && r.ext.extractLsb' 0 20 == 0#20)
      (.mchk r.a x.xr x.xk x.xn)
  | _ => none

/-- Decode a matrix-stream word (R235): GN = 0, GP = 7, STALL, HOLD and SP zero; `none` is cause 0x41. -/
def decodeStream (w ext : W64) : Option Instr :=
  let r := rawOf w ext
  if !r.sp && r.stall == 0#3 && r.hold == 0#2 && !r.gn && r.gp == 7#3 then
    match parseStream r with
    | some i => if i.wf then some i else none
    | none => none
  else none

/-! ### Bytes (R14): words are little-endian -/

/-- The number whose bytes, least significant first, are the list. -/
def natOfBytes : List Byte → Nat
  | [] => 0
  | b :: t => b.toNat + 256 * natOfBytes t

/-- The `n` bytes of a number, least significant first. -/
def bytesOfNat : Nat → Nat → List Byte
  | 0, _ => []
  | n + 1, x => BitVec.ofNat 8 x :: bytesOfNat n (x / 256)

/-- Read one instruction from a list of bytes: the instruction and the bytes after it; `none` when they run out. -/
def decodeBytes (env : DecodeEnv) (bs : List Byte) : Option (Except Reject Instr × List Byte) :=
  if bs.length < 8 then none else
  let w : W64 := BitVec.ofNat 64 (natOfBytes (bs.take 8))
  if w.getLsbD 63 then
    if bs.length < 16 then none
    else some (decodeWord env w (BitVec.ofNat 64 (natOfBytes ((bs.drop 8).take 8))), bs.drop 16)
  else some (decodeWord env w 0, bs.drop 8)

/-- The instruction the decoder reads from a word numbered as spec/opcode_table.json numbers it: bit 0 is the least
significant bit of the first word and the extension word's bits count on from 64. A header, a handler-mode form and a
stream form are each read as where they stand. -/
def decodeTableWord (nbits w : Nat) : Option Instr :=
  let w := w % 2 ^ nbits
  let bs := bytesOfNat 16 w
  let word : W64 := BitVec.ofNat 64 (natOfBytes (bs.take 8))
  let ext : W64 := BitVec.ofNat 64 (natOfBytes (bs.drop 8))
  match decodeBytes .plain bs with
  | some (.ok i, _) => some i
  | _ =>
    match decodeWord { DecodeEnv.plain with handler := true } word ext with
    | .ok i => some i
    | .error _ => (decodeHeader word).or (decodeStream word ext)

/-! ### The encoder -/

/-- A word from its fields, most significant first (R15). -/
def pack (l : Bool) (h : Hdr) (opc d a b c : BitVec 8) (md : BitVec 13) : W64 :=
  (BitVec.ofBool l ++ BitVec.ofBool h.sp ++ h.stall ++ h.hold ++ BitVec.ofBool h.gn ++ h.gp ++ opc ++ d ++ a ++ b ++ c ++ md
    : BitVec (1 + 1 + 3 + 2 + 1 + 3 + 8 + 8 + 8 + 8 + 8 + 13))

/-- The header fields of a stream word (R235). -/
def Hdr.plain : Hdr := { sp := false, stall := 0, hold := 0, gn := false, gp := 7#3 }

def Ty.code : Ty → BitVec 4
  | .b32 => 0 | .i32 => 1 | .b64 => 2 | .i64 => 3 | .b16 => 4 | .i16 => 5 | .b8 => 6 | .i8 => 7
  | .f32 => 8 | .f64 => 9 | .f16 => 10 | .bf16 => 11 | .e4m3 => 12 | .e5m2 => 13

def Rm.code : Rm → BitVec 3
  | .rn => 0 | .rz => 1 | .ru => 2 | .rd => 3 | .rs => 4

def BSrc.bf : BSrc → BitVec 2
  | .reg _ => 0 | .uni _ => 1 | .imm8 _ => 2 | .imm32 _ => 3
def BSrc.field : BSrc → BitVec 8
  | .reg n => n | .uni n => n | .imm8 n => n | .imm32 _ => 0
def BSrc.ext : BSrc → Option W64
  | .imm32 w => some w
  | _ => none

abbrev Words := W64 × Option W64

def encAlu (opc : BitVec 8) (h : Hdr) (x : Alu) : Words :=
  (pack x.b.ext.isSome h opc x.d x.a x.b.field x.c
    (x.b.bf ++ BitVec.ofBool x.u ++ x.ty.code ++ x.rm.code ++ x.os : BitVec (2 + 1 + 4 + 3 + 3)), x.b.ext)

def encCvt (opc : BitVec 8) (h : Hdr) (x : CvtForm) : Words :=
  (pack x.b.ext.isSome h opc x.d x.a x.b.field (x.de ++ x.se ++ x.sty.code : BitVec (2 + 2 + 4))
    (x.b.bf ++ BitVec.ofBool x.u ++ x.ty.code ++ x.rm.code ++ 0#1 ++ BitVec.ofBool x.mg ++ BitVec.ofBool x.sat
      : BitVec (2 + 1 + 4 + 3 + 1 + 1 + 1)), x.b.ext)

def MemExt.word : MemExt → Option W64
  | .none => Option.none
  | .off w => some w
  | .place w => some w
def MemExt.pl : MemExt → Bool
  | .place _ => true
  | _ => false

def encMem (opc : BitVec 8) (h : Hdr) (x : MemForm) : Words :=
  (pack x.ext.word.isSome h opc x.d x.a x.b (0#1 ++ x.op ++ BitVec.ofBool x.ext.pl ++ x.ord : BitVec (1 + 4 + 1 + 2))
    (x.sid ++ x.sc ++ x.cp ++ x.wd : BitVec (4 + 3 + 2 + 4)), x.ext.word)

def encCopy (opc : BitVec 8) (h : Hdr) (x : CopyForm) : Words :=
  (pack x.ctr.isSome h opc x.d x.a x.b (0#4 ++ x.op ++ BitVec.ofBool x.ctr.isSome : BitVec (4 + 3 + 1))
    (x.sid ++ x.sc ++ x.cp ++ x.wd : BitVec (4 + 3 + 2 + 4)), x.ctr)

def MatExt.word (x : MatExt) : W64 := (x.xr ++ x.xk ++ x.xb ++ x.xn ++ 0#20 : BitVec (12 + 12 + 12 + 8 + 20))

/-- A word with no extension. -/
def enc0 (opc : BitVec 8) (h : Hdr) (d a b c : BitVec 8) (md : BitVec 13) : Words := (pack false h opc d a b c md, none)
/-- A stream word with an extension. -/
def encX (opc : BitVec 8) (d a b c : BitVec 8) (md : BitVec 13) (x : W64) : Words := (pack true .plain opc d a b c md, some x)

def hi8 (x : W16) : BitVec 8 := x.extractLsb' 8 8
def lo8 (x : W16) : BitVec 8 := x.extractLsb' 0 8
/-- SC at MOD bits 8:6 over a 6-bit low part. -/
def modSc (sc : BitVec 3) (lo : BitVec 6) : BitVec 13 := (0#4 ++ sc ++ lo : BitVec (4 + 3 + 6))

/-- The words of an instruction; `none` for the steps of other agents, which have no encoding. -/
def encode : Instr → Option Words
  | .nop h => some (enc0 0x00 h 0 0 0 0 0)
  | .blk stall label ft len => some (enc0 0x01 { Hdr.plain with stall := stall } (hi8 label) (lo8 label) 0 0
      (BitVec.ofBool ft ++ len : BitVec (1 + 12)))
  | .want h label => some (enc0 0x02 h (hi8 label) (lo8 label) 0 0 0)
  | .wantv h a => some (enc0 0x03 h 0 a 0 0 0)
  | .call h e a => some (enc0 0x04 h (hi8 e) a (lo8 e) 0 0)
  | .callv h e a => some (enc0 0x05 h (hi8 e) a (lo8 e) 0 0)
  | .ret h => some (enc0 0x06 h 0 0 0 0 0)
  | .exit h => some (enc0 0x07 h 0 0 0 0 0)
  | .yield h n => some (enc0 0x08 h 0 0 0 0 (n.setWidth 13))
  | .iadd h x => some (encAlu 0x10 h x)
  | .isub h x => some (encAlu 0x11 h x)
  | .imul h x => some (encAlu 0x12 h x)
  | .imulh h x => some (encAlu 0x13 h x)
  | .imad h x => some (encAlu 0x14 h x)
  | .imadw h x => some (encAlu 0x15 h x)
  | .imin h x => some (encAlu 0x16 h x)
  | .imax h x => some (encAlu 0x17 h x)
  | .iabs h x => some (encAlu 0x18 h x)
  | .ineg h x => some (encAlu 0x19 h x)
  | .and h x => some (encAlu 0x20 h x)
  | .or h x => some (encAlu 0x21 h x)
  | .xor h x => some (encAlu 0x22 h x)
  | .andn h x => some (encAlu 0x23 h x)
  | .not h x => some (encAlu 0x24 h x)
  | .shl h x => some (encAlu 0x25 h x)
  | .shr h x => some (encAlu 0x26 h x)
  | .sar h x => some (encAlu 0x27 h x)
  | .rotl h x => some (encAlu 0x28 h x)
  | .clz h x => some (encAlu 0x29 h x)
  | .ctz h x => some (encAlu 0x2A h x)
  | .popc h x => some (encAlu 0x2B h x)
  | .brev h x => some (encAlu 0x2C h x)
  | .bfx h x => some (encAlu 0x2D h x)
  | .bfi h x => some (encAlu 0x2E h x)
  | .lea h x => some (encAlu 0x30 h x)
  | .sel h x => some (encAlu 0x31 h x)
  | .mov h x => some (encAlu 0x32 h x)
  | .movi h x => some (encAlu 0x33 h x)
  | .fadd h x => some (encAlu 0x40 h x)
  | .fsub h x => some (encAlu 0x41 h x)
  | .fmul h x => some (encAlu 0x42 h x)
  | .ffma h x => some (encAlu 0x43 h x)
  | .fmin h x => some (encAlu 0x44 h x)
  | .fmax h x => some (encAlu 0x45 h x)
  | .frnd h x => some (encAlu 0x46 h x)
  | .fcls h x => some (encAlu 0x47 h x)
  | .frcp h x => some (encAlu 0x48 h x)
  | .frsq h x => some (encAlu 0x49 h x)
  | .fsqrt h x => some (encAlu 0x4A h x)
  | .fex2 h x => some (encAlu 0x4B h x)
  | .flg2 h x => some (encAlu 0x4C h x)
  | .fsin h x => some (encAlu 0x4D h x)
  | .fcos h x => some (encAlu 0x4E h x)
  | .dadd h x => some (encAlu 0x50 h x)
  | .dmul h x => some (encAlu 0x51 h x)
  | .dfma h x => some (encAlu 0x52 h x)
  | .dmin h x => some (encAlu 0x53 h x)
  | .dmax h x => some (encAlu 0x54 h x)
  | .hadd2 h x => some (encAlu 0x58 h x)
  | .hmul2 h x => some (encAlu 0x59 h x)
  | .hfma2 h x => some (encAlu 0x5A h x)
  | .cvt h x => some (encCvt 0x60 h x)
  | .cvtsr h x => some (encCvt 0x61 h x)
  | .setp h x => some (pack x.b.ext.isSome h 0x70 x.d x.a x.b.field x.c
      (x.b.bf ++ BitVec.ofBool x.u ++ x.ty.code ++ x.cmp ++ x.cb : BitVec (2 + 1 + 4 + 3 + 3)), x.b.ext)
  | .plop h u lut d a b c => some (enc0 0x71 h d a b c (0#2 ++ BitVec.ofBool u ++ 0#2 ++ lut : BitVec (2 + 1 + 2 + 8)))
  | .p2v h u d => some (enc0 0x72 h d 0 0 0 (0#2 ++ BitVec.ofBool u ++ 0#10 : BitVec (2 + 1 + 10)))
  | .v2p h u mask a => some (enc0 0x73 h 0 a 0 0 (0#2 ++ BitVec.ofBool u ++ 0#3 ++ mask : BitVec (2 + 1 + 3 + 7)))
  | .shfl h mode d a b => some (enc0 0x74 h d a b.field 0 (b.bf ++ 0#9 ++ mode : BitVec (2 + 9 + 2)))
  | .vote h mode ng d a => some (enc0 0x75 h d a 0 0 (0#10 ++ BitVec.ofBool ng ++ mode : BitVec (10 + 1 + 2)))
  | .ballot h ud ng d a => some (enc0 0x76 h d a 0 0
      (0#2 ++ BitVec.ofBool ud ++ 0#7 ++ BitVec.ofBool ng ++ 0#2 : BitVec (2 + 1 + 7 + 1 + 2)))
  | .match_ h ty d a => some (enc0 0x77 h d a 0 0 (0#3 ++ ty.code ++ 0#6 : BitVec (3 + 4 + 6)))
  | .redux h ud op ty d a => some (enc0 0x78 h d a 0 0
      (0#2 ++ BitVec.ofBool ud ++ ty.code ++ 0#3 ++ op : BitVec (2 + 1 + 4 + 3 + 3)))
  | .v2s h sl d a b => some (enc0 0x79 h d a b 0 (sl.setWidth 13))
  | .ld h x => some (encMem 0x80 h x)
  | .st h x => some (encMem 0x81 h x)
  | .ldu h x => some (encMem 0x82 h x)
  | .pft h x => some (encMem 0x83 h x)
  | .ldw h x => some (encMem 0x84 h x)
  | .ldcn h x => some (encMem 0x85 h x)
  | .stf h x => some (encMem 0x86 h x)
  | .ste h x => some (encMem 0x87 h x)
  | .feget h x => some (encMem 0x88 h x)
  | .feset h x => some (encMem 0x89 h x)
  | .atom h x => some (encMem 0x90 h x)
  | .red h x => some (encMem 0x91 h x)
  | .cas h x => some (encMem 0x92 h x)
  | .cadd h x => some (encMem 0x93 h x)
  | .mst h x => some (encMem 0x94 h x)
  | .cpy h x => some (encCopy 0x95 h x)
  | .cpyg h x => some (encCopy 0x96 h x)
  | .cpyr h x => some (encCopy 0x97 h x)
  | .wcond h x => some (enc0 0xA0 h x.d x.a x.b 0 (0#7 ++ x.cls ++ BitVec.ofBool x.s ++ x.kind : BitVec (7 + 2 + 1 + 3)))
  | .wait h x => some (enc0 0xA1 h x.d 0 x.b x.c
      (0#4 ++ x.sc ++ BitVec.ofBool x.mw ++ BitVec.ofBool x.any ++ x.mask : BitVec (4 + 3 + 1 + 1 + 4)))
  | .bar h sc la d a c => some (enc0 0xA2 h d a 0 c (modSc sc (0#2 ++ BitVec.ofBool la ++ 0#3 : BitVec (2 + 1 + 3))))
  | .bara h sc d a => some (enc0 0xA3 h d a 0 0 (modSc sc 0))
  | .sig h imm sc d b => some (enc0 0xA4 h d 0 b 0 ((if imm then 2#2 else 1#2) ++ 0#2 ++ sc ++ 0#6 : BitVec (2 + 2 + 3 + 6)))
  | .fence h sc kind mask => some (enc0 0xA5 h 0 0 (lo8 mask) (hi8 mask) (modSc sc (kind ++ 0#4 : BitVec (2 + 4))))
  | .fencex h mask => some (enc0 0xA6 h 0 0 (lo8 mask) (hi8 mask) 0)
  | .fetchb h sc => some (enc0 0xA7 h 0 0 0 0 (modSc sc 0))
  | .tfetch h d c => some (enc0 0xA8 h d 0 0 c 0)
  | .mstart h a => some (enc0 0xB0 h 0 a 0 0 0)
  | .mstartResume h => some (enc0 0xB0 h 0 0 0 0 1)
  | .mstartRetry h => some (enc0 0xB0 h 0 0 0 0 2)
  | .mend => some (enc0 0xB1 .plain 0 0 0 0 0)
  | .mtile h d a => some (enc0 0xB2 h d a 0 0 0)
  | .mtileMemory d addr => some (encX 0xB2 d 0 0 0 1 addr)
  | .mma ck isat d a b x => some (encX 0xB3 d a b 0 (0#11 ++ BitVec.ofBool isat ++ BitVec.ofBool ck : BitVec (11 + 1 + 1)) x.word)
  | .mmas d a b c x => some (encX 0xB4 d a b c 0 x.word)
  | .mzero d n => some (enc0 0xB5 .plain d 0 n 0 0)
  | .mscale d a (.scalar x) => some (encX 0xB6 d a 0 0 0 (x.setWidth 64))
  | .mscale d a (.row t off) => some (encX 0xB6 d a t 0 1 (off.setWidth 64))
  | .mscale d a (.col t off) => some (encX 0xB6 d a t 0 2 (off.setWidth 64))
  | .mdrain sat mx d a b xr xk => some (encX 0xB7 d a b 0 (0#11 ++ BitVec.ofBool mx ++ BitVec.ofBool sat : BitVec (11 + 1 + 1))
      (MatExt.word { xr := xr, xk := xk, xb := 0, xn := 0 }))
  | .mldacc d a xr xk => some (encX 0xB8 d a 0 0 0 (MatExt.word { xr := xr, xk := xk, xb := 0, xn := 0 }))
  | .cpyaccRd h d a b => some (enc0 0xB9 h d a b 0 0)
  | .cpyaccWr h d a b => some (enc0 0xB9 h d a b 0 1)
  | .cpyaccSt h sid d a b => some (enc0 0xB9 h d a b 0 (sid ++ 0#7 ++ 2#2 : BitVec (4 + 7 + 2)))
  | .cpyaccLd h sid d a b => some (enc0 0xB9 h d a b 0 (sid ++ 0#7 ++ 3#2 : BitVec (4 + 7 + 2)))
  | .msig sc d v => some (enc0 0xBA .plain d 0 v 0 (modSc sc 0))
  | .mwait sc a v => some (encX 0xBB 0 a 0 0 (modSc sc 0) (v.setWidth 64))
  | .mchk a xr xk xn => some (encX 0xBC 0 a 0 0 0 (MatExt.word { xr := xr, xk := xk, xb := 0, xn := xn }))
  | .rng h x => some (encAlu 0xD0 h x)
  | .qpk h zf d a c => some (enc0 0xD1 h d a 0 c (zf.setWidth 13))
  | .qpkTile h zf sid sc d a c => some (enc0 0xD1 h d a 0 c (sid ++ sc ++ 4#3 ++ zf : BitVec (4 + 3 + 3 + 3)))
  | .qunpk h zf d a => some (enc0 0xD2 h d a 0 0 (zf.setWidth 13))
  | .qunpkTile h zf sid sc ck d a => some (enc0 0xD2 h d a 0 0
      (sid ++ sc ++ 1#1 ++ BitVec.ofBool ck ++ 0#1 ++ zf : BitVec (4 + 3 + 1 + 1 + 1 + 3)))
  | .flrd h src clr d => some (enc0 0xD3 h d 0 0 0 (0#10 ++ BitVec.ofBool clr ++ src : BitVec (10 + 1 + 2)))
  | .flclr h src mask => some (enc0 0xD4 h 0 0 mask 0 (src.setWidth 13))
  | .moncfg h d a => some (enc0 0xD8 h d a 0 0 0)
  | .monref h d a b => some (enc0 0xD9 h d a b 0 0)
  | .monrdC h d a => some (enc0 0xDA h d a 0 0 0)
  | .monrdP h d a => some (enc0 0xDA h d a 0 0 1)
  | .monrdSt h d a => some (enc0 0xDA h d a 0 0 2)
  | .monclr h d => some (enc0 0xDB h d 0 0 0 0)
  | .monstp h d => some (enc0 0xDC h d 0 0 0 0)
  | .trap h code => some (enc0 0xE0 h 0 0 code 0 0)
  | .trapKill h code => some (enc0 0xE0 h 0 0 code 0 1)
  | .bkpt h n => some (enc0 0xE1 h 0 0 n 0 0)
  | .eret h => some (enc0 0xE2 h 0 0 0 0 0)
  | .eretx h => some (enc0 0xE3 h 0 0 0 0 0)
  | .ewrd h kind nw d a => some (enc0 0xE4 h d a 0 0 (0#7 ++ nw ++ kind : BitVec (7 + 2 + 4)))
  | .ewwr h kind nw a b => some (enc0 0xE5 h 0 a b 0 (0#7 ++ nw ++ kind : BitVec (7 + 2 + 4)))
  | .trig h sc n => some (enc0 0xE6 h 0 0 n 0 (modSc sc 0))
  | .rdsr h ud num d => some (enc0 0xE8 h d 0 0 0 (0#2 ++ BitVec.ofBool ud ++ 0#2 ++ num : BitVec (2 + 1 + 2 + 8)))
  | .wrsr h num a => some (enc0 0xE9 h 0 a 0 0 (num.setWidth 13))
  | .grow h imm d b => some (enc0 0xEA h d 0 b 0 ((if imm then 2#2 else 1#2) ++ 0#11 : BitVec (2 + 11)))
  | .shrink h imm d b => some (enc0 0xEB h d 0 b 0 ((if imm then 2#2 else 1#2) ++ 0#11 : BitVec (2 + 11)))
  | .emulatedEncoding .. | .deliveredCauseEntry .. | .resultArrival .. | .census | .sweepEnd | .remoteParkDelay ..
  | .sideLogReplay .. | .copyRetire .. | .copyAbort .. | .waitRetest .. | .waitTimeout .. | .waitRemotePoll ..
  | .faultServiceRewalk .. | .codeLineFill .. | .matrixPass .. | .sequencerResume .. | .tileCommit .. | .placement ..
  | .timeSliceExpiry .. | .blockRestore .. | .nopPacket .. | .launch .. | .copy .. | .write .. | .signal .. | .waitc ..
  | .waitcTimeout .. | .wsig .. | .fencePacket .. | .tstamp .. | .queueWriteIndex .. | .hostMemRead .. | .hostMemWrite ..
  | .invalidationRequest .. | .preemptQueue .. | .setPowerLimit .. | .destroyContext .. | .keygen .. | .tag .. | .attest ..
  | .registerWrite .. | .pellorRequest .. | .pellorResponse .. | .permitReturn .. | .marker .. | .triggerMessage ..
  | .scanReadout | .reductionAbort .. | .switchChunkTimeout .. | .reset .. | .hbmTrainingComplete | .powerAdjust ..
  | .hbmScrub .. | .stepRequest .. | .queueDescriptorWrite .. | .debuggerResume .. | .badStreamWord .. | .islandPoweredUp ..
  | .podConfiguration .. | .hostPortLinkUp .. => none

end Sys2Proof
end

