-- ==== Sys2Proof/Config.lean ====
section
/-! DEFINITION. What an implementation fixes and the free values: constants with no body, of which no proof can know a
value. Each is named in a row of notes/assumptions. -/
namespace Sys2Proof.Config

/-- Which agent moves when State's agenda is empty; indexed by the count of steps taken (log 1). -/
opaque schedule : Nat → Nat

/-- Ticks that pass in a step, indexed by the count of steps taken (R10, R11, log 3). -/
opaque elapsed : Nat → Nat

/-- Whether an access issued while a TLB still holds an older leaf uses that leaf, by step and page (R311, log 13). -/
opaque useStaleLeaf : Nat → Nat → Bool

/-- Which page leaves a full TLB (R310, log 13). -/
opaque tlbVictim : Nat → Nat

/-- Whether a load that nothing orders after an earlier write of its own group reads the value before it, and whether a
write that nothing orders takes its place before it: by the count of free values used, the unit and the write (R190, R201, log 39). -/
opaque readsOlder : Nat → Nat → Nat → Bool
opaque writesEarlier : Nat → Nat → Nat → Bool

/-- A fresh context key (R350 KEYGEN, log 8). -/
opaque freshKey : Nat → BitVec 128

/-- Byte that an aborted copy leaves at or above its known-written count: `true`, the source byte (R169, log 15). -/
opaque abortedByteWritten : Nat → Bool

/-- Which free granule of a partition a group is granted next, by the count of free values used (R38, log 41). -/
opaque granulePick : Nat → Nat

/-- Which part of a copy is moved next (R163 to R165, log 15). -/
opaque copyPart : Nat → Nat

/-- Whether a destination byte of a tile form that met an uncorrectable error was written (R227, log 22). -/
opaque tornByteWritten : Nat → Bool

/-- ML-DSA-44 verification of a firmware stage under the fused Zwidel key (R349, log 9). -/
opaque firmwareSignatureOk : Nat → List Byte → List Byte → Bool

/-- The ML-DSA-44 identity public key, 1,312 bytes, from the fused secret and stage 1's measurement (R349, log 9). -/
opaque identityPublicKey : BitVec 256 → Nat → Byte

/-- Byte `i` of the ML-DSA-44 signature over the report (R350, log 9). -/
opaque attestSignature : BitVec 256 → List Byte → Nat → Byte

/-- The device serial number of R350 (log 9). -/
opaque serialNumber : BitVec 128

/-- A reference-clock offset within R346's 50 ticks, at pod configuration (log 3). -/
opaque tickAlignment : Nat → Nat

/-- A TVAL of a cause whose rules do not state it, indexed by the count of free values used (R288, log 23). -/
opaque openTval : Nat → Nat → W64

/-- The error code of a queue whose launch the loader refuses for its block-ordinal places (R50, log 26). -/
opaque refusedLaunch : BitVec 8

/-- Whether a safe point that issues in an open sample window leaves a record, and how many the ring holds (R353, log 37). -/
opaque sampleTaken : Nat → Bool
opaque sampleRing : Nat

/-- Whether a leaf controller, or the March core from it, has accepted what was sent, by the count of steps taken and the leaf
(R323, log 36). -/
opaque leafAccepts : Nat → Nat → Bool

/-- How many times in a row a sent flit fails its CRC at the receiver on a link (R343, log 17). -/
opaque crcFailures : Nat → Nat → Nat

/-- Which of the links with room a flit takes: routes are chosen flit by flit, adaptively (R345, log 17). -/
opaque flitLink : Nat → Nat

/-- How many flits past the first a message takes, and the payload bytes of its flits (R343, log 17). -/
opaque messageFlits : Nat → Nat
opaque flitPayload : Nat → Nat → Nat → Byte

end Sys2Proof.Config
end

