-- ==== Sys2Proof/Machine/State.lean ====
section
/-! DEFINITION. The state of one AZY-9600 package as plain data, and the state right after reset. A map from numbers is a
sorted list of pairs that lists no default value (Machine/Sparse.lean); lanes are vectors of 32. -/
namespace Sys2Proof.Machine

/-- Why the machine stops. -/
inductive Fault where
  /-- Raised by an instruction of a group when no resident group is on turn: nothing in the machine would issue it.
  Safe: the hardware issues an instruction only for a group. -/
  | noGroupOnTurn
  deriving DecidableEq, Repr

/-- Why a step has no meaning. -/
inductive Refusal where
  /-- Raised by an arm of the dispatch whose instruction has no meaning yet. Safe: the machine stops. -/
  | notModelled (mnemonic : String)
  deriving DecidableEq, Repr

/-- A sparse map in canonical form: keys rise strictly, and no listed value is the default. -/
abbrev SMap (α : Type) := List (Nat × α)

/-! ### Register writes and results in flight (R19 to R23, R39) -/

/-- A write to one register. Lane values outside `mask` are ignored. -/
inductive RegWrite where
  | v (n : Nat) (mask : Mask) (x : Lanes W32)
  | s (n : Nat) (x : W32)
  | p (n : Nat) (mask x : Mask)
  | q (n : Nat) (x : Bool)
  deriving DecidableEq, Repr

/-- Flags that an instruction raises (R98): by lane, and for the group as a whole; bits as in FLAGS 6:0 (R217). -/
structure FlagSet where
  lanes : Lanes (BitVec 7)
  grp   : BitVec 7
  deriving DecidableEq, Repr

/-- A fixed-latency result that commits when the group's issue distance reaches `due` (R19). -/
structure Pending where
  due    : Nat
  writes : List RegWrite
  flags  : FlagSet
  deriving DecidableEq, Repr

/-- A variable-latency result on its way (R23): the handler depth it was issued at and its target granules: which of the group's
it is, and its number and tag at issue (R39). -/
structure InFlight where
  depth  : Nat
  writes : List RegWrite
  flags  : FlagSet
  tags   : List (Nat × Nat × BitVec 4)
  deriving DecidableEq, Repr

/-! ### Groups -/

/-- Where a sweep level stands (R70): about to enter a block, straight on from the one before it or by the label table;
inside one; inside one at an ordinal whose place in the code is still to be found, from the place of ordinal `k` or from
the label table (a position restored, R82, R85); or at SweepEnd. -/
inductive Phase where
  | enter (m : W16) (straight : Bool)
  | body
  | seek (k : Nat)
  | find
  | sweepEnd
  deriving DecidableEq, Repr

/-- One sweep level (R68, R84, R291): a group's own frame or a handler level. `off` is the byte offset of the next word,
`len` the LEN of the block it is in, `callv` the callee base that a CALLV at this position served last (R83). For each
deferred lane `dva` is the address it was deferred on, `dneed` the FULL bit it needs and `dwr` whether it needs write
permission (R77, R78). `unread` says that its region's descriptor is still to be read, at a group's start or restore
(R67). -/
structure Level where
  base    : W64
  n       : Nat
  codeLen : Nat
  tab     : W64
  tagTab  : W64
  wl      : Lanes W16
  ri      : Lanes (BitVec 12)
  defm    : Mask
  dva     : Lanes W64
  dneed   : Mask
  dwr     : Mask
  swc     : W32
  label   : W16
  ord     : Nat
  off     : Nat
  len     : Nat
  phase   : Phase
  callv   : Option W64
  unread  : Bool
  p       : Vector Mask 7
  q       : BitVec 7
  deriving DecidableEq, Repr

/-- A call-stack entry (R44). -/
structure CallEntry where
  wl    : Lanes W16
  base  : W64
  label : W16
  ord   : Nat
  swc   : W32
  mask  : Mask
  deriving DecidableEq, Repr

/-- How a handler returns (R303): a precise cause (whose instruction has an extension word or not), a delivered one, or
the full/empty causes that enter at the start of a sweep (R79, R153). -/
inductive FrameKind where
  | precise (long : Bool)
  | delivered | budget | quota
  deriving DecidableEq, Repr

/-- What a handler entry needs beside the cause (R288 to R290, R296). -/
structure Entry where
  cause : BitVec 8
  emask : Mask
  tv    : List W64
  kind  : FrameKind
  epos  : W64
  raw   : W64 := 0
  ext   : W64 := 0
  ew    : Vector W32 4 := Vector.replicate 4 0#32
  /-- It waits for the fault service to map the page of the handler's descriptor (R67, R312). -/
  svc   : Bool := false
  deriving DecidableEq, Repr

/-- A handler level: its frame (R294), its bank (R35) and its operand window (R296). -/
structure HandlerFrame where
  lvl   : Level
  cause : BitVec 8
  emask : Mask
  epos  : W64
  tval  : Vector W64 4
  kind  : FrameKind
  h     : SMap W32
  hs    : SMap W32
  raw   : W64
  ext   : W64
  ew    : Vector W32 4
  /-- Restored, with the instruction at EPOS still to be fetched again (R294). -/
  refetch : Bool
  deriving DecidableEq, Repr

/-- One monitor's part in a write that is still to be counted: the monitor, the phase the write counts in (R280), and which
of the monitor's configurations and clearings it issued under (R287). -/
structure Tally where
  mon   : Nat
  phase : W32
  epoch : Nat
  deriving DecidableEq, Repr

/-- What an address reaches. -/
inductive Loc where
  /-- A physical location, with the leaf used. `rp` says that the page is replicated. -/
  | mem (pa : Nat) (slot : Option Nat) (rp : Bool)
  | scr (blk off : Nat)
  /-- The full/empty states of the data from this physical address (R144). -/
  | view (pa : Nat) (slot : Option Nat)
  /-- A location of another device, with the fabric leaf used (R142). -/
  | dev (dev pa : Nat) (slot : Option Nat)
  /-- Bytes that the group's own side log holds whole (R183). -/
  | logged
  deriving DecidableEq, Repr

/-- A side-log entry (R305): kind 0 ST, 1 RED, 2 MST; one item for each faulting lane: lane, address, data. -/
structure SideEntry where
  mask  : Mask
  kind  : Nat
  wd    : BitVec 4
  sid   : BitVec 4
  sc    : BitVec 3
  ord   : BitVec 2
  op    : BitVec 4
  items : List (Nat × Nat × W128)
  /-- The running monitors that count the entry (R280, R287). -/
  phases : List Tally
  /-- Requests of its replay to other devices: lane and message number (R142). -/
  sent   : List (Nat × Nat)
  /-- The pages of its replay that have their fault record while others wait for room or a permit (R312, R323). -/
  told   : List Nat
  deriving DecidableEq, Repr

/-- The lanes of an access that passed their checks, with what they reach; the lanes whose page is unmapped; the lanes
switched off (R147). `log` is the group's side log as the access issued, which its loads see (R183), and `probed` says that no
lane's read at another device can still raise a cause (R304). -/
structure Checked where
  ok  : List (Nat × W64 × Loc)
  unm : List (Nat × W64)
  off : Mask
  log : List SideEntry
  probed : Bool
  deriving DecidableEq, Repr

def Checked.none : Checked := { ok := [], unm := [], off := 0#32, log := [], probed := true }

/-- Where an issued copy stands: to be made, waiting for the fault service, made and waiting for the older ones of its class
(R167), failed (R169), or retired with its counter add still to make, which may wait for the fault service too (R168). -/
inductive CopyStage where
  | queued
  | waiting
  | moved
  | failed (addr : Nat) (written : Nat) (cause : BitVec 8)
  | adding (wait : Bool)
  deriving DecidableEq, Repr

/-! ### What orders a group's own accesses (R187 to R193, R201) -/

/-- Eight aligned bytes, the most that one access reads or writes at once (R186): of a block's scratchpad, or of memory. -/
structure Unit8 where
  scr : Option Nat
  n   : Nat
  deriving DecidableEq, Repr

/-- A unit that an access covers: by which path, and the group's own writes, by number, that it has its place before. -/
structure Cover where
  at_  : Unit8
  path : Nat
  past : List Nat
  deriving DecidableEq, Repr

/-- An access, with its classes and annotations (R187, R196), a FENCEX, or a FENCE of a kind. -/
inductive OwnKind where
  | access (rd wr acq rel : Bool)
  | fencex
  | fence (kind : BitVec 2)
  deriving DecidableEq, Repr

/-- An access or fence that a group has issued: the step and the issue that made it, its streams (R190), and what it covers; the
barriers it arrives at, each with the phase it counts in, or has seen complete, each with the count of completed phases (R197). -/
structure OwnEv where
  step   : Nat
  clock  : Nat
  kind   : OwnKind
  sids   : BitVec 16
  covers : List Cover
  bars   : List (Nat × Nat)
  deriving DecidableEq, Repr

/-- A write of a group to bytes of one unit: its number, which is 64 times its issue plus the lane, its stream and path, the
bytes it covers, and the unit before it. `solid` says that nothing comes between it and what it read (R192), `counted` that a
monitor has counted the difference it made (R279). -/
structure OwnNote where
  at_     : Unit8
  id      : Nat
  sids    : BitVec 16
  path    : Nat
  mask    : BitVec 8
  old     : List Byte
  solid   : Bool
  counted : Bool
  deriving DecidableEq, Repr

/-- A piece of a copy within one page at each end: the row of a gather it belongs to, its offset from the start of the
destination's bytes in copy order, both addresses, its length, and whether its pages have been looked up (R313). -/
structure Piece where
  row  : Nat
  off  : Nat
  src  : W64
  dst  : W64
  n    : Nat
  seen : Bool
  deriving DecidableEq, Repr

/-- An outstanding copy (R163 to R169). -/
structure CopyOp where
  /-- Its number. -/
  id    : Nat
  cls   : CopyClass
  wd    : BitVec 4
  op    : BitVec 3
  sid   : BitVec 4
  sc    : BitVec 3
  dst   : W64
  src   : W64
  len   : Nat
  ctr   : Option W64
  label : W16
  ord   : Nat
  stage : CopyStage
  /-- The commit position it belongs to plus 1, 0 for the prologue (R334). -/
  tile  : Nat
  /-- Its requests to other devices: the offset they serve, and the message number. -/
  sent  : List (Nat × Nat)
  /-- The pieces still to be moved, once the engine has them, and those it is moving now. -/
  todo  : Option (List Piece)
  cur   : List Piece
  /-- Its writes at other devices that have no answer yet: row, offset and message number. -/
  acks  : List (Nat × Nat × Nat)
  /-- How many of the group's side-log entries are older than it (R183, R198). -/
  behind : Nat
  /-- It walks again after the fault service has acted (R311). -/
  again : Bool
  deriving DecidableEq, Repr

/-- A cause waiting to be delivered at depth 0 (R292). -/
structure Delivered where
  cause : BitVec 8
  tval  : Vector W64 4
  deriving DecidableEq, Repr

/-- A suspended WAIT (R172, R173): since when, its time-out as it read it, the tick of the last poll of path 0x6, the words
its KIND 4 records are on, which conditions held when they were last looked at, what the block counters, copies and barriers
it watches then stood at, whether all of them have been tested, and whether they are to be tested again. -/
structure WaitSt where
  start  : Nat
  limit  : W32
  polled : Nat
  recs   : List Nat
  seen   : BitVec 4
  vals   : List Nat
  tested : Bool
  woken  : Bool
  deriving DecidableEq, Repr

/-- What a group does between instructions. -/
inductive GStatus where
  | ready
  /-- Parked on a word (R78). -/
  | parked (addr : Nat)
  /-- Woken: its next turn counts the wake (R78, R79). -/
  | woken
  /-- Deferred on path 0x6 since this tick (R153). -/
  | remotePark (since : Nat)
  /-- Suspended in a WAIT, with the WAIT itself (R172, R173). -/
  | waiting (t : WaitSt) (h : Hdr) (x : WaitForm)
  /-- Suspended in BAR for this phase of barrier n, with the BAR itself (R175). -/
  | barrier (n : Nat) (phase : W32) (h : Hdr) (sc : BitVec 3) (la : Bool) (d c : BitVec 8)
  /-- Its GROW request waits in the partition's queue (R38). -/
  | growing
  /-- A fetch, spill or reload waits for the fault service (R312); whether the debugger has resumed the group at its position. -/
  | service (resumed : Bool)
  /-- Stopped at a safe point by the debugger (R138), and resumed from there: it issues that instruction. -/
  | stopped
  | resumed
  /-- It has met a cause and waits for a bank of the next depth, or to read the handler's descriptor; it issues nothing meanwhile
  (R35, R67). -/
  | entering (e : Entry)
  | retired
  deriving DecidableEq, Repr

/-- The tile a group of an Equinox launch holds (R333). -/
inductive TileHold where
  | prologue
  | tile (i : Nat)
  | epilogue
  deriving DecidableEq, Repr

/-- A resident group (R32, R37, R41, R68). -/
structure Group where
  slot      : Nat
  lvl       : Level
  calls     : List CallEntry
  frames    : List HandlerFrame
  nv        : Nat
  v         : SMap W32
  s         : SMap W32
  w         : Vector W128 4
  flags     : W32
  laneFlags : Lanes (BitVec 5)
  sfm       : W32
  dropcnt   : W32
  chkmode   : W32
  clock     : Nat
  pend      : List Pending
  inflight  : List InFlight
  /-- The granules of its partition's register file that its vector registers stand in, in order: each one's number, and its
  generation tag, which is the same for as long as the group holds it (R38, R39). -/
  grans     : List (Nat × BitVec 4)
  copies    : List CopyOp
  sideLog   : List SideEntry
  sideSvc   : Bool
  delivered : List Delivered
  status    : GStatus
  wakes     : Nat
  tile      : TileHold
  /-- Restored inside a handler: how many of its banks it has still to take, the deepest last (R35). -/
  lacks     : Nat
  /-- Requests to other devices of the instruction on its way: lane and message number (R142). -/
  sent      : List (Nat × Nat)
  /-- SEED as the QPK on its way took it at its issue (R231). -/
  seed      : W64
  /-- What the lanes of the instruction on its way reach, as its checks found it when the requests went out (R142, R304). -/
  reached   : Checked
  /-- The pages of the instruction at its position that have their fault record while others wait (R312, R323). -/
  told      : List Nat
  /-- Its own writes that some later access of its own need not see yet, the last in coherence order first (R190, R201), and its
  accesses and fences from then on, newest first (log 39). -/
  notes     : List OwnNote
  own       : List OwnEv
  deriving DecidableEq, Repr

/-! ### Blocks -/

/-- Monitor states (R283). -/
inductive MonSt where
  | off | run | stopped | broken
  deriving DecidableEq, Repr

/-- The partials of a monitor as a MONCFG or MONCLR found them: writes that issued before it are counted under them (R287). -/
structure MonPast where
  epoch : Nat
  cfg   : Vector W32 8
  phase : W32
  cur   : Int
  nxt   : Int
  deriving DecidableEq, Repr

/-- A conservation monitor (R276, R280, R283, R284). Sums are exact integers within 256 bits. `epoch` counts its MONCFGs and
MONCLRs, and `past` keeps the partials before them while writes that count there are still to be performed (R287). -/
structure Monitor where
  cfg   : Vector W32 8
  ref   : BitVec 128
  bound : W64
  st    : MonSt
  nf    : Bool
  ov    : Bool
  ls    : Bool
  dr    : Bool
  mg    : Nat
  c     : Int
  cur   : Int
  nxt   : Int
  phase : W32
  epoch : Nat
  past  : List MonPast
  deriving DecidableEq, Repr

/-- Sequencer states (R237). -/
inductive SeqSt where
  | idle | running | waiting | stopped
  deriving DecidableEq, Repr

/-- An operand held from a block's last pass (R242): the side, the descriptor, the offsets, the K extent, and the elements. Sides 0
to 2 are A, B and the metadata; 3 and 4 are A and B as the pass on its way has loaded them so far. -/
structure Held where
  side : Nat
  desc : W128
  r    : Nat
  k    : Nat
  nk   : Nat
  rows : List (List Nat)
  deriving DecidableEq, Repr

/-- A block's matrix sequencer (R237, R262). `desc` is the stream descriptor's tag table and length once read, `next` the
address of the instruction `word`, `ext` that is decoded and not complete or, when `word` is 0, of the next one. `busy` says
that an MMA or MMAS has passes to run, and `entries` are those it holds in the reservation table (R232). `tv` are the TVALs of
the stop cause (R257, R263). `seed` is the SEED its decode took (R253), `tile` the commit position plus 1 that its accesses
belong to, 0 in the prologue (R335), and `td` the block's descriptors as its decode found them (R266). `again` says that it
walks again after the fault service has acted (R311), `sent` are its requests to other devices by number of the piece, and
`looked` the parts of the instruction whose pages have been counted (R313). -/
structure Seq where
  st    : SeqSt
  cause : BitVec 8
  owner : Nat
  base  : W64
  desc  : Option (W64 × Nat)
  next  : W64
  word  : W64
  ext   : W64
  busy  : Bool
  entries : Nat
  tv    : Vector W64 4
  seed  : W64
  drain : Nat
  svc   : Bool
  tile  : Nat
  td    : Vector W128 16
  again : Bool
  sent  : List (Nat × Nat)
  looked : List Nat
  held  : List Held
  deriving DecidableEq, Repr

/-- Where a block is (R325, R329, R330). -/
inductive BlockSt where
  | resident | evicted | ended
  deriving DecidableEq, Repr

/-- A block (R45, R69, R174, R275). -/
structure Block where
  launch   : Nat
  ordinal  : Nat
  st       : BlockSt
  core     : Nat
  groups   : List Group
  bflags   : W32
  nantrap  : W32
  seed     : W64
  rpr      : W32
  febudget : W32
  nb       : Vector W32 16
  tiles    : Vector W128 16
  acc      : SMap W32
  scratch  : SMap Byte
  sinit    : SMap Bool
  mons     : List Monitor
  seq      : Seq
  cause    : BitVec 8
  tval     : Vector W64 4
  /-- The status its completion record holds, once written (R329). -/
  status   : Nat
  /-- TICK as its completion record was first written (R329). -/
  doneAt   : Nat
  /-- Its monitors as they went into its save record (R284). -/
  savedMons : List Monitor
  /-- To be saved and evicted at its groups' next instruction boundaries (R330). -/
  leaving  : Bool
  deriving DecidableEq, Repr

/-! ### Launches -/

/-- A launch record (R324). -/
structure LaunchRec where
  region   : W64
  emuv     : W64
  trapv    : W64
  mstream  : W64
  params   : W64
  cstack   : W64
  cssize   : Nat
  mincores : Nat
  maxcores : Nat
  align    : Nat
  gang     : Bool
  equinox  : Bool
  priority : Nat
  groups   : Nat
  accregs  : Nat
  lanes    : Nat
  vregs    : Nat
  barriers : Nat
  nbctrs   : Nat
  scratch  : Nat
  monitors : Nat
  parkq    : Nat
  bars     : Vector (BitVec 4) 16
  index    : Nat × Nat × Nat
  tile     : Nat × Nat × Nat
  next     : Nat
  save     : W64
  done     : W64
  owna     : W64
  ownl     : W64
  own      : Vector (W64 × W64) 6
  deriving DecidableEq, Repr

/-- A barrier's shared counter in one unit of its scope (R174, R176). -/
structure BarInst where
  n       : Nat
  unit    : Nat
  phase   : W32
  broken  : Bool
  arrived : List GRef
  last    : Option GRef
  /-- A phase that only waits for its writes to be counted (R281), with its last arriver where it has one. -/
  due     : Option (Option GRef)
  /-- The blocks that have sent their partials for this phase, and what they sent: block, monitor, partial, NF, OV (R281). -/
  sent    : List Nat
  parts   : List (Nat × Nat × Int × Bool × Bool)
  deriving DecidableEq, Repr

/-- What a counted write needs until it is performed (R280): the group, where its bytes stand in the issued addresses, the address of
the whole write, and the running monitors that count it. -/
structure CountTag where
  who    : GRef
  addr   : W64
  phases : List Tally
  whole  : W64 := addr
  deriving DecidableEq, Repr

/-- A buffered write of an Equinox tile (R335): bytes, or a reduction combined at commit. -/
inductive CommitOp where
  | store (pa : Nat) (bs : List Byte) (tag : Option CountTag)
  | red (pa : Nat) (op wd : BitVec 4) (x : W64) (tag : Option CountTag)
  | max (pa : Nat) (x : W32)
  | fill (slot : Option Nat) (word : Nat) (full : Bool)
  deriving DecidableEq, Repr

/-- A tile's commit buffer; `ended` tiles wait for the frontier (R335). -/
structure TileBuf where
  tile  : Nat
  ended : Bool
  ops   : List CommitOp
  deriving DecidableEq, Repr

/-- A launch is pending, placed, waiting for the fault service to make its counter add, waiting for another device to have
made it, or complete (R321, R329). -/
inductive LaunchSt where
  | pending | placed | counting
  | adding (msg : Nat)
  | complete
  deriving DecidableEq, Repr

/-- A launch (R321, R324 to R336). -/
structure Launch where
  queue    : Nat
  ctx      : Nat
  recAddr  : W64
  lrec     : LaunchRec
  ctr      : W64
  add      : W64
  st       : LaunchSt
  next     : Nat
  draining : Bool
  age      : Nat
  bypass   : List Nat
  nblocks  : Nat
  placedAt : Nat
  bars     : List BarInst
  frontier : Nat
  /-- The frontier's tile makes its shared accesses directly (R335). -/
  direct   : Bool
  owners   : SMap Nat
  inArea   : Nat
  bufs     : List TileBuf
  deriving DecidableEq, Repr

/-! ### The hub: contexts, queues, port, security, debug, fabric -/

/-- A context table entry (R318) with the state the hub holds for it. -/
structure Ctx where
  desc     : W64
  st       : BitVec 2
  key      : Option (BitVec 128)
  febudget : W32
  /-- The service counter as the waiting agents last saw it (R312). -/
  served   : W64
  deriving DecidableEq, Repr

/-- A started packet that has not completed (R321, R322): a WAITC with its deadline and its read of another device; a packet
that waits for the fault service (`svc`) or for answers to its requests, by offset; a launch. -/
inductive Started where
  | waitc (ctr value : W64) (due : Option Nat) (svc : Bool) (sent : Option Nat)
  | held (i : Instr) (svc : Bool) (sent : List (Nat × Nat))
  | launch (l : Nat)
  deriving DecidableEq, Repr

/-- A queue descriptor (R320), the tick at which its slice began, the overrun that shortens its next one (R322), and the packets
it has started. -/
structure Queue where
  base    : W64
  count   : Nat
  ctx     : Nat
  rd      : W64
  wr      : W64
  prio    : Nat
  drain   : Bool
  enable  : Bool
  slice   : Nat
  sliceAt : Nat
  overran : Nat
  stopped : Bool
  code    : BitVec 8
  started : List Started
  deriving DecidableEq, Repr

/-- The TLBs (R310): one for each core, for each quad's engine, and one last-level TLB for each die. -/
inductive Tlb where
  | core (n : Nat)
  | engine (quad : Nat)
  | die (d : Nat)
  deriving DecidableEq, Repr

/-- A leaf that a TLB holds (R310): its context, its root, the virtual range of the index it was read at (R306), where the
entry stands, and the entry. -/
structure TlbEntry where
  holder : Tlb
  ctx    : Nat
  fabric : Bool
  base   : Nat
  size   : Nat
  slot   : Nat
  pte    : W64
  deriving DecidableEq, Repr

/-- A code line in a partition's instruction cache (partition 0 to 3) or a stream line in the block's stream buffer. -/
structure ICLine where
  who   : Fetcher
  ctx   : Nat
  line  : W64
  bytes : List Byte
  deriving DecidableEq, Repr

/-- A trigger table entry (R355). -/
structure TrigEntry where
  actions : W32
  arrival : W64
  deriving DecidableEq, Repr

/-- A flit recorded by a Harvest (R356): its message, its kind, its index there, and the number of the free values of its
payload (log 17). -/
structure FlitRec where
  hdr   : MsgHdr
  kind  : Nat
  num   : Nat
  index : Nat
  deriving DecidableEq, Repr

/-- A link's state (R343, R344, R356); `flits` are those recorded by a Harvest, and `sent` counts the flits that have gone out
on it, of every kind and channel. -/
structure Link where
  retired : Bool
  retries : Nat
  permits : Vector Nat 4
  marked  : Bool
  flits   : List FlitRec
  sent    : Nat
  deriving DecidableEq, Repr

/-- What a message to another device carries: a request, a response, a Harvest marker on a link, a trigger, permits of a
channel given back on a link (R343, R344, R354, R356). -/
inductive OutBody where
  | request (op : RemoteOp)
  | response (data : List Byte)
  | marker (link : Nat)
  | trigger (n : Nat) (tick : W64)
  | permits (link vc n : Nat)
  deriving DecidableEq, Repr

/-- A message to another device, in its flow and with its sequence number (R142, R345). `flits` holds, for each of its flits
that has gone out, its link and its place in the one order of that link's flits (R344); the others wait for permits. `wait` says
that somebody waits for its answer. -/
structure OutMsg where
  id   : Nat
  dst  : Nat
  vc   : BitVec 2
  seq  : Nat
  body : OutBody
  flits : List (Nat × Nat)
  wait : Bool
  deriving DecidableEq, Repr

/-- A request or response that has arrived ahead of an earlier message of its flow (R345). -/
structure Early where
  hdr  : MsgHdr
  body : OutBody
  deriving DecidableEq, Repr

/-- The March core's link to a leaf controller (R323): the permits left for commands and for the leaf's upward messages; the
commands not yet accepted; the blocks whose eviction waits for a command permit, whose messages wait for an upward permit,
and whose messages are on their way; and how many fault messages are on their way. -/
structure LeafLink where
  down   : Nat
  cmds   : Nat
  evicts : List Nat
  up     : Nat
  sendq  : List Nat
  msgs   : List Nat
  faults : Nat
  deriving DecidableEq, Repr

/-- A reduction set of the pod's switches (R347): its ranks in order, its operation and type, and the reduction range as
virtual addresses of this device. -/
structure RedSet where
  num   : Nat
  ranks : List Nat
  op    : BitVec 3
  wd    : BitVec 4
  base  : W64
  len   : Nat
  deriving DecidableEq, Repr

/-- A GROW request waiting in a partition's queue: the registers asked for, and the GROW itself (R38, R40). -/
structure GrowReq where
  core : Nat
  part : Nat
  who  : GRef
  regs : Nat
  h    : Hdr
  d    : BitVec 8
  deriving DecidableEq, Repr

/-- A debugger breakpoint: a context, one of its code regions, and a position there (R138, R274). -/
structure Breakpoint where
  ctx   : Nat
  base  : W64
  label : W16
  ord   : Nat
  deriving DecidableEq, Repr

/-- What the debugger does through the debug port (R353, R355, R356): set or take away a breakpoint, write an entry's actions
in the trigger table, name the Harvest area, and take the records out of the sample ring. -/
inductive DebugAct where
  | setBreak (b : Breakpoint)
  | clearBreak (b : Breakpoint)
  | triggerEntry (n : Fin 16) (actions : W32)
  | harvestAt (area : W64)
  | takeSamples
  deriving DecidableEq, Repr

/-- Who moves next. -/
inductive Turn where
  | group (r : GRef)
  | sequencer (blk : Nat)
  | march (q : Nat)
  | event (i : Instr)
  deriving DecidableEq, Repr

/-- One package. -/
structure State where
  -- the model's own: who moves next, the group on turn, the counters that index the free values
  agenda   : List Turn
  cur      : Option GRef
  steps    : Nat
  fresh    : Nat
  -- memory (R7, R148, R308)
  mem      : SMap Byte
  fe       : SMap (BitVec 2)
  poison   : List Nat
  scrubbed : Nat
  tlb      : List TlbEntry
  /-- Where the leaves stand through which a page has been reached, and the frame each names: a mapping not among them is fresh
  (R148, log 38). -/
  leaves   : List (Nat × Nat)
  /-- The 4 KiB frames whose words other devices' requests have changed the state of (R148, log 38). -/
  farPages : List Nat
  icache   : List ICLine
  /-- The block whose pass each quad's engine ran last, plus 1 (R232). -/
  arbiter  : SMap Nat
  lookups  : SMap Nat
  -- time and power
  tick     : Nat
  boot     : BitVec 2
  fst      : BitVec 4
  frozen   : Bool
  power    : Nat
  lowered  : List Nat
  gated    : List Nat
  retiredCores : List Nat
  /-- Retired links between the routers of neighbouring cores (R48). -/
  retiredMesh : List (Nat × Nat)
  -- work
  launches : List Launch
  blocks   : List Block
  growQ    : List GrowReq
  /-- The generation tag of every granule of the register files, by 128 times the partition's number plus the granule's (R39). -/
  granTags : SMap (BitVec 4)
  parked   : SMap (List (GRef × Nat))
  -- the hub
  ctxs     : SMap Ctx
  queues   : SMap Queue
  /-- The queue served last (R327), and the one that holds the time slice (R322). -/
  served   : Nat
  holder   : Option Nat
  leafLinks : Vector LeafLink 72
  /-- Operands the host has written into the request blocks of BAR0, by offset (R340). -/
  operands : SMap Byte
  invalStatus : Nat
  cmdStatus   : Nat
  /-- The queue that a host command is pre-empting (R342). -/
  cmdQueue : Option Nat
  mailStatus  : Nat
  msix     : List Nat
  replies  : List (List Byte)
  /-- What the host has asked to read in BAR0 and has no answer to yet: offset and size (R340). -/
  barReads : List (Nat × Nat)
  hostLink : Nat
  measure  : List (BitVec 256)
  -- debug and triggers
  breaks   : List Breakpoint
  steps1   : List GRef
  focus    : Option GRef
  trig     : Vector TrigEntry 16
  window   : Bool
  /-- Sample and trace records in their ring, and how many a full ring has dropped (R348, R353). -/
  samples  : List (List Byte)
  dropped  : Nat
  /-- What the debugger has asked for at the debug port and the device has not done yet (R353). -/
  debugPort : List DebugAct
  harvest  : Bool
  harvestArea : W64
  /-- The TICK at which this device started its part, and the bytes written to the area, 0 before the blocks are saved. -/
  harvestTick : Nat
  harvestEnd  : Nat
  -- the pod
  device   : Nat
  devices  : List Nat
  links    : Vector Link 32
  outbox   : List OutMsg
  /-- Responses that arrived, by message number. -/
  answers  : SMap (List Byte)
  flows    : SMap Nat
  /-- The number of the next message of each arriving flow, and messages that are ahead of it (R345). -/
  inFlows  : SMap Nat
  early    : List Early
  /-- Chunks that the switch has aborted and that are still to be recomputed: destination and set (R347). -/
  chunks   : List (W64 × Nat)
  lateChunks : List ((W64 × Nat) × List (List Byte))
  sets     : List RedSet
  deriving DecidableEq, Repr

/-- A link right after reset: all 32 permits of each channel granted (R344). -/
def Link.fresh : Link :=
  { retired := false, retries := 0, permits := Vector.replicate 4 32, marked := false, flits := [], sent := 0 }

/-- A leaf link right after reset: 8 permits down and 4 up (R323). -/
def LeafLink.fresh : LeafLink := { down := 8, cmds := 0, evicts := [], up := 4, sendq := [], msgs := [], faults := 0 }

/-- The machine right after reset (R349, R351): BOOT = 0 and nothing placed. Fields for which the spec gives no reset
value hold the value their log entry names (logs 1, 3, 4, 6, 13, 14, 22). -/
def State.reset : State :=
  { agenda := [], cur := none, steps := 0, fresh := 0,
    mem := [], fe := [], poison := [], scrubbed := 0, tlb := [], leaves := [], farPages := [], icache := [], arbiter := [], lookups := [],
    tick := 0, boot := 0, fst := 0, frozen := false, power := 3200, lowered := [], gated := [], retiredCores := [], retiredMesh := [],
    launches := [], blocks := [], growQ := [], granTags := [], parked := [],
    ctxs := [], queues := [], served := 0, holder := none, leafLinks := Vector.replicate 72 LeafLink.fresh,
    operands := [], invalStatus := 0, cmdStatus := 0, cmdQueue := none, mailStatus := 0, msix := [],
    replies := [], barReads := [], hostLink := 0, measure := [],
    breaks := [], steps1 := [], focus := none, trig := Vector.replicate 16 { actions := 0, arrival := 0 }, window := false,
    samples := [], dropped := 0, debugPort := [],
    harvest := false, harvestArea := 0, harvestTick := 0, harvestEnd := 0,
    device := 0, devices := [0], links := Vector.replicate 32 Link.fresh, outbox := [], answers := [], flows := [], inFlows := [], early := [],
    chunks := [], lateChunks := [], sets := [] }

end Sys2Proof.Machine
end

