-- ==== Sys2Proof/Machine/Bits.lean ====
section
/-! DEFINITION. Bits, lanes and bytes: the helpers every family shares. -/
namespace Sys2Proof.Machine

/-- Bits `n-1..0` chosen by a predicate on bit numbers. -/
def bitsBelow (f : Nat → Bool) : (n : Nat) → BitVec n
  | 0 => 0#0
  | n + 1 => BitVec.cons (f n) (bitsBelow f n)

/-- The lane mask of a predicate. -/
def maskOf (f : Nat → Bool) : Mask := bitsBelow f 32

/-- Whether a lane is in a mask. -/
def has (m : Mask) (l : Nat) : Bool := m.getLsbD l

/-- One value per lane from a function of the lane number. -/
def lanes {α : Type} (f : Nat → α) : Lanes α := Vector.ofFn fun i => f i.val

/-- The value of a lane; lane numbers are 0 to 31. -/
def lget {α : Type} (d : α) (x : Lanes α) (l : Nat) : α := x[l]?.getD d

/-- The lanes of a mask, ascending. -/
def laneList (m : Mask) : List Nat := (List.range 32).filter (has m)

/-- The lowest lane of a mask (0 for an empty one). -/
def lowLane (m : Mask) : Nat := (laneList m).headD 0

/-- Take `x` on the lanes of `m` and `y` elsewhere. -/
def blend {α : Type} (m : Mask) (d : α) (x y : Lanes α) : Lanes α := lanes fun l => if has m l then lget d x l else lget d y l

/-- Change one entry of a vector. -/
def vmod {α : Type} {n : Nat} (v : Vector α n) (k : Nat) (f : α → α) : Vector α n :=
  Vector.ofFn fun i : Fin n => if i.val = k then f v[i] else v[i]

def pair (lo hi : W32) : W64 := hi ++ lo
def lo32 (x : W64) : W32 := x.extractLsb' 0 32
def hi32 (x : W64) : W32 := x.extractLsb' 32 32

/-- The low `w` bits of a number read as two's complement. -/
def signedOf (w : Nat) (x : Nat) : Int :=
  let y := x % 2 ^ w
  if y < 2 ^ (w - 1) then (y : Int) else (y : Int) - (2 ^ w : Nat)

/-- An integer modulo `2^w`. -/
def wrapTo (w : Nat) (x : Int) : Nat := (x % ((2 ^ w : Nat) : Int)).toNat

def u64 (n : Nat) : W64 := BitVec.ofNat 64 n
def u32 (n : Nat) : W32 := BitVec.ofNat 32 n

/-- The `n` bytes of a number, least significant first (R14). -/
def toBytes (n x : Nat) : List Byte := (List.range n).map fun i => BitVec.ofNat 8 (x / 256 ^ i)

/-- The number with these bytes, least significant first (R14). -/
def ofBytes : List Byte → Nat
  | [] => 0
  | b :: t => b.toNat + 256 * ofBytes t

/-- Bits `hi..lo` of a number. -/
def field (x lo n : Nat) : Nat := x / 2 ^ lo % 2 ^ n

/-- Replace element `i` of a list. -/
def setAt {α : Type} (l : List α) (i : Nat) (x : α) : List α := l.set i x

/-- Find the first index of a list that satisfies a test. -/
def firstIdx {α : Type} (f : α → Bool) (l : List α) : Option Nat := l.findIdx? f

/-- The least element of a list of numbers. -/
def minOf : List Nat → Option Nat
  | [] => none
  | x :: t => match minOf t with
    | none => some x
    | some y => some (Nat.min x y)

/-- Insert into a list sorted ascending, keeping one copy. -/
def insertAsc (x : Nat) : List Nat → List Nat
  | [] => [x]
  | y :: t => if x < y then x :: y :: t else if x = y then y :: t else y :: insertAsc x t

/-- Distinct values, ascending. -/
def distinctAsc (l : List Nat) : List Nat := l.foldr insertAsc []

end Sys2Proof.Machine
end

