-- ==== Sys2Proof/Machine/Sparse.lean ====
section
/-! DEFINITION. Sparse maps in one canonical form: reading, writing, and the form itself. Memory, registers, accumulator
cells and tables are all held this way, so a write is stated once and equal contents are equal data. -/
namespace Sys2Proof.Machine

/-- The value at key `k`; `d` where none is listed. -/
def sget {α : Type} (d : α) : SMap α → Nat → α
  | [], _ => d
  | (k', x) :: t, k => if k' = k then x else sget d t k

/-- Insert a pair before the first greater key. -/
def sins {α : Type} (k : Nat) (x : α) : SMap α → SMap α
  | [] => [(k, x)]
  | (k', y) :: t => if k < k' then (k, x) :: (k', y) :: t else (k', y) :: sins k x t

/-- The map without key `k`. -/
def sdel {α : Type} (m : SMap α) (k : Nat) : SMap α := m.filter fun e => e.1 != k

/-- Set the value at key `k`; setting the default removes the entry. -/
def sset {α : Type} [DecidableEq α] (d : α) (m : SMap α) (k : Nat) (x : α) : SMap α :=
  if x = d then sdel m k else sins k x (sdel m k)

/-- Set many keys, from left to right. -/
def ssetAll {α : Type} [DecidableEq α] (d : α) (m : SMap α) (l : List (Nat × α)) : SMap α :=
  l.foldl (fun m e => sset d m e.1 e.2) m

/-- Replace a run of keys from `lo` by the listed values, defaults left out. -/
def sfill {α : Type} [DecidableEq α] (d : α) (m : SMap α) (lo : Nat) (xs : List α) : SMap α :=
  m.filter (fun e => e.1 < lo) ++ (xs.zipIdx lo).filterMap (fun e => if e.1 = d then none else some (e.2, e.1))
    ++ m.filter (fun e => lo + xs.length ≤ e.1)

/-- The values of a run of keys. -/
def srun {α : Type} (d : α) (m : SMap α) (lo n : Nat) : List α :=
  let sub := m.filter fun e => lo ≤ e.1 && e.1 < lo + n
  (List.range n).map fun i => sget d sub (lo + i)

/-- The canonical form: keys strictly rising, no value equal to the default. -/
def swf {α : Type} [DecidableEq α] (d : α) : SMap α → Bool
  | [] => true
  | (k, x) :: t => decide (x ≠ d) && (match t with | [] => true | (k', _) :: _ => decide (k < k')) && swf d t

/-- Device and host memory: an unlisted byte reads 0 (R351: memory is zeroed before full service; log 4). -/
abbrev Memory := SMap Byte

/-- The canonical form of memory. -/
abbrev Memory.wf (m : Memory) : Bool := swf (0#8) m

end Sys2Proof.Machine
end

