-- ==== Sys2Proof/Machine/Memory.lean ====
section
/-! DEFINITION. Physical memory and what stands in it for the hardware: full/empty states, page tables and TLBs, the
parking area, the fault queue and the hotness ring (R148 to R154, R306 to R313). -/
namespace Sys2Proof.Machine

/-! ### Bytes -/

/-- The little-endian number in `n` bytes at a physical address (R14). -/
def rd (s : State) (pa n : Nat) : Nat := ofBytes (srun 0#8 s.mem pa n)

/-- The bytes at a physical address. -/
def rdBytes (s : State) (pa n : Nat) : List Byte := srun 0#8 s.mem pa n

/-- Pairs of address and byte for a list of bytes placed at an address. -/
def placed (pa : Nat) (bs : List Byte) : List (Nat × Byte) := (List.range bs.length).map fun i => (pa + i, bs.getD i 0)

/-- Memory with these bytes at a physical address. -/
def wrBytes (s : State) (pa : Nat) (bs : List Byte) : State := { s with mem := sfill 0#8 s.mem pa bs }

/-- Memory with the low `n` bytes of a number at a physical address. -/
def wr (s : State) (pa n x : Nat) : State := wrBytes s pa (toBytes n x)

/-- Fields of a record, each a value and a byte count, one after another. -/
def layout (l : List (Nat × Nat)) : List Byte := l.flatMap fun f => toBytes f.2 f.1

/-- Whether an uncorrectable error stands in the bytes (R136, R295). -/
def poisoned (s : State) (pa n : Nat) : Bool := s.poison.any fun w => decide (pa < 4 * w + 4) && decide (4 * w < pa + n)

/-- The valid physical addresses (R308). In reduced service D0's 96 MiB are all the memory there is (R351; DEDUCED, log
38). -/
def paValid (s : State) (pa : Nat) : Bool :=
  if s.boot == 1#2 then pa < 96 * 2 ^ 20
  else if pa / 2 ^ 51 % 2 == 1 then pa < 2 ^ 52 else pa / 2 ^ 39 < 4 && pa % 2 ^ 39 < 288 * 2 ^ 30

/-! ### Contexts, blocks and groups -/

def Ctx.absent : Ctx := { desc := 0, st := 0, key := none, febudget := 0, served := 0 }
def State.ctx (s : State) (c : Nat) : Ctx := sget Ctx.absent s.ctxs c
def State.setCtx (s : State) (c : Nat) (x : Ctx) : State := { s with ctxs := sset Ctx.absent s.ctxs c x }

/-- A field of a context's descriptor in device memory (R317). -/
def cxd (s : State) (c off n : Nat) : Nat := rd s ((s.ctx c).desc.toNat + off) n

def State.modBlk (s : State) (b : Nat) (f : Block → Block) : State := { s with blocks := s.blocks.modify b f }
def Block.modGrp (b : Block) (j : Nat) (f : Group → Group) : Block := { b with groups := b.groups.modify j f }
def State.modGrp (s : State) (r : GRef) (f : Group → Group) : State := s.modBlk r.blk fun b => b.modGrp r.grp f
def State.modLaunch (s : State) (l : Nat) (f : Launch → Launch) : State := { s with launches := s.launches.modify l f }
def State.grp? (s : State) (r : GRef) : Option Group := (s.blocks[r.blk]?).bind fun b => b.groups[r.grp]?

/-- A group with its block, its launch and its context number. -/
structure Who where
  r : GRef
  g : Group
  b : Block
  l : Launch
  deriving DecidableEq, Repr

def who? (s : State) (r : GRef) : Option Who := do
  let b ← s.blocks[r.blk]?
  let g ← b.groups[r.grp]?
  let l ← s.launches[b.launch]?
  return { r := r, g := g, b := b, l := l }

def Who.c (w : Who) : Nat := w.l.ctx
def Who.die (w : Who) : Nat := w.b.core / 144

/-- The resident group number (R152). -/
def resNum (core j slot : Nat) : Nat := 64 * core + 16 * (j % 4) + slot
def Who.res (w : Who) : Nat := resNum w.b.core w.r.grp w.g.slot

/-- Cut a range into pieces that cross no 4 KiB page: address, offset and length. -/
def pageCut : (fuel off : Nat) → (a : W64) → (n : Nat) → List (W64 × Nat × Nat)
  | 0, _, _, _ => []
  | k + 1, off, a, n =>
    if n == 0 then []
    else
      let m := min n (4096 - a.toNat % 4096)
      (a, off, m) :: pageCut k (off + m) (a + u64 m) (n - m)

/-! ### Translation (R306 to R311) -/

/-- Base-two logarithms of the page sizes by SZ (R307). -/
def pageLog (sz : Nat) : Nat := [12, 14, 16, 18, 20, 21, 22, 24, 25, 26, 28, 29, 30, 31, 32, 34].getD sz 12

inductive WalkRes where
  | leaf (slot pte : Nat)
  | unmapped
  | bad (lvl entry : Nat)
  deriving DecidableEq, Repr

/-- The frame of an entry, bits 51:12. -/
def frameOf (e : Nat) : Nat := field e 12 40 * 4096
def pteW (e : Nat) : Bool := e.testBit 1
def pteX (e : Nat) : Bool := e.testBit 2
def pteRP (e : Nat) : Bool := e.testBit 62

/-- The checks of R309 on a leaf at its level. -/
def leafOk (s : State) (lvl e : Nat) : Bool :=
  let sz := field e 58 4
  field e 52 6 == 0 && field e 8 4 == 0 && field e 5 2 == 0 && (if lvl == 2 then sz ≥ 7 else lvl == 3 && sz ≤ 6)
    && frameOf e % 2 ^ pageLog sz == 0 && paValid s (frameOf e) && (!pteRP e || frameOf e / 2 ^ 39 == 0)

/-- The checks of R309 on a table entry. -/
def tableOk (s : State) (lvl e : Nat) : Bool :=
  lvl < 3 && field e 52 12 == 0 && field e 1 4 == 0 && field e 5 2 == 0 && field e 8 4 == 0 && field e 12 3 == 0
    && paValid s (frameOf e)

/-- The walk (R306) from a table, through the levels listed. -/
def walkFrom (s : State) (va : Nat) : List Nat → Nat → WalkRes
  | [], _ => .unmapped
  | lvl :: rest, table =>
    let slot := table + 8 * field va (48 - 12 * lvl) 12
    let e := rd s slot 8
    if !e.testBit 0 then .unmapped
    else if e.testBit 7 then (if leafOk s lvl e then .leaf slot e else .bad lvl e)
    else if tableOk s lvl e then walkFrom s va rest (frameOf e) else .bad lvl e

def walk (s : State) (c : Nat) (fabric : Bool) (va : Nat) : WalkRes :=
  walkFrom s va [0, 1, 2, 3] (cxd s c (if fabric then 8 else 0) 8)

/-- A translation: the physical address, the entry used, and where that entry stands. -/
structure Hit where
  pa   : Nat
  pte  : Nat
  slot : Option Nat
  deriving DecidableEq, Repr

inductive XRes where
  | hit (h : Hit)
  | unmapped
  | bad (lvl entry : Nat)
  deriving DecidableEq, Repr

/-- An entry without its NF, D and AC bits. -/
def pteCore (e : Nat) : Nat := e % 2 ^ 63 - (field e 3 2) * 8

def pageSize (pte : Nat) : Nat := 2 ^ pageLog (field pte 58 4)
def pageOff (pte va : Nat) : Nat := va % pageSize pte

/-- The virtual range that one index of a leaf's table covers (R306): 4 KiB at level 3, 16 MiB at level 2. -/
def indexSize (pte : Nat) : Nat := if field pte 58 4 ≤ 6 then 2 ^ 12 else 2 ^ 24

/-- Set hardware bits in the leaf at the index used (R307). -/
def setPte (s : State) (slot : Option Nat) (mask : Nat) : State :=
  match slot with
  | some p => let e := rd s p 8; if e.testBit 0 && e.testBit 7 && e ||| mask != e then wr s p 8 (e ||| mask) else s
  | none => s

/-! ### Fresh mappings (R148) -/

/-- The physical range that the index of a leaf covers: the pages of one table stand in naturally aligned runs. -/
def piecePa (slot pte : Nat) : Nat := frameOf pte + (slot % 32768 / 8) % (pageSize pte / indexSize pte) * indexSize pte

/-- Whether another leaf that has been used still maps some of the same memory. -/
def sharedPiece (s : State) (slot pte : Nat) : Bool :=
  s.leaves.any fun q =>
    let p := q.1
    let e := rd s p 8
    p != slot && e.testBit 0 && e.testBit 7
      && decide (piecePa p e < piecePa slot pte + indexSize pte) && decide (piecePa slot pte < piecePa p e + indexSize e)

/-- The first translation through a leaf finds its words as a freshly mapped page has them, in state 01 (R148): through one
that has not been used before, as this machine or the leaf's own bits say, and through which nothing was written or emptied, of
memory that no other used leaf maps and where no other device has changed a state (DESIGN CHOICE, log 38). -/
def mapFresh (s : State) (slot pte : Nat) : State :=
  if s.leaves.contains (slot, frameOf pte) then s
  else
    let t := { s with leaves := (slot, frameOf pte) :: s.leaves.filter fun e => e.1 != slot }
    if pte.testBit 3 || pte.testBit 4 || pte.testBit 63 || sharedPiece s slot pte then t
    else
      let lo := piecePa slot pte / 4
      let n := indexSize pte / 4
      let inPage (k : Nat) : Bool :=
        if pteRP pte then decide (k < 2 ^ 39) && (decide (lo ≤ k % 2 ^ 37) && decide (k % 2 ^ 37 < lo + n)) else decide (lo ≤ k) && decide (k < lo + n)
      { t with fe := s.fe.filter fun e => !inPage e.1 || s.farPages.contains (e.1 / 1024) }

/-! ### TLBs (R6, R310, R311) -/

/-- How many pages a TLB holds (R6, R310). -/
def Tlb.room : Tlb → Nat
  | .core _ => 128
  | .engine _ => 64
  | .die _ => 4096

/-- The TLBs that an access of a core, or of a core's quad engine, looks in and fills. Hub agents have none. -/
def coreTlbs (core : Nat) : List Tlb := [.core core, .die (core / 144)]
def engineTlbs (core : Nat) : List Tlb := [.engine (core / 144 * 36 + core % 144 / 24 * 6 + core % 12 / 2), .die (core / 144)]

def Who.tlbs (w : Who) : List Tlb := coreTlbs w.b.core

/-- The page that an entry names, whatever its index. -/
def TlbEntry.page (e : TlbEntry) : Nat × Bool × Nat × W64 := (e.ctx, e.fabric, e.base - e.base % pageSize e.pte.toNat, e.pte)

/-- Put a leaf into its TLB; in a full one another page makes room, which one is free (log 13). -/
def tlbInsert (s : State) (e : TlbEntry) : State :=
  if s.tlb.contains e then s
  else
    let pages := ((s.tlb.filter fun t => t.holder = e.holder).map TlbEntry.page).eraseDups
    if pages.contains e.page || pages.length < e.holder.room then { s with tlb := e :: s.tlb }
    else
      let out := pages[Config.tlbVictim s.fresh % max pages.length 1]?
      { s with tlb := e :: s.tlb.filter (fun t => t.holder ≠ e.holder || some t.page ≠ out), fresh := s.fresh + 1 }

/-- What a walk answers: its leaf, now in the TLBs, has AC set (R307, R310). `far` says that the page is another device's: it is
no mapping of this device's memory. -/
def refill (s : State) (at_ : List Tlb) (c : Nat) (fabric : Bool) (va : Nat) (walked : WalkRes) (far : Bool := false) : State × XRes :=
  match walked with
  | .leaf slot pte =>
    let size := indexSize pte
    let s := setPte (if far then s else mapFresh s slot pte) (some slot) 8
    (at_.foldl (fun s h => tlbInsert s { holder := h, ctx := c, fabric := fabric, base := va - va % size, size := size, slot := slot,
                                         pte := u64 (pteCore pte) }) s,
     .hit { pa := frameOf pte + pageOff pte va, pte := pte, slot := some slot })
  | .unmapped => (s, .unmapped)
  | .bad l e => (s, .bad l e)

/-- Whether a walk answers another leaf than the one given, or none. -/
def otherLeaf (walked : WalkRes) (pte : Nat) : Bool := match walked with
  | .leaf _ e => pteCore e != pte
  | _ => true

/-- The leaf for an address that one of these TLBs holds. -/
def heldLeaf (s : State) (at_ : List Tlb) (c : Nat) (fabric : Bool) (va : Nat) : Option TlbEntry :=
  s.tlb.find? fun t => at_.contains t.holder && t.ctx == c && t.fabric == fabric && decide (t.base ≤ va) && decide (va < t.base + t.size)

/-- Translate an address: the walk, unless a TLB still holds another leaf for it and that one is used (R310, R311). One
step takes one choice for a page: an instruction looks each page up once. A retry looks in no TLB (R311). -/
def xlat (s : State) (at_ : List Tlb) (c : Nat) (fabric : Bool) (va : Nat) (far : Bool := false) : State × XRes :=
  let fresh := refill s at_ c fabric va (walk s c fabric va) far
  match heldLeaf s at_ c fabric va with
  | none => fresh
  | some t =>
    let pte := t.pte.toNat
    if otherLeaf (walk s c fabric va) pte && Config.useStaleLeaf s.steps (va - va % pageSize pte) then
      (s, .hit { pa := frameOf pte + pageOff pte va, pte := pte, slot := some t.slot })
    else fresh

/-- The leaf that `xlat` uses for an address, if it has one. -/
def usedLeaf (s : State) (at_ : List Tlb) (c : Nat) (fabric : Bool) (va : Nat) : Option Nat :=
  let walked := walk s c fabric va
  let stale := (heldLeaf s at_ c fabric va).filter fun t =>
    otherLeaf walked t.pte.toNat && Config.useStaleLeaf s.steps (va - va % pageSize t.pte.toNat)
  match stale, walked with
  | some t, _ => some t.pte.toNat
  | none, .leaf _ pte => some pte
  | none, _ => none

/-- The size of the page of an address, 4 KiB where it is not mapped: of the smallest one where a TLB still holds another. -/
def pageSizeAt (s : State) (c : Nat) (fabric : Bool) (va : Nat) : Nat :=
  let walked := match walk s c fabric va with
    | .leaf _ pte => pageSize pte
    | _ => 4096
  (s.tlb.filter fun t => t.ctx == c && t.fabric == fabric && decide (t.base ≤ va) && decide (va < t.base + t.size)).foldl
    (fun m t => min m (pageSize t.pte.toNat)) walked

/-- Replica `d` of a location in a replicated page (R308). -/
def replica (pa d : Nat) : Nat := pa % 2 ^ 39 + d * 2 ^ 39

/-! ### Full/empty states (R148 to R154) -/

def feOf (s : State) (word : Nat) : BitVec 2 := sget 1#2 s.fe word
def isFull (s : State) (word : Nat) : Bool := (feOf s word).getLsbD 0
def setFe (s : State) (word : Nat) (x : BitVec 2) : State := { s with fe := sset 1#2 s.fe word x }

/-- The words that `n` bytes at a physical address touch. -/
def wordsOf (pa n : Nat) : List Nat := (List.range ((pa % 4 + n + 3) / 4)).map fun i => pa / 4 + i

/-- The bucket of a word's virtual address (R152). -/
def bucketOf (va : Nat) : Nat :=
  let x := field va 2 58
  field x 0 12 ^^^ field x 12 12 ^^^ field x 24 12 ^^^ field x 36 12 ^^^ field x 48 10

def bucketPa (s : State) (c va : Nat) : Nat := cxd s c 0x10 8 + 64 * bucketOf va

/-- Put a resident group number into a bucket: after the entries it holds (log 24). -/
def bucketAdd (s : State) (c va num : Nat) : State :=
  let p := bucketPa s c va
  let n := rd s p 2
  wr (wr s (p + 4 + 2 * n) 2 num) p 2 (n + 1)

/-- Take one entry of a resident group number out of a bucket; later entries move down. -/
def bucketDel (s : State) (c va num : Nat) : State :=
  let p := bucketPa s c va
  let n := rd s p 2
  let es := (List.range n).map fun i => rd s (p + 4 + 2 * i) 2
  let es' := es.erase num
  if es'.length == n then s
  else wrBytes (wr s p 2 (n - 1)) (p + 4) (layout ((es' ++ [0xFFFF]).map fun e => (e, 2)))

def bucketFull (s : State) (c va : Nat) : Bool := rd s (bucketPa s c va) 2 ≥ 30

/-- Record a group on a word: the parking area, the model's own index, and the waiters bit (R78, R151). -/
def park (s : State) (w : Who) (word va : Nat) : State :=
  let s := bucketAdd s w.c va w.res
  let s := { s with parked := sset [] s.parked word (sget [] s.parked word ++ [(w.r, va)]) }
  setFe s word (feOf s word ||| 2#2)

/-- Remove every record of a group from the parking area. The waiters bits stay as they are. -/
def unparkAll (s : State) (w : Who) : State :=
  (s.parked.flatMap fun e => e.2.filterMap fun x => if x.1 = w.r then some (e.1, x.2) else none).foldl (fun s e =>
    let s := bucketDel s w.c e.2 w.res
    { s with parked := sset [] s.parked e.1 ((sget [] s.parked e.1).filter fun x => x.1 ≠ w.r) }) s

/-- Whether a group has any entry in the parking area (R153). -/
def hasParkEntry (s : State) (r : GRef) : Bool := s.parked.any fun e => e.2.any fun x => x.1 = r

/-- Take the records of one word out of the parking area and wake their groups: a parked group starts its wake, a
waiting one evaluates its WAIT again (R151). -/
def wakeWord (s : State) (word : Nat) : State :=
  (sget [] s.parked word).foldl (fun s e =>
    let s := match who? s e.1 with
      | some w => bucketDel s w.c e.2 w.res
      | none => s
    s.modGrp e.1 fun g => match g.status with
      | .parked _ => { g with status := .woken }
      | .waiting t h x => { g with status := .waiting { t with recs := t.recs.filter (· != e.2), woken := true } h x }
      | _ => g) { s with parked := sset [] s.parked word [] }

/-- Leave a word's FULL bit at `full`: a change under waiters clears the waiters bit and wakes (R151); a word that
becomes non-FULL sets NF in its leaf (R154). -/
def setFull (s : State) (slot : Option Nat) (word : Nat) (full : Bool) : State :=
  let old := feOf s word
  if old.getLsbD 0 == full then s
  else
    let s := setFe s word (if full then 1#2 else 0#2)
    let s := if full then s else setPte s slot (2 ^ 63)
    if old.getLsbD 1 then wakeWord s word else s

/-! ### Leaf controllers (R4, R323, R337) -/

/-- The region number (R337), which is that of its leaf controller (R4). -/
def regionOf (core : Nat) : Nat := 18 * (core / 144) + 3 * (core % 144 / 24) + core % 12 / 4

def State.modLeaf (s : State) (n : Nat) (f : LeafLink → LeafLink) : State := { s with leafLinks := vmod s.leafLinks n f }

/-- Whether a core's leaf has an upward permit for a message; the hub's own agents need none. -/
def leafMay (s : State) (core : Nat) : Bool := core ≥ 576 || decide (0 < ((s.leafLinks[regionOf core]?).map (·.up)).getD 0)

/-- A core's leaf sends the March core a fault message, which takes a permit (R323). -/
def leafFault (s : State) (core : Nat) : State :=
  if core ≥ 576 then s else s.modLeaf (regionOf core) fun f => { f with up := f.up - 1, faults := f.faults + 1 }

/-! ### The fault queue (R312) -/

inductive FQ where
  | ok (s : State)
  | full
  | bad (addr count : Nat)
  deriving DecidableEq, Repr

def fqCountOk (n : Nat) : Bool := (List.range 17).any fun i => n == 2 ^ (i + 4)

/-- Append a record: virtual address, agent, write, resident group number and CORE. The leaf reports the fault to the March
core; without a permit for that message, as without room in the queue, the agent waits (R323). -/
def faultRecord (s : State) (c : Nat) (va : W64) (agent : Nat) (write : Bool) (num core : Nat) : FQ :=
  let q := cxd s c 0x18 8
  let n := rd s (q + 24) 4
  if !fqCountOk n then .bad q n
  else
    let wi := rd s q 8
    if (wi + 2 ^ 64 - rd s (q + 8) 8) % 2 ^ 64 ≥ n || !leafMay s core then .full
    else
      let rec_ := layout [(va.toNat, 8), (agent, 1), (if write then 1 else 0, 1), (num, 2), (core, 4), (s.tick, 8), (0, 8)]
      .ok (leafFault (wr (wrBytes s (q + 64 + 32 * (wi % n)) rec_) q 8 ((wi + 1) % 2 ^ 64)) core)

def serviceCounter (s : State) (c : Nat) : W64 := u64 (rd s (cxd s c 0x18 8 + 16) 8)

/-! ### Hotness sampling (R313) -/

/-- Count one translated page lookup of a core, and write a record at every 2^k-th. -/
def lookup (s : State) (c core type : Nat) (va : W64) : State :=
  let n := sget 0 s.lookups core + 1
  let s := { s with lookups := sset 0 s.lookups core n }
  let k := cxd s c 0x2C 1
  if k < 4 || k > 24 || n % 2 ^ k != 0 then s
  else
    let q := cxd s c 0x20 8
    let cnt := cxd s c 0x28 4
    let wi := rd s q 8
    if (wi + 2 ^ 64 - rd s (q + 16) 8) % 2 ^ 64 ≥ cnt then wr s (q + 8) 8 (rd s (q + 8) 8 + 1)
    else
      let rec_ := layout [(va.toNat, 8), (core, 2), (type, 1), (0, 5), (s.tick, 8), (0, 8)]
      wr (wrBytes s (q + 64 + 32 * (wi % cnt)) rec_) q 8 ((wi + 1) % 2 ^ 64)

end Sys2Proof.Machine
end

