-- ==== Sys2Proof/Machine/Flags.lean ====
section
/-! DEFINITION. The numeric flags: how an instruction's flags reach FLAGS and the lane flags, and how FLAGS reads
(R98, R217 to R219). Bits 6:0 are MNAN, SAT, NX, UF, OF, DZ, IV. -/
namespace Sys2Proof.Machine

def FlagSet.none : FlagSet := { lanes := Vector.replicate 32 0#7, grp := 0 }
/-- Flags that belong to no single lane. -/
def FlagSet.ofGroup (f : BitVec 7) : FlagSet := { FlagSet.none with grp := f }
/-- Flags by lane, for the lanes of a mask. -/
def FlagSet.ofLanes (m : Mask) (f : Nat → BitVec 7) : FlagSet := { lanes := Machine.lanes fun l => if has m l then f l else 0, grp := 0 }

/-- The OR of every lane's flags. -/
def FlagSet.any (f : FlagSet) : BitVec 7 := f.lanes.toList.foldl (· ||| ·) 0#7

/-- Raise an instruction's flags when its result commits (R98): in diagnostic mode the five IEEE flags of a lane go to
that lane (R219). -/
def raiseFlags (diag : Bool) (f : FlagSet) (g : Group) : Group :=
  let up (x : BitVec 7) : W32 := x.setWidth 32
  if diag then
    { g with flags := g.flags ||| up f.grp ||| up (f.any &&& 0x60#7),
             laneFlags := lanes fun l => lget 0 g.laneFlags l ||| (lget 0 f.lanes l).setWidth 5 }
  else { g with flags := g.flags ||| up f.grp ||| up f.any }

/-- FLAGS as it reads: bit 31 is DG, bits 4:0 include the lane flags in diagnostic mode (R217, R219). -/
def readFlags (diag : Bool) (g : Group) : W32 :=
  if diag then g.flags ||| ((g.laneFlags.toList.foldl (· ||| ·) 0#5).setWidth 32) ||| 0x80000000#32 else g.flags

/-- A write to FLAGS (R217, R219). -/
def writeFlags (x : W32) (g : Group) : Group :=
  { g with flags := x &&& 0x7F#32, laneFlags := g.laneFlags.map fun f => f &&& x.setWidth 5 }

/-- Clear the flags of a mask, in FLAGS and in every lane (R219, R228). -/
def clearFlags (m : BitVec 7) (g : Group) : Group :=
  { g with flags := g.flags &&& ~~~(m.setWidth 32), laneFlags := g.laneFlags.map fun f => f &&& ~~~(m.setWidth 5) }

/-- Merge BFLAGS into a group's FLAGS (R218). -/
def mergeBflags (bflags : W32) (g : Group) : Group := { g with flags := g.flags ||| (bflags &&& 0x7F#32) }

/-- Whether a context is in diagnostic mode (R219, R317). -/
def diagMode (s : State) (c : Nat) : Bool := (cxd s c 0x2D 1).testBit 0
/-- Whether the debugger's stops on BKPT are enabled (R302, R317). -/
def debugStops (s : State) (c : Nat) : Bool := (cxd s c 0x2D 1).testBit 1

end Sys2Proof.Machine
end

