-- ==== Sys2Proof/Machine/Ops.lean ====
section
/-! DEFINITION. The named operations over registers, pending results, sweep levels, traps, termination and completion:
taking an exception (`enterHandler`, R288) and returning from one (`leaveHandler`, R303) stand here. -/
namespace Sys2Proof.Machine

/-! ### Levels (R68, R84, R291) -/

/-- Handler depth of a group. -/
def Group.depth (g : Group) : Nat := g.frames.length

/-- The level a group runs at: its innermost handler's, or its own. -/
def Group.cl (g : Group) : Level :=
  match g.frames with
  | [] => g.lvl
  | f :: _ => f.lvl

def Group.modCl (g : Group) (k : Level → Level) : Group :=
  match g.frames with
  | [] => { g with lvl := k g.lvl }
  | f :: t => { g with frames := { f with lvl := k f.lvl } :: t }

/-- The level at a depth: 0 the group's own frame. Frames are listed innermost first. -/
def Group.levelAt (g : Group) (d : Nat) : Level :=
  if d = 0 then g.lvl else match g.frames[g.frames.length - d]? with
    | some f => f.lvl
    | none => g.lvl

def Group.modFrame (g : Group) (d : Nat) (k : HandlerFrame → HandlerFrame) : Group :=
  if d = 0 || d > g.frames.length then g else { g with frames := g.frames.modify (g.frames.length - d) k }

def Group.modLevel (g : Group) (d : Nat) (k : Level → Level) : Group :=
  if d = 0 then { g with lvl := k g.lvl } else g.modFrame d fun f => { f with lvl := k f.lvl }

def Group.frameAt (g : Group) (d : Nat) : Option HandlerFrame :=
  if d = 0 || d > g.frames.length then none else g.frames[g.frames.length - d]?

def wlOf (v : Level) (l : Nat) : W16 := lget 0xFFFF#16 v.wl l
def riOf (v : Level) (l : Nat) : BitVec 12 := lget 0#12 v.ri l

/-- Live lanes: WL below 0xFFFE (R68). -/
def liveMask (v : Level) : Mask := maskOf fun l => wlOf v l < 0xFFFE#16
/-- Active lanes of the block the level is in (R70). -/
def activeMask (v : Level) : Mask := maskOf fun l => wlOf v l < 0xFFFE#16 && wlOf v l == v.label && riOf v l == 0#12

def Level.setWl (v : Level) (m : Mask) (x : Nat → W16) : Level := { v with wl := lanes fun l => if has m l then x l else wlOf v l }
def Level.setRi (v : Level) (m : Mask) (x : Nat → BitVec 12) : Level := { v with ri := lanes fun l => if has m l then x l else riOf v l }

/-! ### Registers (R32, R34) -/

/-- The value of v[n] in lane l at a depth: in handler mode, 224 upward name the bank (R34). -/
def readVAt (g : Group) (d n l : Nat) : W32 :=
  match (if n ≥ 224 then g.frameAt d else none) with
  | some f => sget 0 f.h ((n - 224) * 32 + l)
  | none => sget 0 g.v (n * 32 + l)

/-- The value of s[n] at a depth: in handler mode, 112 upward name the bank (R34). -/
def readSAt (g : Group) (d n : Nat) : W32 :=
  match (if n ≥ 112 then g.frameAt d else none) with
  | some f => sget 0 f.hs (n - 112)
  | none => sget 0 g.s n

def pOf (v : Level) (n : Nat) : Mask := if n ≥ 7 then 0xFFFFFFFF#32 else v.p[n]?.getD 0
def qOf (v : Level) (n : Nat) : Bool := n ≥ 7 || v.q.getLsbD n

def readV (g : Group) (n l : Nat) : W32 := readVAt g g.depth n l
def readS (g : Group) (n : Nat) : W32 := readSAt g g.depth n
def readP (g : Group) (n : Nat) : Mask := pOf g.cl n
def readQ (g : Group) (n : Nat) : Bool := qOf g.cl n
/-- Register pairs: low word in the even register (R27). -/
def readVV (g : Group) (n l : Nat) : W64 := pair (readV g n l) (readV g (n + 1) l)
def readSS (g : Group) (n : Nat) : W64 := pair (readS g n) (readS g (n + 1))

/-- Write one register at a depth; p7 and q7 discard (R32). -/
def applyWrite (d : Nat) (g : Group) : RegWrite → Group
  | .v n mask x =>
    let put (k : Nat) (m : SMap W32) : SMap W32 := ssetAll 0 m ((laneList mask).map fun l => (k * 32 + l, lget 0 x l))
    if n ≥ 224 && d > 0 then g.modFrame d fun f => { f with h := put (n - 224) f.h }
    else { g with v := put n g.v }
  | .s n x =>
    if n ≥ 112 && d > 0 then g.modFrame d fun f => { f with hs := sset 0 f.hs (n - 112) x }
    else { g with s := sset 0 g.s n x }
  | .p n mask x =>
    if h : n < 7 then g.modLevel d fun v => { v with p := v.p.set n ((v.p[n] &&& ~~~mask) ||| (x &&& mask)) } else g
  | .q n x =>
    if n < 7 then g.modLevel d fun v => { v with q := bitsBelow (fun i => if i = n then x else v.q.getLsbD i) 7 } else g

def applyWrites (d : Nat) (ws : List RegWrite) (g : Group) : Group := ws.foldl (applyWrite d) g

/-- A register as a number, distinct for distinct storage at a depth. -/
inductive Reg where
  | v (n : Nat)
  | s (n : Nat)
  | p (n : Nat)
  | q (n : Nat)
  deriving DecidableEq, Repr

def Reg.key (d : Nat) : Reg → Nat
  | .v n => if n ≥ 224 && d > 0 then 1000 * d + n else n
  | .s n => if n ≥ 112 && d > 0 then 1000 * d + 256 + n else 10000 + n
  | .p n => 20000 + 16 * d + n
  | .q n => 20000 + 16 * d + 8 + n

def RegWrite.reg : RegWrite → Reg
  | .v n _ _ => .v n
  | .s n _ => .s n
  | .p n _ _ => .p n
  | .q n _ => .q n

/-! ### Pending fixed-latency writes (R19 to R21) -/

/-- Insert by due distance, after those due no later: the order of commitment. -/
def insDue (p : Pending) : List Pending → List Pending
  | [] => [p]
  | x :: t => if p.due < x.due then p :: x :: t else x :: insDue p t

def commitList (diag : Bool) (ps : List Pending) (g : Group) : Group :=
  (ps.foldl (fun l p => insDue p l) []).foldl (fun g p => raiseFlags diag p.flags (applyWrites g.depth p.writes g)) g

/-- Commit the writes whose issue distance has been reached (R19). -/
def commitDue (diag : Bool) (g : Group) : Group :=
  commitList diag (g.pend.filter fun p => p.due ≤ g.clock) { g with pend := g.pend.filter fun p => !(p.due ≤ g.clock) }

/-- Commit every pending write (R21). -/
def commitAll (diag : Bool) (g : Group) : Group := commitList diag g.pend { g with pend := [] }

/-! ### Results in flight (R23, R39) -/

/-- The generation tag of one of a group's granules. -/
def tagOf (g : Group) (k : Nat) : BitVec 4 := ((g.grans[k]?).map (·.2)).getD 0#4

/-- The granules of the group's own vector registers that some writes reach: which of the group's, its number and its tag. -/
def tagsFor (g : Group) (d : Nat) (ws : List RegWrite) : List (Nat × Nat × BitVec 4) :=
  (ws.filterMap fun w => match w with
    | .v n _ _ => if n ≥ 224 && d > 0 then none else some (n / 8)
    | _ => none).eraseDups.filterMap fun k => (g.grans[k]?).map fun t => (k, t)

/-- Whether a target granule of a result still carries the tag that the result took at its issue: it has not left the allocation
since, for it is not granted again while the result is on its way (R38). -/
def tagHolds (g : Group) (t : Nat × Nat × BitVec 4) : Bool := g.grans[t.1]? == some t.2

/-- A result arrives: registers whose granule's tag no longer matches are left alone, and DROPCNT counts the drop. -/
def arriveOne (diag : Bool) (x : InFlight) (g : Group) : Group :=
  let stale (n : Nat) : Bool := x.tags.any fun t => t.1 == n / 8 && !tagHolds g t
  let dropped (w : RegWrite) : Bool := match w with
    | .v n _ _ => !(n ≥ 224 && x.depth > 0) && stale n
    | _ => false
  let g := applyWrites x.depth (x.writes.filter fun w => !dropped w) g
  let g := raiseFlags diag x.flags g
  if x.writes.any dropped then { g with dropcnt := if g.dropcnt == 0xFFFFFFFF#32 then g.dropcnt else g.dropcnt + 1 } else g

/-- Let the results arrive that satisfy a test, in issue order. -/
def arriveIf (diag : Bool) (f : InFlight → Bool) (g : Group) : Group :=
  (g.inflight.filter f).foldl (fun g x => arriveOne diag x g) { g with inflight := g.inflight.filter fun x => !f x }

/-- A group that the debugger stops: every result on its way to its registers has arrived (R138, R230). -/
def stopHere (diag : Bool) (g : Group) : Group := { arriveIf diag (fun _ => true) g with status := .stopped }

/-- Whether a result in flight is addressed to one of these registers. -/
def InFlight.touches (x : InFlight) (d : Nat) (rs : List Reg) : Bool :=
  let ks := rs.map (Reg.key d)
  x.writes.any fun w => ks.contains (w.reg.key x.depth)

/-! ### Handler banks (R35) -/

/-- Groups resident in a partition of a core. -/
def partitionGroups (s : State) (core part : Nat) : List Group :=
  s.blocks.flatMap fun b => if b.st = .resident && b.core = core then
    (List.range b.groups.length).filterMap fun j => if j % 4 = part then b.groups[j]? else none else []

/-- The groups that hold a bank of a depth in a group's partition. A restored group takes its banks in ascending depth. -/
def bankHolders (s : State) (w : Who) (d : Nat) : List Group :=
  (partitionGroups s w.b.core (w.r.grp % 4)).filter fun g => d ≤ g.depth - g.lacks && g.status ≠ .retired

/-! ### Granules (R5, R38, R39) -/

/-- A granule of a partition among all of the package. -/
def granKey (core part k : Nat) : Nat := 128 * (4 * core + part) + k

/-- Granules leave an allocation: their tags rise (R39). -/
def State.dropGrans (s : State) (core part : Nat) (gs : List (Nat × BitVec 4)) : State :=
  { s with granTags := ssetAll 0#4 s.granTags (gs.map fun e => (granKey core part e.1, e.2 + 1#4)) }

/-- All of a group's granules leave its allocation. -/
def releaseGrans (s : State) (r : GRef) : State :=
  match who? s r with
  | none => s
  | some w => (s.dropGrans w.b.core (r.grp % 4) w.g.grans).modGrp r fun g => { g with grans := [] }

/-- The granules of a partition that a group holds or a result is on its way to (R38). -/
def usedGrans (s : State) (core part : Nat) : List Nat :=
  (s.blocks.filter fun b => b.core = core).flatMap fun b => (List.range b.groups.length).flatMap fun j =>
    if j % 4 = part then (match b.groups[j]? with
      | some g => g.grans.map (·.1) ++ g.inflight.flatMap fun x => x.tags.map (·.2.1)
      | none => []) else []

/-- Grant a group one more granule of its partition. The spec does not say which of those that are free: the choice is free
(log 41). -/
def grantOne (s : State) (r : GRef) : State :=
  match s.blocks[r.blk]? with
  | none => s
  | some b =>
    let part := r.grp % 4
    let used := usedGrans s b.core part
    let free := (List.range 128).filter fun k => !used.contains k
    let k := (free[Config.granulePick s.fresh % free.length]?).getD 0
    let t := sget 0#4 s.granTags (granKey b.core part k)
    { s with fresh := s.fresh + 1 }.modGrp r fun g => { g with grans := g.grans ++ [(k, t)] }

/-- Grant a group the granules that its register count takes and it has not yet. -/
def grantGrans (s : State) (r : GRef) : State :=
  match s.grp? r with
  | none => s
  | some g => if g.status = .retired then s else (List.range (g.nv / 8 - g.grans.length)).foldl (fun s _ => grantOne s r) s

/-! ### Free banks (R35) -/

/-- Whether a bank of a depth is free in a group's partition: four for depth 1, two for depth 2. -/
def bankFree (s : State) (w : Who) (d : Nat) : Bool := (bankHolders s w d).length < (if d = 1 then 4 else 2)

/-! ### Fetching code (R61, R66, R67, R74, R314) -/

/-- Why a read of a region descriptor or label table failed. -/
inductive ReadFail where
  | unmapped (va : W64)
  | cause (code : BitVec 8) (tv : List W64)
  deriving DecidableEq, Repr

/-- Translate a code address: paths 0x0 and 0x3, with execute permission (R309). Of a callee base on any other path R91 states
neither whether it counts as not readable, cause 0x04, nor which cause its read raises: it is 0x14, with the address that is
read (DESIGN CHOICE, log 40). -/
def xlatCode (s : State) (at_ : List Tlb) (c : Nat) (va : W64) : State × Except ReadFail Nat :=
  let path := field va.toNat 60 4
  if path != 0 && path != 3 then (s, .error (.cause 0x14#8 [va]))
  else
    match xlat s at_ c false (field va.toNat 0 60) with
    | (s, .hit h) => (s, if pteX h.pte then .ok h.pa else .error (.cause 0x11#8 [va]))
    | (s, .unmapped) => (s, .error (.unmapped va))
    | (s, .bad lvl e) => (s, .error (.cause 0x1E#8 [va, u64 lvl, u64 e]))

/-- Read `n` bytes (within a page) of code, descriptor or label table. -/
def readCode (s : State) (at_ : List Tlb) (c : Nat) (va : W64) (n : Nat) : State × Except ReadFail Nat :=
  match xlatCode s at_ c va with
  | (s, .ok pa) => (s, if poisoned s pa n then .error (.cause 0xE0#8 [va]) else .ok (rd s pa n))
  | (s, .error e) => (s, .error e)

/-- A region descriptor (R66). -/
structure Region where
  base    : W64
  tab     : W64
  n       : Nat
  codeLen : Nat
  tagTab  : W64
  deriving DecidableEq, Repr

/-- The fields of the descriptor in the 64 bytes below a base, checked as R91 does; `none` where the base or the
descriptor is not a region's. -/
def parseRegion (base : W64) (x : Nat) : Option Region :=
  let n := field x 64 32
  if base.toNat % 128 != 0 || n < 1 || n > 65534 || field x 384 128 != 0 then none
  else some { base := base, tab := u64 (field x 0 64), n := n, codeLen := field x 96 32, tagTab := u64 (field x 320 64) }

/-- Read and check a region descriptor (R67, R91): the inner `none` is cause 0x04. -/
def readRegion (s : State) (at_ : List Tlb) (c : Nat) (base : W64) : State × Except ReadFail (Option Region) :=
  if base.toNat % 128 != 0 then (s, .ok none)
  else match readCode s at_ c (base - 64#64) 64 with
    | (s, .ok x) => (s, .ok (parseRegion base x))
    | (s, .error e) => (s, .error e)

/-- Enter a region at a label: the level's code and its place, with WL and RI given. -/
def Level.inRegion (v : Level) (rg : Region) : Level :=
  { v with base := rg.base, n := rg.n, codeLen := rg.codeLen, tab := rg.tab, tagTab := rg.tagTab }

/-! ### Code lines that are held (R181, R314) -/

def lineOf (va : W64) : W64 := u64 (va.toNat / 128 * 128)

/-- The bytes of a line that a fetcher holds. -/
def cachedLine (s : State) (f : Fetcher) (line : W64) : Option (List Byte) :=
  (s.icache.find? fun e => e.who = f && e.line == line).map (·.bytes)

/-- A code word from the fetcher's lines; the other side names the line that is missing. -/
def codeWord (s : State) (f : Fetcher) (va : W64) : Except W64 W64 :=
  match cachedLine s f (lineOf va) with
  | some bs => .ok (u64 (ofBytes ((bs.drop (va.toNat % 128)).take 8)))
  | none => .error (lineOf va)

/-- The extension word of the instruction at a group's position, as its lines hold it; zero where it has none. -/
def extHere (s : State) (w : Who) : W64 :=
  let va := w.g.cl.base + u64 w.g.cl.off
  match codeWord s (.group w.r) va with
  | .ok x => if x.getLsbD 63 then (match codeWord s (.group w.r) (va + 8#64) with
      | .ok e => e
      | .error _ => 0) else 0
  | .error _ => 0

/-! ### Positions (R85, R290) -/

/-- Label and ordinal of the next instruction, as saved and as EPOS shows them. -/
def posOf (v : Level) : W16 × Nat :=
  match v.phase with
  | .enter m _ => (m, 0)
  | .body | .seek _ | .find => (v.label, v.ord)
  | .sweepEnd => (0xFFFF#16, 0)

def posWord (label : W16) (ord : Nat) : Nat := label.toNat + 2 ^ 16 * (ord % 2 ^ 12)

/-- Whether a group waits for a handler bank (R35). -/
def Group.isEntering (g : Group) : Bool := match g.status with
  | .entering _ => true
  | _ => false

/-- Whether a group stands at an instruction boundary (R85): it waits for no answer to an instruction on its way, it is not
between the callees of a CALLV, and it is not past the last instruction of a block whose census is still to come. -/
def Group.atBoundary (g : Group) : Bool :=
  g.status = .retired || (g.sent.isEmpty && g.cl.callv.isNone && match g.cl.phase with
    | .body | .seek _ | .find => g.cl.ord ≤ g.cl.len
    | _ => true)

/-- Whether a Harvest keeps a group still: it stands at an instruction boundary (R356). -/
def harvestHolds (s : State) (g : Group) : Bool := s.harvest && g.atBoundary

/-- EPOS (R290). -/
def eposOf (v : Level) (lv : Nat) : W64 :=
  let p := posOf v
  u64 (posWord p.1 p.2 + 2 ^ 28 * lv + 2 ^ 32 * v.swc.toNat)

/-! ### Leaf controllers (R4, R323, R337) -/

/-- A leaf has a message about a block for the March core: its completion, its termination, its eviction (R323). -/
def leafTells (s : State) (blk : Nat) : State := match s.blocks[blk]? with
  | some b => s.modLeaf (regionOf b.core) fun f => { f with sendq := f.sendq ++ [blk] }
  | none => s

/-- Whether the March core has still to learn about a block. -/
def untold (s : State) (blk : Nat) : Bool := s.leafLinks.toList.any fun f => f.sendq.contains blk || f.msgs.contains blk

/-! ### Completion and termination (R293, R329) -/

/-- The block's SFM and DROPCNT for its completion record. -/
def sumSat (l : List W32) : Nat := min (l.foldl (fun n x => n + x.toNat) 0) (2 ^ 32 - 1)

/-- Plain virtual write of hardware (completion records, save areas): each byte where its page is mapped, whether or not
the page allows writes (DESIGN CHOICE, log 25). -/
def writeVirtual (s : State) (c : Nat) (va : W64) (bs : List Byte) : State :=
  (pageCut (bs.length / 4096 + 2) 0 va bs.length).foldl (fun s p =>
    match xlat s [] c false (field p.1.toNat 0 60) with
    | (s, .hit h) => wrBytes (setPte s h.slot 16) h.pa ((bs.drop p.2.1).take p.2.2)
    | (s, _) => s) s

def readVirtual (s : State) (c : Nat) (va : W64) (n : Nat) : List Byte :=
  (pageCut (n / 4096 + 2) 0 va n).flatMap fun p =>
    match (xlat s [] c false (field p.1.toNat 0 60)).2 with
    | .hit h => rdBytes s h.pa p.2.2
    | _ => List.replicate p.2.2 0

/-- The completion record of a block (R329). -/
def completionRecord (b : Block) (status : Nat) : List Byte :=
  layout [(status, 4), (b.cause.toNat, 4), ((b.tval[0]).toNat, 8), ((b.tval[1]).toNat, 8), ((b.tval[2]).toNat, 8),
    ((b.tval[3]).toNat, 8), ((b.groups.foldl (fun m g => m ||| g.sfm) 0#32).toNat, 4),
    (sumSat (b.groups.map fun g => g.dropcnt), 4), (b.bflags.toNat, 4), (b.core, 4), (b.doneAt, 8)]

/-- Write a block's completion record with a status; a later cause rewrites it with the TICK of the first (R329). -/
def writeCompletion (s : State) (blk : Nat) (status : Nat) : State :=
  match s.blocks[blk]? with
  | none => s
  | some b => match s.launches[b.launch]? with
    | none => s
    | some l =>
      let b := if b.st = .ended then b else { b with doneAt := s.tick }
      (writeVirtual s l.ctx (l.lrec.done + u64 (64 * b.ordinal)) (completionRecord b status)).modBlk blk fun x =>
        { x with status := status, doneAt := b.doneAt }

/-- Record a cause for the completion record; the one recorded last stands, also after the record was first written. -/
def recordCause (s : State) (blk : Nat) (cause : BitVec 8) (tv : Vector W64 4) : State :=
  let s := s.modBlk blk fun b => { b with cause := cause, tval := tv }
  match s.blocks[blk]? with
  | some b => if b.st = .ended then writeCompletion s blk b.status else s
  | none => s

/-- The unit of a scope that holds a core (R4, R12, R174). -/
def unitOf (scope : Nat) (blk core : Nat) : Nat :=
  match scope with
  | 1 => blk
  | 2 => core / 144 * 36 + (core % 144 / 24) * 6 + core % 12 / 2
  | 3 => core / 144
  | _ => 0

def barScope (l : Launch) (n : Nat) : Nat := (l.lrec.bars[n]?.getD 0).toNat

/-- The barrier shared by a block, as its launch holds it (R174). -/
def barKey (l : Launch) (blk : Nat) (b : Block) (n : Nat) : Nat := unitOf (barScope l n) blk b.core

def BarInst.fresh (n u : Nat) : BarInst :=
  { n := n, unit := u, phase := 0, broken := false, arrived := [], last := none, due := none, sent := [], parts := [] }

def barInst (l : Launch) (n u : Nat) : BarInst := (l.bars.find? fun x => x.n == n && x.unit == u).getD (BarInst.fresh n u)

def setBarInst (l : Launch) (x : BarInst) : Launch :=
  { l with bars := if l.bars.any (fun y => y.n == x.n && y.unit == x.unit)
      then l.bars.map fun y => if y.n == x.n && y.unit == x.unit then x else y else l.bars ++ [x] }

/-- Monitors of the blocks that share a barrier become BROKEN when its phase completes broken (R281). -/
def breakMonitors (s : State) (li n u : Nat) : State :=
  { s with blocks := (List.range s.blocks.length).filterMap fun i => (s.blocks[i]?).map fun b =>
      match s.launches[b.launch]? with
      | none => b
      | some l =>
        if b.launch == li && b.st ≠ .ended && barKey l i b n == u then
          { b with mons := b.mons.map fun m => if m.st == .run && (m.cfg[4].extractLsb' 24 4).toNat == n then { m with st := .broken } else m }
        else b }

/-- Every barrier of wider scope that counts a terminated block becomes broken for the rest of the launch; its waiting
phase completes at once with broken status and the count rises once (R176). -/
def breakBarriers (s : State) (blk : Nat) : State :=
  match s.blocks[blk]? with
  | none => s
  | some b =>
    (List.range 16).foldl (fun s n =>
      match s.launches[b.launch]? with
      | none => s
      | some l =>
        if n < l.lrec.barriers && barScope l n > 1 then
          let u := barKey l blk b n
          let x := barInst l n u
          if x.broken then s
          else
            let y := { x with broken := true, phase := x.phase + 1, arrived := [], due := none, sent := [], parts := [] }
            breakMonitors (s.modLaunch b.launch fun l => setBarInst l y) b.launch n u
        else s) s

/-- Engine work of a block is abandoned (R263, R293). -/
def abandonSeq (q : Seq) : Seq := { q with busy := false, entries := 0, svc := false, st := if q.st == .running || q.st == .waiting then .idle else q.st }

/-- The number of tiles of a launch (R328). -/
def tileCounts (x : LaunchRec) : Nat × Nat × Nat :=
  let up (a b : Nat) : Nat := (a + b - 1) / b
  (up x.index.1 x.tile.1, up x.index.2.1 x.tile.2.1, up x.index.2.2 x.tile.2.2)
def ntOf (x : LaunchRec) : Nat := let n := tileCounts x; n.1 * n.2.1 * n.2.2

/-- The index of a group's epilogue, past every tile (R333). -/
def epilogueIndex (l : Launch) (b : Block) (j : Nat) : Nat := ntOf l.lrec + b.ordinal * 16 + j

/-- The tiles and epilogue indices that a terminated block's groups hold end without committing (R336); those of its retired groups
have ended. -/
def dropTiles (s : State) (blk : Nat) : State :=
  match s.blocks[blk]? with
  | none => s
  | some b =>
    s.modLaunch b.launch fun l =>
      if l.lrec.equinox then
        let held := (List.range b.groups.length).flatMap fun j =>
          match b.groups[j]? with
          | some g => if g.status = .retired then [] else match g.tile with
            | .tile i => [i, epilogueIndex l b j]
            | _ => [epilogueIndex l b j]
          | none => []
        { l with bufs := (l.bufs.filter fun t => !held.contains t.tile) ++ held.map fun i => { tile := i, ended := true, ops := [] } }
      else l

/-- A fatal cause terminates the whole block (R293): groups stop, side logs are discarded, engine work is abandoned,
barriers break, and the completion record takes the cause. Copies already issued stay to run to completion; results in
flight arrive to granules that have left the allocation (R39). -/
def terminate (s : State) (blk : Nat) (cause : BitVec 8) (tv : Vector W64 4) : State :=
  match s.blocks[blk]? with
  | none => s
  | some b =>
    if b.st = .ended then s else
    let s := (List.range b.groups.length).foldl (fun s j => match who? s { blk := blk, grp := j } with
      | some w => releaseGrans (unparkAll s w) w.r
      | none => s) s
    let s := dropTiles (breakBarriers s blk) blk
    let s := { s with growQ := s.growQ.filter fun q => q.who.blk ≠ blk }
    let s := recordCause s blk cause tv
    let s := leafTells (writeCompletion s blk 1) blk
    s.modBlk blk fun b =>
      { b with st := .ended, seq := abandonSeq b.seq,
               groups := b.groups.map fun g => { g with status := .retired, frames := [], sideLog := [], sideSvc := false,
                                                        delivered := [], pend := [] } }

/-- TVAL0 to TVAL3 from the values a rule states; those it does not state are free (log 23). -/
def tvalsOf (s : State) (tv : List W64) : State × Vector W64 4 :=
  ({ s with fresh := s.fresh + 1 }, Vector.ofFn fun i : Fin 4 => match tv[i.val]? with
    | some x => x
    | none => Config.openTval s.fresh i.val)

def terminateWith (s : State) (blk : Nat) (cause : BitVec 8) (tv : List W64) : State :=
  let (s, v) := tvalsOf s tv
  terminate s blk cause v

/-! ### Taking an exception (R288) and returning from one (R303) -/

/-- The vector of a cause: EMUV for 0x80 to 0x84, TRAPV for every other (R288). -/
def vectorOf (l : Launch) (cause : BitVec 8) : W64 := if 0x80#8 ≤ cause && cause ≤ 0x84#8 then l.lrec.emuv else l.lrec.trapv

/-- A fresh handler level: EMASK lanes live at label 0, everything else zero (R288, R291). -/
def handlerLevel (rg : Region) (emask : Mask) : Level :=
  { base := rg.base, n := rg.n, codeLen := rg.codeLen, tab := rg.tab, tagTab := rg.tagTab,
    wl := lanes fun l => if has emask l then 0#16 else 0xFFFF#16, ri := Vector.replicate 32 0#12, defm := 0,
    dva := Vector.replicate 32 0#64, dneed := 0, dwr := 0, swc := 0, label := 0, ord := 0, off := 0, len := 0,
    phase := .enter 0 false, callv := none, unread := false, p := Vector.replicate 7 0#32, q := 0 }

/-- Enter a handler (R288): pending writes commit, the frame stays frozen below, a bank of the new depth is taken and
zeroed, CAUSE, EMASK, EPOS and TVAL0 to TVAL3 are set, and the handler's region is entered at label 0. With no bank
free the group keeps the entry and issues nothing until one frees (R35). At depth 2 the cause is fatal with 0x83 (R292,
R316: TVAL0 the cause, TVAL1 the extension word or zero, TVAL2 and TVAL3 zero); a handler that cannot be entered is fatal
with 0xA1 (R293). R67 sends the read of the descriptor to R293, whose list names neither an unmapped page nor a read that fails
with 0x11, 0x1E or 0xE0: the first appends its record and waits for the fault service, as R67's other reads do, and the others
are handlers that cannot be entered, 0xA1 (DESIGN CHOICE, log 41). -/
def enterHandler (s : State) (r : GRef) (e : Entry) : State :=
  match who? s r with
  | none => s
  | some w =>
    if w.g.depth ≥ 2 then terminateWith s r.blk 0x83#8 [e.cause.setWidth 64, if e.raw == 0#64 then extHere s w else e.ext, 0, 0]
    else if !bankFree s w (w.g.depth + 1) then s.modGrp r fun g => { g with status := .entering e }
    else
      let base := vectorOf w.l e.cause
      match (if base == 0#64 then (s, .ok none) else readRegion s w.tlbs w.c base) with
      | (s, .ok (some rg)) =>
        if rg.n > 255 then terminateWith s r.blk 0xA1#8 [e.cause.setWidth 64]
        else
          let diag := diagMode s w.c
          let (s, tv) := tvalsOf s e.tv
          s.modGrp r fun g =>
            let g := commitAll diag g
            { g with status := .ready, told := [],
                     frames := { lvl := handlerLevel rg e.emask, cause := e.cause, emask := e.emask, epos := e.epos,
                                 tval := tv, kind := e.kind, h := [], hs := [], raw := e.raw, ext := e.ext, ew := e.ew, refetch := false }
                               :: g.frames }
      | (s, .error (.unmapped va)) => match faultRecord s w.c va 4 false w.res w.b.core with
        | .ok s => s.modGrp r fun g => { g with status := .entering { e with svc := true } }
        | .full => s.modGrp r fun g => { g with status := .entering e }
        | .bad q n => terminateWith s r.blk 0xA2#8 [u64 q, u64 n]
      | (s, _) => terminateWith s r.blk 0xA1#8 [e.cause.setWidth 64]

/-- A precise cause of the instruction on turn (R289): none arises when EMASK is empty. -/
def preciseEntry (w : Who) (cause : BitVec 8) (emask : Mask) (tv : List W64) (long : Bool) : Entry :=
  { cause := cause, emask := emask, tv := tv, kind := .precise long, epos := eposOf w.g.cl w.g.depth }

/-- Move a level past the instruction at its position. -/
def Level.advance (v : Level) (long : Bool) : Level :=
  { v with ord := v.ord + 1, off := v.off + (if long then 16 else 8), callv := none }

/-- Move the lanes of a handler's EMASK past the waiting instruction at ordinal `k` of block `m` (R79): each takes the next ordinal
or, past LEN, the state that the end-of-block steps of R70 give it. A lane that the handler has moved from there by EWWR stays where
EWWR put it (R301, R316; DEDUCED, log 41). -/
def passWait (v : Level) (emask : Mask) (m : W16) (k : Nat) (ft : Bool) : Level :=
  let there := emask &&& maskOf fun l => wlOf v l == m && (riOf v l).toNat == k
  let v := { v with defm := v.defm &&& ~~~emask }
  if k < v.len then v.setRi there fun _ => BitVec.ofNat 12 (k + 1)
  else (v.setRi there fun _ => 0#12).setWl there fun _ => if ft then m + 1#16 else m

/-- The lowest label that a live lane wants above a bound (R70). -/
def nextWanted (v : Level) (above : W16 → Bool) : Option W16 :=
  (minOf ((laneList (liveMask v)).filterMap fun l => if above (wlOf v l) then some (wlOf v l).toNat else none)).map (BitVec.ofNat 16)

/-- Increment SWC and start a sweep (R70, R78): at the lowest wanted label, or at SweepEnd when no lane is live. -/
def startSweep (v : Level) : Level :=
  match nextWanted v fun _ => true with
  | some m => { v with swc := v.swc + 1, phase := .enter m false }
  | none => { v with phase := .sweepEnd }

/-- What is left of a result on its way when the handler level it was issued at ends: its flags, which FLRD waits for (R20, R228), and
its writes outside that level and its bank. Nothing says what becomes of the others: they are discarded, and DROPCNT does not
count them (DESIGN CHOICE, log 41). -/
def InFlight.outlive (d : Nat) (x : InFlight) : InFlight :=
  if x.depth = d then { x with writes := x.writes.filter fun w => match w with
    | .v n _ _ => n < 224
    | .s n _ => n < 112
    | _ => false } else x

/-- Restore the frame below and release the bank (R303). `resume` is ERETX. Delivered causes and ERETX leave the
position where it is; ERET after a precise cause moves past the instruction; the full/empty causes follow R79 and R153.
`wlen` and `ft` are LEN and FT of the waiting block, as R79 needs them. -/
def leaveHandler (g : Group) (resume ft : Bool) (wlen : Nat) : Group :=
  match g.frames with
  | [] => g
  | f :: t =>
    let g := { g with frames := t, inflight := g.inflight.map (·.outlive (t.length + 1)) }
    let past (v : Level) : Level := passWait { v with len := wlen } f.emask (f.epos.extractLsb' 0 16) (f.epos.extractLsb' 16 12).toNat ft
    match f.kind with
    | .delivered => g
    | .precise long => if resume then g else g.modCl fun v => v.advance long
    | .budget =>
      let g := { g with wakes := 0, status := .ready }
      g.modCl fun v => startSweep (if resume then v else past v)
    | .quota =>
      let g := { g with wakes := if resume then g.wakes + 1 else 0, status := .ready }
      g.modCl fun v => startSweep (if resume then v else past v)

end Sys2Proof.Machine
end

