-- ==== Sys2Proof/Machine/Issue.lean ====
section
/-! DEFINITION. The issue of one group instruction: guard and acting set, scoreboard, the checks that every instruction
shares, the trap, the pending result, and the move to the next ordinal (R19 to R25, R33, R71, R95, R289). -/
namespace Sys2Proof.Machine

abbrev Outcome := Host.Outcome State Fault Refusal

/-- The registers an instruction reads and writes, those of the level below it that it reads and writes at once (R301), its fixed
latency if it has one, and whether R22 applies to it. -/
structure Uses where
  reads  : List Reg := []
  writes : List Reg := []
  below  : List Reg := []
  putsBelow : List Reg := []
  lat    : Option Nat := none
  chk    : Bool := true
  deriving DecidableEq, Repr

/-- An instruction on its way: the state, the group, the lanes it acts on (Active for a uniform one). -/
structure Iss where
  s    : State
  w    : Who
  act  : Mask
  long : Bool
  deriving DecidableEq, Repr

def Iss.g (i : Iss) : Group := i.w.g
def Iss.v (i : Iss) : Level := i.w.g.cl

/-- What an instruction does once its acting set is known. -/
inductive Act where
  /-- Its effect is made; the group moves on. -/
  | done (s : State)
  /-- A fixed-latency result (R19). -/
  | fixed (s : State) (lat : Nat) (ws : List RegWrite) (fs : FlagSet)
  /-- A variable-latency result (R23). -/
  | later (s : State) (ws : List RegWrite) (fs : FlagSet)
  /-- A precise cause (R289). -/
  | trap (s : State) (cause : BitVec 8) (emask : Mask) (tv : List W64)
  /-- The state as it stands: the instruction does not issue yet and the group tries it again on a later turn, or its
  meaning has counted the issue and placed the group. -/
  | again (s : State)
  /-- The meaning has placed the group; the issue is still to count. -/
  | at (s : State)
  deriving Repr

/-- Count an issued instruction toward the issue distance (R19); a debugger's resumption is used up (R138). -/
def Group.tickIssue (g : Group) (h : Hdr) : Group :=
  { g with clock := g.clock + 1 + h.stall.toNat, status := if g.status = .resumed then .ready else g.status }

/-- Move the group past an instruction. -/
def Group.past (g : Group) (h : Hdr) (long : Bool) : Group := { (g.modCl fun v => v.advance long).tickIssue h with told := [] }

/-- The registers that the guard reads. -/
def guardReg (h : Hdr) (uniform : Bool) : List Reg :=
  if h.gp == 7#3 then [] else if uniform then [.q h.gp.toNat] else [.p h.gp.toNat]

/-- The lanes an instruction acts on: G for a vector-class one, Active for a uniform one whose guard is true (R25, R71). -/
def actingSet (g : Group) (h : Hdr) (uniform : Bool) : Mask :=
  let active := activeMask g.cl
  if uniform then (if readQ g h.gp.toNat != h.gn then active else 0)
  else active &&& (if h.gn then ~~~(readP g h.gp.toNat) else readP g h.gp.toNat)

/-- A vector register beyond the allocation (R33). -/
def beyond (g : Group) : Reg → Bool
  | .v n => n ≥ g.nv && !(n ≥ 224 && n ≤ 255 && g.depth > 0)
  | _ => false

/-- Cause 0x05 under CHKMODE (R22): a read of a register with a pending write, or a write that a pending one would
outlive, which any does that EWWR's immediate write meets (R316). A discarded write to p7 or q7 pends as any other does (DESIGN CHOICE, log 40). -/
def hazard (g : Group) (h : Hdr) (uniform : Bool) (u : Uses) : Bool :=
  let pend (k : Nat) (f : Pending → Bool) : Bool := g.pend.any fun p => f p && p.writes.any fun w => w.reg.key g.depth == k
  g.chkmode.getLsbD 0 && u.chk
    && ((guardReg h uniform ++ u.reads).any (fun r => pend (r.key g.depth) fun _ => true)
        || (u.below ++ u.putsBelow).any (fun r => pend (r.key (g.depth - 1)) fun _ => true)
        || u.writes.any fun r => pend (r.key g.depth) fun p => match u.lat with
          | some n => g.clock + n < p.due
          | none => false)

/-- A result that will commit at the latency's distance. -/
def Group.addPend (g : Group) (lat : Nat) (ws : List RegWrite) (fs : FlagSet) : Group :=
  { g with pend := g.pend ++ [{ due := g.clock + lat, writes := ws, flags := fs }] }

/-- A result on its way. -/
def Group.addFlight (g : Group) (ws : List RegWrite) (fs : FlagSet) : Group :=
  { g with inflight := g.inflight ++ [{ depth := g.depth, writes := ws, flags := fs, tags := tagsFor g g.depth ws }] }

/-- Turn what an instruction does into the next state. -/
def finish (h : Hdr) (i : Iss) : Act → State
  | .done s => s.modGrp i.w.r fun g => g.past h i.long
  | .fixed s lat ws fs => s.modGrp i.w.r fun g => (g.addPend lat ws fs).past h i.long
  | .later s ws fs => s.modGrp i.w.r fun g => (g.addFlight ws fs).past h i.long
  | .trap s cause emask tv =>
    if emask == 0#32 then s.modGrp i.w.r fun g => g.past h i.long
    else enterHandler s i.w.r (preciseEntry i.w cause emask tv i.long)
  | .again s => s
  | .at s => s.modGrp i.w.r fun g => g.tickIssue h

/-- Issue one instruction of the group on turn. A register beyond the allocation, 0x06, comes before a hazard, 0x05: the spec gives
these two no order (DESIGN CHOICE, log 40). -/
def issue (h : Hdr) (long uniform : Bool) (u : Uses) (s : State) (body : Iss → Act) : Outcome :=
  match s.cur.bind (who? s) with
  | none => .fault .noGroupOnTurn
  | some w =>
    let regs := guardReg h uniform ++ u.reads ++ u.writes
    let g := arriveIf (diagMode s w.c) (fun x => x.touches w.g.depth regs) w.g
    let s := s.modGrp w.r fun _ => g
    let i : Iss := { s := s, w := { w with g := g }, act := actingSet g h uniform, long := long }
    if i.act == 0#32 then .next (finish h i (.done s))
    else if (u.reads ++ u.writes).any (beyond g) then .next (finish h i (.trap s 0x06#8 i.act []))
    else if hazard g h uniform u then .next (finish h i (.trap s 0x05#8 i.act []))
    else .next (finish h i (body i))

/-- A vector-class instruction without memory effect: one value per lane. -/
def laneOp (h : Hdr) (long : Bool) (lat : Nat) (reads writes : List Reg) (s : State)
    (f : Iss → List RegWrite × FlagSet) : Outcome :=
  issue h long false { reads := reads, writes := writes, lat := some lat } s fun i =>
    let r := f i
    .fixed i.s lat r.1 r.2

end Sys2Proof.Machine
end

