-- ==== Sys2Proof/Machine/Numbers.lean ====
section
/-! DEFINITION. Number formats and exact arithmetic (R106 to R113, R203 to R210, R222). Values are exact: a magnitude
`m * 2^e` with a sign. A result whose exact value has no finite binary expansion is given to the rounding as a longer
magnitude whose last bit is a sticky 1. -/
namespace Sys2Proof.Machine

/-- Flag bits (R217). -/
def fIV : BitVec 7 := 1#7
def fDZ : BitVec 7 := 2#7
def fOF : BitVec 7 := 4#7
def fUF : BitVec 7 := 8#7
def fNX : BitVec 7 := 16#7
def fSAT : BitVec 7 := 32#7
def fMNAN : BitVec 7 := 64#7
def flagIf (c : Bool) (f : BitVec 7) : BitVec 7 := if c then f else 0#7

/-- Fraction bits, exponent bits and bias of a float type (R204 to R206). -/
def fracBits : Ty → Nat
  | .f64 => 52 | .f32 => 23 | .f16 => 10 | .bf16 => 7 | .e4m3 => 3 | .e5m2 => 2 | _ => 0
def expBits : Ty → Nat
  | .f64 => 11 | .f32 => 8 | .f16 => 5 | .bf16 => 8 | .e4m3 => 4 | .e5m2 => 5 | _ => 0
def bias (t : Ty) : Nat := 2 ^ (expBits t - 1) - 1
/-- Exponent of the smallest normal value, and of the unit of the smallest subnormal. -/
def emin (t : Ty) : Int := 1 - (bias t : Int)
def qmin (t : Ty) : Int := emin t - (fracBits t : Int)
/-- Mantissa and exponent of the largest finite value. -/
def maxMant (t : Ty) : Nat := if t = .e4m3 then 14 else 2 ^ (fracBits t + 1) - 1
def maxExp (t : Ty) : Int := (if t = .e4m3 then 8 else (bias t : Int)) - (fracBits t : Int)

/-- A decoded float: NaN (signalling or not), infinity, or `(-1)^neg * m * 2^e`; zero is `m = 0`. -/
inductive FV where
  | nan (sig : Bool)
  | inf (neg : Bool)
  | num (neg : Bool) (m : Nat) (e : Int)
  deriving DecidableEq, Repr

/-- The value of a bit pattern (R204 to R206). -/
def decodeF (t : Ty) (x : Nat) : FV :=
  let fb := fracBits t
  let eb := expBits t
  let frac := x % 2 ^ fb
  let ex := x / 2 ^ fb % 2 ^ eb
  let neg := x / 2 ^ (fb + eb) % 2 == 1
  if t = .e4m3 then
    if ex == 15 && frac == 7 then .nan false
    else if ex == 0 then .num neg frac (qmin t)
    else .num neg (2 ^ fb + frac) ((ex : Int) - bias t - fb)
  else if ex == 2 ^ eb - 1 then
    if frac == 0 then .inf neg else .nan (frac < 2 ^ (fb - 1))
  else if ex == 0 then .num neg frac (qmin t)
  else .num neg (2 ^ fb + frac) ((ex : Int) - bias t - fb)

/-- The canonical quiet NaN (R106, R205, R206). -/
def canonNaN (t : Ty) : Nat :=
  match t with
  | .e4m3 => 0x7F
  | _ => (2 ^ expBits t - 1) * 2 ^ fracBits t + 2 ^ (fracBits t - 1)

def signBit (t : Ty) (neg : Bool) : Nat := if neg then 2 ^ (fracBits t + expBits t) else 0
def infBits (t : Ty) (neg : Bool) : Nat := signBit t neg + (2 ^ expBits t - 1) * 2 ^ fracBits t

/-- The pattern of a representable magnitude `m * 2^q` with `m ≤ 2^(fraction bits + 1)`. -/
def encodeFin (t : Ty) (neg : Bool) (m : Nat) (q : Int) : Nat :=
  let fb := fracBits t
  if m == 0 then signBit t neg
  else if m == 2 ^ (fb + 1) then signBit t neg + (q + 1 + fb + bias t).toNat * 2 ^ fb
  else if m ≥ 2 ^ fb then signBit t neg + (q + fb + bias t).toNat * 2 ^ fb + (m - 2 ^ fb)
  else signBit t neg + m

def maxFin (t : Ty) (neg : Bool) : Nat := encodeFin t neg (maxMant t) (maxExp t)

/-- Compare `m1 * 2^e1 < m2 * 2^e2`. -/
def magLt (m1 : Nat) (e1 : Int) (m2 : Nat) (e2 : Int) : Bool :=
  if e1 ≤ e2 then m1 < m2 * 2 ^ (e2 - e1).toNat else m1 * 2 ^ (e1 - e2).toNat < m2

/-- `x / 2^s` rounded to an integer under a mode; the second part says whether it was inexact. -/
def roundShift (rm : Rm) (neg : Bool) (x s : Nat) : Nat × Bool :=
  let i := x / 2 ^ s
  let r := x % 2 ^ s
  let up := match rm with
    | .rn => 2 * r > 2 ^ s || (2 * r == 2 ^ s && i % 2 == 1)
    | .ru => !neg && r != 0
    | .rd => neg && r != 0
    | .rz | .rs => false
  (if up then i + 1 else i, r != 0)

/-- `m * 2^e` as a multiple of `2^q`, rounded. -/
def roundAt (rm : Rm) (neg : Bool) (m : Nat) (e q : Int) : Nat × Bool :=
  if q ≤ e then (m * 2 ^ (e - q).toNat, false) else roundShift rm neg m (q - e).toNat

/-- Exponent of the leading bit of `m * 2^e`, `m ≠ 0`. -/
def topExp (m : Nat) (e : Int) : Int := (Nat.log2 m : Int) + e

/-- A rounded pattern and the flags it raises. -/
structure FRes where
  bits  : Nat
  flags : BitVec 7
  deriving DecidableEq, Repr

/-- What an overflow gives (R107, R207). -/
def overflowTo (t : Ty) (rm : Rm) (sat neg : Bool) : FRes :=
  if t = .e4m3 || sat then { bits := maxFin t neg, flags := fSAT ||| fNX }
  else
    let toInf := match rm with
      | .rn | .rs => true
      | .rz => false
      | .ru => !neg
      | .rd => neg
    { bits := if toInf then infBits t neg else maxFin t neg, flags := fOF ||| fNX }

/-- Round an exact non-zero magnitude (R107, R207): precision of the type, subnormals kept, tininess after rounding. -/
def roundMag (t : Ty) (rm : Rm) (sat neg : Bool) (m : Nat) (e : Int) : FRes :=
  let fb : Int := fracBits t
  let free := topExp m e - fb
  let q := max free (qmin t)
  let (i, inexact) := roundAt rm neg m e q
  if magLt (maxMant t) (maxExp t) i q then overflowTo t rm sat neg
  else
    let (i0, _) := roundAt rm neg m e free
    let tiny := magLt i0 free 1 (emin t)
    { bits := encodeFin t neg i q, flags := flagIf inexact fNX ||| flagIf (inexact && tiny) fUF }

/-- RoundTo (R207): a value that is no NaN. -/
def roundTo (t : Ty) (rm : Rm) (sat : Bool) : FV → FRes
  | .nan sig => { bits := canonNaN t, flags := flagIf sig fIV }
  | .inf neg => if t = .e4m3 then { bits := maxFin t neg, flags := fSAT ||| fNX } else { bits := infBits t neg, flags := 0 }
  | .num neg m e => if m == 0 then { bits := signBit t neg, flags := 0 } else roundMag t rm sat neg m e

/-- The canonical NaN with IV when `iv`. -/
def nanRes (t : Ty) (iv : Bool) : FRes := { bits := canonNaN t, flags := flagIf iv fIV }

def FV.isNaN : FV → Bool
  | .nan _ => true
  | _ => false
def FV.isSNaN : FV → Bool
  | .nan s => s
  | _ => false
def FV.neg? : FV → Bool
  | .nan _ => false
  | .inf n => n
  | .num n _ _ => n
def FV.isZero : FV → Bool
  | .num _ m _ => m == 0
  | _ => false
/-- Change the sign of a number; a NaN stays a NaN (R109). -/
def FV.negate : FV → FV
  | .nan s => .nan s
  | .inf n => .inf !n
  | .num n m e => .num (!n) m e

/-- A signed magnitude as an integer multiple of `2^q`, for `q ≤ e`. -/
def scaled (neg : Bool) (m : Nat) (e q : Int) : Int :=
  let x : Int := (m * 2 ^ (e - q).toNat : Nat)
  if neg then -x else x

/-- The sign of an exact zero sum (R107). -/
def zeroSumNeg (rm : Rm) (n1 n2 : Bool) : Bool := if n1 == n2 then n1 else rm == .rd

/-- Exact sum of two finite numbers, with R107's sign for zero. -/
def addNum (rm : Rm) (n1 : Bool) (m1 : Nat) (e1 : Int) (n2 : Bool) (m2 : Nat) (e2 : Int) : FV :=
  let q := min e1 e2
  let s := scaled n1 m1 e1 q + scaled n2 m2 e2 q
  if s = 0 then
    if m1 == 0 && m2 == 0 then .num (zeroSumNeg rm n1 n2) 0 0 else .num (rm == .rd) 0 0
  else .num (s < 0) s.natAbs q

/-- A sum before rounding: the value and whether IV is raised (R107). -/
def addFV (rm : Rm) (a b : FV) : FV × Bool :=
  match a, b with
  | .nan s, y => (.nan false, s || y.isSNaN)
  | x, .nan s => (.nan false, s || x.isSNaN)
  | .inf n, .inf k => if n == k then (.inf n, false) else (.nan false, true)
  | .inf n, .num .. => (.inf n, false)
  | .num .., .inf n => (.inf n, false)
  | .num n1 m1 e1, .num n2 m2 e2 => (addNum rm n1 m1 e1 n2 m2 e2, false)

/-- A product before rounding (R107). -/
def mulFV (a b : FV) : FV × Bool :=
  match a, b with
  | .nan s, y => (.nan false, s || y.isSNaN)
  | x, .nan s => (.nan false, s || x.isSNaN)
  | .inf n, y => if y.isZero then (.nan false, true) else (.inf (n != y.neg?), false)
  | x, .inf n => if x.isZero then (.nan false, true) else (.inf (n != x.neg?), false)
  | .num n1 m1 e1, .num n2 m2 e2 => (.num (n1 != n2) (m1 * m2) (e1 + e2), false)

/-- A fused product-sum before rounding (R107): 0 times infinity raises IV even beside a quiet NaN addend, and one that is
exactly zero is +0, under RD −0, whatever the signs of product and addend (log 11). -/
def fmaFV (rm : Rm) (a b c : FV) : FV × Bool :=
  let (p, iv) := mulFV a b
  if iv then (.nan false, true)
  else match addFV rm p c with
    | (.num n m e, iv') => (if m == 0 then .num (rm == .rd) 0 0 else .num n m e, iv')
    | r => r

/-- Round a value that an operation formed. -/
def finishF (t : Ty) (rm : Rm) (r : FV × Bool) : FRes :=
  match r.1 with
  | .nan _ => nanRes t r.2
  | v => roundTo t rm false v

/-- Stochastic rounding of FADD, FSUB and FMUL (R108): a finite non-zero value of f32. -/
def roundRS (neg : Bool) (m : Nat) (e : Int) (r : Nat) : FRes :=
  let ex := max (topExp m e) (-126)
  let q := ex - 23
  -- the magnitude in units of q, with 2^k parts to the unit
  let k := if q ≤ e then 0 else (q - e).toNat
  let x := if q ≤ e then m * 2 ^ (e - q).toNat else m
  let i := x / 2 ^ k
  let f := x % 2 ^ k
  let c := f * 2 ^ 32 + r * 2 ^ k ≥ 2 ^ 32 * 2 ^ k
  let i := if c then i + 1 else i
  if magLt (2 ^ 24 - 1) 104 i q then { bits := infBits .f32 neg, flags := fOF ||| fNX }
  else
    { bits := encodeFin .f32 neg i q,
      flags := flagIf (f != 0) fNX ||| flagIf (f != 0 && topExp m e < -126) fUF }

/-- Round under RM, with the random word for RS (R108). -/
def finishRS (rm : Rm) (rand : Nat) (r : FV × Bool) : FRes :=
  match rm, r.1 with
  | .rs, .num neg m e => if m == 0 then { bits := signBit .f32 neg, flags := 0 } else roundRS neg m e rand
  | _, _ => finishF .f32 rm r

/-- IEEE comparison of two numbers: -1, 0 or 1; zeros compare equal. -/
def cmpFV (a b : FV) : Int :=
  match a, b with
  | .inf n, .inf k => if n == k then 0 else if n then -1 else 1
  | .inf n, _ => if n then -1 else 1
  | _, .inf n => if n then 1 else -1
  | .num n1 m1 e1, .num n2 m2 e2 =>
    let q := min e1 e2
    let x := scaled n1 m1 e1 q
    let y := scaled n2 m2 e2 q
    if x < y then -1 else if x = y then 0 else 1
  | _, _ => 0

/-- FMIN and FMAX (R110): the patterns decide, so that the chosen input returns bit-exact. -/
def minMaxF (t : Ty) (isMax nanMode : Bool) (x y : Nat) : FRes :=
  let a := decodeF t x
  let b := decodeF t y
  let iv := a.isSNaN || b.isSNaN
  if a.isNaN && b.isNaN then nanRes t iv
  else if a.isNaN then (if nanMode then nanRes t iv else { bits := y, flags := flagIf iv fIV })
  else if b.isNaN then (if nanMode then nanRes t iv else { bits := x, flags := flagIf iv fIV })
  else
    let c := cmpFV a b
    -- among zeros, -0 counts below +0
    let xLess := c < 0 || (c = 0 && a.neg? && !b.neg?)
    { bits := if xLess != isMax then x else y, flags := 0 }

/-- FRND (R111). -/
def roundIntF (rm : Rm) (x : Nat) : FRes :=
  match decodeF .f32 x with
  | .nan s => nanRes .f32 s
  | .inf _ => { bits := x, flags := 0 }
  | .num neg m e =>
    if 0 ≤ e || m == 0 then { bits := x, flags := 0 }
    else
      let (i, _) := roundAt rm neg m e 0
      if i == 0 then { bits := signBit .f32 neg, flags := 0 } else { bits := (roundMag .f32 .rn false neg i 0).bits, flags := 0 }

/-- FCLS (R111): exactly one bit. -/
def classMask (t : Ty) (x : Nat) : Nat :=
  match decodeF t x with
  | .nan s => if s then 2 ^ 8 else 2 ^ 9
  | .inf n => if n then 2 ^ 0 else 2 ^ 7
  | .num n m e =>
    if m == 0 then (if n then 2 ^ 3 else 2 ^ 4)
    else if topExp m e < emin t then (if n then 2 ^ 2 else 2 ^ 5)
    else (if n then 2 ^ 1 else 2 ^ 6)

/-! ### Conversions (R207, R208, R222, R223) -/

def minInt (t : Ty) : Int := if t.isSigned then -((2 ^ (t.width - 1) : Nat) : Int) else 0
def maxInt (t : Ty) : Int := if t.isSigned then ((2 ^ (t.width - 1) : Nat) : Int) - 1 else ((2 ^ t.width : Nat) : Int) - 1

/-- The integer a pattern represents (R203). -/
def valInt (t : Ty) (x : Nat) : Int := if t.isSigned then signedOf t.width x else ((x % 2 ^ t.width : Nat) : Int)

def fvOfInt (x : Int) : FV := .num (x < 0) x.natAbs 0

/-- CVT (R222): the source pattern of type `s` to a pattern of type `d`. -/
def convert (s d : Ty) (rm : Rm) (sat : Bool) (x : Nat) : FRes :=
  if d.isInt then
    if s.isInt then
      let v := valInt s x
      if v < minInt d || maxInt d < v then
        if sat then { bits := wrapTo d.width (if v < minInt d then minInt d else maxInt d), flags := fSAT }
        else { bits := wrapTo d.width v, flags := 0 }
      else { bits := wrapTo d.width v, flags := 0 }
    else
      match decodeF s x with
      | .nan _ => { bits := 0, flags := fIV }
      | .inf neg => { bits := wrapTo d.width (if neg then minInt d else maxInt d), flags := fIV }
      | .num neg m e =>
        let (i, inexact) := roundAt rm neg m e 0
        let v : Int := if neg then -(i : Int) else i
        if v < minInt d then { bits := wrapTo d.width (minInt d), flags := fIV }
        else if maxInt d < v then { bits := wrapTo d.width (maxInt d), flags := fIV }
        else { bits := wrapTo d.width v, flags := flagIf inexact fNX }
  else
    let v := if s.isInt then fvOfInt (valInt s x) else decodeF s x
    match v with
    | .nan sig => nanRes d sig
    | v => if s = d then { bits := x % 2 ^ s.width, flags := 0 } else roundTo d rm sat v

/-- StochRound (R208): a finite non-zero source value of type `s`. -/
def stochRound (s d : Ty) (sat neg : Bool) (m : Nat) (e : Int) (r : Nat) : FRes :=
  let top := topExp m e
  let q := max top (emin d) - fracBits d
  let u := max top (emin s) - fracBits s
  let dd := (q - u).toNat
  -- the magnitude in units of u (exact: u is the source's own unit)
  let x := if u ≤ e then m * 2 ^ (e - u).toNat else m / 2 ^ (u - e).toNat
  let i := x / 2 ^ dd
  let fd := x % 2 ^ dd
  let dn := min dd 32
  let ft := fd / 2 ^ (dd - dn)
  let c := ft + r % 2 ^ dn ≥ 2 ^ dn
  let i := if c then i + 1 else i
  if magLt (maxMant d) (maxExp d) i q then overflowTo d .rn sat neg
  else
    { bits := encodeFin d neg i q,
      flags := flagIf (fd != 0) fNX ||| flagIf (fd != 0 && top < emin d) fUF }

/-- CVTSR (R223). -/
def convertSR (s d : Ty) (sat : Bool) (x r : Nat) : FRes :=
  match decodeF s x with
  | .nan sig => nanRes d sig
  | .inf neg => roundTo d .rn sat (.inf neg)
  | .num neg m e => if m == 0 then { bits := signBit d neg, flags := 0 } else stochRound s d sat neg m e r

/-! ### The random function (R209) and implicit stochastic underflow (R210) -/

def rng (sH sL c : W32) : W32 :=
  let x := c ^^^ sL
  let x := x ^^^ (x >>> 16)
  let x := x * 0x7FEB352D#32
  let x := x ^^^ (x >>> 15)
  let x := x * 0x846CA68B#32
  let x := x ^^^ (x >>> 16)
  x + sH

/-- Whether a value of magnitude `m * 2^e`, below the smallest non-zero magnitude `2^q`, becomes that magnitude. -/
def underflowUp (m : Nat) (e q : Int) (r : Nat) : Bool :=
  let s := 32 + (e - q)
  let scaled := if 0 ≤ s then m * 2 ^ s.toNat else m / 2 ^ (-s).toNat
  scaled + r ≥ 2 ^ 32

/-- The conversion of a drain to a narrow format (R251): RoundTo, or stochastic underflow below the smallest
magnitude. The flag says whether stochastic underflow took place. -/
def drainConvert (t : Ty) (sat : Bool) (x r : Nat) : FRes × Bool :=
  match decodeF .f32 x with
  | .nan sig => (nanRes t sig, false)
  | .inf neg => (roundTo t .rn sat (.inf neg), false)
  | .num neg m e =>
    if m != 0 && magLt m e 1 (qmin t) then
      ({ bits := if underflowUp m e (qmin t) r then encodeFin t neg 1 (qmin t) else signBit t neg,
         flags := fUF ||| fNX }, true)
    else (roundTo t .rn sat (.num neg m e), false)

end Sys2Proof.Machine
end

