-- ==== Sys2Proof/Machine/Operands.lean ====
section
/-! DEFINITION. Operand forms of the ALU layout (R26, R27, R29, R94 to R97): which registers a slot reads or writes, the
value it reads in a lane, and one result for each lane of G, or one for a uniform form. -/
namespace Sys2Proof.Machine

/-- A register slot: one register of the class that `u` selects, or a pair (R27). -/
def regsOf (u wide : Bool) (n : BitVec 8) : List Reg :=
  let k (n : Nat) : Reg := if u then .s n else .v n
  if wide then [k n.toNat, k (n.toNat + 1)] else [k n.toNat]

/-- The value of a register slot in a lane. -/
def readReg (g : Group) (u wide : Bool) (n : BitVec 8) (l : Nat) : Nat :=
  if u then (if wide then (readSS g n.toNat).toNat else (readS g n.toNat).toNat)
  else if wide then (readVV g n.toNat l).toNat else (readV g n.toNat l).toNat

/-- An 8-bit immediate of a type (R29): zero-extended for b types, sign-extended for i types, converted for floats. -/
def imm8Val (ty : Ty) (x : BitVec 8) : Nat :=
  if ty.isInt then (if ty.isSigned then wrapTo ty.width (signedOf 8 x.toNat) else x.toNat)
  else (roundTo ty .rn false (fvOfInt (signedOf 8 x.toNat))).bits

/-- Whether two elements of the type share a register, as in HADD2, HMUL2 and HFMA2 (R114). -/
def packedTy (ty : Ty) : Bool := ty == .f16 || ty == .bf16

/-- The registers that slot B reads. -/
def bRegs (wide : Bool) : BSrc → List Reg
  | .reg n => regsOf false wide n
  | .uni n => regsOf true wide n
  | _ => []

/-- The value of slot B in a lane (R26, R29). -/
def readB (g : Group) (ty : Ty) (wide : Bool) (b : BSrc) (l : Nat) : Nat :=
  match b with
  | .reg n => readReg g false wide n l
  | .uni n => readReg g true wide n l
  | .imm8 x => let v := imm8Val ty x; if packedTy ty then v + 2 ^ 16 * v else v
  | .imm32 w => if ty.is64 then w.toNat else (lo32 w).toNat

/-- Whether slot B takes an extension word. -/
def bLong : BSrc → Bool
  | .imm32 _ => true
  | _ => false

/-- The results of the acting lanes as register writes and flags (R95, R97, R98). -/
def results (u wide : Bool) (d : BitVec 8) (act : Mask) (f : Nat → FRes) : List RegWrite × FlagSet :=
  let n := d.toNat
  if u then
    let r := f 0
    (if wide then [.s n (u32 r.bits), .s (n + 1) (u32 (r.bits / 2 ^ 32))] else [.s n (u32 r.bits)], FlagSet.ofGroup r.flags)
  else
    let rs : Lanes FRes := lanes fun l => if has act l then f l else { bits := 0, flags := 0 }
    let r (l : Nat) : FRes := lget { bits := 0, flags := 0 } rs l
    let lo : RegWrite := .v n act (lanes fun l => u32 (r l).bits)
    (if wide then [lo, .v (n + 1) act (lanes fun l => u32 ((r l).bits / 2 ^ 32))] else [lo],
     FlagSet.ofLanes act fun l => (r l).flags)

/-- Issue an instruction that only writes registers: the result of each lane after all sources are read (R94). -/
def regOp (h : Hdr) (long u : Bool) (lat : Option Nat) (reads : List Reg) (wide : Bool) (d : BitVec 8) (s : State)
    (f : Iss → Nat → FRes) : Outcome :=
  issue h long u { reads := reads, writes := regsOf u wide d, lat := lat } s fun i =>
    let r := results u wide d i.act (f i)
    match lat with
    | some n => .fixed i.s n r.1 r.2
    | none => .later i.s r.1 r.2

/-- Which slots a form reads, and which of them are pairs: `none` is a slot not read. -/
structure Slots where
  a : Option Bool
  b : Option Bool
  c : Option Bool
  d : Bool
  deriving DecidableEq, Repr

/-- Slots D A B, D A B C and D A of the instruction's own type. -/
def Slots.two (ty : Ty) : Slots := { a := some ty.is64, b := some ty.is64, c := none, d := ty.is64 }
def Slots.three (ty : Ty) : Slots := { a := some ty.is64, b := some ty.is64, c := some ty.is64, d := ty.is64 }
def Slots.one (ty : Ty) : Slots := { a := some ty.is64, b := none, c := none, d := ty.is64 }

def Slots.reads (k : Slots) (x : Alu) : List Reg :=
  (match k.a with | some w => regsOf x.u w x.a | none => [])
    ++ (match k.b with | some w => bRegs w x.b | none => [])
    ++ (match k.c with | some w => regsOf x.u w x.c | none => [])

/-- An ALU form: `f` takes the values of A, B and C in a lane (0 for a slot not read). -/
def aluOp (h : Hdr) (x : Alu) (lat : Option Nat) (k : Slots) (s : State) (f : Nat → Nat → Nat → FRes) : Outcome :=
  regOp h (bLong x.b) x.u lat (k.reads x) k.d x.d s fun i l =>
    let reg (w : Option Bool) (n : BitVec 8) : Nat := match w with
      | some w => readReg i.g x.u w n l
      | none => 0
    f (reg k.a x.a) (match k.b with | some w => readB i.g x.ty w x.b l | none => 0) (reg k.c x.c)

/-- A result without flags. -/
def bare (n : Nat) : FRes := { bits := n, flags := 0 }

end Sys2Proof.Machine
end

