-- ==== Sys2Proof/Machine/Access.lean ====
section
/-! DEFINITION. One memory access of a lane: which path it takes, what it reaches, the checks in their order, monitors,
Equinox ordering, the side log, and reading and writing what was reached (R128 to R147, R183, R278 to R280, R333 to
R335). -/
namespace Sys2Proof.Machine

/-! ### Paths and places (R46 to R48, R139, R145) -/

/-- The rows of R145's table. -/
inductive Cls where
  | load | store | fe | atomic | cadd | mst | src | dst
  deriving DecidableEq, Repr

/-- The cause R145's table gives a class on a path, on a page that is not replicated; `none` is a tick. -/
def pathCause (k : Cls) (path : Nat) : Option (BitVec 8) :=
  let row : List Nat := match k with
    | .load => [0, 0, 0, 0, 0, 0, 0, 0]
    | .store => [0, 0, 0, 0x12, 0, 0, 0, 0]
    | .fe => [0, 0x31, 0x14, 0x31, 0x31, 0x31, 0, 0x31]
    | .atomic => [0, 0, 0, 0x12, 0x1C, 0x1C, 0, 0x1C]
    | .cadd => [0, 0x1C, 0x14, 0x12, 0x1C, 0x1C, 0, 0x1C]
    | .mst => [0x1C, 0x1C, 0x14, 0x12, 0, 0x1C, 0x1C, 0x1C]
    | .src => [0, 0, 0x14, 0, 0, 0, 0, 0x1C]
    | .dst => [0, 0, 0x14, 0x12, 0, 0, 0, 0x1C]
  match row[path]? with
  | some 0 => none
  | some c => some (BitVec.ofNat 8 c)
  | none => some 0x14#8

/-- Whether a router, or the link to it from its neighbour, is retired (R48). -/
def hopRetired (s : State) (a b : Nat) : Bool :=
  s.retiredCores.contains b || s.retiredMesh.contains (a, b) || s.retiredMesh.contains (b, a)

/-- Follow a turn string from a router (R48): the remaining turns, the position and the heading. -/
def followTurns (s : State) (die : Nat) : Nat → Nat → Nat → Nat → Nat → Option Nat
  | 0, _, _, _, _ => none
  | k + 1, t, row, col, hd =>
    if t % 4 == 3 then some (144 * die + 12 * row + col)
    else
      let hd := if t % 4 == 1 then (hd + 3) % 4 else if t % 4 == 2 then (hd + 1) % 4 else hd
      let off := match hd with
        | 0 => row == 0
        | 1 => col == 11
        | 2 => row == 11
        | _ => col == 0
      let row' := if hd == 0 then row - 1 else if hd == 2 then row + 1 else row
      let col' := if hd == 3 then col - 1 else if hd == 1 then col + 1 else col
      if off || hopRetired s (144 * die + 12 * row + col) (144 * die + 12 * row' + col') then none
      else followTurns s die k (t / 4) row' col' hd

/-- The core a place word names from an issuing core (R47, R48); `none` is cause 0x16. -/
def placeCore (s : State) (core : Nat) (w : W64) : Option Nat :=
  if w.getLsbD 63 then
    let c := 144 * field w.toNat 56 2 + 12 * field w.toNat 52 4 + field w.toNat 48 4
    if s.retiredCores.contains c then none else some c
  else followTurns s (core / 144) 24 (field w.toNat 0 48) (core % 144 / 12) (core % 12) (field w.toNat 61 2)

/-- The resident block of a launch on a core. -/
def blockOn (s : State) (launch core : Nat) : Option Nat :=
  firstIdx (fun b => b.launch == launch && b.core == core && b.st == .resident) s.blocks

/-! ### What an address reaches -/

inductive Fate where
  | ok (loc : Loc)
  | unmapped
  | scrFault
  /-- A failed check: its rank in the order of R145, the cause, and the TVALs after TVAL0 where a rule states them. -/
  | fail (rank : Nat) (cause : BitVec 8) (tv : List W64)
  deriving DecidableEq, Repr

/-- The rank of a cause in the order of R136 and R145. The spec does not place 0x1E in that order, nor 0x10, a strict 0x18 and
0xE0 among each other: 0x1E stands before 0x12, and those three in this order (DESIGN CHOICE, log 40). -/
def rankOf (c : BitVec 8) : Nat :=
  match c.toNat with
  | 0x14 => 1 | 0x16 => 2 | 0x13 => 3 | 0x1E => 4 | 0x12 => 5 | 0x17 => 6 | 0x19 => 7 | 0x1C => 8 | 0x31 => 9 | 0x73 => 10
  | 0x10 => 11 | 0x18 => 12 | _ => 13

/-- Whether a device of the pod is this one or some link still leads to the others (R143, R345). -/
def reachable (s : State) (dev : Nat) : Bool :=
  s.devices.contains dev && (dev == s.device || s.links.toList.any fun l => !l.retired)

/-- A request for one lane's access. -/
structure Req where
  cls   : Cls
  write : Bool
  reads : Bool
  size  : Nat
  place : Option W64 := none
  align : Nat
  /-- A retry of a side-log entry, a waiting copy or an engine pass: it takes a fresh walk (R311). -/
  retry : Bool := false
  /-- The engine's own, through its TLB (R248). -/
  engine : Bool := false
  deriving DecidableEq, Repr

/-- The view's width rule (R144). -/
def viewSizeOk (size : Nat) : Bool := size == 4 || size == 8 || size == 16

/-- Resolve a lane's address (R129, R136, R139 to R145, R147). -/
def resolve (s : State) (w : Who) (q : Req) (addr : W64) : State × Fate :=
  let a := addr.toNat
  let path := field a 60 4
  let fail (c : BitVec 8) (tv : List W64) : Fate := .fail (rankOf c) c tv
  let tab := pathCause q.cls path
  let dev := field a 48 10
  let badBits := ((path == 5 || path == 6) && field a 58 2 != 0) || (path == 7 && field a 56 4 != 0)
  if path ≥ 8 || badBits || tab == some 0x14#8 || (path == 2) != q.place.isSome || (path == 6 && !reachable s dev) then
    (s, fail 0x14#8 [])
  else
    let target : Option Nat := match q.place with
      | some p => placeCore s w.b.core p
      | none => some w.b.core
    match target with
    | none => (s, fail 0x16#8 [])
    | some core =>
      if a % q.align != 0 || (path == 7 && (q.cls == .load || q.cls == .store) && !viewSizeOk q.size) then (s, fail 0x13#8 [])
      else if path == 1 || path == 2 then
        match (if path == 1 then some w.r.blk else blockOn s w.b.launch core) with
        | none => (s, fail 0x17#8 [])
        | some bi =>
          match tab with
          | some c => (s, fail c [])
          | none =>
            match s.blocks[bi]? with
            | none => (s, fail 0x17#8 [])
            | some b =>
              let off := field a 0 60
              let uninit := q.reads && (wordsOf off q.size).any fun k => !sget false b.sinit k
              if off + q.size > w.l.lrec.scratch || uninit then (s, .scrFault) else (s, .ok (.scr bi off))
      else
        let va := match path with
          | 5 => field a 0 56
          | 6 => field a 0 48
          | 7 => 16 * field a 0 56
          | _ => field a 0 60
        match xlat s (if q.retry then [] else if q.engine then engineTlbs w.b.core else w.tlbs) w.c (path == 6) va (path == 6 && dev != s.device) with
        | (s, .bad lvl e) => (s, fail 0x1E#8 [u64 lvl, u64 e])
        | (s, .unmapped) => (s, if tab == some 0x12#8 then fail 0x12#8 [] else match tab with
            | some c => if q.cls == .mst && path == 0 then .unmapped else fail c []
            | none => .unmapped)
        | (s, .hit h) =>
          let rp := pteRP h.pte
          if (q.write && !pteW h.pte) || tab == some 0x12#8 then (s, fail 0x12#8 [])
          else if (path == 4 || path == 5) && !rp then (s, fail 0x19#8 [])
          else
            -- a replicated page on path 0x0 takes the 0x4 column (R141)
            let tab := if path == 0 && rp then pathCause q.cls 4 else tab
            match tab with
            | some c => (s, fail c [])
            | none =>
              -- the view shows the states of path-0x0 memory: on a replicated page, the issuing die's copy (R141, R144)
              let pa := if rp && path != 6 then replica h.pa (if path == 5 then field a 56 2 else w.die) else h.pa
              let loc : Loc := if path == 6 && dev != s.device then .dev dev h.pa h.slot
                else if path == 7 then .view pa h.slot else .mem pa h.slot rp
              -- a write translation sets D, whatever becomes of the write (R307)
              (if q.write then setPte s h.slot 16 else s, .ok loc)

/-! ### Delivered causes (R256, R292) -/

/-- Hand a cause to a group for its next instruction boundary at depth 0. -/
def deliver (s : State) (r : GRef) (cause : BitVec 8) (tv : List W64) : State :=
  let (s, v) := tvalsOf s tv
  match s.grp? r with
  | some g => if g.status = .retired then recordCause s r.blk cause v
    else s.modGrp r fun g => { g with delivered := g.delivered ++ [{ cause := cause, tval := v }] }
  | none => s

/-- A group that is live: it has a live lane, or a caller to resume (R68, R82). -/
def canTake (g : Group) : Bool := g.status ≠ .retired && (liveMask g.lvl != 0#32 || !g.calls.isEmpty)

def groupsThat (b : Block) (f : Group → Bool) : List Nat := (List.range b.groups.length).filter fun j => match b.groups[j]? with
  | some g => f g
  | none => false

def liveNow (g : Group) : Bool := g.status ≠ .retired && liveMask g.lvl != 0#32

/-- The groups of a block that can take a delivered cause: those with a live lane; where no group has one, those that still
have a caller to resume (R273; log 32). -/
def takers (b : Block) : List Nat := match groupsThat b liveNow with
  | [] => groupsThat b canTake
  | l => l

/-- The group that takes the causes of one whose lanes have all left (R273). -/
def nextTaker (b : Block) (j : Nat) : Option Nat := (groupsThat b liveNow).find? (· != j)

/-- Hand a cause to the owner, else the block's lowest-numbered live group, or the completion record (R256, R282). -/
def deliverToBlock (s : State) (blk : Nat) (owner : Option Nat) (cause : BitVec 8) (tv : List W64) : State :=
  match s.blocks[blk]? with
  | none => s
  | some b =>
    let live := takers b
    let dest := match owner with
      | some o => if live.contains o then some o else live.head?
      | none => live.head?
    match dest with
    | some j => deliver s { blk := blk, grp := j } cause tv
    | none => let (s, v) := tvalsOf s tv; recordCause s blk cause v

/-! ### Monitors: what a write covers and counts (R276, R278 to R280) -/

def monWB (m : Monitor) : Nat := (pair m.cfg[0] m.cfg[1]).toNat
def monFF (m : Monitor) : Nat := field m.cfg[4].toNat 16 4
def monBN (m : Monitor) : Nat := field m.cfg[4].toNat 24 4
def monFieldSize (m : Monitor) : Nat := if monFF m == 0 || monFF m == 2 then 4 else 8

/-- The field addresses of the window near `n` bytes at an address. -/
def monFields (m : Monitor) (a n : Nat) : List Nat :=
  let fs := monFieldSize m
  let base := monWB m + field m.cfg[4].toNat 0 16
  let rs := max m.cfg[3].toNat 1
  let first := if a < base then 0 else (a - base) / rs - min 1 ((a - base) / rs)
  ((List.range 20).map fun i => base + (first + i) * rs).filter fun f => f + fs ≤ monWB m + m.cfg[2].toNat && f < a + n && a < f + fs

/-- The running monitors of which a write covers part of a field (R278): their mask. -/
def monPartial (b : Block) (a n : Nat) : Nat :=
  (List.range b.mons.length).foldl (fun k i => match b.mons[i]? with
    | some m => if m.st == .run && (monFields m a n).any (fun f => f < a || a + n < f + monFieldSize m) then k + 2 ^ i else k
    | none => k) 0

/-- Grid(x) (R279): the grid integer and whether bits were discarded; `none` for a NaN or an infinity. -/
def grid (m : Monitor) (x : Nat) : Option (Int × Bool) :=
  let fb := field m.cfg[5].toNat 0 7
  let scale (neg : Bool) (k : Nat) (e : Int) : Int × Bool :=
    let e := e + fb
    let (i, lost) := if 0 ≤ e then (k * 2 ^ e.toNat, false) else (k / 2 ^ (-e).toNat, k % 2 ^ (-e).toNat != 0)
    (if neg then -(i : Int) else i, lost)
  match monFF m with
  | 0 => some (signedOf 32 x * (2 ^ fb : Nat), false)
  | 1 => some (signedOf 64 x * (2 ^ fb : Nat), false)
  | ff => match decodeF (if ff == 2 then .f32 else .f64) x with
    | .num neg k e => some (scale neg k e)
    | _ => none

def in256 (x : Int) : Bool := -(2 ^ 255 : Int) ≤ x && x < (2 ^ 255 : Int)

/-- The phase in which a group's writes count for a barrier: the completed count, plus one once it has arrived (R280). -/
def groupPhase (l : Launch) (blk : Nat) (b : Block) (r : GRef) (n : Nat) : W32 :=
  let x := barInst l n (barKey l blk b n)
  if x.arrived.contains r then x.phase + 1 else x.phase

/-- The running monitors of a group's block, and the phase in which its writes count now (R280). -/
def monPhases (w : Who) : List Tally :=
  (List.range w.b.mons.length).filterMap fun i => match w.b.mons[i]? with
    | some m => if m.st == .run then some { mon := i, phase := groupPhase w.l w.r.blk w.b w.r (monBN m), epoch := m.epoch } else none
    | none => none

/-- The tag of a write that a group issues now. -/
def countTag (w : Who) (addr : W64) : CountTag := { who := w.r, addr := addr, phases := monPhases w }

/-- Whether a monitor still counts a write that issued while it ran: it has not been configured or cleared since, nor
broken (R281, R287). -/
def Tally.live (p : Tally) (m : Monitor) : Bool := m.epoch == p.epoch && (m.st == .run || m.st == .stopped)

/-- The monitor as a write that is being performed counts in it: as it stands, or as a MONCFG or MONCLR since found it (R287). -/
def Monitor.counting (m : Monitor) (p : Tally) : Option Monitor :=
  if p.live m then some m
  else (m.past.find? fun z => z.epoch == p.epoch).map fun z =>
    { m with epoch := z.epoch, cfg := z.cfg, phase := z.phase, cur := z.cur, nxt := z.nxt }

/-- Keep what has become of a monitor, or of the partials that a MONCFG or MONCLR found; the status bits of those are gone. -/
def Monitor.counted (m x : Monitor) : Monitor :=
  if x.epoch == m.epoch then x
  else { m with past := m.past.map fun z => if z.epoch == x.epoch then { z with cur := x.cur, nxt := x.nxt } else z }

/-- Count one field of a write in a monitor as it counts there (R279): its value as written and, in delta mode, its value before. -/
def countField (s : State) (t : CountTag) (i : Nat) (p : Tally) (v u : Option (Int × Bool)) : State :=
  match ((s.blocks[t.who.blk]?).bind (·.mons[i]?)).bind fun m => m.counting p with
  | none => s
  | some m =>
    let put (s : State) (x : Monitor) : State := s.modBlk t.who.blk fun b => { b with mons := b.mons.modify i fun m => m.counted x }
    match v, u with
    | some (x, l1), some (y, l2) =>
      let late := p.phase != m.phase
      let sum := (if late then m.nxt else m.cur) + (x - y)
      let m := { m with ls := m.ls || l1 || l2 }
      if in256 sum then put s (if late then { m with nxt := sum } else { m with cur := sum })
      else deliver (put s { m with ov := true }) t.who 0x71#8 [u64 i, t.whole]
    | _, _ => put s { m with nf := true }

/-- Count one write: the bytes before and after it (R279, R280). -/
def countWrite (s : State) (t : CountTag) (old new : List Byte) : State :=
  let a := t.addr.toNat
  t.phases.foldl (fun s p =>
    match ((s.blocks[t.who.blk]?).bind (·.mons[p.mon]?)).bind fun m => m.counting p with
    | none => s
    | some m =>
      let fs := monFieldSize m
      let at_ (f : Nat) (bs : List Byte) : Option (Int × Bool) := grid m (ofBytes ((bs.drop (f - a)).take fs))
      ((monFields m a new.length).filter fun f => a ≤ f && f + fs ≤ a + new.length).foldl (fun s f =>
        countField s t p.mon p (at_ f new) (if m.cfg[4].getLsbD 20 then at_ f old else some (0, false))) s) s

/-- The monitor of a block that counts a write of `n` bytes at the tag's address, as the write counts in it. -/
def countsIn (b : Block) (t : CountTag) (n : Nat) (p : Tally) : Option Monitor :=
  ((b.mons[p.mon]?).bind (·.counting p)).filter fun m => !(monFields m t.addr.toNat n).isEmpty

def counts (b : Block) (t : CountTag) (n : Nat) (p : Tally) : Bool := (countsIn b t n p).isSome

/-- The tallies of a block's writes that are still to be performed: in its groups' side logs and in commit buffers. -/
def pendingTallies (l : Launch) (blk : Nat) (b : Block) : List Tally :=
  (b.groups.flatMap fun g => g.sideLog.flatMap (·.phases)) ++ l.bufs.flatMap fun t => t.ops.flatMap fun o => match o with
    | .store _ _ (some tag) | .red _ _ _ _ (some tag) => if tag.who.blk == blk then tag.phases else []
    | _ => []

/-! ### Equinox mode (R333 to R335) -/

/-- A line's key: its virtual line address; the paths that name one page share it. -/
def lineKey (addr : W64) : Nat :=
  let a := addr.toNat
  match field a 60 4 with
  | 5 => field a 7 49
  | 6 => 2 ^ 60 + field a 7 53
  | _ => field a 7 53

/-- Whether Equinox ordering covers a path. -/
def eqPath (addr : W64) : Bool := let p := field addr.toNat 60 4; p == 0 || (3 ≤ p && p ≤ 6)

/-- Whether a line lies in the shared ranges (R324), whichever of the paths that name its page the address takes. -/
def sharedLine (l : Launch) (addr : W64) : Bool :=
  l.lrec.own.toList.any fun e =>
    let a := 128 * lineKey addr
    let lo := 128 * lineKey e.1 + e.1.toNat % 128
    e.2 != 0#64 && decide (lo ≤ a) && decide (a < lo + e.2.toNat)

/-- The line address as an entry of the ownership area shows it, and its bits 59:7 (R334). -/
def lineAddr (addr : W64) : Nat := if field addr.toNat 60 4 == 6 then addr.toNat / 128 * 128 else 128 * lineKey addr
def lineSlot (addr : W64) : Nat := field (lineAddr addr) 7 53

/-- The position in the commit order of the tile a group holds; `none` in the prologue (R333). -/
def tilePos (w : Who) : Option Nat :=
  match w.g.tile with
  | .prologue => none
  | .tile i => some i
  | .epilogue => some (epilogueIndex w.l w.b w.r.grp)

/-- The tile as a trap shows it: its index or epilogue index (R334). -/
def allOnes : W64 := 0xFFFFFFFFFFFFFFFF#64

inductive EqFate where
  | go (s : State)
  | wait
  | trap (s : State) (addr : W64) (owner me : W64)
  | full (s : State)
  deriving Repr

/-- Ownership entries held by the L2 slices of a die (R334). -/
def dieEntries (s : State) (die : Nat) : Nat :=
  (s.launches.map fun l => (l.owners.filter fun e => e.2 % 4 == die && e.2 / 4 % 2 == 0).length).foldl (· + ·) 0

/-- Write an ownership entry into the launch's area: open addressing with linear probing (R334). -/
def areaInsert (s : State) (c : Nat) (l : Launch) (addr : W64) (owner : Nat) : State :=
  let n := l.lrec.ownl.toNat / 16
  let at_ (k : Nat) : W64 := l.lrec.owna + u64 (16 * ((lineSlot addr + k) % n))
  match (List.range (l.inArea + 1)).find? fun k => ofBytes (readVirtual s c (at_ k + 8#64) 8) == 0 with
  | some k => writeVirtual s c (at_ k) (layout [(lineAddr addr, 8), (owner, 8)])
  | none => s

/-- Take the ownership of one private line for a tile, unless it is that tile's already (R334). -/
def ownLine (s : State) (w : Who) (li : Nat) (addr : W64) (me : Nat) : EqFate :=
  match s.launches[li]? with
  | none => .go s
  | some l =>
    let key := lineKey addr
    match sget 0 l.owners key with
    | 0 =>
      let a := addr.toNat
      let path := field a 60 4
      let va := field a 0 (if path == 6 then 48 else if path == 5 then 56 else 60)
      -- of a replicated page the line is the issuing die's, or on path 0x5 that of the die named
      let die := match (xlat s w.tlbs w.c (path == 6) va).2 with
        | .hit h => if pteRP h.pte && path != 6 then (if path == 5 then field a 56 2 else w.die) else h.pa / 2 ^ 39 % 4
        | _ => 0
      let area := dieEntries s die ≥ 65536
      if area && 8 * (l.inArea + 1) > 7 * (l.lrec.ownl.toNat / 16) then .full s
      else
        let s := if area then areaInsert s w.c l addr (me + 1) else s
        .go (s.modLaunch li fun l => { l with owners := sset 0 l.owners key ((me + 1) * 8 + (if area then 4 else 0) + die),
                                              inArea := if area then l.inArea + 1 else l.inArea })
    | _ => .go s

/-- The first of some private lines that another tile owns, with its owner (R334). -/
def ownedElsewhere (l : Launch) (addrs : List W64) (me : Nat) : Option (W64 × Nat) :=
  addrs.findSome? fun a => match sget 0 l.owners (lineKey a) with
    | 0 => none
    | o => if o / 8 == me + 1 then none else some (a, o / 8 - 1)

def bufOf (l : Launch) (pos : Nat) : TileBuf := (l.bufs.find? fun b => b.tile == pos).getD { tile := pos, ended := false, ops := [] }
def setBuf (l : Launch) (b : TileBuf) : Launch :=
  { l with bufs := if l.bufs.any (fun x => x.tile == b.tile) then l.bufs.map fun x => if x.tile == b.tile then b else x
      else l.bufs ++ [b] }

/-- Bytes of an atomic type (R158). -/
def atomSize (wd : Nat) : Nat := if wd == 5 || wd == 8 || wd == 10 then 8 else 4

/-- RED and CPYR element operations by OP and WD (R159, R166); also used at commit. -/
def combine (op wd : Nat) (old x : Nat) : Nat :=
  let w := 8 * atomSize wd
  let lt : Bool := if wd == 7 || wd == 8 then signedOf w old < signedOf w x else old < x
  match op, wd with
  | 0, 9 => (finishF .f32 .rn (addFV .rn (decodeF .f32 old) (decodeF .f32 x))).bits
  | 0, 10 => (finishF .f64 .rn (addFV .rn (decodeF .f64 old) (decodeF .f64 x))).bits
  | 1, 9 => (minMaxF .f32 false false old x).bits
  | 2, 9 => (minMaxF .f32 true false old x).bits
  | 1, 10 => (minMaxF .f64 false false old x).bits
  | 2, 10 => (minMaxF .f64 true false old x).bits
  | 0, _ => (old + x) % 2 ^ w
  | 1, _ => if lt then old else x
  | 2, _ => if lt then x else old
  | 3, _ => old &&& x
  | 4, _ => old ||| x
  | 5, _ => old ^^^ x
  | _, _ => x

/-- Apply one buffered write (R335). -/
def applyCommit (s : State) : CommitOp → State
  | .store pa bs tag =>
    let old := rdBytes s pa bs.length
    let s := wrBytes s pa bs
    match tag with
    | some t => countWrite s t old bs
    | none => s
  | .red pa op wd x tag =>
    let n := atomSize wd.toNat
    let old := rdBytes s pa n
    let new := toBytes n (combine op.toNat wd.toNat (ofBytes old) x.toNat)
    let s := wrBytes s pa new
    match tag with
    | some t => countWrite s t old new
    | none => s
  | .max pa x => wr s pa 4 (max (rd s pa 4) x.toNat)
  | .fill slot word full => setFull s slot word full

def applyBuf (s : State) (li pos : Nat) : State :=
  match s.launches[li]? with
  | none => s
  | some l =>
    let b := bufOf l pos
    if b.ops.isEmpty then s
    else (b.ops.foldl applyCommit s).modLaunch li fun l => setBuf l { bufOf l pos with ops := [] }

/-- Whether the frontier passes an index now (R335): its tile has ended, it names no group, or its tile will never be
granted because the launch drains (log 18). -/
def passes (l : Launch) (pos : Nat) : Bool :=
  let nt := ntOf l.lrec
  (l.bufs.any fun b => b.tile == pos && b.ended)
    || (pos < nt && l.draining && l.next ≤ pos)
    || (nt ≤ pos && pos < nt + 16 * l.nblocks && l.lrec.groups ≤ (pos - nt) % 16)

/-- How many distinct lines a buffer holds. -/
def bufLines (b : TileBuf) : Nat :=
  (distinctAsc (b.ops.map fun o => match o with
    | .store pa _ _ => pa / 128
    | .red pa _ _ _ _ => pa / 128
    | .max pa _ => pa / 128
    | .fill _ word _ => word / 32)).length

/-- Order a group's accesses under Equinox mode (R333 to R335): private lines are owned, shared reads and shared
read-modify-writes wait for the frontier, a full commit buffer waits for it too. `stop` says that the access reads, or
is a read-modify-write. Every line is checked before any is taken. A tile of a terminated block owns and waits for nothing
more (R336). -/
def equinoxGate (s : State) (w : Who) (pos : Option Nat) (addrs : List W64) (reads stop : Bool) : EqFate :=
  if !w.l.lrec.equinox then .go s
  else
    let li := w.b.launch
    let addrs := addrs.filter eqPath
    match pos with
    | none =>
      match addrs.find? fun a => !(reads && sharedLine w.l a) with
      | some a =>
        let o := sget 0 w.l.owners (lineKey a)
        .trap s a (if sharedLine w.l a || o == 0 then allOnes else u64 (o / 8 - 1)) allOnes
      | none => .go s
    | some me =>
      let mine := addrs.filter fun a => !sharedLine w.l a
      let owned := match (s.launches[li]?).bind fun l => ownedElsewhere l mine me with
        | some (a, o) => EqFate.trap s a (u64 o) (u64 me)
        | none => mine.foldl (fun f a => match f with
          | .go s => ownLine s w li a me
          | x => x) (EqFate.go s)
      if w.b.st = .ended then .go s
      else match owned with
      | .go s =>
        match s.launches[li]? with
        | none => .go s
        | some l =>
          -- an access that asks for the frontier makes the tile hold it; from then on its shared accesses are direct
          if addrs.any (sharedLine w.l) && (stop || l.frontier == me && l.direct || bufLines (bufOf l me) ≥ 4096) then
            if l.frontier == me then .go ((applyBuf s li me).modLaunch li fun l => { l with direct := true }) else .wait
          else .go s
      | x => x

/-- The gate of what an access reads and what it writes. Every line of both is checked before any is taken: a cause leaves
ownership as it was (R334). -/
def gateBoth (s : State) (w : Who) (pos : Option Nat) (reads writes : List W64) (stopR stopW : Bool) : EqFate :=
  match equinoxGate s w pos reads true stopR with
  | .go t => match equinoxGate t w pos writes false stopW with
    | .trap _ a owner me => .trap s a owner me
    | x => x
  | x => x

/-- Whether a write of a tile goes to the launch's commit buffer (R335): until the tile holds the frontier. -/
def buffered (s : State) (w : Who) (pos : Option Nat) (addr : W64) : Bool :=
  w.l.lrec.equinox && eqPath addr && sharedLine w.l addr && (match s.launches[w.b.launch]? with
    | some l => w.b.st = .ended || !(pos == some l.frontier && l.direct)
    | none => false)

/-! ### Reading and writing what was reached -/

/-- The bytes of a scratchpad. -/
def scrBytes (s : State) (blk off n : Nat) : List Byte :=
  match s.blocks[blk]? with
  | some b => (List.range n).map fun i => sget 0#8 b.scratch (off + i)
  | none => List.replicate n 0

def setScr (s : State) (blk off : Nat) (bs : List Byte) : State :=
  s.modBlk blk fun b => { b with scratch := ssetAll 0#8 b.scratch (placed off bs),
                                 sinit := ssetAll false b.sinit ((wordsOf off bs.length).map fun k => (k, true)) }

/-- The view word of sixteen states from a physical address (R144). -/
def viewWord (s : State) (pa : Nat) : Nat :=
  ((List.range 16).map fun j => (feOf s (pa / 4 + j)).toNat * 4 ^ j).foldl (· + ·) 0

/-- A location moved on by some bytes. -/
def Loc.shift (l : Loc) (k : Nat) : Loc :=
  match l with
  | .mem pa slot rp => .mem (pa + k) slot rp
  | .scr b off => .scr b (off + k)
  | .dev d pa slot => .dev d (pa + k) slot
  | l => l

/-- The bytes of a location as memory stands. -/
def locBytes (s : State) (n : Nat) : Loc → List Byte
  | .mem pa _ _ => rdBytes s pa n
  | .scr b off => scrBytes s b off n
  | .view pa _ => (List.range (n / 4)).flatMap fun i => toBytes 4 (viewWord s (pa + 64 * i))
  | .dev .. | .logged => List.replicate n 0

/-- Whether a read of a location meets an uncorrectable error. -/
def locPoisoned (s : State) (n : Nat) : Loc → Bool
  | .mem pa _ _ => poisoned s pa n
  -- the states of sixteen words stand in a word of the view
  | .view pa _ => poisoned s pa (16 * n)
  | _ => false

/-- How many flits a message takes (R343; log 17). -/
def msgFlits (id : Nat) : Nat := Config.messageFlits id % 4 + 1

/-- The links that are not retired, those with a permit of a channel only where one is given. -/
def openLinks (vc : Option Nat) (ls : Vector Link 32) : List Nat := (List.range 32).filter fun k => match ls[k]? with
  | some l => !l.retired && (match vc with
    | some v => decide (0 < (l.permits[v]?).getD 0)
    | none => true)
  | none => false

/-- One of the links that a flit can go on: the choice is adaptive, so it is free (R345, log 17). -/
def flitRoute (num : Nat) (ks : List Nat) : Option Nat := ks[Config.flitLink num % max ks.length 1]?

/-- A link on which a flit has failed its CRC some times in a row: after 16 it is retired (R343). -/
def Link.tried (l : Link) (n : Nat) : Link := if n ≥ 16 then { l with retired := true, retries := 16 } else { l with retries := n }

/-- Put one flit on a link: it takes its place in the link's order, and the permit of its channel where it needs one (R344). Where
it fails 16 times in a row it does not get through (R343). -/
def flitOn (vc : Option Nat) (num k : Nat) (ls : Vector Link 32) : Option (Nat × Nat) × Vector Link 32 :=
  let n := Config.crcFailures num k
  if n ≥ 16 then (none, vmod ls k fun l => l.tried n)
  else (some (k, ((ls[k]?).map (·.sent)).getD 0), vmod ls k fun l =>
    { l.tried n with sent := l.sent + 1, permits := match vc with
      | some v => vmod l.permits v (· - 1)
      | none => l.permits })

/-- Put one flit on a link that is not retired, and that has a permit for it where it needs one; where it does not get through it
goes on another (R343 to R345). -/
def sendFlit (vc : Option Nat) (num : Nat) : (fuel : Nat) → Vector Link 32 → Option (Nat × Nat) × Vector Link 32
  | 0, ls => (none, ls)
  | f + 1, ls => match flitRoute num (openLinks vc ls) with
    | none => (none, ls)
    | some k => match flitOn vc num k ls with
      | (none, ls) => sendFlit vc num f ls
      | (some e, ls) => (some e, ls)

/-- Put on the links as many of a message's flits as permits allow, in order (R344, R345). -/
def sendFlits (m : OutMsg) : (fuel : Nat) → Vector Link 32 → OutMsg × Vector Link 32
  | 0, ls => (m, ls)
  | f + 1, ls =>
    if m.flits.length ≥ msgFlits m.id then (m, ls)
    else match sendFlit (some m.vc.toNat) (4 * m.id + m.flits.length) 33 ls with
      | (some e, ls) => sendFlits { m with flits := m.flits ++ [e] } f ls
      | (none, ls) => (m, ls)

/-- Whether flits of a message still wait for permits; control flits and markers never do (R344). -/
def OutMsg.waits (m : OutMsg) : Bool := match m.body with
  | .request _ | .response _ => decide (m.flits.length < msgFlits m.id)
  | _ => false

/-- Put on the links what waits in the outbox. A message without permits holds up its channel: no flit of a later one of the
channel goes between its own (R343, R344). -/
def transmitFrom (links : Vector Link 32) (full : List Nat) : List OutMsg → List OutMsg × Vector Link 32
  | [] => ([], links)
  | m :: t =>
    let vc := m.vc.toNat
    if !m.waits || full.contains vc then
      let r := transmitFrom links full t
      (m :: r.1, r.2)
    else
      let x := sendFlits m 4 links
      let r := transmitFrom x.2 (if x.1.waits then vc :: full else full) t
      (x.1 :: r.1, r.2)

def transmit (s : State) : State :=
  let r := transmitFrom s.links [] s.outbox
  { s with outbox := r.1, links := r.2 }

/-- Send a message to another device on a channel, and name it (R345). Control flits and markers take no permit and no number of
a flow (log 17); a marker, or permits, for a link that is retired go nowhere. -/
def sendOn (s : State) (dev : Nat) (vc : BitVec 2) (body : OutBody) (wait : Bool) : State × Nat :=
  let id := s.fresh
  let flow := dev * 4 + vc.toNat
  let seq := sget 0 s.flows flow
  let msg : OutMsg := { id := id, dst := dev, vc := vc, seq := 0, body := body, flits := [], wait := wait }
  let on (e : Option (Nat × Nat) × Vector Link 32) : State :=
    { s with fresh := s.fresh + 1, outbox := s.outbox ++ [{ msg with flits := e.1.toList }], links := e.2 }
  (match body with
    | .request _ | .response _ => transmit { s with fresh := s.fresh + 1, flows := sset 0 s.flows flow ((seq + 1) % 2 ^ 16),
                                                    outbox := s.outbox ++ [{ msg with seq := seq }] }
    | .marker k | .permits k _ _ => on (if (openLinks none s.links).contains k then flitOn none (4 * id) k s.links else (none, s.links))
    | .trigger .. => on (sendFlit none (4 * id) 33 s.links), id)

/-- Send a request to another device; requests travel on channel 0 (R344). `wait` keeps the answer for who asks. -/
def sendTo (s : State) (dev : Nat) (op : RemoteOp) (wait : Bool) : State × Nat := sendOn s dev 0 (.request op) wait

/-- Nobody waits any more for the answers to some requests. -/
def forget (s : State) (ids : List Nat) : State :=
  if ids.isEmpty then s
  else { s with answers := ids.foldl (fun m e => sdel m e) s.answers,
                outbox := s.outbox.map fun o => if ids.contains o.id then { o with wait := false } else o }

/-- Write bytes to a location, as a plain store does (R132, R135, R144). -/
def locWrite (s : State) (loc : Loc) (bs : List Byte) : State :=
  match loc with
  | .mem pa slot _ => wrBytes (setPte s slot 16) pa bs
  | .scr b off => setScr s b off bs
  | .view pa slot =>
    let x := ofBytes bs
    (List.range (4 * bs.length)).foldl (fun s j => setFull s slot (pa / 4 + j) (x.testBit (2 * j))) (setPte s slot 16)
  | .dev d pa slot => (sendTo (setPte s slot 16) d (.store pa bs) false).1
  | .logged => s

/-- Put a write into the commit buffer of a tile (R335); a tile that has ended keeps nothing (R336). -/
def bufferOp (s : State) (li : Nat) (pos : Option Nat) (op : CommitOp) : State :=
  s.modLaunch li fun l => match pos with
    | some p => let b := bufOf l p; if b.ended || p < l.frontier then l else setBuf l { b with ops := b.ops ++ [op] }
    | none => l

/-- A store of a lane, through the commit buffer where Equinox mode asks for it (R335), counted by monitors when it has
a tag (R278). -/
def storeLane (s : State) (w : Who) (pos : Option Nat) (addr : W64) (loc : Loc) (bs : List Byte) (tag : Option CountTag) : State :=
  let now (s : State) : State :=
    let old := locBytes s bs.length loc
    let s := locWrite s loc bs
    match tag with
    | some t => countWrite s t old bs
    | none => s
  match loc with
  | .mem pa slot _ =>
    if buffered s w pos addr then
      -- a sum counts the value as written at once; a delta needs the value before it, known at commit (log 18)
      let delta (p : Tally) : Bool := match (w.b.mons[p.mon]?).bind (·.counting p) with
        | some m => m.cfg[4].getLsbD 20
        | none => false
      let part (d : Bool) : Option CountTag := tag.map fun t => { t with phases := t.phases.filter fun p => delta p == d }
      let s := match part false with
        | some t => countWrite s t bs bs
        | none => s
      bufferOp (setPte s slot 16) w.b.launch pos (.store pa bs (part true))
    else now s
  | _ => now s

/-! ### The side log (R183, R305) -/

/-- Bytes of an access width (R130), and of a side-log entry's item. -/
def wdSize (wd : Nat) : Nat :=
  match wd with
  | 0 | 1 => 1
  | 2 | 3 => 2
  | 5 => 8
  | 6 => 16
  | _ => 4

def entrySize (e : SideEntry) : Nat := if e.kind == 1 then atomSize e.wd.toNat else wdSize e.wd.toNat

/-- What an address names, for comparing the accesses of a group on die `own`: addresses that name one page agree (R140,
R141, R201). The space is 0 for the issuing die's view, 1 + d for another die's replica, 8 for other devices, 9 for the state
view. -/
def spaceOf (own : Nat) (a : W64) : Nat × Nat :=
  match field a.toNat 60 4 with
  | 5 => (if field a.toNat 56 2 == own then 0 else 1 + field a.toNat 56 2, field a.toNat 0 56)
  | 6 => (8, field a.toNat 0 58)
  | 7 => (9, field a.toNat 0 56)
  | 0 | 3 | 4 => (0, field a.toNat 0 60)
  | p => (16 + p, field a.toNat 0 60)

/-- Whether an entry's item stands in a space: an MST's in those of all replicas. -/
def SideEntry.inSpace (e : SideEntry) (own : Nat) (it : Nat × Nat × W128) (space : Nat) : Bool :=
  let x := (spaceOf own (u64 it.2.1)).1
  x == space || e.kind == 2 && space ≤ 4

/-- Whether an access overlaps an entry. `states` says that the access works on full/empty states too: a logged view store
covers sixteen bytes of data for each of its own. `all` says that it writes every replica, as an MST does. -/
def overlaps (e : SideEntry) (own : Nat) (states all : Bool) (a : W64) (n : Nat) : Bool :=
  let y := spaceOf own a
  e.items.any fun it =>
    let x := spaceOf own (u64 it.2.1)
    ((e.inSpace own it y.1 || all && x.1 ≤ 4) && decide (x.2 < y.2 + n) && decide (y.2 < x.2 + entrySize e))
      || (states && x.1 == 9 && y.1 == 0 && decide (16 * x.2 < y.2 + n) && decide (y.2 < 16 * (x.2 + entrySize e)))

/-- The logged byte a later load sees: the newest entry, and within it the highest lane, that covers the byte. -/
def loggedByte (g : Group) (own space a : Nat) : Option Byte :=
  g.sideLog.foldl (fun r e => if e.kind == 1 then r else
    e.items.foldl (fun r it =>
      let b := (spaceOf own (u64 it.2.1)).2
      if e.inSpace own it space && b ≤ a && a < b + entrySize e then some (BitVec.ofNat 8 (it.2.2.toNat / 256 ^ (a - b))) else r) r) none

/-- The bytes a load of the group sees at an address it reached (R183). -/
def forwarded (g : Group) (own : Nat) (addr : W64) (bs : List Byte) : List Byte :=
  if g.sideLog.isEmpty then bs
  else (List.range bs.length).map fun i =>
    (loggedByte g own (spaceOf own addr).1 ((spaceOf own addr).2 + i)).getD (bs.getD i 0)

/-! ### Checking the acting lanes (R136, R145, R147) -/

/-- The outcome of the checks: a precise cause with its TVALs, or the lanes. -/
inductive Check where
  | trap (cause : BitVec 8) (tv : List W64)
  | pass (c : Checked)
  /-- The fault queue has no room (R312). -/
  | wait
  /-- The fault queue's record count is invalid (R312). -/
  | badQueue (addr count : Nat)
  deriving DecidableEq, Repr

def maskOfList (ls : List Nat) : Mask := maskOf fun l => ls.contains l

/-- One fault record for each distinct page that `told` does not hold, in order. Where the queue has no room or the leaf no
permit (R312, R323), the pages told so far come with the state, and a later try goes on from there. -/
def tellPages (s : State) (w : Who) (agent : Nat) (write : Bool) (told : List Nat) (addrs : List W64) : State × List Nat × FQ :=
  addrs.foldl (fun acc a => match acc.2.2 with
    | .ok _ =>
      let page := a.toNat / 4096
      if acc.2.1.contains page then acc
      else match faultRecord acc.1 w.c a agent write w.res w.b.core with
        | .ok s => (s, page :: acc.2.1, .ok s)
        | x => (acc.1, acc.2.1, x)
    | _ => acc) (s, told, .ok s)

/-- The fault records of the addresses that an instruction reads and of those that it writes; `full` comes with the records that
found room. -/
def recordBoth (s : State) (w : Who) (agent : Nat) (reads writes : List W64) : State × FQ :=
  let next : State × List Nat × FQ := match tellPages s w agent false w.g.told reads with
    | (s, told, .ok _) => tellPages s w agent true told writes
    | x => x
  match next with
  | (s, _, .ok _) => let t := s.modGrp w.r fun g => { g with told := [] }; (t, .ok t)
  | (s, told, x) => (s.modGrp w.r fun g => { g with told := told }, x)

/-- The fault records of an instruction's addresses, which it all reads or all writes. -/
def recordFaults (s : State) (w : Who) (agent : Nat) (write : Bool) (addrs : List W64) : State × FQ :=
  if write then recordBoth s w agent [] addrs else recordBoth s w agent addrs []

/-- Whether the side log holds every byte of an access. -/
def loggedWhole (g : Group) (own : Nat) (a : W64) (n : Nat) : Bool :=
  !g.sideLog.isEmpty && (List.range n).all fun i => (loggedByte g own (spaceOf own a).1 ((spaceOf own a).2 + i)).isSome

/-- The page that an address is looked up in, of its leaf's size (R310); `none` where nothing is translated. -/
def pageKey (s : State) (w : Who) (addr : W64) : Option (Bool × Nat) :=
  let a := addr.toNat
  let go (fabric : Bool) (va : Nat) : Option (Bool × Nat) :=
    (usedLeaf s w.tlbs w.c fabric va).map fun pte => (fabric, va - va % pageSize pte)
  match field a 60 4 with
  | 0 | 3 | 4 => go false (field a 0 60)
  | 5 => go false (field a 0 56)
  | 6 => go true (field a 0 48)
  | 7 => go false (16 * field a 0 56)
  | _ => none

/-- Count the lookups of one memory instruction: one for each distinct page of its lanes (R310, R313). -/
def countLookups (s : State) (w : Who) (type : Nat) (addrs : List W64) : State :=
  let firsts := addrs.foldl (fun (acc : List ((Bool × Nat) × W64)) a => match pageKey s w a with
    | some k => if acc.any (fun x => x.1 == k) then acc else acc ++ [(k, a)]
    | none => acc) []
  firsts.foldl (fun s x => lookup s w.c w.b.core type x.2) s

/-- The type of an access in a hotness record (R313). -/
def lookupType : Cls → Nat
  | .load => 0
  | .store | .mst => 1
  | .src => 3
  | .dst => 4
  | _ => 2

/-- Check every acting lane before any access is made. `log` says that unmapped lanes retire into the side log, `mon`
that the operation is one that monitors watch (R278). A load whose bytes the side log holds whole needs no page (R183). -/
def checkLanes (s : State) (w : Who) (q : Req) (log mon : Bool) (acts : List (Nat × W64)) : State × Check :=
  let (s, rs) := acts.foldl (fun (acc : State × List (Nat × W64 × Fate)) x =>
    let (s, f) := resolve acc.1 w q x.2
    let f := if f = .unmapped && q.cls = .load && loggedWhole w.g w.die x.2 q.size then .ok .logged else f
    (s, acc.2 ++ [(x.1, x.2, f)])) (s, [])
  let strict := w.g.chkmode.getLsbD 1
  let rank (f : Fate) : Nat := match f with
    | .fail r _ _ => r
    | .unmapped => if log then 100 else 11
    | .scrFault => if strict then 12 else 100
    | .ok loc => if q.reads && locPoisoned s q.size loc then 13 else 100
  let worst := rs.foldl (fun n x => min n (rank x.2.2)) 100
  -- the pages are looked up once no lane fails a check of its address alone
  let s0 := s
  let s := if worst > 3 then countLookups s w (lookupType q.cls) (acts.map (·.2)) else s
  let monAt := if mon then rs.filter fun x => monPartial w.b x.2.1.toNat q.size != 0 else []
  if worst > 10 && !monAt.isEmpty then
    let m := rs.foldl (fun k x => k ||| monPartial w.b x.2.1.toNat q.size) 0
    (s, .trap 0x73#8 [(monAt.map fun x => x.2.1).headD 0, u64 m])
  else
    let bad := rs.filter fun x => rank x.2.2 == worst
    let first := (bad.map fun x => x.2.1).headD 0
    let mask : W64 := (maskOfList (bad.map fun x => x.1)).setWidth 64
    if worst == 100 then
      (s, .pass { ok := rs.filterMap fun x => match x.2.2 with
                    | .ok loc => some (x.1, x.2.1, loc)
                    | _ => none,
                  unm := rs.filterMap fun x => if x.2.2 = .unmapped then some (x.1, x.2.1) else none,
                  off := maskOfList (rs.filterMap fun x => if x.2.2 = .scrFault then some x.1 else none),
                  log := w.g.sideLog, probed := true })
    else if worst == 11 then
      match recordFaults s w 0 q.write (bad.map fun x => x.2.1) with
      | (_, .ok s) => (s, .trap 0x10#8 [first, mask])
      -- the instruction tries again, and counts its pages then
      | (_, .full) => ((recordFaults s0 w 0 q.write (bad.map fun x => x.2.1)).1, .wait)
      | (s, .bad q n) => (s, .badQueue q n)
    else if worst == 12 then (s, .trap 0x18#8 [first, mask])
    else if worst == 13 then (s, .trap 0xE0#8 [first, mask])
    else
      match (bad.map fun x => x.2.2).headD Fate.unmapped with
      | .fail _ c tv => (s, .trap c (if tv.isEmpty then [first, mask] else first :: tv))
      | _ => (s, .trap 0x14#8 [first, mask])

end Sys2Proof.Machine
end

