-- ==== Sys2Proof/Machine/Order.lean ====
section
/-! DEFINITION. The order among the accesses of one group (R186 to R196, R201). Every access is performed as it issues, in one
order for all agents (log 2); what a group may still see of its own accesses otherwise stands here: a load may return the value
before an own write, and a store may take its place before one, where nothing puts the two in order (log 39). -/
namespace Sys2Proof.Machine

/-! ### Units -/

def oneStream (sid : Nat) : BitVec 16 := BitVec.ofNat 16 (2 ^ sid)
def allStreams : BitVec 16 := 0xFFFF#16

/-- A unit as one number. -/
def Unit8.key (u : Unit8) : Nat := match u.scr with
  | none => u.n
  | some b => 2 ^ 60 * (b + 1) + u.n

/-- The units that `n` bytes at a location cover; of a state view, those of the data. -/
def unitsOf (n : Nat) : Loc → List Unit8
  | .mem pa _ _ => (List.range ((pa % 8 + n + 7) / 8)).map fun i => { scr := none, n := pa / 8 + i }
  | .scr b off => (List.range ((off % 8 + n + 7) / 8)).map fun i => { scr := some b, n := off / 8 + i }
  | .view pa _ => (List.range (2 * n)).map fun i => { scr := none, n := pa / 8 + i }
  | _ => []

/-- A unit's bytes as they stand. -/
def unitBytes (s : State) (u : Unit8) : List Byte := match u.scr with
  | none => rdBytes s (8 * u.n) 8
  | some b => scrBytes s b (8 * u.n) 8

/-- The bytes of a unit that `n` bytes from byte `a` of it cover. -/
def maskIn (a n : Nat) : BitVec 8 := bitsBelow (fun i => a ≤ i && i < a + n) 8

/-- Whether each word that the bytes of `w` touch lies whole in `m`. -/
def coversWords (m w : BitVec 8) : Bool :=
  (w &&& 0x0F#8 == 0#8 || m &&& 0x0F#8 == 0x0F#8) && (w &&& 0xF0#8 == 0#8 || m &&& 0xF0#8 == 0xF0#8)

/-- A unit with some bytes laid over it from byte `a` on. -/
def layOver (a : Nat) (bs u : List Byte) : List Byte := u.zipIdx.map fun x => if a ≤ x.2 && x.2 < a + bs.length then bs.getD (x.2 - a) 0 else x.1

/-! ### Preserved-before and happens-before (R190, R191, R193) -/

/-- Whether R201's table marks a pair of paths with =; with F otherwise. Paths 0x4 and 0x5 are compared where they reach one
location. -/
def pathsOrdered (earlier later : Nat) : Bool :=
  earlier == later || !(later == 3 || earlier == 6 || later == 6 || earlier == 1 || earlier == 2)

def OwnEv.rd (x : OwnEv) : Bool := match x.kind with
  | .access r _ _ _ => r
  | _ => false
def OwnEv.wr (x : OwnEv) : Bool := match x.kind with
  | .access _ w _ _ => w
  | _ => false
def OwnEv.acq (x : OwnEv) : Bool := match x.kind with
  | .access r _ a _ => r && a
  | _ => false
def OwnEv.rel (x : OwnEv) : Bool := match x.kind with
  | .access _ w _ r => w && r
  | _ => false
def OwnEv.isAccess (x : OwnEv) : Bool := match x.kind with
  | .access .. => true
  | _ => false

/-- The streams of which the later accesses are stream-before, past one more event (R190): a FENCEX joins those it lists, an
access of every stream all of them. -/
def spread (m : BitVec 16) (x : OwnEv) : BitVec 16 := match x.kind with
  | .fencex => if m &&& x.sids != 0#16 then m ||| x.sids else m
  | .access .. => if x.sids == allStreams then allStreams else m
  | .fence _ => m

def streamBefore (a : OwnEv) (between : List OwnEv) (b : OwnEv) : Bool := (between.foldl spread a.sids) &&& b.sids != 0#16

/-- Whether two accesses meet in a unit, by paths that the table orders. -/
def meets (a b : OwnEv) : Bool := a.covers.any fun x => b.covers.any fun y => x.at_ == y.at_ && pathsOrdered x.path y.path

/-- Whether a fence between two accesses orders them (R191): .ar, .acq after a read, .rel before a write. -/
def fenced (a b f : OwnEv) : Bool := match f.kind with
  | .fence k => f.sids &&& a.sids != 0#16 && f.sids &&& b.sids != 0#16 && (k == 0#2 || (k == 1#2 && a.rd) || (k == 2#2 && b.wr))
  | _ => false

/-- Preserved-before (R191), with the events between, oldest first. Every later write is taken to depend on a read before it
(log 39). -/
def preserved (a : OwnEv) (between : List OwnEv) (b : OwnEv) : Bool :=
  a.isAccess && b.isAccess && streamBefore a between b
    && (meets a b || a.acq || b.rel || between.any (fenced a b) || (a.rd && b.wr))

def OwnEv.isFence (x : OwnEv) (f : BitVec 2 → Bool) : Bool := match x.kind with
  | .fence k => f k
  | _ => false

/-- Whether another agent has moved between two accesses. -/
def movedBetween (a : OwnEv) (between : List OwnEv) (b : OwnEv) : Bool :=
  decide (a.step + ((between.map (·.step)).filter fun t => a.step < t && t < b.step).eraseDups.length + 1 < b.step)

/-- Whether a group's own release, its annotation or a fence before it, is seen by a read of its own: in a unit where the read has
its place after it (R195), or as an arrival at a phase that has completed (R197). -/
def sawOwn (a b : OwnEv) (before : List OwnEv) : Bool :=
  (a.rel || a.wr && before.any fun f => f.isFence (· != 1#2) && f.sids &&& a.sids != 0#16)
    && ((a.covers.any fun x => b.covers.any fun y => x.at_ == y.at_ && y.past.all fun n => decide (n / 64 ≠ a.clock))
      || a.bars.any fun x => b.bars.any fun y => x.1 == y.1 && decide (x.2 < y.2))

/-- Whether a later read of the group may come after an earlier access of it by synchronising (R195, R197): with its own release, or
with another agent that has moved between them. An acquire, the read's own or of a fence after it, orders what follows. -/
def synced (a : OwnEv) (between : List OwnEv) (b : OwnEv) (before after : List OwnEv) : Bool :=
  a.isAccess && b.rd && (movedBetween a between b || sawOwn a b before)
    && (b.acq || after.any fun f => f.isFence (· != 2#2) && f.sids &&& b.sids != 0#16)

/-- A group's events, given newest first, each with whether it happens before `b`; `acc` are the later ones, oldest first. -/
def happensBefore (b : OwnEv) : List OwnEv → List (OwnEv × Bool) → List (OwnEv × Bool)
  | [], acc => acc
  | x :: t, acc =>
    let later := acc.map (·.1)
    let hit := preserved x later b || acc.zipIdx.any fun y =>
      y.1.2 && (preserved x (later.take y.2) y.1.1 || synced x (later.take y.2) y.1.1 (t ++ later.take y.2) (later.drop (y.2 + 1)))
    happensBefore b t ((x, hit) :: acc)

/-- Whether an access `b` on a path may have its place before an own write (R193): neither the write nor an access that has
seen it happens before `b`. -/
def mayPass (g : Group) (b : OwnEv) (path : Nat) (n : OwnNote) : Bool :=
  n.id / 64 != b.clock && !(n.sids &&& b.sids != 0#16 && pathsOrdered n.path path)
    && (happensBefore b g.own []).all fun x =>
      !x.2 || decide (x.1.clock < n.id / 64) || !(x.1.covers.any fun c => c.at_ == n.at_ && !c.past.contains n.id)

/-! ### Reads (R190, R193) -/

/-- A read of a unit goes back through the group's own writes there, past those that it may have its place before and as free
choices say. The bytes it finds, and the writes it is before. -/
def readUnit (pass : OwnNote → Bool) (u : Unit8) : List OwnNote → List Byte → List Byte × List Nat
  | [], cur => (cur, [])
  | n :: t, cur =>
    if n.at_ ≠ u then readUnit pass u t cur
    else if pass n then let r := readUnit pass u t n.old; (r.1, n.id :: r.2)
    else (cur, [])

/-- An event of a group now. -/
def evNow (s : State) (g : Group) (kind : OwnKind) (sids : BitVec 16) (covers : List Cover) (bars : List (Nat × Nat) := []) : OwnEv :=
  { step := s.steps, clock := g.clock, kind := kind, sids := sids, covers := covers, bars := bars }

/-- Units as an access on a path covers them where it has its place after every own write. -/
def coversAt (path : Nat) (us : List Unit8) : List Cover := us.map fun u => { at_ := u, path := path, past := [] }

/-- The bytes a load of a group finds at a location: what is there, or what was there before own writes that it may have its
place before (R190, R193, R201; log 39). `x` counts the free values used. -/
def loadBytes (s : State) (r : GRef) (x : Nat) (kind : OwnKind) (sid : Nat) (addr : W64) (loc : Loc) (n : Nat) : List Byte × List Cover :=
  let path := field addr.toNat 60 4
  let us := unitsOf n loc
  match s.grp? r, loc with
  | some g, .mem a _ _ | some g, .scr _ a =>
    if g.notes.isEmpty then (locBytes s n loc, [])
    else
      let b := evNow s g kind (oneStream sid) (coversAt path us)
      let rs := us.map fun u => (u, readUnit (fun m => mayPass g b path m && Config.readsOlder x u.key m.id) u g.notes (unitBytes s u))
      (((rs.flatMap fun y => y.2.1).drop (a % 8)).take n, rs.map fun y => { at_ := y.1, path := path, past := y.2.2 })
  | _, _ => (locBytes s n loc, coversAt path us)

/-! ### Writes (R190, R192, R193) -/

/-- Where a write has taken its place: the group's writes with it, those it is before, and the unit before it. -/
structure Placed where
  notes : List OwnNote
  past  : List Nat
  old   : List Byte
  deriving DecidableEq, Repr

/-- A write takes its place in a unit: after every own write, or before some of them, whose bytes then stand over its own. -/
def placeNote (pass : OwnNote → Bool) (lay : List Byte → List Byte) (w : OwnNote) : List OwnNote → List Byte → Placed
  | [], cur => { notes := [{ w with old := cur }], past := [], old := cur }
  | n :: t, cur =>
    if n.at_ ≠ w.at_ then let r := placeNote pass lay w t cur; { r with notes := n :: r.notes }
    else if pass n then
      let r := placeNote pass lay w t n.old
      { r with notes := (if r.past.isEmpty then { n with old := lay n.old } else n) :: r.notes, past := n.id :: r.past }
    else { notes := { w with old := cur } :: n :: t, past := [], old := cur }

/-- A store of at most 16 aligned bytes, cut at its units: unit, first byte in it, location, address and bytes. -/
def cut8 (loc : Loc) (addr : W64) (bs : List Byte) : List (Unit8 × Nat × Loc × W64 × List Byte) :=
  (unitsOf bs.length loc).zipIdx.map fun u =>
    let lo := match loc with
      | .mem a _ _ | .scr _ a => a % 8
      | _ => 0
    let k := if u.2 == 0 then 0 else 8 * u.2 - lo
    let m := if u.2 == 0 then 8 - lo else 8
    (u.1, if u.2 == 0 then lo else 0, loc.shift k, addr + u64 k, (bs.drop k).take m)

/-- Whether a counting of differences takes part in a write (R279). -/
def countsDelta (b : Block) (n : Nat) : Option CountTag → Bool
  | some t => t.phases.any fun p => (countsIn b t n p).any fun m => m.cfg[4].getLsbD 20
  | none => false

/-- What the lanes of one store write: units, with the paths and the bytes of all lanes there. They take one place among the group's
earlier writes (R189). -/
abbrev StoreSpot := Unit8 × Nat × BitVec 8

def spotsOf (addr : W64) (loc : Loc) (bs : List Byte) : List StoreSpot := match loc with
  | .mem .. | .scr .. => (cut8 loc addr bs).map fun p => (p.1, field addr.toNat 60 4, maskIn p.2.1 p.2.2.2.2.length)
  | _ => []

/-- One unit of a plain store of lane `l`, whose instruction writes the spots given. A store that takes its place before own writes
leaves memory as it is, and is counted against what was there before it (R279). -/
def storeUnit (s : State) (w : Who) (x l : Nat) (b : OwnEv) (spots : List StoreSpot) (tag : Option CountTag)
    (p : Unit8 × Nat × Loc × W64 × List Byte) : State × List Cover :=
  let (u, a, loc, addr, bs) := p
  let path := field addr.toNat 60 4
  let tag := tag.map fun t => { t with addr := addr }
  match s.grp? w.r with
  | none => (s, [])
  | some g =>
    let mask := maskIn a bs.length
    let note : OwnNote := { at_ := u, id := 64 * g.clock + l, sids := b.sids, path := path, mask := mask, old := [], solid := false,
                            counted := countsDelta w.b bs.length tag }
    let here := spots.filter fun e => e.1 == u
    let pass (m : OwnNote) : Bool := !m.solid && !m.counted && coversWords m.mask (here.foldl (fun k e => k ||| e.2.2) mask)
      && (path :: here.map (·.2.1)).all (fun q => mayPass g { b with covers := coversAt q [u] } q m) && Config.writesEarlier x u.key m.id
    let r := placeNote pass (layOver a bs) note g.notes (unitBytes s u)
    let s := if r.past.isEmpty then storeLane s w (tilePos w) addr loc bs tag
      else
        let s := locWrite s loc (((unitBytes s u).drop a).take bs.length)
        match tag with
        | some t => countWrite s t ((r.old.drop a).take bs.length) bs
        | none => s
    (s.modGrp w.r fun g => { g with notes := r.notes }, [{ at_ := u, path := path, past := r.past }])

/-- A plain store of a lane of a group, with what it covers; through the commit buffer where Equinox mode asks for it (R335). -/
def groupStore (s : State) (w : Who) (x l : Nat) (b : OwnEv) (spots : List StoreSpot) (addr : W64) (loc : Loc) (bs : List Byte)
    (tag : Option CountTag) : State × List Cover :=
  if buffered s w (tilePos w) addr then (storeLane s w (tilePos w) addr loc bs tag, [])
  else match loc with
  | .mem .. | .scr .. => (cut8 loc addr bs).foldl (fun acc p => let r := storeUnit acc.1 w x l b spots tag p; (r.1, acc.2 ++ r.2)) (s, [])
  | _ => (storeLane s w (tilePos w) addr loc bs tag, coversAt (field addr.toNat 60 4) (unitsOf bs.length loc))

/-- Note a write that lane `l` has made between two states, which read what stood there and comes right after it (R192). -/
def noteSolid (before s : State) (r : GRef) (l sid : Nat) (addr : W64) (loc : Loc) (n : Nat) : State :=
  let path := field addr.toNat 60 4
  s.modGrp r fun g => { g with notes := ((unitsOf n loc).map fun u =>
    { at_ := u, id := 64 * g.clock + l, sids := oneStream sid, path := path, mask := 0xFF#8, old := unitBytes before u, solid := true,
      counted := false }) ++ g.notes }

/-- The group's own writes to some bytes have all been performed for it: what reads and writes them elsewhere than in order is
not followed (log 39). -/
def settleAt (s : State) (r : GRef) (loc : Loc) (n : Nat) : State :=
  s.modGrp r fun g => { g with notes := g.notes.filter fun m => !(unitsOf n loc).contains m.at_ }

/-- How many of its accesses and fences a group's order looks back on. -/
def ownDepth : Nat := 16

/-- A group's order with one more event. What is older than those looked back on has been performed (log 39). -/
def Group.logOwn (g : Group) (e : OwnEv) : Group :=
  let own := (e :: g.own).take ownDepth
  { g with own := own, notes := g.notes.filter fun n => ((own.getLast?).map (·.clock)).getD 0 ≤ n.id / 64 }

/-- A group has made an access or issued a fence; the free values it has used are counted. -/
def logOwn (s : State) (r : GRef) (kind : OwnKind) (sids : BitVec 16) (covers : List Cover) (bars : List (Nat × Nat) := []) : State :=
  match s.grp? r with
  | some g => if g.notes.isEmpty then s
    else ({ s with fresh := s.fresh + 1 } : State).modGrp r fun g => g.logOwn (evNow s g kind sids covers bars)
  | none => s

/-- Nothing that a group has accessed is left to order: every access of it has been performed. -/
def Group.settled (g : Group) : Group := { g with own := [], notes := [] }

end Sys2Proof.Machine
end

