-- ==== Sys2Proof/Machine/Memops.lean ====
section
/-! DEFINITION. What the memory instructions share: lane addresses, the order of checks and waits before any access, the
answers of other devices, register results, the side-log entry, and the read-modify-writes at a location (R128 to R130,
R142, R148 to R151, R157 to R161, R183, R200, R334, R335). -/
namespace Sys2Proof.Machine

/-! ### Addresses and data -/

def extLong (e : MemExt) : Bool := e != .none
/-- The offset of a form (R128): a place word carries none. -/
def extOff : MemExt → W64
  | .off w => w
  | _ => 0
def extPlace : MemExt → Option W64
  | .place w => some w
  | _ => none

/-- Lane and address of each acting lane (R129). -/
def laneAddrs (i : Iss) (x : MemForm) : List (Nat × W64) :=
  (laneList i.act).map fun l => (l, readVV i.g x.a.toNat l + extOff x.ext)

/-- `n` registers from a number, as a list. -/
def regRun (u : Bool) (d : BitVec 8) (n : Nat) : List Reg :=
  (List.range n).map fun k => if u then .s (d.toNat + k) else .v (d.toNat + k)

/-- The value of `n` registers in a lane, the low word in the first (R130). -/
def readRun (g : Group) (b : BitVec 8) (n l : Nat) : Nat :=
  (List.range n).foldl (fun x k => x + (readV g (b.toNat + k) l).toNat * 2 ^ (32 * k)) 0

/-- Registers of an access width (R130) and of an atomic's type (R158). -/
def wdRegs (wd : BitVec 4) : Nat :=
  match wd.toNat with
  | 5 | 8 | 10 => 2
  | 6 => 4
  | _ => 1

/-- What a load writes into its registers (R130): narrow i types are sign-extended. -/
def extend (wd : BitVec 4) (x : Nat) : Nat :=
  match wd.toNat with
  | 1 => wrapTo 32 (signedOf 8 x)
  | 3 => wrapTo 32 (signedOf 16 x)
  | _ => x

/-- Values by lane, into `n` registers from `d`; a uniform destination takes the one value. -/
def valueWrites (u : Bool) (n : Nat) (d : BitVec 8) (vals : List (Nat × Nat)) : List RegWrite :=
  let at_ (l : Nat) : Nat := ((vals.find? fun v => v.1 == l).map (·.2)).getD 0
  let m := maskOfList (vals.map (·.1))
  if vals.isEmpty then []
  else (List.range n).map fun k =>
    if u then .s (d.toNat + k) (u32 (at_ (lowLane m) / 2 ^ (32 * k)))
    else .v (d.toNat + k) m (lanes fun l => u32 (at_ l / 2 ^ (32 * k)))

/-! ### Before any access -/

/-- How an instruction's accesses are checked and ordered. -/
structure Plan where
  req : Req
  /-- Lanes whose page is unmapped retire into the side log. -/
  log : Bool := false
  /-- A write that monitors watch (R278). -/
  mon : Bool := false
  /-- A release: it waits for the whole side log (R183). -/
  rel : Bool := false
  /-- On a shared line of an Equinox launch it waits for the frontier (R335). -/
  stop : Bool := false
  /-- It only reads: the prologue may make it on a shared line (R333). -/
  pure : Bool := false
  deriving DecidableEq, Repr

/-- What to send to another device for one lane (R142); `none` where nothing comes back. -/
abbrev Ask := Nat → W64 → Nat → Option RemoteOp

/-- Whether a request writes: the leaf used then has D set (R307). -/
def opWrites : RemoteOp → Bool
  | .load .. => false
  | .fullEmpty _ _ _ data fill => data.isSome || fill.isSome
  | _ => true

/-- An answer of another device: a status byte, 0xE0 for an uncorrectable error there (R142, R145), and its data (log 17). -/
def answerBad (bs : List Byte) : Bool := bs.getD 0 0 == 0xE0#8

/-- The requests of an instruction are out (R142, log 17): it waits until every answer is there, and then acts on what its checks
found when they went out, with the answers by lane. An uncorrectable error there raises cause 0xE0, with the mask of its lanes
where there are lanes. -/
def answered (i : Iss) (lanes : Bool) (k : State → Checked → (Nat → List Byte) → Act) : Act :=
  if i.g.sent.all fun (x : Nat × Nat) => !(sget [] i.s.answers x.2).isEmpty then
    let got (l : Nat) : List Byte := match i.g.sent.find? fun (x : Nat × Nat) => x.1 == l with
      | some x => sget [] i.s.answers x.2
      | none => []
    let s := { i.s with answers := i.g.sent.foldl (fun (m : SMap (List Byte)) (x : Nat × Nat) => sdel m x.2) i.s.answers }
    let s := s.modGrp i.w.r fun g => { g with sent := [], reached := Checked.none }
    match i.g.reached.ok.filter fun x => answerBad (got x.1) with
    | [] => k s i.g.reached fun l => (got l).drop 1
    | bad => .trap s 0xE0#8 i.act ((bad.map fun x => x.2.1).headD 0
        :: if lanes then [(maskOfList (bad.map fun x => x.1)).setWidth 64] else [])
  else .again i.s

/-- A request to another device: the lane it is for, the device, the fabric leaf used, and the operation. -/
structure FarReq where
  lane : Nat
  dev  : Nat
  slot : Option Nat
  op   : RemoteOp
  deriving DecidableEq, Repr

/-- The requests of the lanes that reach other devices. -/
def farReqs (c : Checked) (ask : Ask) : List FarReq := c.ok.filterMap fun x => match x.2.2 with
  | .dev d pa slot => (ask x.1 x.2.1 pa).map fun op => { lane := x.1, dev := d, slot := slot, op := op }
  | _ => none

/-- Send some requests: the state, and lane and number of each message. Lanes that load one location share a request, so that they
find the same (R131). -/
def sendReqs (s : State) (reqs : List FarReq) : State × List (Nat × Nat) :=
  let r := reqs.foldl (fun (acc : State × List (FarReq × Nat)) q =>
    match acc.2.find? fun e => !opWrites q.op && e.1.dev == q.dev && e.1.op = q.op with
    | some e => (acc.1, acc.2 ++ [(q, e.2)])
    | none =>
      let (s, id) := sendTo (if opWrites q.op then setPte acc.1 q.slot 16 else acc.1) q.dev q.op true
      (s, acc.2 ++ [(q, id)])) (s, [])
  (r.1, r.2.map fun e => (e.1.lane, e.2))

/-- Send the requests of an instruction to other devices, and keep what its lanes reach; it goes on at once without any. -/
def withAnswers (i : Iss) (s : State) (c : Checked) (ask : Ask) (k : State → Checked → (Nat → List Byte) → Act) : Act :=
  let reqs := farReqs c ask
  if reqs.isEmpty then k s c fun _ => []
  else
    let r := sendReqs s reqs
    .again (r.1.modGrp i.w.r fun g => { g with sent := r.2, reached := c })

/-- Where several lanes read and write at other devices, each location is read first: a cause of one of those reads leaves every lane
without an access (R304). How the devices settle that is the model's own (DESIGN CHOICE, log 17). -/
def probing (q : Req) (c : Checked) (ask : Ask) : Option Ask :=
  if q.reads && ((farReqs c ask).filter fun e => opWrites e.op).length ≥ 2 then some fun _ _ pa => some (.load pa q.size) else none

/-- What the lanes of an access cover where each has its place after every own write. -/
def coversOf (c : Checked) (n : Nat) : List Cover := c.ok.flatMap fun e => coversAt (field e.2.1.toNat 60 4) (unitsOf n e.2.2)

/-- A group has made an access with some of its lanes (R187, R190, R196). -/
def logAccess (s : State) (r : GRef) (kind : OwnKind) (sid : BitVec 4) (covers : List Cover) : State :=
  logOwn s r kind (oneStream sid.toNat) covers

/-- Check the acting lanes, wait where the side log or the frontier asks for it, and go on with what the lanes reach
(R136, R145, R183, R200, R334, R335, R312). SFM takes the lanes that are switched off once no cause stands in the way, one of
another device among them (DESIGN CHOICE, log 40). -/
def accessing (i : Iss) (p : Plan) (acts : List (Nat × W64)) (ask : Ask) (k : State → Checked → (Nat → List Byte) → Act) : Act :=
  let go (s : State) (c : Checked) (got : Nat → List Byte) : Act :=
    k (if c.off == 0#32 then s else s.modGrp i.w.r fun g => { g with sfm := g.sfm ||| c.off }) c got
  if !i.g.sent.isEmpty then
    answered i true fun s c got => if c.probed then go s c got else withAnswers i s { c with probed := true } ask go
  else
    let overlap := acts.any fun x => i.g.sideLog.any fun e =>
      (p.req.cls != .load || e.kind == 1) && overlaps e i.w.die (p.req.cls == .fe) (p.req.cls == .mst) x.2 p.req.size
    let blocked := overlap || (p.rel && !i.g.sideLog.isEmpty)
    match checkLanes i.s i.w p.req p.log p.mon acts with
    | (s, .trap c tv) => if c == 0x10#8 && blocked then .again i.s else .trap s c i.act tv
    | (s, .wait) => .again (if blocked then i.s else s)
    | (s, .badQueue q n) => if blocked then .again i.s else .at (terminateWith s i.w.r.blk 0xA2#8 [u64 q, u64 n])
    | (s, .pass c) =>
      if blocked || (!c.unm.isEmpty && i.g.sideLog.length ≥ 16) then .again i.s
      else
        let dev := c.ok.any fun x => match x.2.2 with
          | .dev .. => true
          | _ => false
        let addrs := c.ok.map (fun x => x.2.1) ++ c.unm.map (fun x => x.2)
        match equinoxGate s i.w (tilePos i.w) addrs p.pure (p.stop || dev) with
        | .wait => .again i.s
        | .trap s a owner me => .trap s 0xB5#8 i.act [a, owner, me]
        | .full s => .at (terminateWith s i.w.r.blk 0xB6#8 [])
        | .go s => match probing p.req c ask with
          | some probe => withAnswers i s { c with probed := false } probe go
          | none => withAnswers i s c ask go

/-- Put the faulting lanes of a store or reduction into the side log, with a fault record for each page (R183, R305,
R312); a full fault queue keeps the instruction at issue. `data` gives each lane's bytes as a number. -/
def logLanes (i : Iss) (s : State) (c : Checked) (kind : Nat) (x : MemForm) (data : Nat → Nat) (done : State → Act) : Act :=
  if c.unm.isEmpty then done s
  else
    match recordFaults s i.w 1 true (c.unm.map (·.2)) with
    | (_, .full) => .again (recordFaults i.s i.w 1 true (c.unm.map (·.2))).1
    | (_, .bad q n) => .at (terminateWith s i.w.r.blk 0xA2#8 [u64 q, u64 n])
    | (_, .ok s) =>
      let e : SideEntry :=
        { mask := maskOfList (c.unm.map (·.1)), kind := kind, wd := x.wd, sid := x.sid, sc := x.sc, ord := x.ord, op := x.op,
          items := c.unm.map fun u => (u.1, u.2.toNat, BitVec.ofNat 128 (data u.1)),
          phases := if kind == 2 then [] else monPhases i.w, sent := [], told := [] }
      done (s.modGrp i.w.r fun g => { g with sideLog := g.sideLog ++ [e], sideSvc := g.sideLog.isEmpty || g.sideSvc })

/-! ### Read-modify-writes at a location -/

/-- A full/empty operation at a physical address (R149): whether it proceeded, with the state, and the data it found
there. `need` is the FULL bit it asks for, `fill` the one it leaves. -/
structure FeDone where
  s    : State
  ok   : Bool
  data : List Byte
  fe   : BitVec 2
  deriving Repr

def fullEmptyAt (s : State) (slot : Option Nat) (pa size : Nat) (need : Option Bool) (data : Option (List Byte))
    (fill : Option Bool) : FeDone :=
  let ws := wordsOf pa size
  let old := rdBytes s pa size
  let fe := feOf s (pa / 4)
  if need.any fun b => ws.any fun k => isFull s k != b then { s := s, ok := false, data := old, fe := fe }
  else
    let s := match data with
      | some bs => wrBytes s pa bs
      | none => s
    let s := if data.isSome || fill.isSome then setPte s slot 16 else s
    let s := match fill with
      | some b => ws.foldl (fun s k => setFull s slot k b) s
      | none => s
    { s := s, ok := true, data := old, fe := fe }

/-- The answer to a full/empty request: whether it proceeded, the data, and the state. -/
def feAnswer (r : FeDone) : List Byte := (if r.ok then 1#8 else 0#8) :: r.fe.setWidth 8 :: r.data

/-- An atomic's element operation at a location: the old bytes, and the state after (R159). -/
def atomAt (s : State) (loc : Loc) (op wd : BitVec 4) (x : Nat) (tag : Option CountTag) : State × Nat :=
  let n := atomSize wd.toNat
  let old := locBytes s n loc
  let new := toBytes n (combine op.toNat wd.toNat (ofBytes old) x)
  let s := locWrite s loc new
  (match tag with | some t => countWrite s t old new | none => s, ofBytes old)

/-- CAS at a location (R160): the old value. -/
def casAt (s : State) (loc : Loc) (n cmp new : Nat) (tag : Option CountTag) : State × Nat :=
  let old := locBytes s n loc
  if ofBytes old == cmp then
    let s := locWrite s loc (toBytes n new)
    (match tag with | some t => countWrite s t old (toBytes n new) | none => s, ofBytes old)
  else (s, ofBytes old)

/-- CADD at a location (R161): `none` where the sum would reach 2^64. -/
def caddAt (s : State) (loc : Loc) (x : Nat) (tag : Option CountTag) : State × Option Nat :=
  let old := locBytes s 8 loc
  if ofBytes old + x ≥ 2 ^ 64 then (s, none)
  else
    let new := toBytes 8 (ofBytes old + x)
    let s := locWrite s loc new
    (match tag with | some t => countWrite s t old new | none => s, some (ofBytes old))

end Sys2Proof.Machine
end

