-- ==== Sys2Proof/Machine/Atomics.lean ====
section
/-! DEFINITION. Atomics, OPC 0x90 to 0x93 (R157 to R161). -/
namespace Sys2Proof.Machine

def atomReq (cls : Cls) (x : MemForm) : Req :=
  { cls := cls, write := true, reads := true, size := atomSize x.wd.toNat, place := extPlace x.ext, align := atomSize x.wd.toNat }

/-- ORD 10 or 11 is a release (R158). -/
def releases (x : MemForm) : Bool := x.ord.getLsbD 1

/-- How an atomic's accesses are checked and what they wait for (R158). -/
def atomPlan (cls : Cls) (x : MemForm) : Plan :=
  { req := atomReq cls x, mon := true, rel := releases x, stop := true }

/-- A read-modify-write as an access: ORD 01 and 11 acquire, 10 and 11 release (R187, R196). -/
def atomKind (x : MemForm) : OwnKind := .access true true (x.ord.getLsbD 0) (releases x)

/-- Lane `l` has made its read-modify-write between two states (R192). -/
def noteAtom (i : Iss) (x : MemForm) (l : Nat) (addr : W64) (loc : Loc) (before s : State) : State :=
  noteSolid before s i.w.r l x.sid.toNat addr loc (atomSize x.wd.toNat)

/-- Some lanes have made their accesses of a kind (R190). -/
def logLanesOf (i : Iss) (x : MemForm) (kind : OwnKind) (s : State) (ws : List (Nat × W64 × Loc)) : State :=
  if ws.isEmpty then s else logAccess s i.w.r kind x.sid (coversOf { Checked.none with ok := ws } (atomSize x.wd.toNat))

/-- Apply an operation to the lanes in ascending order; each sees what the lower lanes left (R157). -/
def eachLane (s : State) (c : Checked) (f : State → Nat → W64 → Loc → State × Option Nat) : State × List (Nat × Nat) :=
  c.ok.foldl (fun acc e =>
    let r := f acc.1 e.1 e.2.1 e.2.2
    (r.1, match r.2 with
      | some v => acc.2 ++ [(e.1, v)]
      | none => acc.2)) (s, [])

/-- ATOM (R159): the old values go to D. -/
def execAtom (h : Hdr) (x : MemForm) (s : State) : Outcome :=
  let n := wdRegs x.wd
  issue h (extLong x.ext) false
    { reads := regsOf false true x.a ++ regRun false x.b n, writes := regRun false x.d n } s fun i =>
    let b (l : Nat) : Nat := readRun i.g x.b n l
    accessing i (atomPlan .atomic x) (laneAddrs i x)
      (fun l _ pa => some (.atom pa x.op x.wd (u64 (b l)))) fun s c got =>
      let r := eachLane s c fun s l addr loc => match loc with
        | .dev .. => (s, some (ofBytes (got l)))
        | _ => let r := atomAt s loc x.op x.wd (b l) (some (countTag i.w addr)); (noteAtom i x l addr loc s r.1, some r.2)
      .later (logLanesOf i x (atomKind x) r.1 c.ok) (valueWrites false n x.d r.2) FlagSet.none

/-- RED (R159): no result; unmapped lanes go to the side log; on a shared line of an Equinox launch the reduction is
combined at commit (R335). At another device it waits until it has been made, as its error is precise (R142, R145). -/
def execRed (h : Hdr) (x : MemForm) (s : State) : Outcome :=
  let n := wdRegs x.wd
  issue h (extLong x.ext) false { reads := regsOf false true x.a ++ regRun false x.b n } s fun i =>
    let b (l : Nat) : Nat := readRun i.g x.b n l
    accessing i { atomPlan .atomic x with log := true, stop := false } (laneAddrs i x)
      (fun l _ pa => some (.atom pa x.op x.wd (u64 (b l)))) fun s c _ =>
      let s := c.ok.foldl (fun s e =>
        let tag := countTag i.w e.2.1
        match e.2.2 with
        | .dev .. => s
        | .mem pa slot _ =>
          if buffered s i.w (tilePos i.w) e.2.1 then
            bufferOp (setPte s slot 16) i.w.b.launch (tilePos i.w) (.red pa x.op x.wd (u64 (b e.1)) (some tag))
          else noteAtom i x e.1 e.2.1 e.2.2 s (atomAt s e.2.2 x.op x.wd (b e.1) (some tag)).1
        | loc => noteAtom i x e.1 e.2.1 loc s (atomAt s loc x.op x.wd (b e.1) (some tag)).1) s
      logLanes i (logLanesOf i x (atomKind x) s c.ok) c 1 x b .done

/-- CAS (R160): B holds the compare value, then the new value. -/
def execCas (h : Hdr) (x : MemForm) (s : State) : Outcome :=
  let n := wdRegs x.wd
  issue h (extLong x.ext) false
    { reads := regsOf false true x.a ++ regRun false x.b (2 * n), writes := regRun false x.d n } s fun i =>
    let cmp (l : Nat) : Nat := readRun i.g x.b n l
    let new (l : Nat) : Nat := readRun i.g (x.b + BitVec.ofNat 8 n) n l
    accessing i (atomPlan .atomic x) (laneAddrs i x)
      (fun l _ pa => some (.cas pa x.wd (u64 (cmp l)) (u64 (new l)))) fun s c got =>
      let r := eachLane s c fun s l addr loc => match loc with
        | .dev .. => (s, some (ofBytes (got l)))
        | _ =>
          let r := casAt s loc (4 * n) (cmp l) (new l) (some (countTag i.w addr))
          (if r.2 == cmp l then noteAtom i x l addr loc s r.1 else r.1, some r.2)
      -- a lane that failed reads, and acquires as the failure order says
      let won (e : Nat × W64 × Loc) : Bool := r.2.any fun v => v.1 == e.1 && v.2 == cmp e.1
      let s := logLanesOf i x (atomKind x) r.1 (c.ok.filter won)
      let s := logLanesOf i x (.access true false (x.op.getLsbD 0) false) s (c.ok.filter fun e => !won e)
      .later s (valueWrites false n x.d r.2) FlagSet.none

/-- CADD (R161): OP bit 0 is NR. The group goes on once every reply is in, so D is written at once; lanes whose sum would
wrap take cause 0x15 after the others' additions stand. -/
def execCadd (h : Hdr) (x : MemForm) (s : State) : Outcome :=
  let nr := x.op.getLsbD 0
  issue h (extLong x.ext) false
    { reads := regsOf false true x.a ++ regRun false x.b 2, writes := if nr then [] else regRun false x.d 2 } s fun i =>
    let b (l : Nat) : Nat := readRun i.g x.b 2 l
    accessing i (atomPlan .cadd x) (laneAddrs i x)
      (fun l _ pa => some (.cadd pa (u64 (b l)))) fun s c got =>
      let r := eachLane s c fun s l addr loc => match loc with
        | .dev .. => (s, if (got l).getD 0 0 == 1#8 then some (ofBytes ((got l).drop 1)) else none)
        | _ =>
          -- a lane whose sum would wrap is a write too: it leaves its word as it was (R187)
          let r := caddAt s loc (b l) (some (countTag i.w addr))
          (noteAtom i x l addr loc s r.1, r.2)
      let done := maskOfList (r.2.map (·.1))
      let wrapped := c.ok.filter fun e => !has done e.1
      let s := logLanesOf i x (atomKind x) r.1 c.ok
      let s := if nr then s else s.modGrp i.w.r fun g => applyWrites g.depth (valueWrites false 2 x.d r.2) g
      if wrapped.isEmpty then .done s
      else .trap s 0x15#8 (maskOfList (wrapped.map (·.1))) [(wrapped.map fun e => e.2.1).headD 0, done.setWidth 64]

end Sys2Proof.Machine
end

