-- ==== Sys2Proof/Machine/Keccak.lean ====
section
/-! DEFINITION. The hash functions the machine names: SHA3-256 (FIPS 202, R349) and KMAC128 (NIST SP 800-185, R314). -/
namespace Sys2Proof.Machine

/-- Round constants of Keccak-f[1600]. -/
def keccakRC : List W64 :=
  [0x0000000000000001#64, 0x0000000000008082#64, 0x800000000000808A#64, 0x8000000080008000#64, 0x000000000000808B#64,
   0x0000000080000001#64, 0x8000000080008081#64, 0x8000000000008009#64, 0x000000000000008A#64, 0x0000000000000088#64,
   0x0000000080008009#64, 0x000000008000000A#64] ++
  [0x000000008000808B#64, 0x800000000000008B#64, 0x8000000000008089#64, 0x8000000000008003#64, 0x8000000000008002#64,
   0x8000000000000080#64, 0x000000000000800A#64, 0x800000008000000A#64, 0x8000000080008081#64, 0x8000000000008080#64,
   0x0000000080000001#64, 0x8000000080008008#64]

/-- Rotation offsets by lane number x + 5y. -/
def keccakRot : List Nat :=
  [0, 1, 62, 28, 27, 36, 44, 6, 55, 20, 3, 10, 43, 25, 39, 41, 45, 15, 21, 8, 18, 2, 61, 56, 14]

/-- One round on 25 lanes. -/
def keccakRound (a : List W64) (rc : W64) : List W64 :=
  let g (l : List W64) (i : Nat) : W64 := l.getD i 0
  let c := (List.range 5).map fun x => g a x ^^^ g a (x + 5) ^^^ g a (x + 10) ^^^ g a (x + 15) ^^^ g a (x + 20)
  let d := (List.range 5).map fun x => g c ((x + 4) % 5) ^^^ (g c ((x + 1) % 5)).rotateLeft 1
  let t := (List.range 25).map fun i => (g a i ^^^ g d (i % 5)).rotateLeft (keccakRot.getD i 0)
  -- lane (x, y) moves to (y, 2x + 3y): lane (x', y') comes from x = x' + 3y', y = x'
  let b := (List.range 25).map fun i => g t ((i % 5 + 3 * (i / 5)) % 5 + 5 * (i % 5))
  let e := (List.range 25).map fun i =>
    g b i ^^^ (~~~(g b ((i % 5 + 1) % 5 + 5 * (i / 5))) &&& g b ((i % 5 + 2) % 5 + 5 * (i / 5)))
  e.set 0 (g e 0 ^^^ rc)

def keccakF (a : List W64) : List W64 := keccakRC.foldl keccakRound a

/-- The lanes of a block of bytes, xored into the state. -/
def keccakAbsorb (a : List W64) (block : List Byte) : List W64 :=
  keccakF ((List.range 25).map fun i =>
    a.getD i 0 ^^^ ((List.range 8).foldl (fun x j => x ||| ((block.getD (8 * i + j) 0).setWidth 64 <<< (8 * j))) 0#64))

/-- The message padded to whole blocks: the domain byte, zeros, and the last bit. -/
def keccakPad (rate : Nat) (dom : Byte) (m : List Byte) : List Byte :=
  let z := rate - m.length % rate
  if z == 1 then m ++ [dom ||| 0x80#8] else m ++ [dom] ++ List.replicate (z - 2) 0#8 ++ [0x80#8]

def keccakBlocks (rate : Nat) : Nat → List Byte → List W64 → List W64
  | 0, _, a => a
  | k + 1, m, a => keccakBlocks rate k (m.drop rate) (keccakAbsorb a (m.take rate))

/-- The first `n` bytes (at most one rate) of the sponge over a message. -/
def sponge (rate : Nat) (dom : Byte) (m : List Byte) (n : Nat) : List Byte :=
  let p := keccakPad rate dom m
  let a := keccakBlocks rate (p.length / rate) p (List.replicate 25 0#64)
  (List.range n).map fun i => ((a.getD (i / 8) 0) >>> (8 * (i % 8))).setWidth 8

def sha3_256 (m : List Byte) : List Byte := sponge 136 0x06#8 m 32

/-- The bytes of a number, most significant first, at least one. -/
def beBytes (x : Nat) : List Byte :=
  let n := max 1 ((Nat.log2 x) / 8 + 1)
  (List.range n).map fun i => BitVec.ofNat 8 (x / 256 ^ (n - 1 - i))

def leftEncode (x : Nat) : List Byte := let b := beBytes x; BitVec.ofNat 8 b.length :: b
def rightEncode (x : Nat) : List Byte := let b := beBytes x; b ++ [BitVec.ofNat 8 b.length]
def encodeString (s : List Byte) : List Byte := leftEncode (8 * s.length) ++ s
def bytepad (x : List Byte) (w : Nat) : List Byte :=
  let z := leftEncode w ++ x
  z ++ List.replicate ((w - z.length % w) % w) 0#8

def asciiBytes (s : String) : List Byte := s.toList.map fun c => BitVec.ofNat 8 c.toNat

/-- KMAC128 with an output of `n` bytes. -/
def kmac128 (key m : List Byte) (n : Nat) (custom : List Byte) : List Byte :=
  let x := bytepad (encodeString key) 168 ++ m ++ rightEncode (8 * n)
  sponge 168 0x04#8 (bytepad (encodeString (asciiBytes "KMAC") ++ encodeString custom) 168 ++ x) n

/-- The tag of a code or stream line (R314). -/
def lineTag (key : BitVec 128) (addr : W64) (desc line : List Byte) : List Byte :=
  let bytes (n x : Nat) : List Byte := (List.range n).map fun i => BitVec.ofNat 8 (x / 256 ^ i)
  kmac128 (bytes 16 key.toNat) (bytes 8 addr.toNat ++ desc ++ line) 8 (asciiBytes "Sceow line")

end Sys2Proof.Machine
end

