-- ==== Sys2Proof/Machine/Sweep.lean ====
section
/-! DEFINITION. The sweep sequencer: code lines and headers, entering and leaving blocks, calls, parking and retirement
(R66 to R85, R314), and the end of a block and of a launch (R263, R329). -/
namespace Sys2Proof.Machine

/-! ### Code lines (R181, R314) -/

/-- Stop a group until the fault service has acted: append a record (R312). A full queue lets the group try again on a
later turn; an invalid record count terminates the block with cause 0xA2. -/
def awaitService (s : State) (w : Who) (va : W64) (agent : Nat) (write : Bool) : State :=
  match faultRecord s w.c va agent write w.res w.b.core with
  | .ok s => s.modGrp w.r fun g => { g with status := .service (g.status = .resumed) }
  | .full => s
  | .bad q n => terminateWith s w.r.blk 0xA2#8 [u64 q, u64 n]

/-- A failing fetch of a group: it waits for the fault service, or the block is terminated with the cause (R67, R74,
R309). -/
def fetchFail (s : State) (w : Who) (e : ReadFail) : State :=
  match e with
  | .unmapped va => awaitService s w va 4 false
  | .cause c tv => terminateWith s w.r.blk c tv

/-- The bytes of a line and whether its tag holds (R314); a context without a key authenticates nothing (log 14). -/
def authLine (s : State) (at_ : List Tlb) (c : Nat) (base tagTab line : W64) (pa : Nat) : State × Except ReadFail (List Byte) :=
  let bs := rdBytes s pa 128
  let idx := (line.toNat - base.toNat) / 128
  match xlatCode s at_ c (tagTab + u64 (8 * idx)) with
  | (s, .error e) => (s, .error e)
  | (s, .ok tpa) =>
    match xlatCode s at_ c (base - 64#64) with
    | (s, .error e) => (s, .error e)
    | (s, .ok dpa) =>
      if poisoned s pa 128 || poisoned s tpa 8 || poisoned s dpa 64 then (s, .error (.cause 0xE0#8 [line]))
      else match (s.ctx c).key with
        | some k => (s, if lineTag k line (rdBytes s dpa 64) bs == rdBytes s tpa 8 then .ok bs else .error (.cause 0xA0#8 [line]))
        | none => (s, .error (.cause 0xA0#8 [line]))

/-- Read one line from memory into a fetcher's lines. -/
def loadLine (s : State) (at_ : List Tlb) (f : Fetcher) (c : Nat) (base tagTab line : W64) : State × Except ReadFail Unit :=
  match xlatCode s at_ c line with
  | (s, .error e) => (s, .error e)
  | (s, .ok pa) =>
    match authLine s at_ c base tagTab line pa with
    | (s, .error e) => (s, .error e)
    | (s, .ok bs) => ({ s with icache := { who := f, ctx := c, line := line, bytes := bs } :: s.icache }, .ok ())

/-- Fill a code line of a group, in the region of one of its levels. -/
def fillAt (s : State) (w : Who) (v : Level) (line : W64) : State :=
  match loadLine s w.tlbs (.group w.r) w.c v.base v.tagTab line with
  | (s, .ok ()) => s
  | (s, .error e) => fetchFail s w e

def fillCode (s : State) (w : Who) (line : W64) : State := fillAt s w w.g.cl line

/-! ### Headers (R61, R74) -/

/-- The place of a header by the label table; `error` carries the offset of an entry outside the code. -/
def labelEntry (s : State) (w : Who) (v : Level) (m : W16) : State × Except ReadFail Nat :=
  readCode s w.tlbs w.c (v.tab + u64 (4 * m.toNat)) 4

/-- LEN and FT of the header of a label, with the state once they are read; where the read has still to make progress (a
line to fetch, a page to wait for, R67), that state alone. A word that is no header of the label gives LEN = 0 and
FT = 0 (log 36). -/
def headerInfo (s : State) (w : Who) (v : Level) (m : W16) : Except State (State × Nat × Bool) :=
  match labelEntry s w v m with
  | (s, .error e) => .error (fetchFail s w e)
  | (s, .ok off) => match codeWord s (.group w.r) (v.base + u64 off) with
    | .error line => .error (fillAt s w v line)
    | .ok x => .ok (s, match decodeHeader x with
      | some (.blk _ label ft len) => if label == m then (len.toNat, ft) else (0, false)
      | _ => (0, false))

/-- What R79 needs for lanes that leave the waiting instruction at ordinal `k` of block `m`: LEN(m), and FT(m + 1) where
they have finished the block. -/
def waitEnd (s : State) (w : Who) (v : Level) (m : W16) (k : Nat) : Except State (State × Nat × Bool) :=
  match headerInfo s w v m with
  | .error s => .error s
  | .ok (s, len, _) =>
    if k < len || m.toNat + 1 ≥ v.n then .ok (s, len, false)
    else match headerInfo s w v (m + 1) with
      | .error s => .error s
      | .ok (s, _, ft) => .ok (s, len, ft)

/-! ### Block and launch completion (R263, R321, R329) -/

/-- Groups of a block that have not retired. -/
def Block.liveGroups (b : Block) : List Nat := (List.range b.groups.length).filter fun j => match b.groups[j]? with
  | some g => g.status ≠ .retired
  | none => false

/-- End a block when every group has retired and its sequencer is idle or stopped; a waiting sequencer stops with cause
0x43 (R263). The status is 2 after a drain (R331). -/
def checkBlockEnd (s : State) (blk : Nat) : State :=
  match s.blocks[blk]? with
  | none => s
  | some b =>
    if b.st ≠ .resident || !b.liveGroups.isEmpty || b.seq.st == .running then s
    else
      let s := if b.seq.st == .waiting then
          let nb := (rawOf b.seq.word b.seq.ext).a.toNat
          let tv : List W64 := [u64 nb, (b.seq.ext.extractLsb' 0 32).setWidth 64, ((b.nb[nb]?).getD 0).setWidth 64, b.seq.next]
          let (s, v) := tvalsOf s tv
          (recordCause s blk 0x43#8 v).modBlk blk fun b => { b with seq := { b.seq with st := .stopped, cause := 0x43#8 } }
        else if b.seq.st == .stopped then recordCause s blk b.seq.cause b.seq.tv
        else s
      let drained := match s.launches[b.launch]? with
        | some l => l.draining
        | none => false
      (leafTells (writeCompletion s blk (if drained then 2 else 0)) blk).modBlk blk fun b => { b with st := .ended }

/-- A stream cause stops the sequencer, which forgets what it has asked other devices, and goes to its owner (R237, R256). -/
def streamStop (s : State) (blk : Nat) (cause : BitVec 8) (tv : List W64) : State :=
  match s.blocks[blk]? with
  | none => s
  | some b =>
    let s := (forget s (b.seq.sent.map (·.2))).modBlk blk fun b => { b with seq := { b.seq with
      st := .stopped, cause := cause, tv := Vector.ofFn (fun i : Fin 4 => tv.getD i.val 0), busy := false, entries := 0, again := false,
      sent := [], looked := [], held := [] } }
    checkBlockEnd (deliverToBlock s blk (some b.seq.owner) cause tv) blk

/-- A failing fetch of a stream or of its descriptor: an unmapped page waits for the fault service (agent 4). A tag failure, a
page without execute permission and an uncorrectable error are fatal; a bad path or a malformed entry is a stream cause (R234,
R257, R265, R295, R309, R312, R314). -/
def streamFail (s : State) (c blk : Nat) (b : Block) (e : ReadFail) : State :=
  match e with
  | .unmapped va => match faultRecord s c va 4 false 0xFFFF b.core with
    | .ok s => s.modBlk blk fun b => { b with seq := { b.seq with svc := true } }
    | .full => s
    | .bad q n => terminateWith s blk 0xA2#8 [u64 q, u64 n]
  | .cause code tv =>
    if code == 0x14#8 || code == 0x1E#8 then streamStop s blk code [tv.headD 0, 0, 0, b.seq.next] else terminateWith s blk code tv

/-- Whether every block of a launch has completed. -/
def launchDone (s : State) (li : Nat) : Bool := s.blocks.all fun b => b.launch != li || b.st == .ended

/-! ### Barriers (R174 to R176, R281) -/

/-- The blocks and groups that share a barrier of a launch in one unit. -/
def participants (s : State) (li n u : Nat) : List GRef :=
  (List.range s.blocks.length).flatMap fun i => match s.blocks[i]? with
    | none => []
    | some b => match s.launches[b.launch]? with
      | none => []
      | some l => if b.launch == li && barKey l i b n == u then (List.range b.groups.length).map fun j => { blk := i, grp := j } else []

/-- Retired groups, and groups whose lanes have all exited, count as arrived (R176). -/
def countsArrived (s : State) (r : GRef) : Bool := match s.blocks[r.blk]? with
  | none => true
  | some b => match b.groups[r.grp]? with
    | none => true
    | some g => g.status == .retired || (g.depth == 0 && g.calls.isEmpty && (laneList 0xFFFFFFFF#32).all fun l => wlOf g.lvl l == 0xFFFF#16)

/-- Whether a monitor takes part in a barrier's merges (R281). -/
def contributes (m : Monitor) (n : Nat) : Bool := m.st == .run && monBN m == n

/-- The blocks of a launch that share a barrier in one unit. One that has ended still sends a partial that waited for its
writes, and compares (R281, R282). -/
def barBlocks (s : State) (li n u : Nat) : List Nat :=
  (List.range s.blocks.length).filter fun i => match s.blocks[i]? with
    | none => false
    | some b => match s.launches[b.launch]? with
      | none => false
      | some l => b.launch == li && barKey l i b n == u

/-- What a merge does with one monitor (R281): T is the phase total with its merged NF and OV. -/
def mergeOne (s : State) (i mi n : Nat) (k : W32) (m : Monitor) (t : Int) (nf ov : Bool) : State :=
  let tv0 : W64 := u64 (mi + 256 * n + (if nf then 2 ^ 16 else 0) + (if ov then 2 ^ 17 else 0))
  let diff (c : Int) : List W64 :=
    let x := wrapTo 128 (max (-(2 ^ 127 : Int)) (min (c - signedOf 128 m.ref.toNat) (2 ^ 127 - 1)))
    [u64 x, u64 (x / 2 ^ 64)]
  let c := if m.cfg[4].getLsbD 21 then t else m.c + t
  if nf || ov then deliverToBlock s i none 0x70#8 ([tv0] ++ diff m.c ++ [k.setWidth 64])
  else if !in256 c then deliverToBlock s i none 0x71#8 [u64 mi, 0#64]
  else
    let dr := (c - signedOf 128 m.ref.toNat).natAbs > m.bound.toNat
    let s := s.modBlk i fun b => { b with mons := b.mons.set mi { m with c := c, mg := min (m.mg + 1) 0xFFFF, dr := dr } }
    if dr then deliverToBlock s i none 0x70#8 ([tv0] ++ diff c ++ [k.setWidth 64]) else s

/-- Merge the monitors of a completed phase (R281): each number's total, then each block's comparison. -/
def mergeMonitors (s : State) (li n u : Nat) (k : W32) (parts : List (Nat × Nat × Int × Bool × Bool)) : State :=
  let blks := barBlocks s li n u
  (List.range 8).foldl (fun s mi =>
    let mine := parts.filter fun p => p.2.1 == mi
    let t := (mine.map fun p => p.2.2.1).foldl (· + ·) 0
    let nf := mine.any fun p => p.2.2.2.1
    let ov := mine.any fun p => p.2.2.2.2
    blks.foldl (fun s i =>
      match (s.blocks[i]?).bind (·.mons[mi]?) with
      | none => s
      | some m => if contributes m n then mergeOne s i mi n k m t nf ov else s) s) s

/-- In Equinox mode the last arriver holds the highest tile; prologue groups rank below every tile, by block ordinal
and group index (R336). -/
def arriverRank (s : State) (r : GRef) : Nat := match who? s r with
  | none => 0
  | some w => match tilePos w with
    | some p => 2 ^ 40 + p
    | none => w.b.ordinal * 16 + r.grp

def lastArriver (s : State) (li : Nat) (arrived : List GRef) (now : Option GRef) : Option GRef :=
  match s.launches[li]? with
  | some l => if l.lrec.equinox then
      (if now.isNone then none else arrived.foldl (fun b r => match b with
        | none => some r
        | some x => if arriverRank s x ≤ arriverRank s r then some r else some x) none)
    else now
  | none => now

/-- Whether a write that belongs to a phase still waits to be counted for a block (R281): in a side log or in a commit
buffer. -/
def uncounted (l : Launch) (blk : Nat) (b : Block) (n : Nat) (k : W32) : Bool :=
  let hit (t : CountTag) (size : Nat) : Bool :=
    t.who.blk == blk && t.phases.any fun p => p.phase == k && (countsIn b t size p).any fun m => monBN m == n
  ((List.range b.groups.length).any fun j => match b.groups[j]? with
    | some g => g.sideLog.any fun e => e.kind != 2 && e.items.any fun it =>
        hit { who := { blk := blk, grp := j }, addr := u64 it.2.1, phases := e.phases } (entrySize e)
    | none => false)
  || l.bufs.any fun t => t.ops.any fun o => match o with
    | .store _ bs (some tag) => hit tag bs.length
    | .red _ _ wd _ (some tag) => hit tag (atomSize wd.toNat)
    | _ => false

/-- A block sends its partials for a phase: each clears, a stopped monitor's too, and the next phase's takes its place (R280,
R281). -/
def sendBlock (s : State) (li n u : Nat) (i : Nat) : State :=
  match s.blocks[i]? with
  | none => s
  | some b =>
    let parts := (List.range b.mons.length).filterMap fun mi => match b.mons[mi]? with
      | some m => if contributes m n then some (i, mi, m.cur, m.nf, m.ov) else none
      | none => none
    let turn (m : Monitor) : Monitor :=
      let m := if m.st ≠ .off && monBN m == n then { m with cur := m.nxt, nxt := 0, phase := m.phase + 1 } else m
      { m with past := m.past.map fun z => if field z.cfg[4].toNat 24 4 == n then { z with cur := z.nxt, nxt := 0, phase := z.phase + 1 } else z }
    let s := s.modBlk i fun b => { b with mons := b.mons.map turn }
    s.modLaunch li fun l => let x := barInst l n u; setBarInst l { x with sent := x.sent ++ [i], parts := x.parts ++ parts }

/-- Every block all of whose groups have arrived at the phase, and all of whose writes in it have been counted, sends its
partials (R281). -/
def sendPartials (s : State) (li n u : Nat) : State :=
  (barBlocks s li n u).foldl (fun s i =>
    match s.launches[li]?, s.blocks[i]? with
    | some l, some b =>
      let x := barInst l n u
      let all := (List.range b.groups.length).all fun j => x.arrived.contains { blk := i, grp := j } || countsArrived s { blk := i, grp := j }
      if all && !x.sent.contains i && !uncounted l i b n x.phase then sendBlock s li n u i else s
    | _, _ => s) s

/-- Complete a barrier's phase when every participant has arrived or counts as arrived, and one has arrived (R174,
R176), once every block has sent its partials (R281). `now` is the group whose arrival is being tried; a completion by
retirement has no last arriver. -/
def tryComplete (s : State) (li n u : Nat) (now : Option GRef) : State :=
  match s.launches[li]? with
  | none => s
  | some l =>
    if (barInst l n u).broken then s
    else
      let s := sendPartials s li n u
      match s.launches[li]? with
      | none => s
      | some l =>
        let x := barInst l n u
        if x.arrived.isEmpty || !((participants s li n u).all fun r => x.arrived.contains r || countsArrived s r) then s
        else if !((barBlocks s li n u).all x.sent.contains) then
          s.modLaunch li fun l => setBarInst l { x with due := some (if now.isSome then now else x.due.join) }
        else
          let now := if now.isSome then now else x.due.join
          let y := { x with phase := x.phase + 1, arrived := [], last := lastArriver s li x.arrived now, due := none, sent := [], parts := [] }
          mergeMonitors (s.modLaunch li fun l => setBarInst l y) li n u x.phase x.parts

/-- Try every barrier of a group's block: after it retires or its lanes have all exited (R176). -/
def tryBarriers (s : State) (r : GRef) : State :=
  match who? s r with
  | none => s
  | some w => (List.range w.l.lrec.barriers).foldl (fun s n => tryComplete s w.b.launch n (barKey w.l r.blk w.b n) none) s

/-! ### GROW grants (R38) -/

/-- Granules that have left a group's allocation while a result is still on its way to them, each once. -/
def Group.heldGranules (g : Group) : Nat :=
  (((g.inflight.flatMap (·.tags)).filter fun t => !tagHolds g t).map (·.2)).eraseDups.length

/-- Registers of a partition that no group holds and no result is on its way to (R38). -/
def freeRegs (s : State) (core part : Nat) : Nat :=
  let held := (s.blocks.filter fun b => b.core = core).flatMap fun b =>
    (List.range b.groups.length).filterMap fun j => if j % 4 = part then (b.groups[j]?).map Group.heldGranules else none
  1024 - ((partitionGroups s core part).filter fun g => g.status ≠ .retired).foldl (fun n g => n + g.nv) 0 - 8 * held.sum

/-- GROW takes effect (R40): returns still on their way to registers of those numbers arrive first, and are dropped; the new
registers read zero, and the new count goes to s[D]. -/
def grown (diag : Bool) (g : Group) (regs : Nat) (d : BitVec 8) : Group :=
  let new := (List.range regs).map fun k => Reg.v (g.nv + k)
  let g := arriveIf diag (fun x => x.touches 0 new) g
  let g := { g with nv := g.nv + regs, v := ssetAll 0#32 g.v (new.flatMap fun r => match r with
    | .v n => (List.range 32).map fun l => (n * 32 + l, 0#32)
    | _ => []) }
  applyWrite g.depth g (.s d.toNat (u32 g.nv))

/-- Grant the requests at the head of a partition's queue, in order, while each fits whole (R38). -/
def grantFrom (core part : Nat) : (fuel : Nat) → State → State
  | 0, s => s
  | k + 1, s =>
    match s.growQ.find? fun q => q.core == core && q.part == part with
    | none => s
    | some q => match who? s q.who with
      | none => s
      | some w =>
        if q.regs ≤ freeRegs s core part then
          let diag := diagMode s w.c
          let s := { s with growQ := s.growQ.erase q }
          let s := grantGrans (s.modGrp q.who fun g => ({ grown diag g q.regs q.d with status := .ready }).past q.h false) q.who
          grantFrom core part k s
        else s

/-! ### Retirement (R21, R39, R70, R176) -/

/-- Retire a group: pending writes commit, its granules leave the allocation, it counts as arrived everywhere, causes it
never took go on, and its block may end. -/
def retire (s : State) (w : Who) : State :=
  let diag := diagMode s w.c
  let owed := w.g.delivered
  let s := s.modGrp w.r fun g =>
    let g := commitAll diag g
    { g with status := .retired, delivered := [], sideSvc := false }
  let s := releaseGrans s w.r
  let s := if w.l.lrec.equinox then s.modLaunch w.b.launch fun l =>
      -- the tile held, or the epilogue index, ends with the group (R333, R335)
      let l := match w.g.tile with
        | .tile i => setBuf l { bufOf l i with ended := true }
        | _ => l
      setBuf l { bufOf l (epilogueIndex w.l w.b w.r.grp) with ended := true }
    else s
  let s := tryBarriers s w.r
  let s := owed.foldl (fun s d => deliverToBlock s w.r.blk none d.cause d.tval.toList) s
  let s := grantFrom w.b.core (w.r.grp % 4) 16 s
  checkBlockEnd s w.r.blk

/-! ### The call-stack area (R44, R81) -/

def areaBase (w : Who) : W64 := w.l.lrec.cstack + u64 (w.l.lrec.cssize * (16 * w.b.ordinal + w.r.grp))

/-- The physical bytes of a virtual range on path 0x0, for hardware's own accesses; every byte is checked first. -/
def virtRange (s : State) (at_ : List Tlb) (c : Nat) (va : W64) (n : Nat) (write : Bool) : State × Except ReadFail (List Nat) :=
  (List.range n).foldl (fun acc i =>
    match acc with
    | (s, .error e) => (s, .error e)
    | (s, .ok ps) =>
      let a := va + u64 i
      let path := field a.toNat 60 4
      if path == 3 && write then (s, .error (.cause 0x12#8 [a]))
      else if path != 0 && path != 3 then (s, .error (.cause 0x14#8 [a]))
      else match xlat s at_ c false (field a.toNat 0 60) with
        | (s, .unmapped) => (s, .error (.unmapped a))
        | (s, .bad l e) => (s, .error (.cause 0x1E#8 [a, u64 l, u64 e]))
        | (s, .hit h) =>
          if write && !pteW h.pte then (s, .error (.cause 0x12#8 [a]))
          else if !write && poisoned s h.pa 1 then (s, .error (.cause 0xE0#8 [a]))
          else (if write then setPte s h.slot 16 else s, .ok (ps ++ [h.pa]))) (s, .ok [])

def readAt (s : State) (ps : List Nat) : List Byte := ps.map fun p => sget 0#8 s.mem p
def writeAt (s : State) (ps : List Nat) (bs : List Byte) : State :=
  { s with mem := ssetAll 0#8 s.mem ((List.range bs.length).map fun i => (ps.getD i 0, bs.getD i 0)) }

/-- A call-stack entry's 128 bytes (R44). -/
def callBytes (e : CallEntry) : List Byte :=
  layout (((List.range 32).map fun l => ((lget 0 e.wl l).toNat, 2)) ++
    [(e.base.toNat, 8), (posWord e.label e.ord, 4), (e.swc.toNat, 4), (e.mask.toNat, 4), (0, 44)])

def callOfBytes (bs : List Byte) : CallEntry :=
  let f (off n : Nat) : Nat := ofBytes ((bs.drop off).take n)
  { wl := lanes fun l => BitVec.ofNat 16 (f (2 * l) 2), base := u64 (f 64 8), label := BitVec.ofNat 16 (f 72 2),
    ord := f 74 2 % 4096, swc := u32 (f 76 4), mask := u32 (f 80 4) }

/-- The spilled count S. -/
def spillCount (s : State) (w : Who) : State × Except ReadFail Nat :=
  if w.l.lrec.cssize == 0 then (s, .ok 0)
  else match virtRange s w.tlbs w.c (areaBase w) 8 false with
    | (s, .ok ps) => (s, .ok (ofBytes (readAt s ps)))
    | (s, .error e) => (s, .error e)

inductive Spill where
  | ok (s : State) (calls : List CallEntry)
  | fail (s : State) (e : ReadFail)
  /-- The push would spill past the area (cause 0x02). -/
  | beyond (s : State)
  deriving Repr

/-- Make room for one more entry: with four held, the oldest goes to the area (R81). Entries are listed newest first. -/
def spillOldest (s : State) (w : Who) : Spill :=
  if w.g.calls.length < 4 then .ok s w.g.calls
  else
    match w.g.calls.getLast? with
    | none => .ok s w.g.calls
    | some old =>
      if w.l.lrec.cssize == 0 then .beyond s
      else match spillCount s w with
        | (s, .error e) => .fail s e
        | (s, .ok n) =>
          if 128 + 128 * n + 128 > w.l.lrec.cssize then .beyond s
          else match virtRange s w.tlbs w.c (areaBase w + u64 (128 + 128 * n)) 128 true with
            | (s, .error e) => .fail s e
            | (s, .ok ps) => match virtRange s w.tlbs w.c (areaBase w) 8 true with
              | (s, .error e) => .fail s e
              | (s, .ok qs) => .ok (writeAt (writeAt s ps (callBytes old)) qs (toBytes 8 (n + 1))) (w.g.calls.dropLast)

/-- The hardware stack after its newest entry is popped: left empty with S above 0, it reloads the newest spilled one. S stands in the
area, so such a return reads it there even when nothing has been spilled: a page of the area that is unmapped or fails is met then,
as R81 has it for a reload (DEDUCED, log 41). -/
def popCall (s : State) (w : Who) : Spill :=
  match w.g.calls.tail with
  | [] => match spillCount s w with
    | (s, .error e) => .fail s e
    | (s, .ok 0) => .ok s []
    | (s, .ok (n + 1)) => match virtRange s w.tlbs w.c (areaBase w + u64 (128 + 128 * n)) 128 false with
      | (s, .error e) => .fail s e
      | (s, .ok ps) => match virtRange s w.tlbs w.c (areaBase w) 8 true with
        | (s, .error e) => .fail s e
        | (s, .ok qs) => .ok (writeAt s qs (toBytes 8 n)) [callOfBytes (readAt s ps)]
  | t => .ok s t

/-- Enter a callee (R80): the entry is pushed, lanes outside C leave, and the callee starts at its entry label. -/
def enterCallee (g : Group) (calls : List CallEntry) (rg : Region) (entry : W16) (c : Mask) : Group :=
  let v := g.lvl
  let e : CallEntry := { wl := v.wl, base := v.base, label := v.label, ord := v.ord, swc := v.swc, mask := c }
  let wl (l : Nat) : W16 := if has c l then entry else if wlOf v l < 0xFFFE#16 then 0xFFFE#16 else wlOf v l
  { g with calls := e :: calls,
           lvl := { (v.setRi c fun _ => 0#12).inRegion rg with
                    wl := lanes wl, defm := 0, swc := 0, phase := .enter entry false, callv := none } }

/-- Resume the caller of a callee that ended (R82): the position stays at the CALL, with the callee's base kept, so that
the sequencer goes on past a CALL and evaluates a CALLV again (R83). -/
def resumeLevel (v : Level) (e : CallEntry) (rg : Region) : Level :=
  let wl (l : Nat) : W16 := if has e.mask l && wlOf v l == 0xFFFF#16 then 0xFFFF#16 else lget 0 e.wl l
  { (v.setRi e.mask fun _ => 0#12).inRegion rg with
    wl := lanes wl, defm := 0, swc := e.swc, label := e.label, ord := e.ord, phase := .find, callv := some v.base }

def callerResume (s : State) (w : Who) : State :=
  match w.g.calls with
  | [] => s
  | e :: _ =>
    match readRegion s w.tlbs w.c e.base with
    | (s, .error f) => fetchFail s w f
    | (s, .ok none) => terminateWith s w.r.blk 0x04#8 [e.base]
    | (s, .ok (some rg)) =>
      match popCall s w with
      | .fail s (.unmapped va) => awaitService s w va 6 false
      | .fail s (.cause c tv) => terminateWith s w.r.blk c tv
      | .beyond s => s
      | .ok s calls =>
        let diag := diagMode s w.c
        s.modGrp w.r fun g =>
          let g := commitAll diag g
          { g with calls := calls, lvl := resumeLevel g.lvl e rg }

/-! ### Parking (R78, R79, R153) -/

/-- The lowest deferred lane. -/
def lowDefm (v : Level) : Nat := lowLane v.defm

/-- The deferred lanes at the lowest one's label and ordinal (R79). -/
def waitMask (v : Level) : Mask :=
  let l := lowDefm v
  maskOf fun x => has v.defm x && wlOf v x == wlOf v l && riOf v x == riOf v l

def waitEntry (w : Who) (cause : BitVec 8) (kind : FrameKind) (va : W64) : Entry :=
  let v := w.g.lvl
  let l := lowDefm v
  { cause := cause, emask := waitMask v, tv := [va], kind := kind,
    epos := u64 (posWord (wlOf v l) (riOf v l).toNat + 2 ^ 32 * v.swc.toNat) }

/-- Count a wake and start a new sweep, or take cause 0x30 when the count passes FEBUDGET (R78, R79). -/
def countWake (s : State) (w : Who) (va : W64) : State :=
  let n := w.g.wakes + 1
  if n > w.b.febudget.toNat then enterHandler (s.modGrp w.r fun g => { g with wakes := n }) w.r (waitEntry w 0x30#8 .budget va)
  else s.modGrp w.r fun g => { g with wakes := n, status := .ready, lvl := startSweep g.lvl }

/-- Groups of a launch that have an entry in the parking area (R153). -/
def parkedGroups (s : State) (li : Nat) : Nat :=
  ((s.parked.flatMap fun e => e.2.filterMap fun x =>
    if ((s.blocks[x.1.blk]?).map (·.launch)) = some li then some (x.1.blk * 64 + x.1.grp) else none).eraseDups).length

/-- Whether a new record of a group is refused (R153). -/
def parkRefused (s : State) (w : Who) (va : Nat) : Bool :=
  bucketFull s w.c va || (!hasParkEntry s w.r && parkedGroups s w.b.launch ≥ w.l.lrec.parkq)

/-- Park at SweepEnd (R78): test the word and record the group in one step. -/
def parkGroup (s : State) (w : Who) : State :=
  let v := w.g.lvl
  let l := lowDefm v
  let addr := lget 0 v.dva l
  if field addr.toNat 60 4 == 6 then
    s.modGrp w.r fun g => { commitAll (diagMode s w.c) g with status := .remotePark s.tick }
  else
    let q : Req := { cls := .fe, write := has v.dwr l, reads := false, size := 4, align := 4 }
    match resolve s w q addr with
    | (s, .ok (.mem pa _ _)) =>
      if isFull s (pa / 4) == has v.dneed l then countWake s w addr
      else if parkRefused s w addr.toNat then enterHandler s w.r (waitEntry w 0x32#8 .quota addr)
      else
        let diag := diagMode s w.c
        (park s w (pa / 4) addr.toNat).modGrp w.r fun g => { commitAll diag g with status := .parked addr.toNat }
    | (s, _) => countWake s w addr

/-- Return from a handler (R303): the region of the level below is read again (R67), and so are the headers that R79 needs;
pending writes commit, the frame is restored and the bank released. A wake that ERETX counts after cause 0x32 may itself exceed FEBUDGET (R153, R79). -/
def returnFromHandler (s : State) (w : Who) (resume : Bool) : State :=
  match w.g.frames with
  | [] => s
  | f :: rest =>
    let below := w.g.levelAt rest.length
    match readRegion s w.tlbs w.c below.base with
    | (s, .error e) => fetchFail s w e
    | (s, .ok none) => terminateWith s w.r.blk 0x04#8 [below.base]
    | (s, .ok (some rg)) =>
      let below := below.inRegion rg
      let diag := diagMode s w.c
      let reads := !resume && (f.kind = .budget || f.kind = .quota)
      match (if reads then waitEnd s w below (f.epos.extractLsb' 0 16) (f.epos.extractLsb' 16 12).toNat else .ok (s, 0, false)) with
      | .error s => s
      | .ok (s, len, ft) =>
      let s := s.modGrp w.r fun g => (leaveHandler (commitAll diag g) resume ft len).modCl fun v => v.inRegion rg
      if f.kind = .quota && resume && w.g.wakes + 1 > w.b.febudget.toNat then
        match who? s w.r with
        | some w' => enterHandler (s.modGrp w.r fun g => { g with lvl := below }) w.r (waitEntry { w' with g := { w'.g with lvl := below } } 0x30#8 .budget f.tval[0])
        | none => s
      else s

/-- Whether a stream instruction other than an MWAIT is decoded and not complete (R335). -/
def streamPending (b : Block) : Bool := b.seq.st == .running && b.seq.word != 0#64

/-- Whether nothing that belongs to the tile a group holds is pending (R335). -/
def tileQuiet (w : Who) : Bool := w.g.sideLog.isEmpty && w.g.copies.isEmpty && !(w.b.seq.owner == w.r.grp && streamPending w.b)

/-- The end of a sweep (R70, R78, R82, R291). A handler level with no live lane ends as if ERET had issued. -/
def sweepEnd (s : State) (w : Who) : State :=
  let v := w.g.cl
  if liveMask v == 0#32 then
    if w.g.depth > 0 then returnFromHandler s w false
    else if !w.g.calls.isEmpty then callerResume s w
    else if w.l.lrec.equinox && !tileQuiet w then s
    else retire s w
  else if w.g.depth == 0 && v.defm == liveMask v then parkGroup s w
  else s.modGrp w.r fun g => g.modCl startSweep

/-- The end of a block (R70): lanes held out beyond LEN rejoin, lanes that finished fall through when the next header
has FT, and the census finds the next label. The header after the block is read for its FT bit; a word there that is no
header of label m + 1 gives FT = 0 (DESIGN CHOICE, log 36). -/
def census (s : State) (w : Who) : State :=
  let v := w.g.cl
  let m := v.label
  let m1 := m + 1
  let needs := m.toNat + 1 < v.n
  let va := v.base + u64 v.off
  let ft : Except W64 Bool := if !needs then .ok false else match codeWord s (.group w.r) va with
    | .error line => .error line
    | .ok x => .ok (match decodeHeader x with
      | some (.blk _ label ft _) => ft && label == m1
      | _ => false)
  match ft with
  | .error line => fillCode s w line
  | .ok ft =>
    s.modGrp w.r fun g => g.modCl fun v =>
      let back := maskOf fun l => wlOf v l == m && (riOf v l).toNat > v.len
      let v := v.setRi back fun _ => 0#12
      let fall := if ft then maskOf (fun l => wlOf v l < 0xFFFE#16 && wlOf v l == m && riOf v l == 0#12) else 0#32
      let v := v.setWl fall fun _ => m1
      match nextWanted v fun x => m < x with
      | some n => { v with phase := .enter n (n == m1), callv := none }
      | none => { v with phase := .sweepEnd, callv := none }

/-- Issue a header (R70, R88): the visit starts at ordinal 1, or at the lowest ordinal its lanes resume at; where that lies
past LEN, no instruction of the block issues and its end follows. -/
def enterBlock (v : Level) (label : W16) (len : Nat) : Level :=
  let w := maskOf fun l => wlOf v l < 0xFFFE#16 && wlOf v l == label
  let ris := (laneList w).map fun l => (riOf v l).toNat
  let e := if ris.contains 0 then 1 else min ((minOf ris).getD 1) (len + 1)
  { v with label := label, len := len, ord := e, phase := if e == 1 then .body else .seek 1, callv := none }

/-- Resume the lanes held out until the next ordinal (R70). -/
def resumeLanes (v : Level) : Level :=
  if v.ord > v.len then v
  else
    let m := maskOf fun l => wlOf v l == v.label && (riOf v l).toNat == v.ord && v.ord != 0
    if m == 0#32 then v else { v.setRi m (fun _ => 0#12) with defm := v.defm &&& ~~~m }

end Sys2Proof.Machine
end

