-- ==== Sys2Proof/Machine/Control.lean ====
section
/-! DEFINITION. Control instructions, OPC 0x00 to 0x08 (R86 to R93), and the sequencer's own steps: CENSUS, SWEEP_END,
CODE_LINE_FILL for groups and streams, REMOTE_PARK_DELAY (R70, R153, R314). -/
namespace Sys2Proof.Machine

/-- NOP (R87): issues whatever its guard, and has no other effect. -/
def execNop (h : Hdr) (s : State) : Outcome := issue { h with gn := false, gp := 7 } false false {} s fun i => .done i.s

/-- BLK (R88, R70): the sequencer enters the block; STALL counts. -/
def execBlk (stall : BitVec 3) (label : W16) (_ft : Bool) (len : BitVec 12) (s : State) : Outcome :=
  match s.cur.bind (who? s) with
  | none => .fault .noGroupOnTurn
  | some w => .next (s.modGrp w.r fun g =>
      { g.modCl (fun v => enterBlock v label len.toNat) with clock := g.clock + 1 + stall.toNat })

/-- Lanes go to a label: behind the sequencer, they also stay out of the rest of the visit (R72). -/
def wantLanes (v : Level) (m : Mask) (label : Nat → W16) : Level :=
  let cur := v.label
  (v.setWl m label).setRi m fun l => if label l ≤ cur then 1#12 else 0#12

/-- WANT (R89). In handler mode labels from 255 upward are refused (R291): N is at most 255 there. -/
def execWant (h : Hdr) (label : W16) (s : State) : Outcome :=
  issue h false false { chk := false } s fun i =>
    if label.toNat ≥ i.v.n then .trap i.s 0x01#8 i.act [label.setWidth 64]
    else .done (i.s.modGrp i.w.r fun g => g.modCl fun v => wantLanes v i.act fun _ => label)

/-- WANTV (R90): each lane takes its label from its register; 0xFFFF exits. -/
def execWantv (h : Hdr) (a : BitVec 8) (s : State) : Outcome :=
  issue h false false { reads := [.v a.toNat], chk := false } s fun i =>
    let x (l : Nat) : W32 := readV i.g a.toNat l
    let bad := i.act &&& maskOf fun l => (x l).toNat > 0xFFFF || (i.v.n ≤ (x l).toNat && (x l).toNat ≤ 0xFFFE)
    if bad != 0#32 then .trap i.s 0x01#8 i.act [bad.setWidth 64, (x (lowLane bad)).setWidth 64]
    else
      let out := i.act &&& maskOf fun l => x l == 0xFFFF#32
      .done (i.s.modGrp i.w.r fun g => g.modCl fun v =>
        (wantLanes v (i.act &&& ~~~out) fun l => (x l).setWidth 16).setWl out fun _ => 0xFFFF#16)

/-- The precise failures of a call, or entry of the callee (R80, R81, R91). R91 and R81 state no TVAL for a descriptor read or a
spill that fails: TVAL0 is the failing address, as R136 and R309 have it for other accesses (DEDUCED, log 41). -/
def callTo (i : Iss) (base : W64) (entry : W16) (c : Mask) : Act :=
  match readRegion i.s i.w.tlbs i.w.c base with
  | (s, .error (.unmapped va)) => match faultRecord s i.w.c va 4 false i.w.res i.w.b.core with
    | .ok s => .trap s 0x10#8 c [va]
    | .full => .again s
    | .bad q n => .at (terminateWith s i.w.r.blk 0xA2#8 [u64 q, u64 n])
  | (s, .error (.cause code tv)) => .trap s code c tv
  | (s, .ok none) => .trap s 0x04#8 c [base]
  | (s, .ok (some rg)) =>
    if entry.toNat ≥ rg.n then .trap s 0x01#8 c [entry.setWidth 64]
    else match spillOldest s i.w with
      | .beyond s => .trap s 0x02#8 c []
      | .fail s (.unmapped va) => .again (awaitService s i.w va 6 true)
      | .fail s (.cause code tv) => .trap s code c tv
      | .ok s calls =>
        let diag := diagMode s i.w.c
        .at (s.modGrp i.w.r fun g => enterCallee (commitAll diag g) calls rg entry c)

/-- CALL (R80, R91). -/
def execCall (h : Hdr) (entry : W16) (a : BitVec 8) (s : State) : Outcome :=
  issue h false false { reads := [.s a.toNat, .s (a.toNat + 1)], chk := false } s fun i =>
    callTo i (readSS i.g a.toNat) entry i.act

/-- CALLV (R83, R91): the smallest base not yet served, among the lanes active and guard-true now; when none remains the
caller goes on. -/
def execCallv (h : Hdr) (entry : W16) (a : BitVec 8) (s : State) : Outcome :=
  issue h false false { reads := [.v a.toNat, .v (a.toNat + 1)], chk := false } s fun i =>
    let base (l : Nat) : W64 := readVV i.g a.toNat l
    let above (x : W64) : Bool := match i.v.callv with
      | some b => b < x
      | none => true
    match minOf (((laneList i.act).map base |>.filter above).map (·.toNat)) with
    | none => .at (i.s.modGrp i.w.r fun g => g.modCl fun v => v.advance false)
    | some b => callTo i (u64 b) entry (i.act &&& maskOf fun l => base l == u64 b)

/-- RET (R82): at call depth 0, and in a handler, it acts as EXIT (R291). -/
def execRet (h : Hdr) (s : State) : Outcome :=
  issue h false false { chk := false } s fun i =>
    let x : W16 := if i.g.depth > 0 || i.g.calls.isEmpty then 0xFFFF#16 else 0xFFFE#16
    let s := i.s.modGrp i.w.r fun g => g.modCl fun v => v.setWl i.act fun _ => x
    .done (tryBarriers s i.w.r)

/-- EXIT (R82, R92): the lanes leave for good; a group all of whose lanes have exited counts as arrived at barriers. -/
def execExit (h : Hdr) (s : State) : Outcome :=
  issue h false false { chk := false } s fun i =>
    .done (tryBarriers (i.s.modGrp i.w.r fun g => g.modCl fun v => v.setWl i.act fun _ => 0xFFFF#16) i.w.r)

/-- YIELD (R93): only the group's turn in its partition's order and a delay (log 21). -/
def execYield (h : Hdr) (_n : BitVec 8) (s : State) : Outcome := issue h false true { chk := false } s fun i => .done i.s

/-- CENSUS (R70): the end of a block. -/
def execCensus (s : State) : Outcome :=
  match s.cur.bind (who? s) with
  | none => .fault .noGroupOnTurn
  | some w => .next (census s w)

/-- SWEEP_END (R70, R78, R82). -/
def execSweepEnd (s : State) : Outcome :=
  match s.cur.bind (who? s) with
  | none => .fault .noGroupOnTurn
  | some w => .next (sweepEnd s w)

/-- CODE_LINE_FILL (R234, R314): a line is fetched, translated, authenticated and held. -/
def execCodeLineFill (f : Fetcher) (line : W64) (s : State) : Outcome :=
  match f with
  | .group r => match who? s r with
    | none => .next s
    | some w => .next (fillCode s w line)
  | .stream blk => match s.blocks[blk]? with
    | none => .next s
    | some b => match s.launches[b.launch]? with
      | none => .next s
      | some l =>
        let tagTab := (b.seq.desc.map (·.1)).getD 0
        match loadLine s (engineTlbs b.core) (.stream blk) l.ctx b.seq.base tagTab line with
        | (s, .ok ()) => .next s
        | (s, .error e) => .next (streamFail s l.ctx blk b e)

/-- REMOTE_PARK_DELAY (R153): after 1,000 ticks on path 0x6 the group counts a wake and starts the sweep. -/
def execRemoteParkDelay (r : GRef) (s : State) : Outcome :=
  match who? s r with
  | none => .next s
  | some w => match w.g.status with
    | .remotePark since => if s.tick ≥ since + 1000 then .next (countWake s w (lget 0 w.g.lvl.dva (lowDefm w.g.lvl))) else .next s
    | _ => .next s

end Sys2Proof.Machine
end

