-- ==== Sys2Proof/Machine/Copies.lean ====
section
/-! DEFINITION. The copy engine, OPC 0x95 to 0x97, and its steps COPY_RETIRE and COPY_ABORT (R163 to R169, R198, R334, R335,
R347). -/
namespace Sys2Proof.Machine

/-! ### Issue -/

/-- A copy's mode (R163): data, data with state, state only. -/
def CopyOp.states (k : CopyOp) : Bool := k.cls != .coll && k.wd != 7#4
def CopyOp.data (k : CopyOp) : Bool := k.cls == .coll || k.wd != 9#4

/-- The path checks of one end at issue (R145, R163): the causes that its address alone gives. -/
def endCauses (s : State) (k : Cls) (state : Bool) (a : W64) : List (BitVec 8 × W64) :=
  let path := field a.toNat 60 4
  let badBits := ((path == 5 || path == 6) && field a.toNat 58 2 != 0) || (path == 7 && field a.toNat 56 4 != 0)
  if path ≥ 8 || badBits || (path == 6 && !reachable s (field a.toNat 48 10)) then [(0x14#8, a)]
  else (match pathCause k path with
    | some c => [(c, a)]
    | none => []) ++ (if state && path != 0 && path != 6 then [(0x31#8, a)] else [])

/-- The lines that `n` bytes from an address touch. -/
def lineAddrs (a : W64) (n : Nat) : List W64 :=
  if n == 0 then [] else (List.range ((a.toNat % 128 + n + 127) / 128)).map fun i => a - u64 (a.toNat % 128) + u64 (128 * i)

def linesOf (rs : List (W64 × Nat)) : List W64 := rs.flatMap fun x => lineAddrs x.1 x.2

/-- Whether a copy is outstanding in a class (R167): one whose counter add is still to make has retired. -/
def CopyOp.isOut (k : CopyOp) (c : CopyClass) : Bool := k.cls == c && k.stage != .adding false && k.stage != .adding true

/-- Outstanding copies of a class (R167). -/
def outstanding (g : Group) (c : CopyClass) : Nat := (g.copies.filter fun k => k.isOut c).length

/-- The oldest outstanding copy of a class, which retires first (R167). -/
def oldest (g : Group) (c : CopyClass) : Option CopyOp := g.copies.find? fun k => k.isOut c

/-- The checks of a copy counter at issue, as CADD's (R168). -/
def ctrCauses (s : State) : Option W64 → List (BitVec 8 × W64)
  | some a => endCauses s .cadd false a ++ (if a.toNat % 8 != 0 then [(0x13#8, a)] else [])
  | none => []

def ctrRange : Option W64 → List (W64 × Nat)
  | some a => [(a, 8)]
  | none => []

/-- The failing check that R145's order reports, with its address; of one rank the first (R163): 0x18 and 0x1A come last. -/
def firstFail (l : List (BitVec 8 × W64)) : Option (BitVec 8 × W64) :=
  l.find? fun c => l.all fun d => rankOf c.1 ≤ rankOf d.1

/-- Keep a copy for the engine once no side-log entry overlaps the byte ranges known at issue (R183), with those ranges owned
by the group's tile (R334). -/
def enqueue (i : Iss) (k : CopyOp) (reads writes : List (W64 × Nat)) : Act :=
  let logged := (reads ++ writes).any fun x => i.g.sideLog.any fun e => overlaps e i.w.die true false x.1 x.2
  if logged || outstanding i.g k.cls ≥ 255 then .again i.s
  else
    match gateBoth i.s i.w (tilePos i.w) (linesOf reads) (linesOf writes) false false with
    | .go s => .done (s.modGrp i.w.r fun g => { g with copies := g.copies ++ [k] })
    | .wait => .again i.s
    | .trap s a owner me => .trap s 0xB5#8 i.act [a, owner, me]
    | .full s => .at (terminateWith s i.w.r.blk 0xB6#8 [])

/-- The copy of an instruction. -/
def newCopy (i : Iss) (x : CopyForm) (cls : CopyClass) (dst src : W64) (len : Nat) : CopyOp :=
  { id := (i.g.copies.map (·.id)).foldl max 0 + 1, cls := cls, wd := x.wd, op := x.op, sid := x.sid, sc := x.sc, dst := dst, src := src, len := len, ctr := x.ctr,
    label := i.v.label, ord := i.v.ord, stage := .queued,
    tile := match tilePos i.w with
      | some p => p + 1
      | none => 0,
    sent := [], todo := none, cur := [], acks := [], behind := i.g.sideLog.length, again := false }

def scrBeyond (w : Who) (a : W64) (n : Nat) : Bool := field a.toNat 60 4 == 1 && field a.toNat 0 60 + n > w.l.lrec.scratch

/-- Whether two byte ranges overlap (R163), as addresses that name one page agree. -/
def rangesMeet (own : Nat) (a : W64) (na : Nat) (b : W64) (nb : Nat) : Bool :=
  let x := spaceOf own a
  let y := spaceOf own b
  x.1 == y.1 && decide (x.2 < y.2 + nb) && decide (y.2 < x.2 + na)

/-- Whether a location carries full/empty state for copies (R163, R145). -/
def carries (a : W64) : Loc → Bool
  | .mem _ _ rp => field a.toNat 60 4 == 6 || (field a.toNat 60 4 == 0 && !rp)
  | .dev .. => true
  | _ => false

/-- The size of the page that an address names on its path. -/
def pageSizeOf (s : State) (w : Who) (a : W64) : Nat :=
  pageSizeAt s w.c (field a.toNat 60 4 == 6)
    (field a.toNat 0 (if field a.toNat 60 4 == 6 then 48 else if field a.toNat 60 4 == 5 then 56 else 60))

/-- The precise checks that need the page (R140, R141, R145): write permission, a replica view, and no state on a replicated
page. A page that is not mapped at issue is met by the engine (R169). -/
def pageCauses (s : State) (w : Who) (write state : Bool) (a : W64) (n : Nat) : List (BitVec 8 × W64) :=
  (pageCut (n / 4096 + 2) 0 a n).flatMap fun p =>
    match (resolve s w { cls := if write then .dst else .src, write := write, reads := false, size := p.2.2, align := 1 } p.1).2 with
    | .fail _ c _ => if c == 0x12#8 || c == 0x19#8 then [(c, p.1)] else []
    | .ok loc => if state && !carries p.1 loc then [(0x31#8, p.1)] else []
    | _ => []

/-- CPY and CPYR: the checks at issue in R145's order (R163). `aligned` is what the form asks of addresses and length. -/
def copyIssue (i : Iss) (x : CopyForm) (cls : CopyClass) (aligned : W64 → W64 → Nat → Bool) : Act :=
  let dst := readSS i.g x.d.toNat
  let src := readSS i.g x.a.toNat
  let n := (readS i.g x.b.toNat).toNat
  let state := cls == .copy && x.wd != 7#4
  match firstFail (endCauses i.s .src state src ++ endCauses i.s .dst state dst ++ ctrCauses i.s x.ctr
      ++ (if aligned dst src n then [] else [(0x13#8, dst)])
      ++ pageCauses i.s i.w false state src n ++ pageCauses i.s i.w true state dst n
      ++ (if scrBeyond i.w src n then [(0x18#8, src)] else []) ++ (if scrBeyond i.w dst n then [(0x18#8, dst)] else [])) with
  | some (c, a) => .trap i.s c i.act [a]
  | none =>
    if rangesMeet i.w.die dst n src n then .trap i.s 0x1A#8 i.act []
    else enqueue i (newCopy i x cls dst src n) [(src, n)] ((dst, n) :: ctrRange x.ctr)

/-- CPY (R164): modes 8 and 9 need addresses and a length that are multiples of 4. -/
def execCpy (h : Hdr) (x : CopyForm) (s : State) : Outcome :=
  issue h x.ctr.isSome true { reads := regsOf true true x.d ++ regsOf true true x.a ++ regsOf true false x.b } s fun i =>
    copyIssue i x .copy fun dst src n => x.wd == 7#4 || (dst.toNat % 4 == 0 && src.toNat % 4 == 0 && n % 4 == 0)

/-- CPYR (R166): the destination lies on path 0x0 or 0x6, and the length is a multiple of the type's size; otherwise cause
0x13. -/
def execCpyr (h : Hdr) (x : CopyForm) (s : State) : Outcome :=
  issue h x.ctr.isSome true { reads := regsOf true true x.d ++ regsOf true true x.a ++ regsOf true false x.b } s fun i =>
    copyIssue i x .coll fun dst _ n => (field dst.toNat 60 4 == 0 || field dst.toNat 60 4 == 6) && n % atomSize x.wd.toNat == 0

/-- CPYG (R165): the descriptor lies on path 0x0; what it says is checked by the engine. On another path of memory or of a
scratchpad, for which the spec names no cause, it raises 0x1C (DESIGN CHOICE, log 40). -/
def execCpyg (h : Hdr) (x : CopyForm) (s : State) : Outcome :=
  issue h x.ctr.isSome true { reads := regsOf true true x.a } s fun i =>
    let a := readSS i.g x.a.toNat
    let path := if field a.toNat 60 4 == 0 then [] else [(0x1C#8, a)]
    match firstFail (endCauses i.s .src false a ++ path ++ ctrCauses i.s x.ctr) with
    | some (c, a) => .trap i.s c i.act [a]
    | none => enqueue i (newCopy i x .gather 0 a 0) [(a, 32)] (ctrRange x.ctr)

/-! ### Pieces -/

/-- `n` bytes of a piece from byte `j` of it. -/
def Piece.part (p : Piece) (j n : Nat) : Piece := { p with off := p.off + j, src := p.src + u64 j, dst := p.dst + u64 j, n := n }

/-- Cut a range into pieces that cross no page at either end (R310). -/
def cut (s : State) (w : Who) (row : Nat) : (fuel off : Nat) → (src dst : W64) → (len : Nat) → List Piece
  | 0, _, _, _, _ => []
  | k + 1, off, src, dst, len =>
    if len == 0 then []
    else
      let left (a : W64) : Nat := if field a.toNat 60 4 == 1 then len else pageSizeOf s w a - a.toNat % pageSizeOf s w a
      let n := max 1 (min len (min (left src) (left dst)))
      { row := row, off := off, src := src, dst := dst, n := n, seen := false } :: cut s w row k (off + n) (src + u64 n) (dst + u64 n) (len - n)

def piecesOf (s : State) (w : Who) (row off : Nat) (src dst : W64) (len : Nat) : List Piece := cut s w row (len / 2048 + 4) off src dst len

/-- A piece cut again where the pages of its addresses have changed. -/
def recut (s : State) (w : Who) (p : Piece) : List Piece :=
  (piecesOf s w p.row p.off p.src p.dst p.n).map fun x => { x with seen := p.seen }

/-- The leading `n` bytes of some pieces, and the rest. -/
def takeBytes : Nat → List Piece → List Piece × List Piece
  | _, [] => ([], [])
  | n, p :: t =>
    if n == 0 then ([], p :: t)
    else if p.n ≤ n then let r := takeBytes (n - p.n) t; (p :: r.1, r.2)
    else ([p.part 0 n], { p.part n (p.n - n) with seen := true } :: t)

/-- A free choice among `n` (log 15). -/
def pick (x n : Nat) : Nat := if n ≤ 1 then 0 else Config.copyPart x % n

/-- Some words of a piece at its destination, first and count: their bytes, within one line in an Equinox launch (R335). -/
def wordsPart (equinox : Bool) (p : Piece) (a m : Nat) : Nat × Nat :=
  let d := p.dst.toNat % 4
  let lo := 4 * a - d
  let hi := min p.n (4 * (a + m) - d)
  (lo, if equinox then min hi (lo + (128 - (p.dst.toNat + lo) % 128)) else hi)

/-- Any words of any piece of the earliest row (R163 to R165): what is moved next, and what is then left. -/
def choosePart (equinox : Bool) (x : Nat) (ps : List Piece) : List Piece × List Piece :=
  let row := (ps.map (·.row)).headD 0
  let i := pick x (ps.filter fun p => p.row == row).length
  match ps[i]? with
  | none => ([], ps)
  | some p =>
    let words := (p.dst.toNat % 4 + p.n + 3) / 4
    let a := pick (x + 1) words
    let r := wordsPart equinox p a (pick (x + 2) (words - a) + 1)
    let rest := (if r.1 == 0 then [] else [{ p.part 0 r.1 with seen := true }])
      ++ (if r.2 == p.n then [] else [{ p.part r.2 (p.n - r.2) with seen := true }])
    ([p.part r.1 (r.2 - r.1)], ps.take i ++ rest ++ ps.drop (i + 1))

/-- The bytes below this offset have been written: the lowest offset still to be moved, all of them when none is left. -/
def writtenBelow (k : CopyOp) : Nat := match (k.cur ++ k.todo.getD []).map (·.off) with
  | [] => k.len
  | x :: t => if k.todo.isNone then 0 else t.foldl min x

/-! ### Both ends of a piece -/

/-- A piece that both ends can be reached for. -/
structure Move where
  p   : Piece
  src : Loc
  dst : Loc
  deriving DecidableEq, Repr

/-- Why a copy cannot go on: an unmapped page, or a failure at an address. -/
inductive Snag where
  | unmapped (a : W64) (write : Bool)
  | fail (a : W64) (cause : BitVec 8)
  deriving DecidableEq, Repr

/-- The reduction set whose range a CPYR's destination lies in, on this device (R347). -/
def switchSet (s : State) (k : CopyOp) : Option RedSet :=
  let a := k.dst.toNat
  if k.cls == .coll && field a 60 4 == 6 && field a 48 10 == s.device then
    s.sets.find? fun z => z.base.toNat ≤ a && a < z.base.toNat + z.len && z.ranks.contains s.device
  else none

/-- One end of a piece: where it is, or what is wrong. `look` counts its page lookup (R313). -/
def endLoc (s : State) (w : Who) (k : CopyOp) (write look : Bool) (a : W64) (n : Nat) : State × Except Snag Loc :=
  let q : Req := { cls := if write then .dst else .src, write := write, reads := false, size := n, align := 1, retry := k.again }
  match resolve s w q a with
  | (s, .unmapped) => (s, .error (.unmapped a write))
  | (s, .fail _ c _) => (s, .error (.fail a c))
  | (s, .scrFault) => (s, .error (.fail a 0x18#8))
  | (s, .ok loc) =>
    let s := match loc with
      | .scr _ _ => s
      | _ => if look then lookup s w.c w.b.core (if write then 4 else 3) a else s
    if k.states && !carries a loc then (s, .error (.fail a 0x31#8))
    else match loc with
      | .mem pa _ _ =>
        -- a destination is read by CPYR, which combines into it, but not by a switch reduction, which replaces it
        if (!write || k.cls == .coll && (switchSet s k).isNone) && poisoned s pa n then
          (s, .error (.fail (a + u64 (((List.range n).find? fun j => poisoned s (pa + j) 1).getD 0)) 0xE0#8))
        else (s, .ok loc)
      | _ => (s, .ok loc)

/-- Both ends of some pieces, or the first snag. -/
def planPieces (s : State) (w : Who) (k : CopyOp) : List Piece → State × Except Snag (List Move)
  | [] => (s, .ok [])
  | p :: rest =>
    match endLoc s w k false (!p.seen) p.src p.n with
    | (s, .error e) => (s, .error e)
    | (s, .ok src) =>
      match endLoc s w k true (!p.seen) p.dst p.n with
      | (s, .error e) => (s, .error e)
      | (s, .ok dst) =>
        match planPieces s w k rest with
        | (s, .error e) => (s, .error e)
        | (s, .ok ms) => (s, .ok ({ p := p, src := src, dst := dst } :: ms))

/-! ### Requests to other devices (R142) -/

/-- Change one copy of a group, or take it away. -/
def modCopy (g : Group) (id : Nat) (u : CopyOp → Option CopyOp) : Group :=
  match g.copies.findIdx? fun k => k.id == id with
  | none => g
  | some j => match (g.copies[j]?).bind u with
    | some k => { g with copies := g.copies.set j k }
    | none => { g with copies := g.copies.eraseIdx j }

/-- Keep what has become of a copy. -/
def putCopy (s : State) (r : GRef) (k : CopyOp) : State := s.modGrp r fun g => modCopy g k.id fun _ => some k

/-- The requests that a copy's remote sources need: keyed by offset, with the address they are for. With state, each word is
asked for with its state. -/
def sourceAsks (k : CopyOp) (ms : List Move) : List (Nat × W64 × Nat × RemoteOp) :=
  ms.flatMap fun m => match m.src with
    | .dev d pa _ =>
      if k.states then (List.range (m.p.n / 4)).map fun j =>
        (m.p.off + 4 * j, m.p.src + u64 (4 * j), d, .fullEmpty (pa + 4 * j) 4 none none none)
      else [(m.p.off, m.p.src, d, .load pa m.p.n)]
    | _ => []

/-- What has become of a copy's requests: sent and not answered, answered with an uncorrectable error at an address, or all
there. -/
inductive Fetched where
  | asked (s : State)
  | bad (a : W64)
  | here
  deriving Repr

def fetchRemote (s : State) (r : GRef) (k : CopyOp) (asks : List (Nat × W64 × Nat × RemoteOp)) : Fetched :=
  let missing := asks.filter fun a => !k.sent.any fun e => e.1 == a.1
  if missing.isEmpty then
    let answer (a : Nat) : List Byte := match k.sent.find? fun e => e.1 == a with
      | some e => sget [] s.answers e.2
      | none => []
    if asks.any fun a => (answer a.1).isEmpty then .asked (putCopy s r k)
    else match asks.find? fun a => answerBad (answer a.1) with
      | some a => .bad a.2.1
      | none => .here
  else
    let x := missing.foldl (fun (acc : State × List (Nat × Nat)) a =>
      let (s, id) := sendTo acc.1 a.2.2.1 a.2.2.2 true
      (s, acc.2 ++ [(a.1, id)])) (s, k.sent)
    .asked (putCopy x.1 r { k with sent := x.2 })

/-- The data of an answer, past its status byte (log 17). -/
def answerOf (s : State) (k : CopyOp) (off : Nat) : List Byte := match k.sent.find? fun e => e.1 == off with
  | some e => (sget [] s.answers e.2).drop 1
  | none => []

/-- Whether a copy's writes at other devices have been answered: `none` while one that a test picks has not, else the lowest
offset that met an uncorrectable error, if any. -/
def acked (s : State) (k : CopyOp) (f : Nat × Nat × Nat → Bool) : Option (Option Nat) :=
  let l := k.acks.filter f
  if l.any fun a => (sget [] s.answers a.2.2).isEmpty then none
  else some (((l.filter fun a => answerBad (sget [] s.answers a.2.2)).map (·.2.1)).foldl (fun m x => match m with
    | none => some x
    | some y => some (min x y)) none)

/-! ### Moving bytes -/

/-- The source bytes of a piece, and the FULL bits of its words for a copy with state. -/
def sourceOf (s : State) (k : CopyOp) (m : Move) : List Byte × List Bool :=
  match m.src with
  | .dev .. =>
    if k.states then
      let ws := (List.range (m.p.n / 4)).map fun j => answerOf s k (m.p.off + 4 * j)
      (ws.flatMap fun a => (a.drop 2).take 4, ws.map fun a => (a.getD 1 0).getLsbD 0)
    else ((answerOf s k m.p.off).take m.p.n, [])
  | .mem pa _ _ => (rdBytes s pa m.p.n, if k.states then (wordsOf pa m.p.n).map (isFull s) else [])
  | loc => (locBytes s m.p.n loc, [])

/-- The commit position a copy belongs to (R334). -/
def copyPos (k : CopyOp) : Option Nat := if k.tile == 0 then none else some (k.tile - 1)

/-- Write `n` bytes of a piece from offset `j` of it, with the states that the mode gives (R163); the requests that this
makes of another device. A word left non-FULL there sets NF in the fabric leaf used (R154). -/
def landPiece (s : State) (w : Who) (k : CopyOp) (m : Move) (j n : Nat) (src : List Byte × List Bool) : State × List (Nat × Nat × Nat) :=
  let loc := m.dst.shift j
  let addr := m.p.dst + u64 j
  let bs := (src.1.drop j).take n
  let bits : List Bool := if k.states then (src.2.drop (j / 4)).take ((n + 3) / 4) else []
  match loc with
  | .dev d pa slot =>
    let s := setPte s slot (16 + if bits.contains false then 2 ^ 63 else 0)
    if k.states then
      (List.range bits.length).foldl (fun (acc : State × List (Nat × Nat × Nat)) i =>
        let data := if k.data then some ((bs.drop (4 * i)).take 4) else none
        let r := sendTo acc.1 d (.fullEmpty (pa + 4 * i) 4 none data (some (bits.getD i true))) true
        (r.1, acc.2 ++ [(m.p.row, m.p.off + j + 4 * i, r.2)])) (s, [])
    else
      let r := sendTo s d (.fullEmpty pa n none (some bs) (some true)) true
      (r.1, [(m.p.row, m.p.off + j, r.2)])
  | _ =>
    let s := if k.data then storeLane s w (copyPos k) addr loc bs none else s
    (match loc with
      | .mem pa slot _ =>
        if carries addr loc then
          let ws := wordsOf pa n
          let full (i : Nat) : Bool := if k.states then bits.getD i true else true
          (List.range ws.length).foldl (fun s i =>
            let word := ws.getD i 0
            if buffered s w (copyPos k) addr then bufferOp s w.b.launch (copyPos k) (.fill slot word (full i))
            else setFull s slot word (full i)) s
        else s
      | _ => s, [])

/-- Byte `i` of the destination of some moves as a location. -/
def byteAt : List Move → Nat → Option (Loc × W64)
  | [], _ => none
  | m :: t, i => if i < m.p.n then some (m.dst.shift i, m.p.dst + u64 i) else byteAt t (i - m.p.n)

/-- One element of CPYR (R166), which some moves make up: a read-modify-write at the destination. -/
def landElement (s : State) (w : Who) (k : CopyOp) (ms : List Move) (x : Nat) : State × List (Nat × Nat × Nat) :=
  let size := atomSize k.wd.toNat
  let op := k.op.setWidth 4
  let off := (ms.map (·.p.off)).headD 0
  match byteAt ms 0 with
  | some (.dev d pa slot, _) =>
    let r := sendTo (setPte s slot 16) d (.atom pa op k.wd (u64 x)) true
    (r.1, [(0, off, r.2)])
  | some (.mem pa slot _, a) =>
    (if buffered s w (copyPos k) a then bufferOp (setPte s slot 16) w.b.launch (copyPos k) (.red pa op k.wd (u64 x) none)
    else
      let locs := (List.range size).map fun i => ((byteAt ms i).map (·.1)).getD .logged
      let old := locs.flatMap fun l => locBytes s 1 l
      let new := toBytes size (combine op.toNat k.wd.toNat (ofBytes old) x)
      (List.range size).foldl (fun s i => locWrite s (locs.getD i .logged) [new.getD i 0]) s, [])
  | _ => (s, [])

/-- The bytes of a copy's source, in copy order. -/
def sourceBytes (s : State) (k : CopyOp) (ms : List Move) : List Byte := ms.flatMap fun m => (sourceOf s k m).1

/-- Move what the engine is moving: an element of CPYR, or pieces. -/
def moveParts (s : State) (w : Who) (k : CopyOp) (ms : List Move) : State × List (Nat × Nat × Nat) :=
  if k.cls == .coll then landElement s w k ms (ofBytes (sourceBytes s k ms))
  else ms.foldl (fun acc m =>
    let r := landPiece acc.1 w k m 0 m.p.n (sourceOf acc.1 k m)
    (r.1, acc.2 ++ r.2)) (s, [])

/-! ### A gather's pieces (R165) -/

/-- Where the key space of a gather's index list starts among a copy's requests. -/
def indexKey : Nat := 2 ^ 60

/-- The pieces of a copy, once the engine has them. -/
inductive Layout where
  | go (s : State) (ps : List Piece)
  | ask (s : State)
  | snag (s : State) (e : Snag)
  deriving Repr

/-- Some bytes that a gather reads before its rows: where their pieces are. -/
def listEnds (s : State) (w : Who) (k : CopyOp) (a : W64) (n : Nat) : State × Except Snag (List (Piece × Loc)) :=
  (piecesOf s w 0 0 a a n).foldl (fun acc p => match acc with
    | (s, .ok l) => (match endLoc s w { k with wd := 7 } false false p.src p.n with
      | (s, .ok loc) => (s, .ok (l ++ [(p, loc)]))
      | (s, .error e) => (s, .error e))
    | x => x) (s, .ok [])

/-- Whether a range overlaps a side-log entry that is older than the copy (R183, R198). -/
def behindLog (w : Who) (k : CopyOp) (a : W64) (n : Nat) : Bool :=
  (w.g.sideLog.take k.behind).any fun e => overlaps e w.die true false a n

/-- The frontier and ownership of the lines that an engine step reads and writes (R334, R335). -/
def copyGate (s : State) (w : Who) (k : CopyOp) (reads writes : List (W64 × Nat)) (remote : Bool) : EqFate :=
  gateBoth s w (copyPos k) (linesOf reads) (linesOf writes) true remote

/-- The gate of some moves. -/
def movesGate (s : State) (w : Who) (k : CopyOp) (ms : List Move) : EqFate :=
  copyGate s w k (ms.map fun m => (m.p.src, m.p.n)) (ms.map fun m => (m.p.dst, m.p.n)) (ms.any fun m => match m.dst with
    | .dev .. => true
    | _ => false)

/-- Go on past a gate of what a gather reads before its rows. -/
def layoutPast (s : State) (w : Who) (f : EqFate) (k : State → Layout) : Layout := match f with
  | .wait => .ask s
  | .trap s a _ _ => .snag s (.fail a 0xB5#8)
  | .full s => .ask (terminateWith s w.r.blk 0xB6#8 [])
  | .go s => k s

def gatherLayout (s : State) (w : Who) (k : CopyOp) : Layout :=
  let bytes (s : State) (l : List (Piece × Loc)) : List Byte :=
    l.flatMap fun e => match e.2 with
      | .dev .. => answerOf s k (indexKey + e.1.off)
      | loc => locBytes s e.1.n loc
  let looked (s : State) (l : List (Piece × Loc)) : State := l.foldl (fun s e => match e.2 with
    | .scr _ _ => s
    | _ => lookup s w.c w.b.core 3 e.1.src) s
  match listEnds s w k k.src 32 with
  | (s, .error e) => .snag s e
  | (s, .ok ds) => layoutPast s w (copyGate s w k [(k.src, 32)] [] false) fun s =>
    let d := ofBytes (bytes s ds)
    let n := field d 192 32
    let row := field d 224 32
    let list := u64 (field d 128 64)
    if row % 4 != 0 || row < 4 || row > 65536 then .snag s (.fail k.src 0x1A#8)
    else if behindLog w k list (4 * n) then .ask s
    else match listEnds s w k list (4 * n) with
      | (s, .error e) => .snag s e
      | (s, .ok ls) => layoutPast s w (copyGate s w k [(list, 4 * n)] [] false) fun s =>
        match fetchRemote s w.r k (ls.filterMap fun e => match e.2 with
            | .dev dv pa _ => some (indexKey + e.1.off, e.1.src, dv, .load pa e.1.n)
            | _ => none) with
        | .asked s => .ask s
        | .bad a => .snag s (.fail a 0xE0#8)
        | .here =>
            let ix := bytes s ls
            let src (i : Nat) : W64 := u64 (field d 0 64) + u64 (ofBytes ((ix.drop (4 * i)).take 4) * row)
            .go (looked s (ds ++ ls)) ((List.range n).flatMap fun i => piecesOf s w i (i * row) (src i) (u64 (field d 64 64) + u64 (i * row)) row)

/-- A state-mode gather needs addresses that are multiples of 4 (R163). -/
def misaligned (k : CopyOp) (ps : List Piece) : Option Snag :=
  if k.states then (ps.find? fun p => p.src.toNat % 4 != 0 || p.dst.toNat % 4 != 0).map fun p =>
    .fail (if p.src.toNat % 4 != 0 then p.src else p.dst) 0x13#8
  else none

def layoutOf (s : State) (w : Who) (k : CopyOp) : Layout :=
  match k.todo with
  | some ps => .go s ps
  | none =>
    if k.cls == .gather then match gatherLayout s w k with
      | .go s ps => (match misaligned k ps with
        | some e => .snag s e
        | none => .go s ps)
      | x => x
    else .go s (piecesOf s w 0 0 k.src k.dst k.len)

/-! ### The scratchpad in a block's save record (R45, R147) -/

/-- Bytes of the initialisation bitmap: one bit for each word of the scratchpad (log 31). -/
def bitmapLen (l : LaunchRec) : Nat := (l.scratch / 4 + 7) / 8

def bitmapBytes (l : LaunchRec) (b : Block) : List Byte :=
  (List.range (bitmapLen l)).map fun i => bitsBelow (fun k => sget false b.sinit (8 * i + k)) 8

/-- Where a record holds the scratchpad, and its bytes there with the bitmap. -/
def scratchAt (l : LaunchRec) : Nat := 0x400 + 65536 * l.accregs + 256 * l.monitors
def scratchImage (l : LaunchRec) (b : Block) : List Byte := srun 0#8 b.scratch 0 l.scratch ++ bitmapBytes l b

/-- The largest record the launch's declared fields allow (R330): NV 256, two banks, four call entries, and sixteen side-log
entries of 32 lanes in every group. -/
def saveSize (l : LaunchRec) : Nat :=
  scratchAt l + l.scratch + bitmapLen l + l.groups * (0x500 + 128 * 256 + 2 * 4160 + 4 * 128 + 16 + 16 * (16 + 24 * 32))

/-! ### How a copy ends (R167 to R169) -/

/-- Let a copy wait for the fault service, with its record (agent 2, R312). -/
def copyWaits (s : State) (w : Who) (k : CopyOp) (a : W64) (write : Bool) : State :=
  match faultRecord s w.c a 2 write w.res w.b.core with
  | .ok s => putCopy s w.r { k with stage := .waiting, again := true }
  | .full => s
  | .bad q n => terminateWith (s.modGrp w.r fun g => modCopy g k.id fun _ => none) w.r.blk 0xA2#8 [u64 q, u64 n]

/-- A copy fails: what it has written stays, and COPY_ABORT reports it (R169). -/
def copyFails (s : State) (r : GRef) (k : CopyOp) (a : W64) (cause : BitVec 8) : State :=
  putCopy s r { k with stage := .failed a.toNat (writtenBelow k) cause }

/-- A copy retires (R167): its requests are forgotten, and one with a counter has its add still to make. -/
def retireCopy (s : State) (r : GRef) (k : CopyOp) (add : Bool) : State :=
  let s := forget s (k.sent.map (·.2) ++ k.acks.map (·.2.2))
  s.modGrp r fun g => modCopy g k.id fun k =>
    if add && k.ctr.isSome then some { k with stage := .adding false, sent := [], todo := none, cur := [], acks := [] } else none

/-- A copy has moved all its bytes: it retires if no older one of its class stands before it, else in its turn (R167, R198). -/
def finishCopy (s : State) (r : GRef) (k : CopyOp) : State :=
  match (s.grp? r).bind fun g => oldest g k.cls with
  | some x => if x.id == k.id then retireCopy s r k true
    else putCopy (forget s (k.sent.map (·.2) ++ k.acks.map (·.2.2))) r { k with stage := .moved, sent := [], cur := [], acks := [] }
  | none => s

/-- Report an aborted copy to its group (R169). -/
def reportCopy (s : State) (r : GRef) (k : CopyOp) (addr : Nat) (written : Nat) (cause : BitVec 8) : State :=
  deliver s r 0x1D#8 [u64 addr, u64 written, u64 (posWord k.label k.ord), cause.setWidth 64]

/-! ### Switch reductions (R347) -/

/-- Where the key space of a switch reduction's chunks starts among a copy's requests. -/
def chunkKey : Nat := 2 ^ 61

/-- One chunk combined in rank order, by its set's operation and type, with this rank's own source among the others' (R159,
R347). -/
def combineRanks (z : RedSet) (device : Nat) (sources : List (List Byte)) (own : Option (List Byte)) : List Byte :=
  let all := match own with
    | some bs => sources.set (z.ranks.idxOf device) bs
    | none => sources
  match all with
  | [] => []
  | x :: rest => rest.foldl (fun acc y =>
      let n := atomSize z.wd.toNat
      (List.range (acc.length / n)).flatMap fun e =>
        toBytes n (combine z.op.toNat z.wd.toNat (ofBytes ((acc.drop (n * e)).take n)) (ofBytes ((y.drop (n * e)).take n)))) x

/-- Where a chunk's destination starts. -/
def chunkDst (ms : List Move) : W64 := (ms.map (·.p.dst)).headD 0

/-- The results of a chunk of a switch reduction: what the switch answers to this rank's contribution (R347). -/
def chunkResult (s : State) (w : Who) (k : CopyOp) (ms : List Move) (z : RedSet) : Fetched × List Byte :=
  let off := (ms.map (·.p.off)).headD 0
  let dst := chunkDst ms
  (fetchRemote s w.r k [(chunkKey + off, dst, s.device, .contribute z.num dst (sourceBytes s k ms))], answerOf s k (chunkKey + off))

/-- The results of a chunk replace its destination (R347). -/
def landChunk (s : State) (w : Who) (k : CopyOp) (ms : List Move) (out : List Byte) : State :=
  (ms.foldl (fun (acc : State × List Byte) m =>
    (storeLane acc.1 w (copyPos k) m.p.dst m.dst (acc.2.take m.p.n) none, acc.2.drop m.p.n)) (s, out)).1

/-! ### The engine -/

/-- What the engine takes up next, with what is left: any words of a copy, the next element of CPYR, the next chunk of a
switch reduction. -/
def takeUp (s : State) (w : Who) (k : CopyOp) (ps : List Piece) : List Piece × List Piece :=
  if k.cls == .coll then takeBytes (if (switchSet s k).isSome then 256 else atomSize k.wd.toNat) ps
  else choosePart w.l.lrec.equinox s.fresh ps

/-- After a move: the copy goes on, or retires once nothing is left and every write has been answered (R167). -/
def movedOn (s : State) (w : Who) (k : CopyOp) (acks : List (Nat × Nat × Nat)) : State :=
  let s := forget s (k.sent.map (·.2))
  let k := { k with cur := [], sent := [], acks := k.acks ++ acks }
  if (k.todo.getD []).isEmpty && k.acks.isEmpty then finishCopy s w.r k else putCopy s w.r k

/-- Move what the engine has taken up: it waits for the side log, the fault service, another device or the frontier, or
fails. -/
def moveCurrent (s : State) (w : Who) (k : CopyOp) : State :=
  if k.cur.any fun p => behindLog w k p.src p.n || behindLog w k p.dst p.n then putCopy s w.r k
  else match planPieces s w k (k.cur.flatMap (recut s w)) with
    | (s, .error (.unmapped a write)) => copyWaits s w k a write
    | (s, .error (.fail a c)) => copyFails s w.r k a c
    | (s, .ok ms) =>
      let k := { k with cur := k.cur.map fun p => { p with seen := true } }
      -- a shared source is read, wherever it is, once the tile holds the frontier
      match movesGate s w k ms with
      | .wait => putCopy s w.r k
      | .trap s a _ _ => copyFails s w.r k a 0xB5#8
      | .full s => terminateWith s w.r.blk 0xB6#8 []
      | .go s =>
        match fetchRemote s w.r k (sourceAsks k ms) with
        | .asked s => s
        | .bad a => copyFails s w.r k a 0xE0#8
        | .here => match switchSet s k with
          | none => let r := moveParts s w k ms; movedOn r.1 w k r.2
          | some z => match s.lateChunks.find? fun e => e.1 == (chunkDst ms, z.num) with
            -- the switch has aborted the chunk already: it is combined here
            | some e =>
              let s := landChunk { s with lateChunks := s.lateChunks.filter (· ≠ e) } w k ms
                (combineRanks z s.device e.2 (some (sourceBytes s k ms)))
              deliver (movedOn s w k []) w.r 0xC0#8 [chunkDst ms, u64 z.num]
            | none => match chunkResult s w k ms z with
              | (.asked s, _) => s
              | (.bad a, _) => copyFails s w.r k a 0xE0#8
              | (.here, out) => movedOn (landChunk s w k ms out) w k []

/-- One step of a copy: a part of it moves; the last part moved, it is finished. A row of a gather is read
once the rows before it are written (R165). -/
def makeCopy (s : State) (w : Who) (k : CopyOp) : State :=
  if !k.cur.isEmpty then moveCurrent s w k
  else match layoutOf s w k with
    | .ask s => s
    | .snag s (.unmapped a write) => copyWaits s w k a write
    | .snag s (.fail a c) => copyFails s w.r k a c
    | .go s ps =>
      let k := { k with todo := some ps, len := if k.todo.isSome then k.len else (ps.map (·.n)).foldl (· + ·) 0 }
      let row := (ps.map (·.row)).headD 0
      match acked s k fun a => ps.isEmpty || a.1 < row with
      | none => putCopy s w.r k
      | some (some off) => copyFails s w.r k (k.dst + u64 off) 0xE0#8
      | some none =>
        if ps.isEmpty then finishCopy s w.r k
        else
          let r := takeUp s w k ps
          moveCurrent { s with fresh := s.fresh + 3 } w { k with cur := r.1, todo := some r.2 }

/-- The counter add of a retired copy (R168): a release, so it waits for the side log; an unmapped page waits for the
fault service; any other failure is reported as an abort. At another device it is the add that leaves the counter at its
greatest value when it would wrap. -/
def copyAdd (s : State) (w : Who) (k : CopyOp) (a : W64) : State :=
  let drop (s : State) : State := (forget s (k.sent.map (·.2))).modGrp w.r fun g => modCopy g k.id fun _ => none
  match k.sent with
  | (_, id) :: _ =>
    let x := sget [] s.answers id
    if x.isEmpty then s
    else if answerBad x then reportCopy (drop s) w.r k a.toNat k.len 0xE0#8
    else if x.getD 1 0 == 0#8 then deliver (drop s) w.r 0x15#8 [a]
    else drop s
  | [] =>
    if !w.g.sideLog.isEmpty then s
    else match resolve s w { cls := .cadd, write := true, reads := true, size := 8, align := 8, retry := k.again } a with
      | (s, .unmapped) => match faultRecord s w.c a 2 true w.res w.b.core with
        | .ok s => s.modGrp w.r fun g => modCopy g k.id fun k => some { k with stage := .adding true, again := true }
        | .full => s
        | .bad q n => terminateWith (drop s) w.r.blk 0xA2#8 [u64 q, u64 n]
      | (s, .fail _ c _) => reportCopy (drop s) w.r k a.toNat k.len c
      | (s, .scrFault) => s
      | (s, .ok loc) =>
        if locPoisoned s 8 loc then reportCopy (drop s) w.r k a.toNat k.len 0xE0#8
        else match equinoxGate s w (copyPos k) [a] false true with
          | .wait => s
          | .trap s _ _ _ => reportCopy (drop s) w.r k a.toNat k.len 0xB5#8
          | .full s => terminateWith (drop s) w.r.blk 0xB6#8 []
          | .go s => match loc with
            | .dev d pa slot =>
              let r := sendTo (setPte s slot 16) d (.addMax pa 1) true
              r.1.modGrp w.r fun g => modCopy g k.id fun k => some { k with sent := [(0, r.2)] }
            | _ => match caddAt (drop s) loc 1 none with
              | (s, some _) => s
              | (s, none) => deliver (locWrite s loc (List.replicate 8 0xFF#8)) w.r 0x15#8 [a]

/-- The copies of a class with something to do: to be moved, to retire in turn, or with a counter add to make that waits for no
side-log entry (R168). -/
def copyTasks (g : Group) (c : CopyClass) : List CopyOp :=
  g.copies.filter fun k => k.cls == c && (k.stage = .queued || k.stage = .moved && (oldest g c).any (fun x => x.id == k.id)
    || k.stage = .adding false && g.sideLog.isEmpty)

/-- COPY_RETIRE (R167, R168): one of the copies of the class, whichever, takes a step; nothing orders two copies of one group
(R198). Which one is free (log 15). -/
def copyStep (s : State) (w : Who) (c : CopyClass) : State :=
  let ks := copyTasks w.g c
  let s' := if ks.length ≤ 1 then s else { s with fresh := s.fresh + 1 }
  match ks[pick s.fresh ks.length]? with
  | none => s
  | some k => match k.stage with
    | .queued => makeCopy s' w k
    | .moved => retireCopy s' w.r k true
    | .adding _ => (match k.ctr with
      | some a => copyAdd s' w k a
      | none => s')
    | _ => s

/-- What an abort leaves of the pieces that were still to be moved: each word, or each element of CPYR, is moved or not as
its free value says (R169). Of a switch reduction, and of what another device would have to be asked for, nothing is. Also what
each planned word or element reaches, with whether it was moved. -/
def abortParts (s : State) (w : Who) (k : CopyOp) (x : Nat) (ps : List Piece) : State × List (Bool × List Move) :=
  let r := ps.foldl (fun (acc : (State × List (Bool × List Move)) × List Piece) _ =>
    let unit := if k.cls == .coll then takeBytes (atomSize k.wd.toNat) acc.2 else (acc.2.take 1, acc.2.drop 1)
    match planPieces acc.1.1 w k unit.1 with
    | (s, .ok ms) =>
      let far := ms.any fun m => match m.src with
        | .dev .. => true
        | _ => false
      -- what the tile may not touch, or would have to wait for, is not moved (R334, R335)
      let gate : Option State := if ms.isEmpty || far then none else match movesGate s w k ms with
        | .go s => some s
        | _ => none
      match (if Config.abortedByteWritten (x + (unit.1.map (·.off)).headD 0) then gate else none) with
      | some s => let r := moveParts s w k ms; ((forget r.1 (r.2.map (·.2.2)), acc.1.2 ++ [(true, ms)]), unit.2)
      | none => ((s, acc.1.2 ++ [(false, ms)]), unit.2)
    | (_, .error _) => (acc.1, unit.2)) ((s, []), ps)
  r.1

/-- Pieces cut into the words of their destination; CPYR's elements need no cut. -/
def wordPieces (k : CopyOp) (ps : List Piece) : List Piece :=
  if k.cls == .coll then ps.flatMap fun p => (List.range p.n).map fun j => p.part j 1
  else ps.flatMap fun p => (List.range ((p.dst.toNat % 4 + p.n + 3) / 4)).map fun j =>
    let r := wordsPart false p j 1
    p.part r.1 (r.2 - r.1)

/-- The words or elements of a failed copy that may still be moved: those from a count of written bytes upward, and none of a
switch reduction. -/
def abortLeft (s : State) (k : CopyOp) (written : Nat) : List Piece :=
  if (switchSet s k).isSome then []
  else wordPieces k (((k.cur ++ k.todo.getD []).map fun p => { p with seen := true }).filter fun p => written ≤ p.off)

/-- COPY_ABORT (R169), once every write at another device has been answered: bytes from the failure upward may have been
written; the copy retires and cause 0x1D is delivered. -/
def abortCopy (s : State) (w : Who) (k : CopyOp) (addr written : Nat) (cause : BitVec 8) : State :=
  match acked s k fun _ => true with
  | none => s
  | some bad =>
    let (addr, written, cause) := match bad with
      | some off => if off < written then ((k.dst + u64 off).toNat, off, 0xE0#8) else (addr, written, cause)
      | none => (addr, written, cause)
    let x := s.fresh
    let s := { s with fresh := s.fresh + 2 ^ 40 }
    let s := (abortParts s w k x (abortLeft s k written)).1
    reportCopy (retireCopy s w.r k false) w.r k addr written cause

/-- What a copy has written into the scratchpad of a block that is away goes into the block's save record, from which it comes
back (R315, log 31). -/
def keepScratch (before s : State) (blk : Nat) : State :=
  match before.blocks[blk]?, s.blocks[blk]? with
  | some b, some b' => match s.launches[b'.launch]? with
    | some l =>
      if b'.st ≠ .evicted || (b.scratch == b'.scratch && b.sinit == b'.sinit) then s
      else writeVirtual s l.ctx (l.lrec.save + u64 (b'.ordinal * saveSize l.lrec + scratchAt l.lrec)) (scratchImage l.lrec b')
    | none => s
  | _, _ => s

def execCopyRetire (r : GRef) (cls : CopyClass) (s : State) : Outcome :=
  match who? s r with
  | none => .next s
  | some w => .next (keepScratch s (copyStep s w cls) r.blk)

/-- COPY_ABORT (R169): the copy reports as it retires, in its turn. -/
def execCopyAbort (r : GRef) (cls : CopyClass) (s : State) : Outcome :=
  match who? s r with
  | none => .next s
  | some w => match oldest w.g cls with
    | some k => match k.stage with
      | .failed a n c => .next (keepScratch s (abortCopy s w k a n c) r.blk)
      | _ => .next s
    | none => .next s

end Sys2Proof.Machine
end

