-- ==== Sys2Proof/Machine/Float.lean ====
section
/-! DEFINITION. FP32, FP64 and packed-half arithmetic, OPC 0x40 to 0x47 and 0x50 to 0x5A (R106 to R111, R113, R114), and
conversions, OPC 0x60, 0x61 and 0xD0 (R221 to R224). -/
namespace Sys2Proof.Machine

/-- FADD, FSUB and FMUL (R108, R109): C supplies the random bits under RS. -/
def float2 (h : Hdr) (x : Alu) (s : State) (f : FV → FV → FV × Bool) : Outcome :=
  aluOp h x (some 4) { Slots.two x.ty with c := if x.rm == .rs then some false else none } s fun a b c =>
    finishRS x.rm c (f (decodeF .f32 a) (decodeF .f32 b))

def execFadd (h : Hdr) (x : Alu) (s : State) : Outcome := float2 h x s (addFV x.rm)
def execFsub (h : Hdr) (x : Alu) (s : State) : Outcome := float2 h x s fun a b => addFV x.rm a b.negate
def execFmul (h : Hdr) (x : Alu) (s : State) : Outcome := float2 h x s mulFV

/-- A fused product-sum under NP and NC (R109), rounded once. -/
def fusedBits (ty : Ty) (rm : Rm) (np nc : Bool) (a b c : Nat) : FRes :=
  let x := decodeF ty a
  let z := decodeF ty c
  finishF ty rm (fmaFV rm (if np then x.negate else x) (decodeF ty b) (if nc then z.negate else z))

def np (x : Alu) : Bool := x.os.getLsbD 0
def nc (x : Alu) : Bool := x.os.getLsbD 1

def execFfma (h : Hdr) (x : Alu) (s : State) : Outcome :=
  aluOp h x (some 4) (Slots.three x.ty) s (fusedBits .f32 x.rm (np x) (nc x))
/-- FMIN and FMAX (R110): OS bit 0 is NAN. -/
def execFmin (h : Hdr) (x : Alu) (s : State) : Outcome :=
  aluOp h x (some 4) (Slots.two x.ty) s fun a b _ => minMaxF .f32 false (x.os.getLsbD 0) a b
def execFmax (h : Hdr) (x : Alu) (s : State) : Outcome :=
  aluOp h x (some 4) (Slots.two x.ty) s fun a b _ => minMaxF .f32 true (x.os.getLsbD 0) a b
def execFrnd (h : Hdr) (x : Alu) (s : State) : Outcome :=
  aluOp h x (some 4) (Slots.one x.ty) s fun a _ _ => roundIntF x.rm a
def execFcls (h : Hdr) (x : Alu) (s : State) : Outcome :=
  aluOp h x (some 4) (Slots.one x.ty) s fun a _ _ => bare (classMask x.ty a)

/-! ### FP64 (R113) -/

def double2 (h : Hdr) (x : Alu) (s : State) (f : FV → FV → FV × Bool) : Outcome :=
  aluOp h x (some 8) (Slots.two x.ty) s fun a b _ => finishF .f64 x.rm (f (decodeF .f64 a) (decodeF .f64 b))

def execDadd (h : Hdr) (x : Alu) (s : State) : Outcome := double2 h x s (addFV x.rm)
def execDmul (h : Hdr) (x : Alu) (s : State) : Outcome := double2 h x s mulFV
def execDfma (h : Hdr) (x : Alu) (s : State) : Outcome :=
  aluOp h x (some 8) (Slots.three x.ty) s (fusedBits .f64 x.rm (np x) (nc x))
def execDmin (h : Hdr) (x : Alu) (s : State) : Outcome :=
  aluOp h x (some 8) (Slots.two x.ty) s fun a b _ => minMaxF .f64 false (x.os.getLsbD 0) a b
def execDmax (h : Hdr) (x : Alu) (s : State) : Outcome :=
  aluOp h x (some 8) (Slots.two x.ty) s fun a b _ => minMaxF .f64 true (x.os.getLsbD 0) a b

/-! ### Packed halves (R114) -/

/-- Both elements of a register; the flags are the OR of the elements' flags. -/
def packed2 (f : Nat → Nat → Nat → FRes) (a b c : Nat) : FRes :=
  let lo := f (a % 2 ^ 16) (b % 2 ^ 16) (c % 2 ^ 16)
  let hi := f (a / 2 ^ 16) (b / 2 ^ 16) (c / 2 ^ 16)
  { bits := lo.bits + 2 ^ 16 * hi.bits, flags := lo.flags ||| hi.flags }

def execHadd2 (h : Hdr) (x : Alu) (s : State) : Outcome :=
  aluOp h x (some 4) (Slots.two x.ty) s
    (packed2 fun a b _ => finishF x.ty x.rm (addFV x.rm (decodeF x.ty a) (decodeF x.ty b)))
def execHmul2 (h : Hdr) (x : Alu) (s : State) : Outcome :=
  aluOp h x (some 4) (Slots.two x.ty) s (packed2 fun a b _ => finishF x.ty x.rm (mulFV (decodeF x.ty a) (decodeF x.ty b)))
def execHfma2 (h : Hdr) (x : Alu) (s : State) : Outcome :=
  aluOp h x (some 4) (Slots.three x.ty) s (packed2 (fusedBits x.ty x.rm (np x) (nc x)))

/-! ### Conversions (R221 to R224) -/

/-- The source element (R221). -/
def cvtSource (x : CvtForm) (a : Nat) : Nat := a / 2 ^ (x.sty.width * x.se.toNat) % 2 ^ x.sty.width

/-- Place a result of the destination's width in D, whose old value is `old` (R221). -/
def cvtPlace (x : CvtForm) (old : Nat) (r : FRes) : FRes :=
  let w := x.ty.width
  if x.mg then
    let k := w * x.de.toNat
    { r with bits := old % 2 ^ k + r.bits % 2 ^ w * 2 ^ k + old / 2 ^ (k + w) * 2 ^ (k + w) }
  else if w < 32 && x.ty.isSigned then { r with bits := wrapTo 32 (signedOf w r.bits) }
  else r

/-- CVT and CVTSR: `f` takes the source element and slot B's value. -/
def cvtOp (h : Hdr) (x : CvtForm) (useB : Bool) (s : State) (f : Nat → Nat → FRes) : Outcome :=
  let wide := x.ty.is64
  regOp h false x.u (some 4)
    (regsOf x.u x.sty.is64 x.a ++ (if useB then bRegs false x.b else []) ++ (if x.mg then regsOf x.u wide x.d else []))
    wide x.d s fun i l =>
    cvtPlace x (readReg i.g x.u wide x.d l)
      (f (cvtSource x (readReg i.g x.u x.sty.is64 x.a l)) (if useB then readB i.g .b32 false x.b l else 0))

def execCvt (h : Hdr) (x : CvtForm) (s : State) : Outcome := cvtOp h x false s fun a _ => convert x.sty x.ty x.rm x.sat a
def execCvtsr (h : Hdr) (x : CvtForm) (s : State) : Outcome := cvtOp h x true s fun a r => convertSR x.sty x.ty x.sat a r

/-- RNG (R224): the seed pair is in slot B, the counter in A. -/
def execRng (h : Hdr) (x : Alu) (s : State) : Outcome :=
  aluOp h x (some 4) { a := some false, b := some true, c := none, d := false } s fun a b _ =>
    bare (rng (u32 (b / 2 ^ 32)) (u32 b) (u32 a)).toNat

end Sys2Proof.Machine
end

