-- ==== Sys2Proof/Machine/Queues.lean ====
section
/-! DEFINITION. The hub's queues, and the accesses that the March core makes for a packet or a launch (R320 to R322,
R329, R338). -/
namespace Sys2Proof.Machine

def Queue.absent : Queue :=
  { base := 0, count := 0, ctx := 0, rd := 0, wr := 0, prio := 0, drain := false, enable := false, slice := 0, sliceAt := 0, overran := 0,
    stopped := false, code := 0, started := [] }
def State.queue (s : State) (q : Nat) : Queue := sget Queue.absent s.queues q
def State.setQueue (s : State) (q : Nat) (x : Queue) : State := { s with queues := sset Queue.absent s.queues q x }
def State.modQueue (s : State) (q : Nat) (f : Queue → Queue) : State := s.setQueue q (f (s.queue q))

/-- Vector q signals queue q's completions and errors (R338). -/
def signalHost (s : State) (q : Nat) : State := { s with msix := s.msix ++ [q] }

/-- Stop a queue with an error code (R322). -/
def stopQueue (s : State) (q : Nat) (code : BitVec 8) : State :=
  signalHost (s.modQueue q fun x => { x with stopped := true, code := code }) q

/-! ### Accesses by virtual address, without a group -/

/-- A piece of what a packet reaches: its offset, its location and its length. -/
structure Piece0 where
  off : Nat
  loc : Loc
  n   : Nat
  deriving DecidableEq, Repr

/-- One piece for a packet (R321). Paths 0x1 and 0x2 name a core's scratchpad and path 0x4 a die's own replica, of which the
March core has none (log 26); a counter lies on path 0x0 or 0x6 (R161). -/
def packetPiece (s : State) (c : Nat) (a : W64) (n : Nat) (write counter : Bool) : State × Except ReadFail Loc :=
  let x := a.toNat
  let path := field x 60 4
  let dev := field x 48 10
  let fail (c : BitVec 8) : State × Except ReadFail Loc := (s, .error (.cause c [a]))
  if path == 1 || path == 2 || path == 4 || path ≥ 8 || (counter && path != 0 && path != 6)
      || ((path == 5 || path == 6) && field x 58 2 != 0) || (path == 6 && !reachable s dev) || (path == 7 && field x 56 4 != 0) then fail 0x14#8
  else if path == 3 && write then fail 0x12#8
  else if path == 7 && !(viewSizeOk n && x % n == 0) then fail 0x13#8
  else
    let va := match path with
      | 5 => field x 0 56
      | 6 => field x 0 48
      | 7 => 16 * field x 0 56
      | _ => field x 0 60
    match xlat s [] c (path == 6) va (path == 6 && dev != s.device) with
    | (s, .unmapped) => (s, .error (.unmapped a))
    | (s, .bad lvl e) => (s, .error (.cause 0x1E#8 [a, u64 lvl, u64 e]))
    | (s, .hit h) =>
      let rp := pteRP h.pte
      if write && !pteW h.pte then (s, .error (.cause 0x12#8 [a]))
      else if path == 5 && !rp then (s, .error (.cause 0x19#8 [a]))
      else if counter && path == 0 && rp then (s, .error (.cause 0x1C#8 [a]))
      else if path == 6 && dev != s.device then (s, .ok (.dev dev h.pa h.slot))
      else if path == 7 then (s, .ok (.view h.pa h.slot))
      else if (!write || counter) && poisoned s h.pa n then (s, .error (.cause 0xE0#8 [a]))
      else (s, .ok (.mem (if rp && path == 5 then replica h.pa (field x 56 2) else h.pa) h.slot rp))

/-- The pieces of a packet's range; every one is checked before anything is read or written. -/
def packetRange (s : State) (c : Nat) (a : W64) (n : Nat) (write : Bool) : State × Except ReadFail (List Piece0) :=
  (pageCut (n / 4096 + 2) 0 a n).foldl (fun acc p => match acc with
    | (s, .error e) => (s, .error e)
    | (s, .ok ps) => match packetPiece s c p.1 p.2.2 write false with
      | (s, .ok loc) => (s, .ok (ps ++ [{ off := p.2.1, loc := loc, n := p.2.2 }]))
      | (s, .error e) => (s, .error e)) (s, .ok [])

/-- Plain stores of the host agent at checked pieces (R135, R321). Those on other devices are asked for, by the offset given;
the packet is not complete before they are performed there. -/
def writePieces (s : State) (ps : List Piece0) (bs : List Byte) (at_ : Nat) : State × List (Nat × Nat) :=
  ps.foldl (fun acc p =>
    let part := (bs.drop p.off).take p.n
    match p.loc with
    | .dev d pa slot => let (s, id) := sendTo (setPte acc.1 slot 16) d (.store pa part) true; (s, acc.2 ++ [(at_ + p.off, id)])
    | loc => (locWrite acc.1 loc part, acc.2)) (s, [])

/-- What became of a counter add. -/
inductive Added where
  | ok (wrapped : Bool)
  /-- Another device is asked to make it. -/
  | asked (msg : Nat)
  | unmapped (a : W64)
  | failed
  deriving DecidableEq, Repr

/-- A counter add at a location of this device: a sum of 2^64 or more leaves 2^64 − 1 (R168, R321). -/
def addMaxAt (s : State) (loc : Loc) (x : Nat) : State × Bool :=
  let old := ofBytes (locBytes s 8 loc)
  if old + x ≥ 2 ^ 64 then (locWrite s loc (List.replicate 8 0xFF#8), true) else (locWrite s loc (toBytes 8 (old + x)), false)

/-- What another device answered to a counter add: it failed there, or whether it wrapped. -/
def addAnswer (bs : List Byte) : Added := if answerBad bs then .failed else .ok (bs.getD 1 0 == 1#8)

/-- The counter add of a packet or a launch (R321). -/
def counterAddAt (s : State) (c : Nat) (ctr x : W64) : State × Added :=
  if ctr.toNat % 8 != 0 then (s, .failed)
  else match packetPiece s c ctr 8 true true with
    | (s, .error (.unmapped a)) => (s, .unmapped a)
    | (s, .error _) => (s, .failed)
    | (s, .ok (.dev d pa slot)) => let (s, id) := sendTo (setPte s slot 16) d (.addMax pa x) true; (s, .asked id)
    | (s, .ok loc) => let r := addMaxAt s loc x.toNat; (r.1, .ok r.2)

/-- The same where the counter's address 0 means that there is none. -/
def counterAdd (s : State) (c : Nat) (ctr x : W64) : State × Added := if ctr == 0#64 then (s, .ok false) else counterAddAt s c ctr x

/-- An unmapped page of a packet appends a record (agent 5, R312): the state with it, `none` when the queue has no room
yet; an invalid record count stops the queue with 0x82 (R322). -/
inductive Waits where
  | recorded (s : State)
  | noRoom
  | stopped (s : State)
  deriving Repr

def packetWaits (s : State) (q c : Nat) (a : W64) (write : Bool) : Waits :=
  match faultRecord s c a 5 write 0xFFFF 0xFFFFFFFF with
  | .ok s => .recorded s
  | .full => .noRoom
  | .bad _ _ => .stopped (stopQueue s q 0x82#8)

/-! ### The end of a launch (R321, R329, R335) -/

/-- Whether every block of a launch has completed, as the March core has learnt from its leaves (R323), and nothing of it is
outstanding: copies, side logs, commits. -/
def launchQuiet (s : State) (li : Nat) (l : Launch) : Bool :=
  (s.blocks.zipIdx.all fun e => e.1.launch != li ||
      (e.1.st == .ended && !untold s e.2 && e.1.groups.all fun g => g.copies.isEmpty && g.sideLog.isEmpty))
    && l.bufs.all fun t => t.ops.isEmpty

/-- A launch that has ended makes its counter add, last, and completes its packet. -/
def settleLaunch (s : State) (li : Nat) : State :=
  match s.launches[li]? with
  | none => s
  | some l =>
    let done (s : State) : State :=
      signalHost ((s.modLaunch li fun l => { l with st := .complete, owners := [], bufs := [] }).modQueue l.queue fun q =>
        { q with started := q.started.filter (· ≠ .launch li) }) l.queue
    let land (r : State × Added) : State := match r with
      | (s, .ok false) => done s
      | (s, .ok true) => stopQueue (done s) l.queue 0x83#8
      | (s, .asked id) => s.modLaunch li fun l => { l with st := .adding id }
      | (s, .failed) => stopQueue (s.modLaunch li fun l => { l with st := .complete }) l.queue 0x82#8
      | (s, .unmapped a) => match packetWaits s l.queue l.ctx a true with
        | .recorded s => s.modLaunch li fun l => { l with st := .counting }
        | .noRoom => s
        | .stopped s => s.modLaunch li fun l => { l with st := .complete }
    match l.st with
    | .placed => if launchQuiet s li l then land (counterAdd s l.ctx l.ctr l.add) else s
    | .adding id => match sget [] s.answers id with
      | [] => s
      | bs => land ({ s with answers := sdel s.answers id }, addAnswer bs)
    | _ => s

/-- Settle every launch. -/
def settleAll (s : State) : State := (List.range s.launches.length).foldl settleLaunch s

end Sys2Proof.Machine
end

