-- ==== Sys2Proof/Machine/Zb.lean ====
section
/-! DEFINITION. ZB block formats, quantised tiles and their trailers (R211 to R216). -/
namespace Sys2Proof.Machine

/-- Magnitude bits of a format by ZF (R211). -/
def zbM (zf : Nat) : Nat := if zf == 1 then 2 else if zf == 2 then 4 else 7
def zbBytes (m : Nat) : Nat := 2 + 2 * (1 + m)
/-- Registers that hold a block (R225). -/
def zbRegs (m : Nat) : Nat := (zbBytes m + 3) / 4
/-- Exponent of Scale(e) (R213). -/
def zbScale (m e : Nat) : Int := (e : Int) - 127 - (m - 1)

/-- One encoded block: its bytes, the counts, the flags, and whether an infinite input was saturated. -/
structure Quant where
  bytes : List Byte
  sat   : Nat
  nan   : Nat
  und   : Nat
  inf   : Bool
  flags : BitVec 7
  deriving DecidableEq, Repr

/-- A block from its exponent, micro-exponents and fields (sign, M) (R211). -/
def packBlock (m e : Nat) (micro : List Bool) (fields : List (Bool × Nat)) : List Byte :=
  let mu := ((List.range 8).map fun j => if micro.getD j false then 2 ^ j else 0).foldl (· + ·) 0
  let area := ((List.range 16).map fun i =>
    let f := fields.getD i (false, 0)
    ((if f.1 then 2 ^ m else 0) + f.2) * 2 ^ ((1 + m) * i)).foldl (· + ·) 0
  toBytes 1 e ++ toBytes 1 mu ++ toBytes (2 * (1 + m)) area

/-- Whether a finite magnitude fits in M at an exponent of scale. -/
def zbFits (m : Nat) (k : Nat) (q sc : Int) : Bool := (roundAt .rn false k q sc).1 ≤ 2 ^ m - 1

/-- One element's field with what it counts: saturated, NaN, stochastic, inexact. -/
structure QElem where
  s   : Bool := false
  mag : Nat := 0
  sat : Bool := false
  nan : Bool := false
  und : Bool := false
  inx : Bool := false
  deriving DecidableEq, Repr

def quantElem (m : Nat) (sc : Int) (r : Nat) : FV → QElem
  | .nan _ => { s := true, nan := true }
  | .inf neg => { s := neg, mag := 2 ^ m - 1, sat := true, inx := true }
  | .num neg k q =>
    let y := roundAt .rn false k q sc
    if k == 0 then {}
    else if y.1 > 2 ^ m - 1 then { s := neg, mag := 2 ^ m - 1, sat := true, inx := true }
    else if !magLt k q 1 sc then { s := neg && y.1 > 0, mag := y.1, inx := y.2 }
    else
      let up := underflowUp k q sc r
      { s := neg && up, mag := if up then 1 else 0, und := true, inx := true }

/-- QuantBlock of sixteen f32 patterns with counter c0 (R213). -/
def quantBlock (m : Nat) (seed : W64) (c0 : Nat) (xs : List Nat) : Quant :=
  let vs := xs.map (decodeF .f32)
  let iv := flagIf (vs.any FV.isSNaN) fIV
  if vs.all FV.isNaN then { bytes := packBlock m 255 [] [], sat := 0, nan := 16, und := 0, inf := false, flags := iv }
  else
    let fin := vs.filterMap fun v => match v with
      | .num _ k q => if k != 0 then some (k, q) else none
      | _ => none
    let e := if fin.isEmpty then
        (if vs.any fun v => match v with
          | .inf _ => true
          | _ => false then 254 else 0)
      else ((List.range 255).find? fun e => fin.all fun x => zbFits m x.1 x.2 (zbScale m e)).getD 254
    let low (v : FV) : Bool := match v with
      | .nan _ => true
      | .inf _ => false
      | .num _ k q => zbFits m k q (zbScale m e - 1)
    let micro := (List.range 8).map fun j => low (vs.getD (2 * j) (.num false 0 0)) && low (vs.getD (2 * j + 1) (.num false 0 0))
    let es := (List.range 16).map fun i =>
      quantElem m (zbScale m e - (if micro.getD (i / 2) false then 1 else 0))
        (rng (hi32 seed) (lo32 seed) (u32 (c0 + i))).toNat (vs.getD i (.num false 0 0))
    { bytes := packBlock m e micro (es.map fun x => (x.s, x.mag)), sat := (es.filter (·.sat)).length,
      nan := (es.filter (·.nan)).length, und := (es.filter (·.und)).length,
      inf := vs.any fun v => match v with
        | .inf _ => true
        | _ => false,
      flags := iv ||| flagIf (es.any (·.sat)) fSAT ||| flagIf (es.any (·.inx)) fNX ||| flagIf (es.any (·.und)) fUF }

/-- The sixteen elements of a block; `none` is an element NaN (R212). -/
def unpackBlock (m : Nat) (bs : List Byte) : List (Option FV) :=
  let e := (bs.getD 0 0).toNat
  let mu := (bs.getD 1 0).toNat
  let area := ofBytes (bs.drop 2)
  (List.range 16).map fun i =>
    let f := field area ((1 + m) * i) (1 + m)
    let s := f / 2 ^ m == 1
    let mag := f % 2 ^ m
    if e == 255 || (s && mag == 0) then none
    else some (.num s mag (zbScale m e - (if mu.testBit (i / 2) then 1 else 0)))

/-- An element as f32 (R226): exact, and 0x7FC0_0000 for a NaN. -/
def elemF32 : Option FV → Nat
  | none => 0x7FC00000
  | some v => (roundTo .f32 .rn false v).bits

/-- The blocks of a payload. -/
def blocksOf (m : Nat) (payload : List Byte) : List (List Byte) :=
  (List.range (payload.length / zbBytes m)).map fun b => (payload.drop (zbBytes m * b)).take (zbBytes m)

/-- One bit of CRC-32C, reflected. -/
def crcBit (x : Nat) : Nat := if x % 2 == 1 then (x / 2) ^^^ 0x82F63B78 else x / 2
/-- CRC-32C (R215). -/
def crc32c (bs : List Byte) : Nat :=
  (bs.foldl (fun c b => (List.range 8).foldl (fun c _ => crcBit c) (c ^^^ b.toNat)) 0xFFFFFFFF) ^^^ 0xFFFFFFFF

/-- What a payload says of itself: the largest magnitude, the NaN count, and whether a block is NaN whole (R215). -/
structure Payload where
  maxabs : Nat
  nann   : Nat
  bnan   : Bool
  deriving DecidableEq, Repr

def scanPayload (m : Nat) (payload : List Byte) : Payload :=
  let bs := blocksOf m payload
  let es := bs.flatMap (unpackBlock m)
  { maxabs := es.foldl (fun k v => match v with
      | none => k
      | some v => max k (elemF32 (some v) % 2 ^ 31)) 0,
    nann := (es.filter (·.isNone)).length, bnan := bs.any fun b => b.getD 0 0 == 255#8 }

/-- The trailer of a payload (R215). -/
def trailerOf (zf m : Nat) (payload : List Byte) (satn : Nat) (ufl inf : Bool) : List Byte :=
  let p := scanPayload m payload
  layout' [(p.maxabs, 4), (satn, 4), (crc32c payload, 4), (p.nann, 2),
    (zf + (if inf then 4 else 0) + (if ufl then 8 else 0) + (if p.bnan then 16 else 0), 2)]
where
  layout' (l : List (Nat × Nat)) : List Byte := l.flatMap fun f => toBytes f.2 f.1

/-- The first failing check of a trailer: its number, the recomputed value and the trailer's (R216). Of TFL that is the ZF field
for check 1 and the whole half-word for check 2 (DESIGN CHOICE, log 40). -/
def verifyTrailer (zf m : Nat) (payload trailer : List Byte) : Option (Nat × Nat × Nat) :=
  let f (off n : Nat) : Nat := ofBytes ((trailer.drop off).take n)
  let p := scanPayload m payload
  let tfl := f 14 2
  let crc := crc32c payload
  if tfl % 4 != zf then some (1, 0, tfl % 4)
  else if tfl / 32 != 0 || tfl.testBit 4 != p.bnan then some (2, 0, tfl)
  else if f 8 4 != crc then some (3, crc, f 8 4)
  else if f 12 2 != p.nann then some (4, p.nann, f 12 2)
  else if f 0 4 != p.maxabs then some (5, p.maxabs, f 0 4)
  else none

/-- Elements of a quantised tile (R214). -/
def tileElems : Nat := 4096
def tilePayload (m : Nat) : Nat := 256 * zbBytes m

/-- A tile's payload and trailer from 4,096 f32 patterns, with the flags of every block (R215, R227). -/
def quantTile (zf : Nat) (seed : W64) (c0 : Nat) (xs : List Nat) : List Byte × BitVec 7 :=
  let m := zbM zf
  let qs := (List.range 256).map fun b => quantBlock m seed (c0 + 16 * b) ((xs.drop (16 * b)).take 16)
  let payload := qs.flatMap (·.bytes)
  (payload ++ trailerOf zf m payload ((qs.map (·.sat)).foldl (· + ·) 0) (qs.any fun q => q.und > 0) (qs.any (·.inf)),
   (qs.map (·.flags)).foldl (· ||| ·) 0)

end Sys2Proof.Machine
end

