-- ==== Sys2Proof/Machine/Quantise.lean ====
section
/-! DEFINITION. QPK, QUNPK, FLRD and FLCLR, OPC 0xD1 to 0xD4 (R225 to R229). -/
namespace Sys2Proof.Machine

/-! ### Register forms (R226) -/

/-- Byte j of a block lies in register ⌊j / 4⌋. -/
def blockWord (bs : List Byte) (k : Nat) : W32 := u32 (ofBytes ((bs.drop (4 * k)).take 4))

/-- QPK, register form: the block, then the counts. -/
def execQpk (h : Hdr) (zf : BitVec 3) (d a c : BitVec 8) (s : State) : Outcome :=
  let m := zbM zf.toNat
  let k := zbRegs m
  issue h false false { reads := regRun false a 16 ++ [.v c.toNat], writes := regRun false d (k + 1) } s fun i =>
    let q (l : Nat) : Quant :=
      quantBlock m i.w.b.seed (readV i.g c.toNat l).toNat ((List.range 16).map fun j => (readV i.g (a.toNat + j) l).toNat)
    let none : Quant := { bytes := [], sat := 0, nan := 0, und := 0, inf := false, flags := 0 }
    let qs : Lanes Quant := lanes fun l => if has i.act l then q l else none
    let at_ (l : Nat) : Quant := lget none qs l
    .later i.s ((List.range k).map (fun j => RegWrite.v (d.toNat + j) i.act (lanes fun l => blockWord (at_ l).bytes j))
        ++ [RegWrite.v (d.toNat + k) i.act (lanes fun l => u32 ((at_ l).sat + 2 ^ 8 * (at_ l).nan + 2 ^ 16 * (at_ l).und))])
      (FlagSet.ofLanes i.act fun l => (at_ l).flags)

/-- QUNPK, register form. -/
def execQunpk (h : Hdr) (zf : BitVec 3) (d a : BitVec 8) (s : State) : Outcome :=
  let m := zbM zf.toNat
  let k := zbRegs m
  issue h false false { reads := regRun false a k, writes := regRun false d 16 } s fun i =>
    let es : Lanes (List Nat) := lanes fun l => if has i.act l then
      (unpackBlock m ((toBytes (4 * k) (readRun i.g a k l)).take (zbBytes m))).map elemF32 else []
    .later i.s ((List.range 16).map fun j => RegWrite.v (d.toNat + j) i.act (lanes fun l => u32 ((lget [] es l).getD j 0))) FlagSet.none

/-! ### Ranges of a tile form or a tile transfer (R227, R270) -/

/-- One end's pieces with what they reach. -/
def rangeFates (s : State) (w : Who) (cls : Cls) (a : W64) (n : Nat) : State × List (Nat × W64 × Nat × Fate) :=
  (pageCut (n / 4096 + 2) 0 a n).foldl (fun acc p =>
    let write := cls == .dst
    let (s, f) := resolve acc.1 w { cls := cls, write := write, reads := false, size := p.2.2, align := 1 } p.1
    (s, acc.2 ++ [(p.2.1, p.1, p.2.2, f)])) (s, [])

/-- The checks of R227 that come before any access, in order: the cause and its TVALs. -/
inductive TileCheck where
  | trap (cause : BitVec 8) (tv : List W64)
  | unmapped (reads writes : List W64)
  | pass
  deriving DecidableEq, Repr

/-- The order of R227. Of causes of one place in it, the source's comes before the destination's, and any other failure of a
walk (0x1E) comes last, after 0x10 (DESIGN CHOICE, log 40). -/
def tileChecks (w : Who) (src dst : W64) (ns nd : Nat) (fs fd : List (Nat × W64 × Nat × Fate)) : TileCheck :=
  let all := fs ++ fd
  let failing (c : BitVec 8) : Bool := c == 0x14#8 || c == 0x19#8 || c == 0x1C#8 || c == 0x12#8
  let pathFail := all.findSome? fun x => match x.2.2.2 with
    | .fail _ c tv => if failing c then some (c, x.2.1 :: tv) else none
    | _ => none
  let later := all.findSome? fun x => match x.2.2.2 with
    | .fail _ c tv => if failing c then none else some (c, x.2.1 :: tv)
    | _ => none
  let scr := all.find? fun x => x.2.2.2 = .scrFault
  match pathFail with
  | some (c, tv) => .trap c tv
  | none =>
    if src.toNat % 16 != 0 then .trap 0x13#8 [src]
    else if dst.toNat % 16 != 0 then .trap 0x13#8 [dst]
    else match scr with
      | some x => .trap 0x18#8 [x.2.1]
      | none =>
        if scrBeyond w src ns then .trap 0x18#8 [src]
        else if scrBeyond w dst nd then .trap 0x18#8 [dst]
        else if rangesMeet w.die src ns dst nd then .trap 0x1A#8 []
        else
          let unm (l : List (Nat × W64 × Nat × Fate)) : List W64 := (l.filter fun x => x.2.2.2 = .unmapped).map (·.2.1)
          if !(unm all).isEmpty then .unmapped (unm fs) (unm fd)
          else match later with
            | some (c, tv) => .trap c tv
            | none => .pass

/-- The pieces that are reached, as lanes for the shared answer step. -/
def tileOk (fs : List (Nat × W64 × Nat × Fate)) : List (Nat × W64 × Loc) := fs.filterMap fun x => match x.2.2.2 with
  | .ok loc => some (x.1, x.2.1, loc)
  | _ => none

/-- The length of the piece at an offset. -/
def pieceLen (fs : List (Nat × W64 × Nat × Fate)) (off : Nat) : Nat := ((fs.find? fun x => x.1 == off).map (·.2.2.1)).getD 0

/-- Pieces with what they reach, by offset and length. -/
abbrev PieceLocs := List (Nat × Nat × W64 × Loc)

def reachedOf (fs : List (Nat × W64 × Nat × Fate)) : PieceLocs := (tileOk fs).map fun x => (x.1, pieceLen fs x.1, x.2)

/-- A transfer as an access: it reads and writes, with neither annotation (R227). -/
def tileKind : OwnKind := .access true true false false

/-- The bytes of source pieces, and what their reads cover: reads of the group in the form's stream, through its side log
(R183), with other devices' answers. -/
def tileBytes (s : State) (w : Who) (sid : Nat) (fs : PieceLocs) (got : Nat → List Byte) : List Byte × List Cover :=
  let rs := fs.map fun x => match x.2.2.2 with
    | .dev .. => (forwarded w.g w.die x.2.2.1 (got x.1), [])
    | loc =>
      let r := loadBytes s w.r s.fresh tileKind sid x.2.2.1 loc x.2.1
      (forwarded w.g w.die x.2.2.1 r.1, r.2)
  (rs.flatMap (·.1), rs.flatMap (·.2))

/-- Write bytes to destination pieces as plain stores of the group, after every store of it there (log 39); what goes to other
devices is asked for by offset. -/
def tileWrite (s : State) (w : Who) (fs : PieceLocs) (bs : List Byte) : State × List (Nat × Nat) :=
  fs.foldl (fun acc x =>
    let part := (bs.drop x.1).take x.2.1
    match x.2.2.2 with
    | .dev d pa slot => let r := sendTo (setPte acc.1 slot 16) d (.store pa part) true; (r.1, acc.2 ++ [(x.1, r.2)])
    | loc => (storeLane (settleAt acc.1 w.r loc part.length) w (tilePos w) x.2.2.1 loc part none, acc.2)) (s, [])

/-- With an uncorrectable error, each byte of the destination is old or new (R227); what goes to other devices, new bytes alone, is
asked for by offset. -/
def tornWrite (s : State) (w : Who) (fs : PieceLocs) (bs : List Byte) : State × List (Nat × Nat) :=
  let base := s.fresh
  fs.foldl (fun acc x =>
    let s := acc.1
    let new := (bs.drop x.1).take x.2.1
    let wrote (j : Nat) : Bool := Config.tornByteWritten (base + x.1 + j)
    match x.2.2.2 with
    | .dev d pa slot => ((List.range new.length).filter wrote).foldl (fun acc j =>
        let r := sendTo (setPte acc.1 slot 16) d (.store (pa + j) [new.getD j 0]) true
        (r.1, acc.2 ++ [(x.1 + j, r.2)])) acc
    | loc =>
      let old := locBytes s new.length loc
      (storeLane (settleAt s w.r loc new.length) w (tilePos w) x.2.2.1 loc
        ((List.range new.length).map fun j => if wrote j then new.getD j 0 else old.getD j 0) none, acc.2)) ({ s with fresh := base + 2 ^ 20 }, [])

/-- Lines of a range that a side log's reductions overlap, or any entry for a write. -/
def logMeets (w : Who) (a : W64) (n : Nat) (write : Bool) : Bool :=
  w.g.sideLog.any fun e => (write || e.kind == 1) && overlaps e w.die false false a n

/-- What a transfer makes of the bytes it read: bytes to write and a change beside memory, or a cause. -/
abbrev Made := Except (BitVec 8 × List W64) (List Byte × (State → State))

/-- Where the keys of a transfer's destination pieces start among its pieces, and of its writes that are out at other devices: of those
that complete it, and of those that come before its cause 0xE0. -/
def destKey : Nat := 2 ^ 40
def wroteKey : Nat := 2 ^ 41
def tornKey : Nat := 2 ^ 42

/-- The reads and writes of a transfer, whose pieces have been reached and whose other devices have answered. Its writes at other
devices are waited for: the group issues nothing before the last one has been performed (R227). -/
def transferMade (i : Iss) (sid : BitVec 4) (torn : List Byte → State → State) (make : List Byte → Made) (s : State) (fs fd : PieceLocs)
    (got : Nat → List Byte) : Act :=
  let bytes := tileBytes s i.w sid.toNat fs got
  let bad := fs.find? fun x => locPoisoned s x.2.1 x.2.2.2
  match make bytes.1, bad with
  | r, some x =>
    let t := match r with
      | .ok (bs, _) => let t := tornWrite s i.w fd bs; (torn bytes.1 t.1, t.2)
      | .error _ => (s, [])
    if t.2.isEmpty then .trap t.1 0xE0#8 i.act [x.2.2.1]
    else
      let out : List (Nat × Nat) := t.2.map fun e => (tornKey + e.1, e.2)
      .again (t.1.modGrp i.w.r fun g => { g with sent := out, reached := { Checked.none with ok := [(tornKey, x.2.2.1, .logged)] } })
  | .error (c, tv), none => .trap s c i.act tv
  | .ok (bs, k), none =>
    let r := tileWrite s i.w fd bs
    let covers := bytes.2 ++ fd.flatMap fun x => coversAt (field x.2.2.1.toNat 60 4) (unitsOf x.2.1 x.2.2.2)
    let s := k (logAccess r.1 i.w.r tileKind sid covers)
    if r.2.isEmpty then .done s
    else
      let out : List (Nat × Nat) := r.2.map fun e => (wroteKey + e.1, e.2)
      let c : Checked := { Checked.none with ok := fd.map fun x => (wroteKey + x.1, x.2.2) }
      .again (s.modGrp i.w.r fun g => { g with sent := out, reached := c })

/-- A transfer whose ranges have been checked: it waits for the side log, the frontier and other devices, then reads the
source and writes the destination (R183, R227, R335). `torn` is what an uncorrectable error may leave beside memory. Where it is
another device that answers with one, nothing has been read to write, and every byte of the destination keeps its old value (DESIGN
CHOICE, log 41). -/
def transfer (i : Iss) (s : State) (sid : BitVec 4) (chk : TileCheck) (fs fd : List (Nat × W64 × Nat × Fate)) (srcs dsts : List (W64 × Nat))
    (torn : List Byte → State → State) (make : List Byte → Made) : Act :=
  -- a piece's length is that of its offset at either end, whatever its page
  let go (s : State) (c : Checked) (got : Nat → List Byte) : Act :=
    transferMade i sid torn make s ((c.ok.filter fun e => e.1 < destKey).map fun e => (e.1, pieceLen fs e.1, e.2))
      ((c.ok.filter fun e => destKey ≤ e.1).map fun e => (e.1 - destKey, pieceLen fd (e.1 - destKey), e.2)) got
  if i.g.sent.any fun e => tornKey ≤ e.1 then answered i false fun s c _ => .trap s 0xE0#8 i.act [(c.ok.map (·.2.1)).headD 0]
  else if i.g.sent.any fun e => wroteKey ≤ e.1 then answered i false fun s _ _ => .done s
  else if !i.g.sent.isEmpty then answered i false go
  else match chk with
  | .trap c tv => .trap s c i.act tv
  | .unmapped rs ws => match recordBoth s i.w 0 rs ws with
    | (_, .ok s) => .trap s 0x10#8 i.act [(rs ++ ws).headD 0]
    | (s, .full) => .again s
    | (_, .bad q n) => .again (terminateWith s i.w.r.blk 0xA2#8 [u64 q, u64 n])
  | .pass =>
    if srcs.any (fun x => logMeets i.w x.1 x.2 false) || dsts.any (fun x => logMeets i.w x.1 x.2 true) then .again i.s
    else
      let far := (tileOk fd).any fun x => match x.2.2 with
        | .dev .. => true
        | _ => false
      match gateBoth s i.w (tilePos i.w) (linesOf srcs) (linesOf dsts) true far with
      | .wait => .again i.s
      | .trap s a owner me => .trap s 0xB5#8 i.act [a, owner, me]
      | .full s => .again (terminateWith s i.w.r.blk 0xB6#8 [])
      | .go s =>
        let s := countLookups (countLookups s i.w 0 ((tileOk fs).map (·.2.1))) i.w 1 ((tileOk fd).map (·.2.1))
        withAnswers i s { Checked.none with ok := tileOk fs ++ (tileOk fd).map fun e => (destKey + e.1, e.2) }
          (fun off _ pa => if off < destKey then some (.load pa (pieceLen fs off)) else none) go

/-- A tile transfer between two contiguous ranges (R227), with the flags of what it makes. -/
def tileTransfer (i : Iss) (sid : BitVec 4) (src dst : W64) (ns nd : Nat) (make : List Byte → Except (BitVec 8 × List W64) (List Byte × BitVec 7)) :
    Act :=
  let (s, fs) := rangeFates i.s i.w .src src ns
  let (s, fd) := rangeFates s i.w .dst dst nd
  transfer i s sid (tileChecks i.w src dst ns nd fs fd) fs fd [(src, ns)] [(dst, nd)] (fun _ s => s) fun bs =>
    match make bs with
    | .error e => .error e
    | .ok (out, f) => .ok (out, fun s => s.modGrp i.w.r (raiseFlags (diagMode s i.w.c) (FlagSet.ofGroup f)))

/-- The 32-bit words of a run of bytes. -/
def wordsIn (n : Nat) (bs : List Byte) : List Nat := (List.range n).map fun j => ofBytes ((bs.drop (4 * j)).take 4)

/-- QPK, tile form (R227): SEED is read once, at its issue (R231). One whose reads wait for an overlapping entry of the side log or for
its tile's frontier has not issued: the spec does not say whether it has, and a WRSR during that wait is seen (DESIGN CHOICE, log
41). -/
def execQpkTile (h : Hdr) (zf : BitVec 3) (sid : BitVec 4) (_sc : BitVec 3) (d a c : BitVec 8) (s : State) : Outcome :=
  let m := zbM zf.toNat
  issue h false false { reads := regsOf true true d ++ regsOf true true a ++ regsOf true false c } s fun i =>
    let c0 := (readS i.g c.toNat).toNat
    let seed := if i.g.sent.isEmpty then i.w.b.seed else i.g.seed
    tileTransfer { i with s := i.s.modGrp i.w.r fun g => { g with seed := seed } } sid (readSS i.g a.toNat) (readSS i.g d.toNat)
      (4 * tileElems) (tilePayload m + 16) fun bs => .ok (quantTile zf.toNat seed c0 (wordsIn tileElems bs))

/-- QUNPK, tile form (R227): with CK the trailer is verified first (R216). -/
def execQunpkTile (h : Hdr) (zf : BitVec 3) (sid : BitVec 4) (_sc : BitVec 3) (ck : Bool) (d a : BitVec 8) (s : State) : Outcome :=
  let m := zbM zf.toNat
  issue h false false { reads := regsOf true true d ++ regsOf true true a } s fun i =>
    let src := readSS i.g a.toNat
    tileTransfer i sid src (readSS i.g d.toNat) (tilePayload m + 16) (4 * tileElems) fun bs =>
      let payload := bs.take (tilePayload m)
      match (if ck then verifyTrailer zf.toNat m payload (bs.drop (tilePayload m)) else none) with
      | some (k, mine, theirs) => .error (0x44#8, [src, u64 k, u64 mine, u64 theirs])
      | none => .ok ((blocksOf m payload).flatMap fun b => (unpackBlock m b).flatMap fun x => toBytes 4 (elemF32 x), 0)

/-! ### Reading and clearing flags (R217, R219, R228) -/

/-- FLRD and FLCLR first commit pending writes and wait for every earlier contribution. -/
def settleFlags (s : State) (w : Who) : State :=
  let diag := diagMode s w.c
  s.modGrp w.r fun g => arriveIf diag (fun _ => true) (commitAll diag g)

/-- The five masks of the lane flags: IV, DZ, OF, UF, NX. -/
def laneFlagMasks (g : Group) : List W32 := (List.range 5).map fun k => maskOf fun l => (lget 0#5 g.laneFlags l).getLsbD k

/-- FLRD (R228). -/
def execFlrd (h : Hdr) (src : BitVec 2) (clr : Bool) (d : BitVec 8) (s : State) : Outcome :=
  issue h false true { writes := regRun true d (if src == 2#2 then 5 else 1) } s fun i =>
    let s := settleFlags i.s i.w
    let g := (s.grp? i.w.r).getD i.g
    match src.toNat with
    | 0 => .later (if clr then s.modGrp i.w.r (clearFlags 0x7F#7) else s) [.s d.toNat (readFlags (diagMode s i.w.c) g)] FlagSet.none
    | 1 => .later (if clr then s.modBlk i.w.r.blk fun b => { b with bflags := 0 } else s) [.s d.toNat i.w.b.bflags] FlagSet.none
    | _ =>
      let ms := if diagMode s i.w.c then laneFlagMasks g else List.replicate 5 0#32
      .later (if clr then s.modGrp i.w.r fun g => { g with laneFlags := Vector.replicate 32 0#5 } else s)
        ((List.range 5).map fun k => RegWrite.s (d.toNat + k) (ms.getD k 0)) FlagSet.none

/-- FLCLR (R228). -/
def execFlclr (h : Hdr) (src : BitVec 2) (mask : BitVec 8) (s : State) : Outcome :=
  issue h false true {} s fun i =>
    let s := settleFlags i.s i.w
    let m : BitVec 7 := mask.setWidth 7
    .done (if src == 0#2 then s.modGrp i.w.r (clearFlags m) else s.modBlk i.w.r.blk fun b => { b with bflags := b.bflags &&& ~~~(m.setWidth 32) })

end Sys2Proof.Machine
end

