-- ==== Sys2Proof/Machine/Window.lean ====
section
/-! DEFINITION. The operand window's four descriptors (R296, R297). -/
namespace Sys2Proof.Machine

/-- How a slot is read: not at all, as registers of a class (1 v, 2 s, 3 p, 4 q, 5 t, 6 a, 7 w, 8 nb) and a count, as a
number, or as an extension immediate. -/
inductive Slot where
  | none
  | reg (cls count : Nat)
  | num
  | ext
  deriving DecidableEq, Repr

/-- A descriptor word from a slot and its field (R297). -/
def descriptor (k : Slot) (n : BitVec 8) : W32 :=
  u32 (match k with
    | .none => 0
    | .reg cls count => cls * 2 ^ 28 + (if count == 2 then 1 else if count == 4 then 2 else 0) * 2 ^ 26 + n.toNat
    | .num => 9 * 2 ^ 28 + n.toNat
    | .ext => 10 * 2 ^ 28)

/-- The slots D, A, B and C. -/
structure Window where
  d : Slot := .none
  a : Slot := .none
  b : Slot := .none
  c : Slot := .none
  deriving DecidableEq, Repr

def Slot.v (n : Nat) : Slot := .reg 1 n
def Slot.s (n : Nat) : Slot := .reg 2 n
def Slot.p : Slot := .reg 3 1
def Slot.q : Slot := .reg 4 1
def Slot.t : Slot := .reg 5 1
def Slot.a : Slot := .reg 6 1
def Slot.w : Slot := .reg 7 1
def Slot.nb : Slot := .reg 8 1
/-- The class that U or UD selects. -/
def Slot.r (u : Bool) (n : Nat) : Slot := if u then .s n else .v n
def Slot.pred (u : Bool) : Slot := if u then .q else .p

def countOf (wide : Bool) : Nat := if wide then 2 else 1

/-- Slot B of the ALU layout. -/
def slotB (wide : Bool) : BSrc → Slot
  | .reg _ => .v (countOf wide)
  | .uni _ => .s (countOf wide)
  | .imm8 _ => .num
  | .imm32 _ => .ext

/-- An ALU form from its slots. -/
def aluWindow (x : Alu) (k : Slots) : Window :=
  let f (o : Option Bool) : Slot := match o with
    | some w => .r x.u (countOf w)
    | none => .none
  { d := .r x.u (countOf k.d), a := f k.a, b := (match k.b with
      | some w => slotB w x.b
      | none => .none), c := f k.c }

def alu1 (x : Alu) : Window := aluWindow x (Slots.one x.ty)
def alu2 (x : Alu) : Window := aluWindow x (Slots.two x.ty)
def alu3 (x : Alu) : Window := aluWindow x (Slots.three x.ty)
/-- FADD, FSUB and FMUL: C is a source under RS. -/
def aluRs (x : Alu) : Window := aluWindow x { Slots.two x.ty with c := if x.rm == .rs then some false else none }

/-- A memory form: the address in A, the access options in C. -/
def memWindow (u d b : Bool) (n nb : Nat) : Window :=
  { d := if d then .r u n else .none, a := .r u 2, b := if b then .v nb else .none, c := .num }
def copyWindow : Window := { d := .s 2, a := .s 2, b := .s 1, c := .num }

/-- Each slot of an instruction as its own description reads it (R296). -/
def windowOf : Instr → Window
  | .nop _ | .ret _ | .exit _ | .fetchb .. | .mstartResume _ | .mstartRetry _ | .mend | .eret _ | .eretx _ => {}
  | .blk .. | .want .. => { d := .num, a := .num }
  | .wantv .. => { a := .v 1 }
  | .call .. => { d := .num, a := .s 2, b := .num }
  | .callv .. => { d := .num, a := .v 2, b := .num }
  | .yield .. => {}
  | .iadd _ x | .isub _ x | .imul _ x | .imulh _ x | .imin _ x | .imax _ x | .and _ x | .or _ x | .xor _ x | .andn _ x | .shl _ x
  | .shr _ x | .sar _ x | .rotl _ x | .bfx _ x | .fmin _ x | .fmax _ x | .dadd _ x | .dmul _ x | .dmin _ x | .dmax _ x | .hadd2 _ x
  | .hmul2 _ x => alu2 x
  | .imad _ x | .bfi _ x | .ffma _ x | .dfma _ x | .hfma2 _ x => alu3 x
  | .iabs _ x | .ineg _ x | .not _ x | .clz _ x | .ctz _ x | .popc _ x | .brev _ x | .frnd _ x | .fcls _ x | .frcp _ x | .frsq _ x
  | .fsqrt _ x | .fex2 _ x | .flg2 _ x | .fsin _ x | .fcos _ x => alu1 x
  | .fadd _ x | .fsub _ x | .fmul _ x => aluRs x
  | .imadw _ x => aluWindow x { a := some false, b := some false, c := some true, d := true }
  | .lea _ x => aluWindow x { a := some true, b := some false, c := none, d := true }
  | .sel _ x => { alu2 x with c := .pred x.u }
  | .mov _ x => aluWindow x { a := none, b := some x.ty.is64, c := none, d := x.ty.is64 }
  | .movi _ x => { d := .r x.u 1, b := slotB false x.b, c := if x.u then .none else .num }
  | .rng _ x => aluWindow x { a := some false, b := some true, c := none, d := false }
  | .cvt _ x => { d := .r x.u (countOf x.ty.is64), a := .r x.u (countOf x.sty.is64), c := .num }
  | .cvtsr _ x => { d := .r x.u (countOf x.ty.is64), a := .r x.u (countOf x.sty.is64), b := slotB false x.b, c := .num }
  | .setp _ x => { d := .pred x.u, a := .r x.u (countOf x.ty.is64), b := slotB x.ty.is64 x.b,
                   c := if x.cb.extractLsb' 0 2 != 0#2 then .pred x.u else .none }
  | .plop _ u .. => { d := .pred u, a := .pred u, b := .pred u, c := .pred u }
  | .p2v _ u _ => { d := .r u 1 }
  | .v2p _ u .. => { a := .r u 1 }
  | .shfl _ _ _ _ b => { d := .v 1, a := .v 1, b := slotB false b }
  | .vote .. => { d := .p, a := .p }
  | .ballot _ ud .. => { d := .r ud 1, a := .p }
  | .match_ _ ty .. => { d := .v (countOf ty.is64), a := .v (countOf ty.is64) }
  | .redux _ ud .. => { d := .r ud 1, a := .v 1 }
  | .v2s _ sel .. => { d := .s 1, a := .v 1, b := if sel == 0#2 then .num else if sel == 1#2 then .s 1 else .none }
  | .ld _ x => memWindow false true false (wdRegs x.wd) 0
  | .ldu _ x => memWindow true true false (wdRegs x.wd) 0
  | .ldw _ x | .ldcn _ x => memWindow false true false (wdRegs x.wd) 0
  | .feget _ _ => { memWindow false true false 1 0 with c := .none }
  | .st _ x | .mst _ x | .stf _ x | .ste _ x => memWindow false false true 0 (wdRegs x.wd)
  | .pft _ _ => { memWindow false false false 0 0 with c := .none }
  | .feset _ _ => memWindow false false false 0 0
  | .atom _ x => memWindow false true true (wdRegs x.wd) (wdRegs x.wd)
  | .red _ x => memWindow false false true 0 (wdRegs x.wd)
  | .cas _ x => memWindow false true true (wdRegs x.wd) (2 * wdRegs x.wd)
  | .cadd _ x => memWindow false (!x.op.getLsbD 0) true 2 2
  | .cpy .. | .cpyr .. => copyWindow
  | .cpyg .. => { copyWindow with d := .none, b := .none }
  | .wcond _ x => match x.kind.toNat with
    | 1 => { d := .w, a := .s 2, b := .s 2 }
    | 2 => { d := .w, a := .nb, b := .s 1 }
    | 3 => { d := .w, b := .num }
    | 4 => { d := .w, a := .s 2 }
    | _ => { d := .w, a := .num, b := .s 1 }
  | .wait _ x => { d := .q, b := .s 1, c := if x.mw then .s 1 else .none }
  | .bar _ _ la .. => { d := .q, a := .num, c := if la then .q else .none }
  | .bara .. => { d := .s 1, a := .num }
  | .sig _ imm .. => { d := .nb, b := if imm then .num else .s 1 }
  | .fence .. | .fencex .. => { b := .num, c := .num }
  | .tfetch .. => { d := .s 4, c := .q }
  | .mstart .. => { a := .s 2 }
  | .mtile .. => { d := .t, a := .s 4 }
  | .mtileMemory .. => { d := .t }
  | .mma .. => { d := .a, a := .t, b := .t }
  | .mmas .. => { d := .a, a := .t, b := .t, c := .t }
  | .mzero .. => { d := .a, b := .num }
  | .mscale _ _ (.scalar _) => { d := .a, a := .a }
  | .mscale .. => { d := .a, a := .a, b := .t }
  | .mdrain _ mx .. => { d := .t, a := .a, b := if mx then .t else .none }
  | .mldacc .. => { d := .a, a := .t }
  | .cpyaccRd .. => { d := .v 1, a := .a, b := .s 1 }
  | .cpyaccWr .. => { d := .a, a := .v 1, b := .s 1 }
  | .cpyaccSt .. => { d := .s 2, a := .a, b := .s 1 }
  | .cpyaccLd .. => { d := .a, a := .s 2, b := .s 1 }
  | .msig .. => { d := .nb, b := .num }
  | .mwait .. => { a := .nb }
  | .mchk .. => { a := .t }
  | .qpk _ zf .. => { d := .v (zbRegs (zbM zf.toNat) + 1), a := .v 16, c := .v 1 }
  | .qpkTile .. => { d := .s 2, a := .s 2, c := .s 1 }
  | .qunpk _ zf .. => { d := .v 16, a := .v (zbRegs (zbM zf.toNat)) }
  | .qunpkTile .. => { d := .s 2, a := .s 2 }
  | .flrd _ src .. => { d := .s (if src == 2#2 then 5 else 1) }
  | .flclr .. => { b := .num }
  | .moncfg .. => { d := .num, a := .s 8 }
  | .monref .. => { d := .num, a := .s 4, b := .s 2 }
  | .monrdC .. | .monrdP .. => { d := .s 8, a := .num }
  | .monrdSt .. => { d := .s 1, a := .num }
  | .monclr .. | .monstp .. => { d := .num }
  | .trap .. | .trapKill .. | .bkpt .. | .trig .. => { b := .num }
  | .ewrd .. => { d := .v 1, a := .num }
  | .ewwr .. => { a := .num, b := .v 1 }
  | .rdsr _ ud num _ => { d := .r ud (countOf (sr64 num)) }
  | .wrsr _ num _ => { a := .s (countOf (sr64 num)) }
  | .grow _ imm .. | .shrink _ imm .. => { d := .s 1, b := if imm then .num else .s 1 }
  | _ => {}

/-- The default reading (R296), for causes 0x80, 0x82 and 0x84. -/
def defaultWindow (r : Raw) (uniform : Bool) : Window :=
  let k : Slot := .r uniform 1
  { d := k, a := k, c := k, b := match (r.md.extractLsb' 11 2).toNat with
      | 0 => k
      | 1 => .s 1
      | 2 => .num
      | _ => .ext }

/-- The slots of an encoding that does not execute. A disabled encoding that is not one of its opcode's forms takes the
default reading (log 27). -/
def windowFor (cause : BitVec 8) (raw ext : W64) (uniform : Bool) : Window :=
  let dflt := defaultWindow (rawOf raw ext) uniform
  if cause != 0x81#8 then dflt
  else match parseCode (rawOf raw ext) with
    | some i => windowOf i
    | none => match decodeStream raw ext with
      | some i => windowOf i
      | none => dflt

/-- ew0 to ew3. -/
def windowWords (cause : BitVec 8) (raw ext : W64) (uniform : Bool) : Vector W32 4 :=
  let w := windowFor cause raw ext uniform
  let r := rawOf raw ext
  #v[descriptor w.d r.d, descriptor w.a r.a, descriptor w.b r.b, descriptor w.c r.c]

end Sys2Proof.Machine
end

