-- ==== Sys2Proof/Machine/Turn.lean ====
section
/-! DEFINITION. What each agent does on its turn: which instruction or event comes next, found from the state (R6, R70,
R235, R244, R320 to R322), and the placement of one instruction for the host's question (log 5). -/
namespace Sys2Proof.Machine

/-- A turn either leads to an instruction or event, or only moves the agent itself. -/
inductive Next where
  | run (i : Instr) (s : State)
  | moved (s : State)
  deriving Repr

/-- Which encodings a group's context refuses or emulates (R53). -/
def decodeEnv (s : State) (w : Who) : DecodeEnv :=
  { disable := BitVec.ofNat 256 (cxd s w.c 0x40 32), emuClass := BitVec.ofNat 256 (cxd s w.c 0x60 32),
    handler := w.g.depth > 0 }

/-- The instruction word at an address, with its extension word; `error` names a missing line (R16). -/
def wordsFrom (s : State) (w : Who) (va : W64) : Except W64 (W64 × W64) :=
  match codeWord s (.group w.r) va with
  | .error l => .error l
  | .ok x =>
    if x.getLsbD 63 then
      match codeWord s (.group w.r) (va + 8#64) with
      | .error l => .error l
      | .ok e => .ok (x, e)
    else .ok (x, 0)

/-- The instruction at the level's place. -/
def nextWords (s : State) (w : Who) : Except W64 (W64 × W64) := wordsFrom s w (w.g.cl.base + u64 w.g.cl.off)

/-- The ordinal of a safe point in its region's section (R63); 0 where the section has no entry for it or is not mapped
(DESIGN CHOICE, log 36). -/
def safeOrdinal (s : State) (w : Who) : Nat :=
  let v := w.g.cl
  let sec := u64 (ofBytes (readVirtual s w.c (v.base - 48#64) 8))
  let n := ofBytes (readVirtual s w.c (v.base - 40#64) 4)
  ((List.range n).find? fun i => ofBytes (readVirtual s w.c (sec + u64 (64 * i)) 4) == v.off).getD 0

/-- A sample or trace record of a safe point (R353). -/
def sampleRecord (s : State) (w : Who) : List Byte :=
  layout [(w.g.cl.base.toNat, 8), (safeOrdinal s w, 4), (w.res, 2), (0, 2), (w.g.cl.swc.toNat, 4), (0, 4), (s.tick, 8)]

/-- While the sample window is open, an instruction at a safe point may leave a record as it issues; one that finds the ring
full is dropped and counted (R18, R348, R353, R355). Which ones do is free (log 37). -/
def sampled (s : State) (w : Who) (x : W64) : State :=
  if s.window && x.getLsbD 62 then
    let t := { s with fresh := s.fresh + 1 }
    if !Config.sampleTaken s.fresh then t
    else if s.samples.length ≥ Config.sampleRing then { t with dropped := s.dropped + 1 }
    else { t with samples := s.samples ++ [sampleRecord s w] }
  else s

/-- The lanes that the instruction of these words acts on (R25, R55): the guard of a NOP or BLK word has no effect. -/
def actsOn (s : State) (w : Who) (x e : W64) : Mask :=
  let r := rawOf x e
  actingSet w.g (if r.opc.toNat ≤ 1 then { r.hdr with gn := false, gp := 7 } else r.hdr) (guardUniform (decodeEnv s w) r)

/-- A stop or step that lands before a safe point issues (R138, R230, R353); `none` where the instruction issues. A step
request for a group that takes cause 0xD1 stays until an instruction at a safe point acts on a lane (R289; log 37). An
instruction whose requests are out at other devices has issued. -/
def debugHold (s : State) (w : Who) (x e : W64) : Option State :=
  let v := w.g.cl
  if !x.getLsbD 62 || w.g.status = .resumed || v.callv.isSome || !w.g.sent.isEmpty then none
  else
    let hold (s : State) : State := s.modGrp w.r fun g => stopHere (diagMode s w.c) g
    let step := s.steps1.contains w.r
    let t := { s with steps1 := s.steps1.filter (· ≠ w.r) }
    let emask := actsOn s w x e
    if step && debugStops s w.c then some (hold t)
    else if step && emask != 0#32 then
      some (enterHandler t w.r (preciseEntry w 0xD1#8 emask [u64 (safeOrdinal s w)] (x.getLsbD 63)))
    else if activeMask v != 0#32 && s.breaks.any fun b => b.ctx == w.c && b.base == v.base && b.label == v.label && b.ord == v.ord then
      some (hold s)
    else none

/-- One turn of a group inside its level (R70). -/
def levelTurn (s : State) (w : Who) : Next :=
  let v := w.g.cl
  let put (k : Level → Level) : Next := .moved (s.modGrp w.r fun g => g.modCl k)
  let header (m : W16) (off : Nat) (k : Instr → State → Next) : Next :=
    if off ≥ v.codeLen then .moved (terminateWith s w.r.blk 0x03#8 [m.setWidth 64, u64 off])
    else match codeWord s (.group w.r) (v.base + u64 off) with
      | .error l => .run (.codeLineFill (.group w.r) l) s
      | .ok x => match decodeHeader x with
        | some (.blk stall label ft len) =>
          if label == m then k (.blk stall label ft len) (s.modGrp w.r fun g => g.modCl fun v => { v with off := off + 8 })
          else .moved (terminateWith s w.r.blk 0x03#8 [m.setWidth 64, u64 off])
        | _ => .moved (terminateWith s w.r.blk 0x03#8 [m.setWidth 64, u64 off])
  let byTable (m : W16) (k : Nat → Next) : Next :=
    match labelEntry s w v m with
    | (s, .error e) => .moved (fetchFail s w e)
    | (_, .ok off) => k off
  match v.phase with
  | .enter m straight => if straight then header m v.off .run else byTable m fun off => header m off .run
  | .find => byTable v.label fun off => header v.label off fun i s => match i with
      | .blk _ _ _ len => .moved (s.modGrp w.r fun g => g.modCl fun v =>
          { v with len := len.toNat, ord := min v.ord (len.toNat + 1), phase := .seek 1 })
      | _ => .moved s
  | .seek k =>
    if k ≥ v.ord then put fun v => { v with phase := .body, unread := false }
    else match codeWord s (.group w.r) (v.base + u64 v.off) with
      | .error l => .run (.codeLineFill (.group w.r) l) s
      | .ok x => put fun v => { v with off := v.off + (if x.getLsbD 63 then 16 else 8), phase := .seek (k + 1) }
  | .sweepEnd => .run .sweepEnd s
  | .body =>
    let v := resumeLanes v
    let s := s.modGrp w.r fun g => g.modCl fun _ => v
    let w := { w with g := w.g.modCl fun _ => v }
    if v.ord > v.len then .run .census s
    else match nextWords s w with
      | .error l => .run (.codeLineFill (.group w.r) l) s
      | .ok (x, e) =>
        let opc := (rawOf x e).opc.toNat
        -- back from a callee: a CALL is behind the group, a CALLV evaluates its targets again (R82, R83)
        if v.callv.isSome && opc != 0x05 then .moved (s.modGrp w.r fun g => g.modCl fun v => v.advance (x.getLsbD 63))
        else match debugHold s w x e with
          | some s => .moved s
          | none => .run (settle (decodeEnv s w) x e) (sampled s w x)

/-- Read the region descriptor of a level that has just started or been restored (R67, R91). -/
def readStart (s : State) (w : Who) : State :=
  match readRegion s w.tlbs w.c w.g.cl.base with
  | (s, .error e) => fetchFail s w e
  | (s, .ok none) => terminateWith s w.r.blk 0x04#8 [w.g.cl.base]
  | (s, .ok (some rg)) => s.modGrp w.r fun g => g.modCl fun v => { v.inRegion rg with unread := false }

/-- A group restored inside a handler takes a bank of the next depth that it lacks, where one is free (R35). -/
def takeBank (s : State) (w : Who) : State :=
  if bankFree s w (w.g.depth - w.g.lacks + 1) then s.modGrp w.r fun g => { g with lacks := g.lacks - 1 } else s

/-- The place that is some ordinals on from an offset; the other side is the state once a line has been asked for. -/
def ordinalPlace (s : State) (w : Who) (v : Level) : Nat → Nat → Except State Nat
  | 0, off => .ok off
  | k + 1, off => match codeWord s (.group w.r) (v.base + u64 off) with
    | .error line => .error (fillAt s w v line)
    | .ok x => ordinalPlace s w v k (off + (if x.getLsbD 63 then 16 else 8))

/-- Fetch the instruction at a restored frame's EPOS again, for its raw word and its operand window (R67, R294). -/
def refetchFrame (s : State) (w : Who) (d : Nat) (f : HandlerFrame) : State :=
  let below := w.g.levelAt (d - 1)
  match readRegion s w.tlbs w.c below.base with
  | (s, .error e) => fetchFail s w e
  | (s, .ok none) => terminateWith s w.r.blk 0x04#8 [below.base]
  | (s, .ok (some rg)) =>
    let v := below.inRegion rg
    match labelEntry s w v (f.epos.extractLsb' 0 16) with
    | (s, .error e) => fetchFail s w e
    | (s, .ok off) => match ordinalPlace s w v (f.epos.extractLsb' 16 12).toNat off with
      | .error s => s
      | .ok off => match wordsFrom s w (v.base + u64 off) with
        | .error line => fillAt s w v line
        | .ok (x, e) =>
          let uniform := guardUniform { decodeEnv s w with handler := d > 1 } (rawOf x e)
          s.modGrp w.r fun g => g.modFrame d fun f =>
            { f with raw := x, ext := e, ew := windowWords f.cause x e uniform, refetch := false }

/-- The innermost-last frame of a restored group whose instruction is still to be fetched again. -/
def toRefetch (g : Group) : Option (Nat × HandlerFrame) :=
  (List.range g.depth).findSome? fun d => match g.frameAt (d + 1) with
    | some f => if f.refetch then some (d + 1, f) else none
    | none => none

/-- Whether a group keeps still at its instruction boundary: its block leaves, a Harvest goes on (R356), or focus is on another
group of its block (R185). In a block that leaves, a group that waits for a bank enters its handler first, and meanwhile those
in handlers go on, which hold the banks (R35). -/
def heldBack (s : State) (w : Who) : Bool :=
  let forBanks := w.b.groups.any Group.isEntering && (w.g.isEntering || w.g.depth > 0)
  harvestHolds s w.g || w.g.atBoundary && (w.b.leaving && !forBanks || match s.focus with
    | some f => f.blk == w.r.blk && f.grp != w.r.grp && (w.g.status = .ready || w.g.status = .resumed)
    | none => false)

/-- One turn of a group: due writes commit, then what its status and level ask for. A delivered cause that enters between a
resumption and the issue ends the resumption: back from its handler the group meets its breakpoint again (DESIGN CHOICE,
log 41). -/
def groupTurn (s : State) (r : GRef) : Next :=
  match who? s r with
  | none => .moved s
  | some w =>
    let diag := diagMode s w.c
    let due := w.g.delivered ≠ [] && w.g.depth = 0 && w.g.atBoundary
      && (liveMask w.g.lvl ≠ 0#32 || (nextTaker w.b r.grp).isSome)
    let s := { s with cur := some r }
    if w.b.st ≠ .resident || heldBack s w then .moved s
    else if w.g.lacks > 0 then .moved (takeBank s w)
    else if w.g.cl.unread && (w.g.status = .ready || w.g.status = .resumed) then .moved (readStart s w)
    else match (if w.g.status = .ready then toRefetch w.g else none) with
    | some (d, f) => .moved (refetchFrame s w d f)
    | none => match w.g.status with
      | .ready | .resumed =>
        if due then .run (.deliveredCauseEntry r) s
        else
          let s := s.modGrp r fun g => commitDue diag g
          levelTurn s { w with g := commitDue diag w.g }
      | .woken => .moved (countWake s w (lget 0 w.g.lvl.dva (lowDefm w.g.lvl)))
      | .remotePark since => if s.tick ≥ since + 1000 then .run (.remoteParkDelay r) s else .moved s
      | .waiting .. => if due then .run (.deliveredCauseEntry r) s else .run (.waitRetest r) s
      | .parked _ => if due then .run (.deliveredCauseEntry r) s else .moved s
      -- a BAR that its phase has released writes its result (R175)
      | .barrier n _ h sc la d c => .run (.bar h sc la d (BitVec.ofNat 8 n) c) s
      -- a cause that waits for a bank (R35), or for the page of the handler's descriptor (R67)
      | .entering e => .moved (if e.svc then s else enterHandler s r e)
      | _ => .moved s

/-! ### The matrix sequencer (R234, R235, R237) -/

/-- The descriptor of a stream: its tag table and length. -/
def streamDesc (s : State) (core c : Nat) (base : W64) : State × Except ReadFail (W64 × Nat) :=
  match readCode s (engineTlbs core) c (base - 64#64) 64 with
  | (s, .ok x) => (s, .ok (u64 (field x 0 64), field x 64 32))
  | (s, .error e) => (s, .error e)

/-- The stream word at an address with its extension word. -/
def streamWords (s : State) (blk : Nat) (va : W64) (room : Nat) : Except W64 (W64 × W64 × Bool) :=
  match codeWord s (.stream blk) va with
  | .error l => .error l
  | .ok x =>
    if x.getLsbD 63 then
      if room < 16 then .ok (x, 0, false)
      else match codeWord s (.stream blk) (va + 8#64) with
        | .error l => .error l
        | .ok e => .ok (x, e, true)
    else .ok (x, 0, true)

/-- The passes that a busy sequencer's instruction has still to run (R244, R261). -/
def passesLeft (b : Block) : Nat :=
  (b.seq.ext.extractLsb' 20 8).toNat + 1 - (if b.rpr.getLsbD 15 then (b.rpr.extractLsb' 24 8).toNat else 0)

/-- A core's quad. -/
def quadOf (core : Nat) : Nat := unitOf 2 0 core

/-- Expand passes into the quad's reservation table: 32 entries, at most 8 of one block (R232). -/
def reserveEntries (s : State) (blk : Nat) : State :=
  match s.blocks[blk]? with
  | none => s
  | some b =>
    let used := ((s.blocks.filter fun x => quadOf x.core == quadOf b.core).map (·.seq.entries)).sum
    s.modBlk blk fun b => { b with seq := { b.seq with entries := min (min 8 (passesLeft b)) (32 - used) } }

/-- One turn of a block's matrix sequencer (R234, R235, R244). A fetch at or beyond the stream length has no word for TVAL1 and
TVAL2 of cause 0x41: they are 0 (DESIGN CHOICE, log 41). -/
def sequencerTurn (s : State) (blk : Nat) : Next :=
  match s.blocks[blk]? with
  | none => .moved s
  | some b => match s.launches[b.launch]? with
    | none => .moved s
    | some l =>
      let q := b.seq
      if b.st ≠ .resident || ((b.leaving || s.harvest) && q.sent.isEmpty) || q.svc then .moved s
      else if q.st == .waiting then .run (.sequencerResume blk) s
      else if q.st ≠ .running then .moved s
      else if q.busy && q.entries == 0 then .moved (reserveEntries s blk)
      else if q.busy then .run (.matrixPass (quadOf b.core)) { s with cur := some { blk := blk, grp := q.owner } }
      else
        let s := { s with cur := some { blk := blk, grp := q.owner } }
        let put (k : Seq → Seq) (s : State) : State := s.modBlk blk fun b => { b with seq := k b.seq }
        match q.desc with
        | none => match streamDesc s b.core l.ctx q.base with
          | (s, .ok d) => .moved (put (fun q => { q with desc := some d }) s)
          | (s, .error e) => .moved (streamFail s l.ctx blk b e)
        | some (_, len) =>
          let at_ := (q.next - q.base).toNat
          -- the first decode of an instruction takes SEED, the descriptors and the tile it belongs to (R253, R266, R335)
          let tile := match who? s { blk := blk, grp := q.owner } with
            | some w => ((tilePos w).map (· + 1)).getD 0
            | none => 0
          let hold (w e : W64) (s : State) : State := put (fun q =>
            if q.word == 0#64 then { q with word := w, ext := e, seed := if w.extractLsb' 45 8 == 0xB7#8 then b.seed else 0, tile := tile, td := b.tiles }
            else { q with word := w, ext := e }) s
          if at_ ≥ len then .run (.badStreamWord blk 0 0) (hold 0 0 s)
          else match streamWords s blk q.next (len - at_) with
            | .error line => .run (.codeLineFill (.stream blk) line) s
            | .ok (x, e, whole) =>
              match (if whole then decodeStream x e else none) with
              | some i => .run i (hold x e s)
              | none => .run (.badStreamWord blk x e) (hold x e s)

/-! ### The March core (R320 to R322) -/

/-- A ring lies in host memory, at its physical address, or in device memory of the context (R320, log 6). Until full service
the port reaches no host memory (R351), and neither is there any at an invalid address. -/
def packetBytes (s : State) (q : Queue) : Option (List Byte) :=
  let a := q.base.toNat + 64 * (q.rd.toNat % max q.count 1)
  if a.testBit 51 then (if paValid s a then some (rdBytes s a 64) else none)
  else match xlat s [] q.ctx false (field a 0 60) with
    | (s, .hit h) => some (rdBytes s h.pa 64)
    | _ => none

/-- Decode a packet (R321); `none` for a type above 8 or a non-zero reserved field. -/
def parsePacket (q : Nat) (bs : List Byte) : Option Instr :=
  let f (off n : Nat) : Nat := ofBytes ((bs.drop off).take n)
  let d (off : Nat) : W64 := u64 (f off 8)
  let order := (f 1 1).testBit 0
  let head := f 1 1 < 2 && f 2 6 == 0
  let zeroFrom (k : Nat) : Bool := f k (64 - k) == 0
  let ok (c : Bool) (i : Instr) : Option Instr := if head && c then some i else none
  let lenOk (n : Nat) : Bool := 1 ≤ f 16 8 && f 16 8 ≤ n
  match f 0 1 with
  | 0 => ok (zeroFrom 8) (.nopPacket q order)
  | 1 => ok (zeroFrom 32) (.launch q order (d 8) (d 16) (d 24))
  | 2 => ok (zeroFrom 48) (.copy q order (d 8) (d 16) (d 24) (d 32) (d 40))
  | 3 => ok (lenOk 32 && zeroFrom 56) (.write q order (d 8) ((bs.drop 24).take (f 16 8)))
  | 4 => ok (zeroFrom 25 && 1 ≤ f 24 1 && f 24 1 ≤ 6) (.signal q order (d 8) (d 16) (BitVec.ofNat 8 (f 24 1)))
  | 5 => ok (zeroFrom 32) (.waitc q order (d 8) (d 16) (d 24))
  | 6 => ok (lenOk 16 && zeroFrom 56) (.wsig q order (d 8) ((bs.drop 24).take (f 16 8)) (d 40) (d 48))
  | 7 => ok (zeroFrom 9 && 1 ≤ f 8 1 && f 8 1 ≤ 6) (.fencePacket q order (BitVec.ofNat 8 (f 8 1)))
  | 8 => ok (zeroFrom 16) (.tstamp q order (d 8))
  | _ => none

/-- What is left of a started packet, if it can go on: its answers are there, and a FENCE is the oldest (R321). -/
def goesOn (s : State) (e : Started × Nat) : Option Instr :=
  match e.1 with
  | .held (.fencePacket q o sc) false _ => if e.2 == 0 then some (.fencePacket q o sc) else none
  | .held i false sent => if sent.all fun x => !(sget [] s.answers x.2).isEmpty then some i else none
  | _ => none

/-- One turn of a queue: a started packet that can go on, else its pending head packet, if the queue may start it. -/
def marchTurn (s : State) (q : Nat) : Next :=
  let x := s.queue q
  -- the March core's firmware runs once it has booted (R349)
  if s.boot == 0#2 || s.boot == 3#2 then .moved s
  else match x.started.zipIdx.findSome? (goesOn s) with
  | some i => .run i s
  | none =>
  if !x.enable || x.stopped || x.rd == x.wr then .moved s
  else if (s.ctx x.ctx).st != 1#2 then .moved (stopQueue s q 0x81#8)
  else match packetBytes s x with
    | none => .moved (stopQueue s q 0x82#8)
    | some bs => match parsePacket q bs with
      | some i => .run i s
      | none => .moved (stopQueue s q 0x80#8)

/-- Every group of the machine. -/
def groupRefs (s : State) : List GRef :=
  (List.range s.blocks.length).flatMap fun i => match s.blocks[i]? with
    | some b => (List.range b.groups.length).map fun j => { blk := i, grp := j }
    | none => []

/-! ### Starting groups, blocks and launches (R69, R324) -/

/-- A launch record with every field at its reset value (R324). -/
def LaunchRec.blank : LaunchRec :=
  { region := 0, emuv := 0, trapv := 0, mstream := 0, params := 0, cstack := 0, cssize := 0, mincores := 1, maxcores := 576,
    align := 0, gang := false, equinox := false, priority := 0, groups := 1, accregs := 0, lanes := 32, vregs := 8,
    barriers := 0, nbctrs := 0, scratch := 0, monitors := 0, parkq := 0, bars := Vector.replicate 16 0#4, index := (1, 1, 1),
    tile := (1, 1, 1), next := 0, save := 0, done := 0, owna := 0, ownl := 0, own := Vector.replicate 6 (0#64, 0#64) }

/-- A group as R69 starts it: `first` launched lanes, its index, the parameter block, block ordinal and block count. -/
def Group.start (slot idx launched : Nat) (nv : Nat) (params : W64) (ordinal nblocks : Nat) (rg : Region) : Group :=
  let on (l : Nat) : Bool := l < launched
  { slot := slot,
    lvl := { base := rg.base, n := rg.n, codeLen := rg.codeLen, tab := rg.tab, tagTab := rg.tagTab,
             wl := lanes fun l => if on l then 0#16 else 0xFFFF#16, ri := Vector.replicate 32 0#12, defm := 0,
             dva := Vector.replicate 32 0#64, dneed := 0, dwr := 0, swc := 0, label := 0, ord := 0, off := 0, len := 0,
             phase := if launched = 0 then .sweepEnd else .enter 0 false, callv := none, unread := launched != 0,
             p := Vector.replicate 7 0#32, q := 0 },
    calls := [], frames := [], nv := nv,
    v := ssetAll 0#32 [] ((List.range 32).flatMap fun l => if on l then [(l, u32 l), (32 + l, u32 idx)] else []),
    s := ssetAll 0#32 [] [(0, lo32 params), (1, hi32 params), (2, u32 ordinal), (3, u32 nblocks)],
    w := Vector.replicate 4 0#128, flags := 0, laneFlags := Vector.replicate 32 0#5, sfm := 0, dropcnt := 0, chkmode := 0,
    clock := 0, pend := [], inflight := [], grans := [], copies := [], sideLog := [], sideSvc := false, delivered := [],
    status := .ready, wakes := 0, tile := .prologue, lacks := 0, sent := [], seed := 0, reached := Checked.none, told := [], notes := [],
    own := [] }

def Seq.idle : Seq :=
  { st := .idle, cause := 0, owner := 0, base := 0, desc := none, next := 0, word := 0, ext := 0, busy := false, seed := 0, drain := 0,
    entries := 0, tv := Vector.replicate 4 0#64, svc := false, tile := 0, td := Vector.replicate 16 0#128, again := false, sent := [], looked := [],
    held := [] }

def Monitor.fresh : Monitor :=
  { cfg := Vector.replicate 8 0#32, ref := 0, bound := 0, st := .off, nf := false, ov := false, ls := false, dr := false,
    mg := 0, c := 0, cur := 0, nxt := 0, phase := 0, epoch := 0, past := [] }

/-- A block as R69 starts it, with its groups given. -/
def Block.start (launch ordinal core : Nat) (l : LaunchRec) (febudget : W32) (groups : List Group) : Block :=
  { launch := launch, ordinal := ordinal, st := .resident, core := core, groups := groups, bflags := 0, nantrap := 0, seed := 0,
    rpr := 0, febudget := febudget, nb := Vector.replicate 16 0#32, tiles := Vector.replicate 16 0#128, acc := [], scratch := [],
    sinit := [], mons := List.replicate l.monitors Monitor.fresh,
    seq := if l.mstream == 0#64 then Seq.idle else { Seq.idle with st := .running, base := l.mstream, next := l.mstream },
    cause := 0, tval := Vector.replicate 4 0#64, status := 0, doneAt := 0,
    savedMons := [], leaving := false }

def Launch.start (q ctx : Nat) (recAddr : W64) (l : LaunchRec) (ctr add : W64) : Launch :=
  { queue := q, ctx := ctx, recAddr := recAddr, lrec := l, ctr := ctr, add := add, st := .pending, next := l.next,
    draining := false, age := 0, bypass := [], nblocks := 0, placedAt := 0, bars := [], frontier := l.next, direct := false, owners := [], inArea := 0,
    bufs := [] }

end Sys2Proof.Machine
end

