-- ==== Sys2Proof/Machine/Engine.lean ====
section
/-! DEFINITION. The matrix engine: tile descriptors, their checks, reading operands, exact chunk sums, sparse selection and
the conversions of a drain (R239 to R254). -/
namespace Sys2Proof.Machine

/-! ### Tile descriptors (R36, R239 to R241) -/

structure Tile where
  fmt    : Nat
  base   : W64
  stride : Nat
  rows   : Nat
  cols   : Nat
  q      : Bool
  tr     : Bool
  deriving DecidableEq, Repr

def tileOf (x : W128) : Tile :=
  { fmt := (x.extractLsb' 120 6).toNat, base := x.extractLsb' 0 64, stride := (x.extractLsb' 64 32).toNat,
    rows := (x.extractLsb' 96 12).toNat, cols := (x.extractLsb' 108 12).toNat, q := x.getLsbD 127, tr := x.getLsbD 126 }

def fmtZb (f : Nat) : Bool := f == 7 || f == 8 || f == 9
/-- The ZF code of a ZB format (R215). -/
def fmtZf (f : Nat) : Nat := if f == 7 then 3 else if f == 8 then 2 else 1
def fmtM (f : Nat) : Nat := zbM (fmtZf f)
/-- Bytes of an element of a format that is not ZB. -/
def fmtSize (f : Nat) : Nat := if f == 1 || f == 10 then 4 else if f == 2 || f == 3 then 2 else 1
/-- The float type of a format's elements; ZB elements are held as f32. -/
def fmtTy (f : Nat) : Ty := if f == 2 then .bf16 else if f == 3 then .f16 else if f == 4 then .e4m3 else if f == 5 then .e5m2 else .f32
/-- K positions in a pass (R239). -/
def fmtKc (f : Nat) : Nat := if f == 8 || f == 9 then 128 else if f ≤ 3 then 32 else 64

/-- The bytes that hold elements (r0 + i, k0 + j), in pieces with a key: the row, the K position in a transposed layout, or
the row and the tile in quantised tiles (R241). Elements out of range are not loaded. -/
def opSpans (t : Tile) (r0 nr k0 nk : Nat) : List (Nat × W64 × Nat) :=
  let at_ (n : Nat) : W64 := t.base + u64 n
  if fmtZb t.fmt then
    let bb := zbBytes (fmtM t.fmt)
    (List.range nr).flatMap fun i =>
      let r := r0 + i
      if t.q then
        (List.range ((nk + 31) / 32)).filterMap fun kt =>
          let k := k0 + 32 * kt
          if r < t.rows && k < t.cols then
            some (8 * i + kt, at_ (r / 128 * t.stride + k / 32 * (tilePayload (fmtM t.fmt) + 16) + 2 * (r % 128) * bb),
              (min 32 (t.cols - k) + 15) / 16 * bb)
          else none
      else if r < t.rows && k0 < t.cols then [(i, at_ (r * t.stride + k0 / 16 * bb), (min nk (t.cols - k0) + 15) / 16 * bb)]
      else []
  else
    let es := fmtSize t.fmt
    if t.tr then (List.range nk).filterMap fun j =>
      if k0 + j < t.rows && r0 < t.cols then some (j, at_ ((k0 + j) * t.stride + r0 * es), min nr (t.cols - r0) * es) else none
    else (List.range nr).filterMap fun i =>
      if r0 + i < t.rows && k0 < t.cols then some (i, at_ ((r0 + i) * t.stride + k0 * es), min nk (t.cols - k0) * es) else none

def slice (bs : List Byte) (off n : Nat) : Nat := ofBytes ((bs.drop off).take n)

/-- The first `n` of a list, with zeros after its end. -/
def padTo (n : Nat) (l : List Nat) : List Nat := (l ++ List.replicate (n - l.length) 0).take n

/-- The elements of a row of blocks as f32 patterns, those out of range +0. -/
def blockRow (m : Nat) (bs : List Byte) (inRange n : Nat) : List Nat :=
  padTo n (((blocksOf m bs).flatMap fun b => (unpackBlock m b).map elemF32).take inRange)

/-- The element patterns by row, from the bytes of the pieces. -/
def opValues (t : Tile) (nr k0 nk : Nat) (get : Nat → List Byte) : List (List Nat) :=
  if fmtZb t.fmt then
    let m := fmtM t.fmt
    (List.range nr).map fun i =>
      if t.q then (List.range ((nk + 31) / 32)).flatMap fun kt => blockRow m (get (8 * i + kt)) (min 32 (t.cols - (k0 + 32 * kt))) 32
      else blockRow m (get i) (t.cols - k0) nk
  else
    let es := fmtSize t.fmt
    (List.range nr).map fun i => (List.range nk).map fun j => if t.tr then slice (get j) (i * es) es else slice (get i) (j * es) es

/-! ### Checks of descriptors (R243) -/

/-- The first failing check and its tile, from those that fail in the order of the check numbers. -/
def failedCheck (l : List (List (Bool × Nat))) : Option (Nat × Nat) :=
  (l.zipIdx 1).findSome? fun e => (e.1.find? (·.1)).map fun x => (e.2, x.2)

def strideBad (t : Tile) : Bool := t.base.toNat % 16 != 0 || t.stride % 16 != 0
/-- Q or TR in conflict with the format. -/
def layoutBad (t : Tile) : Bool := (t.q && !fmtZb t.fmt) || (t.tr && (fmtZb t.fmt || t.fmt == 11))
/-- A ZB offset in conflict with blocks and tiles. -/
def offsetBad (t : Tile) (r k : Nat) : Bool :=
  fmtZb t.fmt && (k % (if t.q then 32 else 16) != 0 || (t.q && r % 128 != 0))

def operandFmt (f : Nat) : Bool := 1 ≤ f && f ≤ 9
def pairOk (a b : Nat) : Bool := (a == b && a != 4 && a != 5) || ((a == 4 || a == 5) && (b == 4 || b == 5))
def drainFmt (f : Nat) : Bool := (1 ≤ f && f ≤ 5) || fmtZb f || f == 10

/-- MMA (R242, R243). -/
def checkMma (a b : Nat) (ta tb : Tile) (ck isat : Bool) (x : MatExt) : Option (Nat × Nat) :=
  let ar := x.xr.toNat
  let k := x.xk.toNat
  failedCheck [[(!operandFmt ta.fmt, a), (!operandFmt tb.fmt, b)], [(!pairOk ta.fmt tb.fmt, a)],
    [(layoutBad ta, a), (layoutBad tb, b), (ck && !ta.q && !tb.q, a), (isat && ta.fmt != 6, a)],
    [(offsetBad ta ar k, a), (offsetBad tb x.xb.toNat k, b)], [(strideBad ta, a), (strideBad tb, b)]]

/-- MMAS (R249). -/
def checkMmas (a b c : Nat) (ta tb tc : Tile) (x : MatExt) : Option (Nat × Nat) :=
  failedCheck [[(ta.fmt != 4, a), (!operandFmt tb.fmt, b), (tc.fmt != 11, c)], [(!pairOk ta.fmt tb.fmt, a)],
    [(layoutBad ta, a), (layoutBad tb, b), (layoutBad tc, c)], [(x.xk.toNat % 4 != 0, a)],
    [(strideBad ta, a), (strideBad tb, b), (strideBad tc, c)]]

def checkScale (b : Nat) (tb : Tile) : Option (Nat × Nat) :=
  failedCheck [[(tb.fmt != 1, b)], [], [(layoutBad tb, b)], [], [(strideBad tb, b)]]

def checkLdacc (a : Nat) (ta : Tile) : Option (Nat × Nat) :=
  failedCheck [[(!(ta.fmt == 1 || ta.fmt == 2 || ta.fmt == 3 || ta.fmt == 10), a)], [], [(layoutBad ta, a)], [], [(strideBad ta, a)]]

/-- MCHK: quantised tiles only (R269). -/
def checkMchk (a : Nat) (ta : Tile) (r k : Nat) : Option (Nat × Nat) :=
  failedCheck [[(!fmtZb ta.fmt, a)], [], [(layoutBad ta || !ta.q, a)], [(offsetBad ta r k, a)], [(strideBad ta, a)]]

/-- MDRAIN (R251, R252, R254, R269). -/
def checkDrain (d : Nat) (td : Tile) (sat : Bool) (mx : Option (Nat × Tile)) (r c : Nat) : Option (Nat × Nat) :=
  let zb := fmtZb td.fmt
  let m (f : Tile → Bool) : List (Bool × Nat) := match mx with
    | some (n, t) => [(f t, n)]
    | none => []
  failedCheck [(!drainFmt td.fmt || (mx.isSome && td.fmt == 10), d) :: m fun t => t.fmt != 1, [],
    (layoutBad td || (zb && !td.q) || (sat && (td.fmt == 1 || td.fmt == 10 || td.fmt == 4 || zb)), d) :: m fun t => t.q,
    [(offsetBad td r c, d)], (strideBad td, d) :: m fun t => t.base.toNat % 4 != 0,
    [(zb && (td.rows < r + 128 || td.cols < c + 128), d)]]

/-! ### The sequencer's own steps -/

/-- What the sequencer does of one instruction, for the block's owner; without a block on turn nothing issues it. -/
def streamOp (s : State) (k : Who → State) : Outcome :=
  match s.cur.bind (who? s) with
  | none => .fault .noGroupOnTurn
  | some w => .next (k w)

def modSeq (s : State) (blk : Nat) (f : Seq → Seq) : State := s.modBlk blk fun b => { b with seq := f b.seq }

/-- Forget the answers of the sequencer's requests. -/
def dropAnswers (s : State) (blk : Nat) : State :=
  match s.blocks[blk]? with
  | none => s
  | some b => modSeq (forget s (b.seq.sent.map (·.2))) blk fun q => { q with sent := [], looked := [] }

/-- The address after the instruction the sequencer stands at. -/
def afterWord (q : Seq) : W64 := q.next + (if q.word.getLsbD 63 then 16#64 else 8#64)

/-- The number of the drain after the instruction the sequencer stands at (R252, log 29). -/
def afterDrain (q : Seq) : Nat := match decodeStream q.word q.ext with
  | some (.mdrain ..) => q.drain + 1
  | _ => q.drain

/-- Move past the instruction: a drain takes its number, and what was kept for it is dropped. -/
def pastSeq (q : Seq) : Seq :=
  { q with next := afterWord q, word := 0, ext := 0, busy := false, entries := 0, seed := 0, again := false, drain := afterDrain q }

/-- The instruction is complete. `keep` says that held operands stay held (R242). -/
def engDone (s : State) (blk : Nat) (keep : Bool) : State :=
  (dropAnswers s blk).modBlk blk fun b =>
    { b with rpr := 0, seq := { pastSeq b.seq with held := if keep then b.seq.held else [] } }

/-- A stream cause stops the sequencer and goes to its owner (R256). -/
def engStop (s : State) (w : Who) (cause : BitVec 8) (tv : List W64) : State :=
  streamStop s w.r.blk cause tv

/-- An unmapped page: the engine waits for the fault service (agent 3, R248, R312). -/
def engService (s : State) (w : Who) (va : W64) (write : Bool) : State :=
  match faultRecord s w.c va 3 write 0xFFFF w.b.core with
  | .ok s => modSeq s w.r.blk fun q => { q with svc := true, again := true, looked := [] }
  | .full => s
  | .bad q n => terminateWith s w.r.blk 0xA2#8 [u64 q, u64 n]

/-- The commit position of the engine's accesses (R335). -/
def engPos (b : Block) : Option Nat := if b.seq.tile == 0 then none else some (b.seq.tile - 1)

/-! ### What the engine reaches (R248) -/

/-- The outcome of an engine's access: the value; a memory cause with its address, or an ownership violation with its owner
and its accessing tile; or nothing more now, with the state as it stands. -/
inductive Eng (α : Type) where
  | go (s : State) (x : α)
  | stop (s : State) (cause : BitVec 8) (addr : W64) (own : Option (W64 × W64))
  | rest (s : State)
  deriving Repr

/-- A piece of an engine's access: its key, its address, its length, and what it reaches. -/
abbrev EngPiece := Nat × W64 × Nat × Fate

def engFates (s : State) (w : Who) (cls : Cls) (spans : List (Nat × W64 × Nat)) : State × List EngPiece :=
  let write := cls == .dst || cls == .atomic
  (spans.flatMap fun x => (pageCut (x.2.2 / 4096 + 2) 0 x.2.1 x.2.2).map fun p => (x.1, p.1, p.2.2)).foldl (fun acc p =>
    let q : Req := { cls := cls, write := write, reads := false, size := p.2.2, align := 1, retry := w.b.seq.again, engine := true }
    let (s, f) := resolve acc.1 w q p.2.1
    (s, acc.2 ++ [(p.1, p.2.1, p.2.2, f)])) (s, [])

/-- The first piece that is not reached. -/
def engBad (fs : List EngPiece) : Option (W64 × Fate) :=
  fs.findSome? fun x => match x.2.2.2 with
    | .ok _ => none
    | f => some (x.2.1, f)

/-- One page lookup for each distinct page of a part of an instruction (R313): type 5 reads, 6 writes. A part that waited and is
taken up again has been counted. -/
def engLookups (s : State) (w : Who) (type part : Nat) (fs : List EngPiece) : State :=
  if ((s.blocks[w.r.blk]?).map (·.seq.looked)).any fun l => l.contains part then s
  else modSeq (countLookups s w type (fs.map fun x => x.2.1)) w.r.blk fun q => { q with looked := part :: q.looked }

/-- The checks of an access: every piece reached, then the Equinox gate (R335); `stop` says that it waits for the frontier. -/
def engGate (s : State) (w : Who) (type part : Nat) (reads stop : Bool) (fs : List EngPiece) : Eng Unit :=
  match engBad fs with
  | some (va, .unmapped) => .rest (engService s w va (!reads))
  | some (va, .fail _ c _) => .stop s c va none
  | some (va, _) => .stop s 0x18#8 va none
  | none =>
    match equinoxGate s w (engPos w.b) (fs.flatMap fun x => lineAddrs x.2.1 x.2.2.1) reads stop with
    | .wait => .rest s
    | .trap s a owner me => .stop s 0xB5#8 a (some (owner, me))
    | .full s => .rest (terminateWith s w.r.blk 0xB6#8 [])
    | .go s => .go (engLookups s w type part fs) ()

/-- Read pieces by key. `phase` tells the requests of one part of an instruction from those of another. -/
def engRead (s : State) (w : Who) (phase : Nat) (spans : List (Nat × W64 × Nat)) : Eng (Nat → List Byte) :=
  let (s, fs) := engFates s w .src spans
  match engGate s w 5 phase true true fs with
  | .rest s => .rest s
  | .stop s c a o => .stop s c a o
  | .go s _ =>
    let num (i : Nat) : Nat := 2 ^ 20 * phase + i
    let reqs : List (Nat × Nat × Nat × Nat) := (fs.zipIdx).filterMap fun x => match x.1.2.2.2 with
      | .ok (.dev d pa _) => some (num x.2, d, pa, x.1.2.2.1)
      | _ => none
    let sent := (((s.blocks[w.r.blk]?).map (·.seq.sent)).getD [])
    let answer (k : Nat) : List Byte := match sent.find? fun x => x.1 == k with
      | some x => sget [] s.answers x.2
      | none => []
    if reqs.any fun q => !(sent.any fun x => x.1 == q.1) then
      .rest (reqs.foldl (fun s q =>
        let (s, id) := sendTo s q.2.1 (.load q.2.2.1 q.2.2.2) true
        modSeq s w.r.blk fun y => { y with sent := y.sent ++ [(q.1, id)] }) s)
    else if reqs.any fun q => (answer q.1).isEmpty then .rest s
    else
      match fs.zipIdx.find? fun x => match x.1.2.2.2 with
          | .ok (.dev ..) => answerBad (answer (num x.2))
          | .ok loc => locPoisoned s x.1.2.2.1 loc
          | _ => false with
      | some x => .stop s 0xE0#8 x.1.2.1 none
      | none =>
        let parts := (fs.zipIdx).map fun x => (x.1.1, match x.1.2.2.2 with
          | .ok (.dev ..) => (answer (num x.2)).drop 1
          | .ok loc => locBytes s x.1.2.2.1 loc
          | _ => [])
        .go s fun k => parts.flatMap fun (p : Nat × List Byte) => if p.1 == k then p.2 else []

/-- Go on with a value, or stop the sequencer with the memory cause's TVALs, `rows` rows being complete (R257). -/
def Eng.run {α : Type} (w : Who) (rows : Nat) (r : Eng α) (k : State → α → State) : State :=
  match r with
  | .go s x => k s x
  | .rest s => s
  | .stop s c a none => engStop s w c [a, u64 rows, 0, w.b.seq.next]
  | .stop s c a (some (owner, me)) => engStop s w c [a, owner, me, w.b.seq.next]

/-! ### Exact chunk sums (R245, R246) -/

/-- What the products of a chunk have shown so far; the sum is in units of 2^-320. -/
structure Chunk where
  nan  : Bool := false
  iv   : Bool := false
  pinf : Bool := false
  ninf : Bool := false
  pos  : Bool := false
  sum  : Int := 0
  deriving DecidableEq, Repr

/-- One product. `pos` records a product that is not −0. -/
def Chunk.add (c : Chunk) (a b : FV) : Chunk :=
  match mulFV a b with
  | (.nan _, iv) => { c with nan := true, iv := c.iv || iv }
  | (.inf n, _) => if n then { c with ninf := true } else { c with pinf := true }
  | (.num n m e, _) => if m == 0 then { c with pos := c.pos || !n } else { c with pos := true, sum := c.sum + scaled n m e (-320) }

/-- The chunk's value, rounded once, with its flags. -/
def Chunk.value (c : Chunk) : FRes :=
  if c.nan then { bits := canonNaN .f32, flags := flagIf c.iv fIV }
  else if c.pinf && c.ninf then { bits := canonNaN .f32, flags := fIV }
  else if c.pinf || c.ninf then { bits := infBits .f32 c.ninf, flags := flagIf c.iv fIV }
  else if c.sum == 0 then { bits := signBit .f32 (!c.pos), flags := 0 }
  else roundTo .f32 .rn false (.num (c.sum < 0) c.sum.natAbs (-320))

/-- Accumulate a chunk of float products. -/
def accumF (acc : W32) (as bs : List FV) : FRes :=
  let c := ((as.zip bs).foldl (fun c x => c.add x.1 x.2) ({} : Chunk)).value
  let r := finishF .f32 .rn (addFV .rn (decodeF .f32 acc.toNat) (decodeF .f32 c.bits))
  { r with flags := r.flags ||| c.flags }

/-- Accumulate a chunk of i8 products. -/
def accumI (isat : Bool) (acc : W32) (as bs : List Int) : FRes :=
  let t := signedOf 32 acc.toNat + ((as.zip bs).map fun x => x.1 * x.2).foldl (· + ·) 0
  let y := max (-(2 ^ 31 : Int)) (min t (2 ^ 31 - 1))
  if isat then { bits := wrapTo 32 y, flags := flagIf (y != t) fSAT } else { bits := wrapTo 32 t, flags := 0 }

/-! ### The accumulator store (R233) -/

def regionCells : Nat := 16384

/-- Rows of a region, cell by cell. -/
def accRows (b : Block) (region row n : Nat) : List W32 := srun 0#32 b.acc (regionCells * region + 128 * row) (128 * n)

def setAccRows (s : State) (blk region row : Nat) (xs : List W32) : State :=
  s.modBlk blk fun b => { b with acc := sfill 0#32 b.acc (regionCells * region + 128 * row) xs }

def addBflags (s : State) (blk : Nat) (f : BitVec 7) : State := s.modBlk blk fun b => { b with bflags := b.bflags ||| f.setWidth 32 }

/-- Put rounded cells and their flags. -/
def putCells (s : State) (blk region row : Nat) (rs : List FRes) : State :=
  addBflags (setAccRows s blk region row (rs.map fun r => u32 r.bits)) blk ((rs.map (·.flags)).foldl (· ||| ·) 0)

/-- RPR with V set (R261). -/
def rprAt (pi row : Nat) : W32 := u32 (pi % 256 * 2 ^ 24 + row * 2 ^ 16 + 2 ^ 15)
def setRpr (s : State) (blk : Nat) (x : W32) : State := s.modBlk blk fun b => { b with rpr := x }
/-- Where an instruction goes on: PI and ROW when V is set, else the start (R244). -/
def rprStart (b : Block) : Nat × Nat := if b.rpr.getLsbD 15 then ((b.rpr.extractLsb' 24 8).toNat, (b.rpr.extractLsb' 16 8).toNat) else (0, 0)

/-! ### 2:4 metadata (R249, R250) -/

/-- The metadata bytes of a pass, by row: 32 groups from `g0`. -/
def metaSpans (t : Tile) (r0 g0 : Nat) : List (Nat × W64 × Nat) :=
  (List.range 128).filterMap fun i =>
    if r0 + i < t.rows && g0 < t.cols then
      some (i, t.base + u64 ((r0 + i) * t.stride + g0 / 2), (g0 + min 32 (t.cols - g0) - 1) / 2 - g0 / 2 + 1)
    else none

/-- The nibble of row `i`, group `g` of the pass; `none` out of range. -/
def nibble (t : Tile) (r0 g0 : Nat) (get : Nat → List Byte) (i g : Nat) : Option Nat :=
  if r0 + i < t.rows && g0 + g < t.cols then
    let x := ((get i).getD ((g0 + g) / 2 - g0 / 2) 0).toNat
    some (if (g0 + g) % 2 == 0 then x % 16 else x / 16)
  else none

/-- The first illegal nibble of a pass in row-major order: row, group, nibble. -/
def illegalNibble (ns : List (List (Option Nat))) : Option (Nat × Nat × Nat) :=
  (ns.zipIdx).findSome? fun r => (r.1.zipIdx).findSome? fun g => match g.1 with
    | some x => if x % 4 ≥ x / 4 then some (r.2, g.2, x) else none
    | none => none

/-- A row of effective values from its stored values and its nibbles. -/
def sparseRow (stored : List Nat) (ns : List (Option Nat)) : List Nat :=
  (ns.zipIdx).flatMap fun n => (List.range 4).map fun t => match n.1 with
    | some x => if t == x % 4 then stored.getD (2 * n.2) 0 else if t == x / 4 then stored.getD (2 * n.2 + 1) 0 else 0
    | none => 0

/-! ### Quantised tiles that a pass loads (R214, R247) -/

/-- The addresses of the quantised tiles that hold in-range elements (r0 .., k0 ..), rising. -/
def tilesAt (t : Tile) (r0 nr k0 nk : Nat) : List Nat :=
  if !(t.q && fmtZb t.fmt) then []
  else distinctAsc ((List.range ((nr + 127) / 128)).flatMap fun i => (List.range ((nk + 31) / 32)).filterMap fun j =>
    let r := r0 + 128 * i
    let k := k0 + 32 * j
    if r < t.rows && k < t.cols then
      some (t.base + u64 (r / 128 * t.stride + k / 32 * (tilePayload (fmtM t.fmt) + 16))).toNat else none)

/-- Verify the trailers of tiles, in the order given: the address and the failing check of the first that fails. -/
def checkTiles (fmt : Nat) (get : Nat → List Byte) (ts : List Nat) : Option (W64 × Nat × Nat × Nat) :=
  let m := fmtM fmt
  (ts.zipIdx).findSome? fun x =>
    let bs := get x.2
    (verifyTrailer (fmtZf fmt) m (bs.take (tilePayload m)) (bs.drop (tilePayload m))).map fun e => (u64 x.1, e.1, e.2.1, e.2.2)

def tileSpans (fmt : Nat) (ts : List Nat) : List (Nat × W64 × Nat) := (ts.zipIdx).map fun x => (x.2, u64 x.1, tilePayload (fmtM fmt) + 16)

/-! ### Drains (R251 to R254) -/

/-- A cell as a drain writes it: its pattern and flags, whether the element is a NaN, and its magnitude as f32. -/
structure Drained where
  bits  : Nat
  flags : BitVec 7
  nan   : Bool
  mag   : Nat
  deriving DecidableEq, Repr

/-- The magnitude of a pattern as f32 (R254). -/
def magF32 (t : Ty) (x : Nat) : Nat := match decodeF t x with
  | .nan _ => 0
  | v => (roundTo .f32 .rn false v).bits % 2 ^ 31

/-- Convert one cell to a format that is not ZB. -/
def drainCell (fmt : Nat) (sat : Bool) (seed : W64) (c : Nat) (x : Nat) : Drained :=
  if fmt == 10 then { bits := x, flags := 0, nan := false, mag := 0 }
  else if fmt == 1 then { bits := x, flags := 0, nan := (decodeF .f32 x).isNaN, mag := magF32 .f32 x }
  else
    let t := fmtTy fmt
    let r := (drainConvert t (sat || fmt == 4) x (rng (hi32 seed) (lo32 seed) (u32 c)).toNat).1
    { bits := r.bits, flags := r.flags, nan := (decodeF t r.bits).isNaN, mag := magF32 t r.bits }

end Sys2Proof.Machine
end

