-- ==== Sys2Proof/Machine/Sync.lean ====
section
/-! DEFINITION. Waits, barriers, fences, block counters and the tile dispenser, OPC 0xA0 to 0xA8, with the steps WAIT_RETEST,
WAIT_TIMEOUT, WAIT_REMOTE_POLL, SIDE_LOG_REPLAY and TILE_COMMIT (R153, R170 to R183, R328, R333 to R336). -/
namespace Sys2Proof.Machine

/-! ### Wait conditions (R170, R171) -/

/-- The cause a barrier number raises where it is used (R171, R174, R175): undeclared, of another scope, or a grid
barrier outside a gang launch. -/
def barrierCause (l : Launch) (n : Nat) (sc : Option Nat) : Option (BitVec 8) :=
  if n ≥ l.lrec.barriers || sc.any (fun x => x != barScope l n) then some 0x1B#8
  else if barScope l n ≥ 4 && !l.lrec.gang then some 0xB0#8 else none

/-- The condition WCOND writes: KIND, P, ADDR or NUM or CLS from bit 64, VAL. -/
def condWord (kind : Nat) (p : Bool) (high : Nat) (val : Nat) : W128 :=
  BitVec.ofNat 128 (kind * 2 ^ 125 + (if p then 2 ^ 124 else 0) + high * 2 ^ 64 + val)

def condKind (x : W128) : Nat := (x.extractLsb' 125 3).toNat
/-- The address of a KIND 1 or KIND 4 condition, with its path. -/
def condAddr (x : W128) : W64 :=
  let a := (x.extractLsb' 64 60).toNat
  u64 ((if x.getLsbD 124 then 6 * 2 ^ 60 else 0) + (if condKind x == 1 then a % 2 ^ 57 * 8 else a % 2 ^ 58 * 4))

/-- WCOND (R171). -/
def execWcond (h : Hdr) (x : WcondForm) (s : State) : Outcome :=
  let kind := x.kind.toNat
  let reads : List Reg := match kind with
    | 1 => regsOf true true x.a ++ regsOf true true x.b
    | 2 | 5 => regsOf true false x.b
    | 4 => regsOf true true x.a
    | _ => []
  issue h false true { reads := reads } s fun i =>
    let put (w : W128) : Act := .done (i.s.modGrp i.w.r fun g =>
      { g with w := if k : x.d.toNat < 4 then g.w.set x.d.toNat w else g.w })
    let addr := readSS i.g x.a.toNat
    let path := field addr.toNat 60 4
    let off := field addr.toNat 0 60
    match kind with
    | 1 =>
      if path != 0 && path != 6 then .trap i.s 0x14#8 i.act [addr]
      else if off % 8 != 0 then .trap i.s 0x13#8 i.act [addr]
      else put (condWord 1 (path == 6) (off / 8) (readSS i.g x.b.toNat).toNat)
    | 2 =>
      if x.a.toNat ≥ i.w.l.lrec.nbctrs then .trap i.s 0x06#8 i.act []
      else put (condWord 2 false x.a.toNat (readS i.g x.b.toNat).toNat)
    | 3 => put (condWord 3 false x.cls.toNat x.b.toNat)
    | 4 =>
      if path != 0 && path != 6 then .trap i.s 0x31#8 i.act [addr]
      else if off % 4 != 0 then .trap i.s 0x13#8 i.act [addr]
      else put (condWord 4 (path == 6) (off / 4) (if x.s then 1 else 0))
    | _ =>
      match barrierCause i.w.l x.a.toNat none with
      | some c => .trap i.s c i.act []
      | none => put (condWord 5 false x.a.toNat (readS i.g x.b.toNat).toNat)

/-! ### WAIT (R172, R173) -/

/-- One condition's test: its value, a failed access, an unmapped page, a request to another device, or a read that waits
for the frontier (R335). -/
inductive Test where
  | val (b : Bool)
  | fail (cause : BitVec 8) (tv : List W64)
  | unmapped (a : W64)
  | ask (dev : Nat) (op : RemoteOp)
  | gated
  | areaFull
  deriving DecidableEq, Repr

/-- Where the value of a condition on path 0x6 comes from: a request to make, an answer that is there, or the last test. -/
inductive Far where
  | ask
  | got (bs : List Byte)
  | last (b : Bool)
  deriving DecidableEq, Repr

/-- Test a word condition (KIND 1 or 4). -/
def testWord (s : State) (w : Who) (x : W128) (far : Far) : State × Test :=
  let a := condAddr x
  let ctr := condKind x == 1
  let n := if ctr then 8 else 4
  let value := x.extractLsb' 0 64
  let holds (bytes : List Byte) : Bool := decide (value.toNat ≤ ofBytes bytes)
  match (if x.getLsbD 124 then far else .ask) with
  | .last b => (s, .val b)
  | far => match resolve s w { cls := if ctr then .load else .fe, write := false, reads := ctr, size := n, align := n } a with
    | (s, .unmapped) => (s, .unmapped a)
    | (s, .fail _ c tv) => (s, .fail c (a :: tv))
    | (s, .scrFault) => (s, .val false)
    | (s, .ok loc) =>
      if locPoisoned s n loc then (s, .fail 0xE0#8 [a])
      else match equinoxGate (if far = .ask then countLookups s w 0 [a] else s) w (tilePos w) [a] true true with
        | .wait => (s, .gated)
        | .trap s a owner me => (s, .fail 0xB5#8 [a, owner, me])
        | .full s => (s, .areaFull)
        | .go s => match loc with
          | .dev d pa _ => match far with
            | .got bs =>
              if answerBad bs then (s, .fail 0xE0#8 [a])
              else (s, .val (if ctr then holds (bs.drop 1) else (bs.getD 2 0).getLsbD 0 == value.getLsbD 0))
            | _ => (s, .ask d (if ctr then .load pa 8 else .fullEmpty pa 4 none none none))
          | .mem pa _ _ => (s, .val (if ctr then holds (rdBytes s pa 8) else isFull s (pa / 4) == value.getLsbD 0))
          | _ => (s, .val false)

/-- The copy class that a KIND 3 condition names (R171). -/
def classOf (num : Nat) : CopyClass := if num % 4 == 0 then .copy else if num % 4 == 1 then .gather else .coll

/-- Test any condition (R170). -/
def testCond (s : State) (w : Who) (x : W128) (far : Far) : State × Test :=
  let num := (x.extractLsb' 64 4).toNat
  let val := (x.extractLsb' 0 32).toNat
  match condKind x with
  | 1 | 4 => testWord s w x far
  | 2 => (s, .val (decide (val ≤ ((w.b.nb[num]?).getD 0).toNat)))
  | 3 =>
    (s, .val (decide (outstanding w.g (classOf num) < val % 512)))
  | 5 =>
    let b := barInst w.l num (barKey w.l w.r.blk w.b num)
    (s, .val (b.broken || decide ((b.phase.toNat + 2 ^ 32 - val) % 2 ^ 32 < 2 ^ 31)))
  | _ => (s, .val false)

/-- What the tests of a WAIT found: the conditions that fired, the requests to make, whether a read waits for the frontier,
and the first failure. -/
structure Tests where
  s     : State
  fired : BitVec 4
  asks  : List (Nat × Nat × RemoteOp)
  gated : Bool
  bad   : Option Test
  deriving Repr

def wOf (g : Group) (k : Nat) : W128 := (g.w[k]?).getD 0

def testAll (s : State) (w : Who) (x : WaitForm) (far : Nat → Far) : Tests :=
  ((List.range 4).filter x.mask.getLsbD).foldl (fun t k =>
    if t.bad.isSome then t
    else match testCond t.s w (wOf w.g k) (far k) with
      | (s, .val b) => { t with s := s, fired := if b then t.fired ||| BitVec.ofNat 4 (2 ^ k) else t.fired }
      | (s, .ask d op) => { t with s := s, asks := t.asks ++ [(k, d, op)] }
      | (s, .gated) => { t with s := s, gated := true }
      | (s, e) => { t with s := s, bad := some e }) { s := s, fired := 0, asks := [], gated := false, bad := none }

/-- Whether the conditions that hold end the WAIT (R172). -/
def waitOk (x : WaitForm) (fired : BitVec 4) : Bool := if x.any then fired != 0#4 else fired == x.mask

/-- What the hardware watches between the group's own tests (R173): a condition's value now. A KIND 4 condition's and one's
of path 0x6 is as last tested. -/
def watchOne (s : State) (w : Who) (seen : BitVec 4) (k : Nat) : Bool :=
  let c := wOf w.g k
  if condKind c == 4 || condKind c == 1 && c.getLsbD 124 then seen.getLsbD k else (testCond s w c (.last false)).2 = .val true

def watchNow (s : State) (w : Who) (x : WaitForm) (seen : BitVec 4) : BitVec 4 :=
  (List.range 4).foldl (fun m k => if x.mask.getLsbD k && watchOne s w seen k then m ||| BitVec.ofNat 4 (2 ^ k) else m) 0

/-- What the block's counter unit, the copy engine and the barrier network show a WAIT of its KIND 2, 3 and 5 conditions (R173). -/
def watchVals (w : Who) (x : WaitForm) : List Nat :=
  ((List.range 4).filter x.mask.getLsbD).map fun k =>
    let num := ((wOf w.g k).extractLsb' 64 4).toNat
    match condKind (wOf w.g k) with
    | 2 => ((w.b.nb[num]?).getD 0).toNat
    | 3 => outstanding w.g (classOf num)
    | 5 => let b := barInst w.l num (barKey w.l w.r.blk w.b num); 2 * b.phase.toNat + b.broken.toNat
    | _ => 0

/-- Whether what is watched wakes the WAIT (R173): a counter condition that has become true, or a change that those units
signal, whatever it does to the condition. -/
def watchWakes (w : Who) (x : WaitForm) (t : WaitSt) (now : BitVec 4) : Bool :=
  watchVals w x != t.vals || (List.range 4).any fun k => condKind (wOf w.g k) == 1 && now.getLsbD k && !t.seen.getLsbD k

/-- A KIND 5 condition that fired on a broken barrier (R176). -/
def brokenFired (w : Who) (fired : BitVec 4) : Bool :=
  (List.range 4).any fun k => fired.getLsbD k && condKind (wOf w.g k) == 5
    && (barInst w.l ((wOf w.g k).extractLsb' 64 4).toNat (barKey w.l w.r.blk w.b ((wOf w.g k).extractLsb' 64 4).toNat)).broken

/-- The barriers of the KIND 5 conditions that fired, with the counts of completed phases (R197). -/
def barsFired (w : Who) (fired : BitVec 4) : List (Nat × Nat) :=
  ((List.range 4).filter fun k => fired.getLsbD k && condKind (wOf w.g k) == 5).map fun k =>
    let n := ((wOf w.g k).extractLsb' 64 4).toNat
    (n, (barInst w.l n (barKey w.l w.r.blk w.b n)).phase.toNat)

/-- Whether a KIND 2 condition fired (R218). -/
def counterFired (g : Group) (fired : BitVec 4) : Bool := (List.range 4).any fun k => fired.getLsbD k && condKind (wOf g k) == 2

/-- Whether a condition fired that acquires for all streams (R172). -/
def acquireFired (g : Group) (fired : BitVec 4) : Bool := (List.range 4).any fun k => fired.getLsbD k && condKind (wOf g k) != 4

/-- The words that a WAIT's tests read, as its reads cover them (R172, R187). -/
def waitCovers (s : State) (w : Who) (x : WaitForm) : List Cover :=
  ((List.range 4).filter fun k => x.mask.getLsbD k && (condKind (wOf w.g k) == 1 || condKind (wOf w.g k) == 4)).flatMap fun k =>
    let a := condAddr (wOf w.g k)
    match (resolve s w { cls := .fe, write := false, reads := false, size := 4, align := 4 } a).2 with
    | .ok loc => coversAt (field a.toNat 60 4) (unitsOf (if condKind (wOf w.g k) == 1 then 8 else 4) loc)
    | _ => []

/-- A WAIT ends (R172): its records go, q[D] and s[C] are written, BFLAGS merges where a KIND 2 condition fired (R218), and the
group moves on. Conditions of KIND 1, 2, 3 or 5 that fired acquire, for all streams (R190, R196). -/
def endWait (s : State) (w : Who) (h : Hdr) (x : WaitForm) (ok : Bool) (fired : BitVec 4) : State :=
  let good := ok && !brokenFired w fired
  let s := logOwn s w.r (.access true false (acquireFired w.g fired) false) allStreams (waitCovers s w x) (barsFired w fired)
  (forget (unparkAll s w) (w.g.sent.map (·.2))).modGrp w.r fun g =>
    let g := applyWrites g.depth ([RegWrite.q x.d.toNat good] ++ (if x.mw then [RegWrite.s x.c.toNat (fired.setWidth 32)] else [])) g
    let g := if counterFired w.g fired then mergeBflags w.b.bflags g else g
    { g.past h false with status := .ready, sent := [] }

/-- A WAIT fails (R153, R172): its records go, and the cause enters at the WAIT. -/
def failWait (s : State) (w : Who) (cause : BitVec 8) (tv : List W64) : State :=
  enterHandler ((forget (unparkAll s w) (w.g.sent.map (·.2))).modGrp w.r fun g => { g with status := .ready, sent := [] }) w.r
    (preciseEntry w cause (activeMask w.g.cl) tv false)

/-- Record a suspended WAIT on the word of each KIND 4 condition of path 0x0 that does not hold and that it is not yet
recorded on (R153, R173); the other side is cause 0x32 with the address. Two conditions on one word make one record and one
bucket entry: the rules do not say whether a word named twice is two (DESIGN CHOICE, log 41). -/
def recordWait (s : State) (w : Who) (x : WaitForm) (recs : List Nat) : Except W64 (State × List Nat) :=
  ((List.range 4).filter fun k => x.mask.getLsbD k && condKind (wOf w.g k) == 4 && !(wOf w.g k).getLsbD 124).foldl (fun acc k =>
    match acc with
    | .error a => .error a
    | .ok (s, recs) =>
      let a := condAddr (wOf w.g k)
      if recs.contains a.toNat then .ok (s, recs)
      else match resolve s w { cls := .fe, write := false, reads := false, size := 4, align := 4 } a with
        | (s, .ok (.mem pa _ _)) =>
          if isFull s (pa / 4) == (wOf w.g k).getLsbD 0 then .ok (s, recs)
          else if parkRefused s w a.toNat then .error a
          else .ok (park s w (pa / 4) a.toNat, recs ++ [a.toNat])
        | (s, _) => .ok (s, recs)) (.ok (s, recs))

/-- Whether a WAIT's time-out has passed. -/
def WaitSt.due (t : WaitSt) (tick : Nat) : Bool := t.limit != 0xFFFFFFFF#32 && tick - t.start ≥ t.limit.toNat

/-- One turn through the loop of R172: end, fail, or suspend. The conditions of path 0x6 are asked for first. -/
def waitLoop (s : State) (w : Who) (t : WaitSt) (h : Hdr) (x : WaitForm) (far : Nat → Far) : State :=
  let again : State := s.modGrp w.r fun g => { g with status := .waiting { t with woken := true } h x }
  let r := testAll s w x far
  match r.bad with
  | some (.unmapped a) => match faultRecord r.s w.c a 0 false w.res w.b.core with
    | .ok s => failWait s w 0x10#8 [a]
    | .full => again
    | .bad q n => terminateWith r.s w.r.blk 0xA2#8 [u64 q, u64 n]
  | some (.fail c tv) => failWait r.s w c tv
  | some _ => terminateWith r.s w.r.blk 0xB6#8 []
  | none =>
    if !r.asks.isEmpty then
      let q := r.asks.foldl (fun (acc : State × List (Nat × Nat)) q =>
        let (s, id) := sendTo acc.1 q.2.1 q.2.2 true
        (s, acc.2 ++ [(q.1, id)])) (r.s, [])
      q.1.modGrp w.r fun g => { g with status := .waiting { t with polled := s.tick, woken := false } h x, sent := g.sent ++ q.2 }
    else if waitOk x r.fired then endWait r.s w h x true r.fired
    else if t.due s.tick then endWait r.s w h x false r.fired
    else match recordWait r.s w x t.recs with
      | .error a => failWait r.s w 0x32#8 [a]
      | .ok (s, recs) =>
        s.modGrp w.r fun g =>
          { g with status := .waiting { t with recs := recs, seen := r.fired, vals := watchVals w x, tested := true, woken := r.gated } h x }

/-- WAIT (R172): pending writes commit (R21), and the first turn through its loop. s[B] is read as the WAIT issues. -/
def execWait (h : Hdr) (x : WaitForm) (s : State) : Outcome :=
  issue h false true { reads := regsOf true false x.b, writes := Reg.q x.d.toNat :: (if x.mw then [Reg.s x.c.toNat] else []) } s
    fun i =>
      let g := commitAll (diagMode i.s i.w.c) i.g
      .again (waitLoop (i.s.modGrp i.w.r fun _ => g) { i.w with g := g }
        { start := i.s.tick, limit := readS i.g x.b.toNat, polled := i.s.tick, recs := [], seen := 0, vals := [], tested := false, woken := false }
        h x fun _ => .ask)

/-- The answers that a suspended WAIT's requests have brought, once all are there. -/
def waitAnswers (s : State) (g : Group) : Option (State × (Nat → Far)) :=
  if g.sent.all fun e => !(sget [] s.answers e.2).isEmpty then
    let old := s.answers
    some ({ s with answers := g.sent.foldl (fun m e => sdel m e.2) s.answers },
      fun k => match g.sent.find? fun e => e.1 == k with
        | some e => .got (sget [] old e.2)
        | none => .ask)
  else none

/-- A suspended WAIT is looked at again (R172, R173): its answers are there; or it is woken, or its time is up, and it tests all of
its conditions. While a test of path 0x6 is out, a wake and the time wait for its answer: every condition is evaluated then. -/
def retestWait (s : State) (r : GRef) (poll : Bool) : State :=
  match who? s r with
  | none => s
  | some w => match w.g.status with
    | .waiting t h x =>
      let now := watchNow s w x t.seen
      match (if w.g.sent.isEmpty then none else waitAnswers s w.g) with
      | some (s, far) =>
        let g := { w.g with sent := [] }
        waitLoop (s.modGrp r fun _ => g) { w with g := g } t h x far
      | none =>
        if !w.g.sent.isEmpty then s
        else if t.woken || poll || watchWakes w x t now || t.due s.tick then waitLoop s w t h x fun _ => .ask
        else s.modGrp r fun g => { g with status := .waiting { t with seen := now } h x }
    | _ => s

/-- WAIT_RETEST (R172, R173). -/
def execWaitRetest (r : GRef) (s : State) : Outcome := .next (retestWait s r false)

/-- WAIT_TIMEOUT (R172): once its ticks have passed, the loop tests and ends. -/
def execWaitTimeout (r : GRef) (s : State) : Outcome :=
  match s.grp? r with
  | none => .next s
  | some g => match g.status with
    | .waiting t _ _ => .next (if t.due s.tick && !harvestHolds s g then retestWait s r false else s)
    | _ => .next s

/-- Whether a WAIT has a condition on path 0x6. -/
def watchesRemote (g : Group) (x : WaitForm) : Bool :=
  (List.range 4).any fun k => x.mask.getLsbD k && (condKind (wOf g k) == 1 || condKind (wOf g k) == 4) && (wOf g k).getLsbD 124

/-- WAIT_REMOTE_POLL (R173): every 1,000 ticks the conditions of path 0x6 are tested again. -/
def execWaitRemotePoll (r : GRef) (s : State) : Outcome :=
  match s.grp? r with
  | none => .next s
  | some g => match g.status with
    | .waiting t _ x => .next (if s.tick ≥ t.polled + 1000 && g.sent.isEmpty && watchesRemote g x && !harvestHolds s g then retestWait s r true else s)
    | _ => .next s

/-! ### Barriers (R174 to R176) -/

/-- Record a group's arrival and complete the phase where it was the last (R174). -/
def arrive (s : State) (w : Who) (n : Nat) : State :=
  let u := barKey w.l w.r.blk w.b n
  tryComplete (s.modLaunch w.b.launch fun l =>
    let x := barInst l n u
    setBarInst l { x with arrived := x.arrived ++ [w.r] }) w.b.launch n u (some w.r)

/-- The barrier as the group's launch holds it now. -/
def barNow (s : State) (w : Who) (n : Nat) : BarInst :=
  match s.launches[w.b.launch]? with
  | some l => barInst l n (barKey l w.r.blk w.b n)
  | none => BarInst.fresh n 0

/-- BAR writes its results: its arrival releases and its completion acquires for every stream, so that all before it happens before
all after it (R175, R190, R196): q[D] for a phase that did not complete broken, q[C] in its last arriver. -/
def endBar (h : Hdr) (la ok last : Bool) (d c : BitVec 8) (g : Group) : Group :=
  let g := applyWrites g.depth ([RegWrite.q d.toNat ok] ++ (if la then [RegWrite.q c.toNat (ok && last)] else [])) g
  Group.settled { g.past h false with status := .ready }

/-- A group suspended in BAR for phase k: it goes on when the phase has completed. -/
def resumeBar (s : State) (w : Who) (h : Hdr) (la : Bool) (d c : BitVec 8) (n : Nat) (k : W32) : State :=
  let x := barNow s w n
  if x.phase == k then s else s.modGrp w.r (endBar h la (!(x.broken && x.phase == k + 1)) (x.last == some w.r) d c)

/-- BAR (R175). -/
def execBar (h : Hdr) (sc : BitVec 3) (la : Bool) (d a c : BitVec 8) (s : State) : Outcome :=
  match (s.cur.bind (who? s)).bind fun w => match w.g.status with
      | .barrier n k .. => some (w, n, k)
      | _ => none with
  | some (w, n, k) => .next (resumeBar s w h la d c n k)
  | none =>
    issue h false true { writes := Reg.q d.toNat :: (if la then [Reg.q c.toNat] else []) } s fun i =>
      let n := a.toNat
      match barrierCause i.w.l n (some sc.toNat) with
      | some cause => .trap i.s cause i.act []
      | none =>
        let x := barNow i.s i.w n
        if !i.g.sideLog.isEmpty || (!x.broken && x.arrived.contains i.w.r) then .again i.s
        else if x.broken then .again (i.s.modGrp i.w.r fun g => endBar h la false false d c (commitAll (diagMode i.s i.w.c) g))
        else
          let diag := diagMode i.s i.w.c
          let s := arrive (i.s.modGrp i.w.r fun g => { commitAll diag g with status := .barrier n x.phase h sc la d c }) i.w n
          .again (match who? s i.w.r with
            | some w => resumeBar s w h la d c n x.phase
            | none => s)

/-- BARA (R175): s[D] takes the phase count at the arrival, which releases for every stream (R190, R196). R20 lists its result with
neither latency: it is written at issue and leaves no pending write (DESIGN CHOICE, log 41). -/
def execBara (h : Hdr) (sc : BitVec 3) (d a : BitVec 8) (s : State) : Outcome :=
  issue h false true { writes := regsOf true false d } s fun i =>
    let n := a.toNat
    match barrierCause i.w.l n (some sc.toNat) with
    | some cause => .trap i.s cause i.act []
    | none =>
      let x := barNow i.s i.w n
      if !i.g.sideLog.isEmpty || (!x.broken && x.arrived.contains i.w.r) then .again i.s
      else
        let s := logOwn i.s i.w.r (.access false true false true) allStreams [] [(n, x.phase.toNat)]
        let s := s.modGrp i.w.r fun g => applyWrite g.depth g (.s d.toNat x.phase)
        .done (if x.broken then s else arrive s i.w n)

/-! ### Block counters, fences, the fetch barrier -/

/-- Add to a block counter (R178, R271); `none` where the sum would pass 2^32 − 1. -/
def addNb (b : Block) (n : Nat) (v : Nat) : Option Block :=
  if h : n < 16 then
    if b.nb[n].toNat + v ≥ 2 ^ 32 then none else some { b with nb := b.nb.set n (u32 (b.nb[n].toNat + v)) }
  else some b

/-- SIG (R178): a release for every stream (R190, R196). -/
def execSig (h : Hdr) (imm : Bool) (_sc : BitVec 3) (d b : BitVec 8) (s : State) : Outcome :=
  issue h false true { reads := if imm then [] else regsOf true false b } s fun i =>
    if d.toNat ≥ i.w.l.lrec.nbctrs then .trap i.s 0x06#8 i.act []
    else if !i.g.sideLog.isEmpty then .again i.s
    else
      let v := if imm then b.toNat else (readS i.g b.toNat).toNat
      match addNb i.w.b d.toNat v with
      | none => .trap i.s 0x15#8 i.act [u64 d.toNat]
      | some b' => .done ((logOwn i.s i.w.r (.access false true false true) allStreams []).modBlk i.w.r.blk fun b => { b with nb := b'.nb })

/-- FENCE (R179): kinds .ar and .rel wait for the side-log entries of the listed streams, and order the group's own accesses
(R191). Toward other agents, in one interleaving of whole instructions, the order holds already (log 2). -/
def execFence (h : Hdr) (_sc : BitVec 3) (kind : BitVec 2) (mask : W16) (s : State) : Outcome :=
  issue h false true {} s fun i =>
    if kind != 1#2 && i.g.sideLog.any fun e => mask.getLsbD e.sid.toNat then .again i.s
    else .done (logOwn i.s i.w.r (.fence kind) mask [])

/-- FENCEX (R180, R190): it joins the listed streams and waits for nothing. -/
def execFencex (h : Hdr) (mask : W16) (s : State) : Outcome :=
  issue h false true {} s fun i => .done (logOwn i.s i.w.r .fencex mask [])

/-- FETCHB (R181): the partition's code lines go, so that later fetches read memory. -/
def execFetchb (h : Hdr) (_sc : BitVec 3) (s : State) : Outcome :=
  issue h false true {} s fun i =>
    let mine (f : Fetcher) : Bool := match f with
      | .group r => r.grp % 4 == i.w.r.grp % 4 && (match s.blocks[r.blk]? with
        | some b => b.core == i.w.b.core
        | none => false)
      | .stream _ => false
    .done { i.s with icache := i.s.icache.filter fun e => !mine e.who }

/-! ### The tile dispenser (R182, R328, R333, R335) -/

/-- The coordinates of tile i (R328). -/
def tileAt (x : LaunchRec) (i : Nat) : Nat × Nat × Nat :=
  let n := tileCounts x
  (i % n.1 * x.tile.1, i / n.1 % n.2.1 * x.tile.2.1, i / (n.1 * n.2.1) * x.tile.2.2)

/-- The tile a group holds ends (R333). -/
def endTile (l : Launch) (t : TileHold) : Launch :=
  match t with
  | .tile i => setBuf l { bufOf l i with ended := true }
  | _ => l

/-- TFETCH (R182). In an Equinox launch it first waits for what belongs to the tile held (R335), whose accesses come before those
of any later tile. -/
def execTfetch (h : Hdr) (d c : BitVec 8) (s : State) : Outcome :=
  issue h false true { writes := Reg.q c.toNat :: (List.range 4).map fun k => Reg.s (d.toNat + k) } s fun i =>
    let l := i.w.l
    let eq := l.lrec.equinox
    let hold (t : TileHold) (next : Nat) : State :=
      let s := i.s.modLaunch i.w.b.launch fun l => { (if eq then endTile l i.g.tile else l) with next := next }
      if eq then s.modGrp i.w.r fun g => Group.settled { g with tile := t } else s
    if eq && !tileQuiet i.w then .again i.s
    else if l.draining || l.next ≥ ntOf l.lrec then .later (hold .epilogue l.next) [.q c.toNat true] FlagSet.none
    else
      let t := tileAt l.lrec l.next
      .later (hold (.tile l.next) (l.next + 1))
        [.s d.toNat (u32 t.1), .s (d.toNat + 1) (u32 t.2.1), .s (d.toNat + 2) (u32 t.2.2), .s (d.toNat + 3) (u32 l.next),
         .q c.toNat false] FlagSet.none

/-- Try the barriers of a launch again after writes have been counted (R281). -/
def tryDue (s : State) (li : Nat) : State :=
  match s.launches[li]? with
  | none => s
  | some l => l.bars.foldl (fun s x => if x.arrived.isEmpty then s else tryComplete s li x.n x.unit none) s

/-- TILE_COMMIT (R335, R336): the frontier's tile has ended, its buffer goes to memory and the frontier moves on. -/
def execTileCommit (launch : Nat) (s : State) : Outcome :=
  match s.launches[launch]? with
  | none => .next s
  | some l =>
    if l.lrec.equinox && passes l l.frontier then
      .next (tryDue ((applyBuf s launch l.frontier).modLaunch launch fun l =>
        { l with bufs := l.bufs.filter (fun b => b.tile != l.frontier), frontier := l.frontier + 1, direct := false }) launch)
    else .next s

/-! ### The side log (R183) -/

/-- The request of a side-log entry's kind. -/
def entryReq (e : SideEntry) : Req :=
  { cls := if e.kind == 1 then .atomic else if e.kind == 2 then .mst else .store, write := true, reads := e.kind == 1,
    size := entrySize e, align := entrySize e, retry := true }

/-- Make the writes of one item. A reduction at another device is asked for: the number of its message. -/
def replayItem (s : State) (w : Who) (e : SideEntry) (addr : W64) (data : W128) (loc : Loc) : State × Option Nat :=
  let tag : CountTag := { who := w.r, addr := addr, phases := e.phases }
  let pos := tilePos w
  let s := settleAt s w.r loc (entrySize e)
  if e.kind == 1 then
    match loc with
    | .dev d pa slot => let r := sendTo (setPte s slot 16) d (.atom pa e.op e.wd (data.extractLsb' 0 64)) true; (r.1, some r.2)
    | .mem pa slot _ =>
      (if buffered s w pos addr then
        bufferOp (setPte s slot 16) w.b.launch pos (.red pa e.op e.wd (data.extractLsb' 0 64) (some tag))
      else (atomAt s loc e.op e.wd (data.extractLsb' 0 64).toNat (some tag)).1, none)
    | loc => ((atomAt s loc e.op e.wd (data.extractLsb' 0 64).toNat (some tag)).1, none)
  else
    let bs := toBytes (entrySize e) data.toNat
    (match e.kind, loc with
    | 2, .mem pa slot rp => (List.range 4).foldl (fun s d =>
        storeLane (settleAt s w.r (.mem (replica pa d) slot rp) bs.length) w pos addr (.mem (replica pa d) slot rp) bs none) s
    | _, _ => storeLane s w pos addr loc bs (some tag), none)

/-- The head entry of a group's side log leaves it. -/
def popSide (s : State) (r : GRef) : State := s.modGrp r fun g =>
  { g with sideLog := g.sideLog.drop 1, sideSvc := false, copies := g.copies.map fun k => { k with behind := k.behind - 1 } }

/-- The head entry of a group's side log becomes another. -/
def setHead (s : State) (r : GRef) (e : SideEntry) : State := s.modGrp r fun g => { g with sideLog := e :: g.sideLog.drop 1 }

/-- The reductions of the head entry at other devices are out (R142): once all have been answered the entry is complete, or it
fails with the uncorrectable error of one of them. -/
def replayAnswered (s : State) (w : Who) (e : SideEntry) : State :=
  if e.sent.any fun x => (sget [] s.answers x.2).isEmpty then s
  else
    let bad := e.sent.find? fun x => answerBad (sget [] s.answers x.2)
    let t := popSide (forget s (e.sent.map (·.2))) w.r
    tryDue (match bad with
      | some x => deliver t w.r 0xE0#8 [u64 (((e.items.find? fun it => it.1 == x.1).map (·.2.1)).getD 0)]
      | none => t) w.b.launch

/-- Replay the oldest entry of a group's side log: it is made whole, waits for the fault service or for other devices, or fails
and is discarded with its cause delivered. -/
def replaySide (s : State) (r : GRef) : State :=
  match who? s r with
  | none => s
  | some w => match w.g.sideLog with
    | [] => s
    | e :: _ =>
      if !e.sent.isEmpty then replayAnswered s w e
      else
        let q := entryReq e
        let (s, fates) := e.items.foldl (fun (acc : State × List (Nat × W64 × W128 × Fate)) it =>
          let (s, f) := resolve acc.1 w q (u64 it.2.1)
          (s, acc.2 ++ [(it.1, u64 it.2.1, it.2.2, f)])) (s, [])
        let failing := fates.findSome? fun f => match f.2.2.2 with
          | .fail _ c tv => some (c, f.2.1 :: tv)
          | .scrFault => some (0x18#8, [f.2.1])
          | .ok loc => if q.reads && locPoisoned s q.size loc then some (0xE0#8, [f.2.1]) else none
          | .unmapped => none
        match failing with
        | some (c, tv) => tryDue (deliver (popSide s r) r c tv) w.b.launch
        | none =>
          let unm := fates.filterMap fun f => if f.2.2.2 = .unmapped then some f.2.1 else none
          if !unm.isEmpty then
            match tellPages s w 1 true e.told unm with
            | (s, told, .full) => setHead s r { e with told := told }
            | (s, _, .ok _) => (setHead s r { e with told := [] }).modGrp r fun g => { g with sideSvc := true }
            | (s, _, .bad a n) => terminateWith s r.blk 0xA2#8 [u64 a, u64 n]
          else match equinoxGate s w (tilePos w) (fates.map (·.2.1)) false (fates.any fun f => match f.2.2.2 with
              | .ok (.dev ..) => true
              | _ => false) with
            | .wait => s
            | .trap s a owner me => tryDue (deliver (popSide s r) r 0xB5#8 [a, owner, me]) w.b.launch
            | .full s => terminateWith s r.blk 0xB6#8 []
            | .go s =>
              let x := fates.foldl (fun (acc : State × List (Nat × Nat)) f => match f.2.2.2 with
                | .ok loc => let y := replayItem acc.1 w e f.2.1 f.2.2.1 loc
                  (y.1, match y.2 with
                    | some id => acc.2 ++ [(f.1, id)]
                    | none => acc.2)
                | _ => acc) (s, [])
              if x.2.isEmpty then tryDue (popSide x.1 r) w.b.launch
              else setHead x.1 r { e with sent := x.2 }

/-- SIDE_LOG_REPLAY (R183): nothing while the head entry waits for the fault service. -/
def execSideLogReplay (r : GRef) (s : State) : Outcome :=
  match s.grp? r with
  | some g =>
    let away := match s.blocks[r.blk]? with
      | some b => b.st == .evicted
      | none => true
    .next (if g.sideSvc || away then s else replaySide s r)
  | none => .next s

end Sys2Proof.Machine
end

