-- ==== Sys2Proof/Machine/Matrix.lean ====
section
/-! DEFINITION. Matrix instructions, OPC 0xB0 to 0xBC, of groups and of streams, with the steps MATRIX_PASS,
SEQUENCER_RESUME and BAD_STREAM_WORD (R232 to R271, R273). -/
namespace Sys2Proof.Machine

/-! ### Group instructions (R265, R266, R270) -/

def seqCode : SeqSt → Nat
  | .idle => 0 | .running => 1 | .waiting => 2 | .stopped => 3

/-- MSTART of a new stream: RPR clears, the stream's lines are fetched afresh (R234, R258), and a drain that the old one
stopped at keeps its number (R252). -/
def execMstart (h : Hdr) (a : BitVec 8) (s : State) : Outcome :=
  issue h false true { reads := regsOf true true a } s fun i =>
    let q := i.w.b.seq
    let base := readSS i.g a.toNat
    if q.st == .running || q.st == .waiting then .trap i.s 0x42#8 i.act [u64 (seqCode q.st)]
    else if base.toNat % 128 != 0 then .trap i.s 0x13#8 i.act [base]
    else
      let s := { i.s with icache := i.s.icache.filter fun e => e.who ≠ Fetcher.stream i.w.r.blk }
      .done (s.modBlk i.w.r.blk fun b =>
        { b with rpr := 0, seq := { Seq.idle with st := .running, owner := i.w.r.grp, base := base, next := base, drain := afterDrain q } })

/-- A stopped sequencer runs again, with the issuing group as owner. -/
def restartSeq (q : Seq) (owner : Nat) : Seq := { q with st := .running, cause := 0, owner := owner, svc := false }

/-- `mstart.resume`: at the instruction after the stopped one, with RPR.V clear. -/
def execMstartResume (h : Hdr) (s : State) : Outcome :=
  issue h false true {} s fun i =>
    let q := i.w.b.seq
    if q.st != .stopped then .trap i.s 0x42#8 i.act [u64 (seqCode q.st)]
    else .done (i.s.modBlk i.w.r.blk fun b => { b with rpr := b.rpr &&& ~~~(0x8000#32), seq := pastSeq (restartSeq b.seq i.w.r.grp) })

/-- `mstart.retry`: the stopped instruction again, with the descriptors as they are now (R266). -/
def execMstartRetry (h : Hdr) (s : State) : Outcome :=
  issue h false true {} s fun i =>
    let q := i.w.b.seq
    if q.st != .stopped then .trap i.s 0x42#8 i.act [u64 (seqCode q.st)]
    else .done (i.s.modBlk i.w.r.blk fun b => { b with seq := { restartSeq b.seq i.w.r.grp with td := b.tiles } })

def setTile (b : Block) (n : Nat) (x : W128) : Block := { b with tiles := if k : n < 16 then b.tiles.set n x else b.tiles }

/-- MTILE, register form. -/
def execMtile (h : Hdr) (d a : BitVec 8) (s : State) : Outcome :=
  issue h false true { reads := regRun true a 4 } s fun i =>
    let x : W128 := readSS i.g (a.toNat + 2) ++ readSS i.g a.toNat
    .done (i.s.modBlk i.w.r.blk fun b => setTile b d.toNat x)

/-- The cell index that s[B] names for lane 0 of CPYACC's register forms: row and quarter; `none` is cause 0x4C. -/
def accCell (x : W32) : Option Nat := if x.toNat ≥ 512 then none else some (128 * (x.toNat % 128) + 32 * (x.toNat / 128))

/-- Whether regions from `n` lie beyond the block's allocation (R33). -/
def regionBeyond (l : Launch) (n cnt : Nat) : Bool := n + cnt > l.lrec.accregs

/-- `cpyacc.rd`. -/
def execCpyaccRd (h : Hdr) (d a b : BitVec 8) (s : State) : Outcome :=
  issue h false true { reads := regsOf true false b, writes := regsOf false false d } s fun i =>
    match accCell (readS i.g b.toNat) with
    | none => .trap i.s 0x4C#8 i.act []
    | some c =>
      if regionBeyond i.w.l a.toNat 1 then .trap i.s 0x4C#8 i.act []
      else .later i.s [.v d.toNat i.act (lanes fun l => sget 0#32 i.w.b.acc (regionCells * a.toNat + c + l))] FlagSet.none

/-- `cpyacc.wr`. -/
def execCpyaccWr (h : Hdr) (d a b : BitVec 8) (s : State) : Outcome :=
  issue h false true { reads := regsOf false false a ++ regsOf true false b } s fun i =>
    match accCell (readS i.g b.toNat) with
    | none => .trap i.s 0x4C#8 i.act []
    | some c =>
      if regionBeyond i.w.l d.toNat 1 then .trap i.s 0x4C#8 i.act []
      else
        let cells := (laneList i.act).map fun l => (regionCells * d.toNat + c + l, readV i.g a.toNat l)
        .done (i.s.modBlk i.w.r.blk fun bl => { bl with acc := ssetAll 0#32 bl.acc cells })

/-- The 128 rows of a region's transfer with what they reach: the offset in the region tells the piece. -/
def rowFates (s : State) (w : Who) (cls : Cls) (a : W64) (stride : Nat) : State × List (Nat × W64 × Nat × Fate) :=
  (List.range 128).foldl (fun acc i =>
    let r := (pageCut 2 (512 * i) (a + u64 (i * stride)) 512).foldl (fun acc p =>
      let write := cls == .dst
      let (s, f) := resolve acc.1 w { cls := cls, write := write, reads := false, size := p.2.2, align := 1 } p.1
      (s, acc.2 ++ [(p.2.1, p.1, p.2.2, f)])) (acc.1, [])
    (r.1, acc.2 ++ r.2)) (s, [])

/-- The checks of R227 for a region's transfer: path and permission, alignment of address and stride, then the rest. -/
def rowChecks (w : Who) (a : W64) (stride : Nat) (fs : List (Nat × W64 × Nat × Fate)) : TileCheck :=
  match tileChecks w a 0 0 0 fs [] with
  | .trap c tv => if c == 0x14#8 || c == 0x19#8 || c == 0x1C#8 || c == 0x12#8 then .trap c tv
      else if stride % 16 != 0 then .trap 0x13#8 [a] else .trap c tv
  | r => if stride % 16 != 0 then .trap 0x13#8 [a] else r

def rowRanges (a : W64) (stride : Nat) : List (W64 × Nat) := (List.range 128).map fun i => (a + u64 (i * stride), 512)

/-- `cpyacc.st`: a region to memory. -/
def execCpyaccSt (h : Hdr) (sid : BitVec 4) (d a b : BitVec 8) (s : State) : Outcome :=
  issue h false true { reads := regsOf true true d ++ regsOf true false b } s fun i =>
    let dst := readSS i.g d.toNat
    let stride := (readS i.g b.toNat).toNat
    if regionBeyond i.w.l a.toNat 1 then .trap i.s 0x4C#8 i.act []
    else
      let (s, fd) := rowFates i.s i.w .dst dst stride
      transfer i s sid (rowChecks i.w dst stride fd) [] fd [] (rowRanges dst stride) (fun _ s => s) fun _ =>
        .ok ((accRows i.w.b a.toNat 0 128).flatMap fun x => toBytes 4 x.toNat, fun s => s)

/-- `cpyacc.ld`: memory to a region. -/
def execCpyaccLd (h : Hdr) (sid : BitVec 4) (d a b : BitVec 8) (s : State) : Outcome :=
  issue h false true { reads := regsOf true true a ++ regsOf true false b } s fun i =>
    let src := readSS i.g a.toNat
    let stride := (readS i.g b.toNat).toNat
    if regionBeyond i.w.l d.toNat 1 then .trap i.s 0x4C#8 i.act []
    else
      let (s, fs) := rowFates i.s i.w .src src stride
      let put (bs : List Byte) (s : State) : State := setAccRows s i.w.r.blk d.toNat 0 ((wordsIn regionCells bs).map u32)
      -- an uncorrectable error may leave any part of the region written (R270)
      let torn (bs : List Byte) (s : State) : State :=
        let old := (accRows i.w.b d.toNat 0 128).flatMap fun x => toBytes 4 x.toNat
        let base := s.fresh
        put ((bs.zip old).zipIdx.map fun x => if Config.tornByteWritten (base + x.2) then x.1.1 else x.1.2) { s with fresh := base + 2 ^ 20 }
      transfer i s sid (rowChecks i.w src stride fs) fs [] (rowRanges src stride) [] torn fun bs => .ok ([], put bs)

/-! ### The stream: ends, waits and signals (R237, R266, R271) -/

/-- MEND: every earlier instruction is complete when its turn comes. -/
def execMend (s : State) : Outcome :=
  streamOp s fun w => checkBlockEnd (modSeq (engDone s w.r.blk false) w.r.blk fun q => { q with st := .idle }) w.r.blk

/-- A word with a bad field (R235). -/
def badWord (s : State) (w : Who) : State := engStop s w 0x41#8 [w.b.seq.next, w.b.seq.word, w.b.seq.ext, 0]

/-- MTILE, memory form. -/
def execMtileMemory (d : BitVec 8) (addr : W64) (s : State) : Outcome :=
  streamOp s fun w =>
    let path := field addr.toNat 60 4
    let stop (c : BitVec 8) : State := engStop s w c [addr, 0, 0, w.b.seq.next]
    if path != 0 && path != 1 && path != 3 then stop 0x14#8
    else if addr.toNat % 16 != 0 then stop 0x13#8
    else (engRead s w 0 [(0, addr, 16)]).run w 0 fun s get =>
      engDone (s.modBlk w.r.blk fun b => setTile b d.toNat (BitVec.ofNat 128 (ofBytes (get 0)))) w.r.blk false

def execMsig (_sc : BitVec 3) (d v : BitVec 8) (s : State) : Outcome :=
  streamOp s fun w =>
    if d.toNat ≥ w.l.lrec.nbctrs then badWord s w
    else match addNb w.b d.toNat v.toNat with
      | none => engStop s w 0x15#8 [d.setWidth 64, 0, 0, w.b.seq.next]
      | some b' => engDone (s.modBlk w.r.blk fun b => { b with nb := b'.nb }) w.r.blk false

/-- MWAIT: satisfied, or the sequencer waits; it stops with cause 0x43 when every group has retired (R263). -/
def execMwait (_sc : BitVec 3) (a : BitVec 8) (v : W32) (s : State) : Outcome :=
  streamOp s fun w =>
    if a.toNat ≥ w.l.lrec.nbctrs then badWord s w
    else if v ≤ (w.b.nb[a.toNat % 16]?).getD 0 then engDone s w.r.blk false
    else checkBlockEnd (modSeq s w.r.blk fun q => { q with st := .waiting }) w.r.blk

/-- SEQUENCER_RESUME: the condition of a waiting sequencer's MWAIT has become true. -/
def execSequencerResume (blk : Nat) (s : State) : Outcome :=
  .next (match s.blocks[blk]? with
    | none => s
    | some b =>
      let r := rawOf b.seq.word b.seq.ext
      if b.st = .resident && b.seq.st == .waiting && r.ext.extractLsb' 0 32 ≤ (b.nb[r.a.toNat % 16]?).getD 0 then
        engDone (modSeq s blk fun q => { q with st := .running }) blk false
      else s)

/-- BAD_STREAM_WORD (R235). -/
def execBadStreamWord (blk : Nat) (word ext : W64) (s : State) : Outcome :=
  .next (match s.blocks[blk]? with
    | none => s
    | some b => match who? s { blk := blk, grp := b.seq.owner } with
      | some w => engStop s w 0x41#8 [b.seq.next, word, ext, 0]
      | none => s)

/-! ### Regions (R268, R269) -/

/-- The checks that come before an instruction has any effect: its descriptors, then its regions (R243, R264). -/
def engChecked (s : State) (w : Who) (fail : Option (Nat × Nat)) (regions : List (Nat × Nat)) (k : State) : State :=
  match fail with
  | some (c, t) => engStop s w 0x40#8 [u64 t, u64 c, ((w.b.seq.td[t]?).getD 0).extractLsb' 64 64, w.b.seq.next]
  | none => match regions.find? fun r => regionBeyond w.l r.1 r.2 with
    | some (n, cnt) => engStop s w 0x4C#8 [u64 n, u64 (n + cnt), u64 w.l.lrec.accregs, w.b.seq.next]
    | none => k

/-- A tile's descriptor as the instruction's decode found it (R266). -/
def tdOf (w : Who) (n : BitVec 8) : W128 := (w.b.seq.td[n.toNat]?).getD 0

/-- MZERO. -/
def execMzero (d n : BitVec 8) (s : State) : Outcome :=
  streamOp s fun w =>
    engChecked s w none [(d.toNat, n.toNat)]
      (engDone (s.modBlk w.r.blk fun b => { b with acc := sfill 0#32 b.acc (regionCells * d.toNat) (List.replicate (regionCells * n.toNat) 0#32) })
        w.r.blk false)

/-- MSCALE's cells of one row-group: a[D] + s × a[A], rounded once. -/
def scaleRows (b : Block) (d a row : Nat) (scale : Nat → Nat → Nat) : List FRes :=
  ((accRows b d row 16).zip (accRows b a row 16)).zipIdx.map fun x =>
    let sc := decodeF .f32 (scale (row + x.2 / 128) (x.2 % 128))
    finishF .f32 .rn (fmaFV .rn sc (decodeF .f32 x.1.2.toNat) (decodeF .f32 x.1.1.toNat))

/-- The row-groups from a row on. -/
def rowGroups (row : Nat) : List Nat := (List.range 8).filterMap fun g => if 16 * g ≥ row then some (16 * g) else none

/-- MSCALE, in row-groups from RPR.ROW. -/
def scaleRun (s : State) (w : Who) (d a : Nat) (scale : Nat → Nat → Nat) : State :=
  engDone ((rowGroups (rprStart w.b).2).foldl (fun s row => match s.blocks[w.r.blk]? with
    | some b => putCells s w.r.blk d row (scaleRows b d a row scale)
    | none => s) s) w.r.blk false

def execMscale (d a : BitVec 8) (m : MScale) (s : State) : Outcome :=
  streamOp s fun w =>
    let d := d.toNat
    let a := a.toNat
    let byTile (t : BitVec 8) (off : BitVec 12) (pick : Nat → Nat → Nat) : State :=
      let tb := tileOf (tdOf w t)
      engChecked s w (checkScale t.toNat tb) [(d, 1), (a, 1)]
        (let s := setRpr s w.r.blk (rprAt 0 (rprStart w.b).2)
         (engRead s w 0 (opSpans tb 0 1 off.toNat 128)).run w (rprStart w.b).2 fun s get =>
          let xs := (opValues tb 1 off.toNat 128 get).headD []
          scaleRun s w d a fun i j => xs.getD (pick i j) 0)
    match m with
    | .scalar x => engChecked s w none [(d, 1), (a, 1)] (scaleRun s w d a fun _ _ => x.toNat)
    | .row t off => byTile t off fun i _ => i
    | .col t off => byTile t off fun _ j => j

/-- A loaded element as the accumulator holds it (R269). -/
def ldaccCell (fmt x : Nat) : W32 :=
  if fmt == 1 || fmt == 10 then u32 x
  else match decodeF (fmtTy fmt) x with
    | .nan _ => 0x7FC00000#32
    | v => u32 (roundTo .f32 .rn false v).bits

/-- MLDACC's row-groups: each is read, written and recorded in RPR; a failure or a wait leaves those before it. -/
def ldaccRows (blk d : Nat) (t : Tile) (r0 c0 : Nat) : List Nat → State → State
  | [], s => engDone s blk false
  | row :: rest, s =>
    match s.blocks[blk]? with
    | none => s
    | some b => match who? s { blk := blk, grp := b.seq.owner } with
      | none => s
      | some w =>
        (engRead s w (row / 16) (opSpans t (r0 + row) 16 c0 128)).run w row fun s get =>
          let xs := (opValues t 16 c0 128 get).flatMap fun r => r.map (ldaccCell t.fmt)
          let s := setRpr (setAccRows s blk d row xs) blk (rprAt 0 ((row + 16) % 128))
          ldaccRows blk d t r0 c0 rest (dropAnswers s blk)

def execMldacc (d a : BitVec 8) (xr xk : BitVec 12) (s : State) : Outcome :=
  streamOp s fun w =>
    let t := tileOf (tdOf w a)
    engChecked s w (checkLdacc a.toNat t) [(d.toNat, 1)]
      (ldaccRows w.r.blk d.toNat t xr.toNat xk.toNat (rowGroups (rprStart w.b).2) (setRpr s w.r.blk (rprAt 0 (rprStart w.b).2)))

/-- MCHK's tiles, one after another: the first whose trailer fails, or that cannot be read, stops it (R269). -/
def mchkTiles (w : Who) (fmt : Nat) : List Nat → Nat → State → State
  | [], _, s => engDone s w.r.blk false
  | t :: rest, phase, s => (engRead s w phase (tileSpans fmt [t])).run w 0 fun s get =>
      match checkTiles fmt get [t] with
      | some (at_, k, mine, theirs) => engStop s w 0x44#8 [at_, u64 k, u64 mine, u64 theirs]
      | none => mchkTiles w fmt rest (phase + 1) s

def execMchk (a : BitVec 8) (xr xk : BitVec 12) (xn : BitVec 8) (s : State) : Outcome :=
  streamOp s fun w =>
    let t := tileOf (tdOf w a)
    engChecked s w (checkMchk a.toNat t xr.toNat xk.toNat) []
      (mchkTiles w t.fmt ((List.range (xn.toNat + 1)).flatMap fun i => tilesAt t xr.toNat 1 (xk.toNat + 32 * i) 32) 0 s)

/-! ### MMA, MMAS and their passes (R242 to R250, R267) -/

/-- An instruction's passes are to be run, from where RPR says that it goes on (R232, R244). -/
def reserve (s : State) (w : Who) : State :=
  let p := rprStart w.b
  s.modBlk w.r.blk fun b => { b with rpr := rprAt p.1 p.2, seq := { b.seq with busy := true } }

def execMma (ck isat : Bool) (d a b : BitVec 8) (x : MatExt) (s : State) : Outcome :=
  streamOp s fun w =>
    let ta := tdOf w a
    let tb := tdOf w b
    engChecked s w (checkMma a.toNat b.toNat (tileOf ta) (tileOf tb) ck isat x) [(d.toNat, 1)] (reserve s w)

def execMmas (d a b c : BitVec 8) (x : MatExt) (s : State) : Outcome :=
  streamOp s fun w =>
    let ta := tdOf w a
    let tb := tdOf w b
    let tc := tdOf w c
    engChecked s w (checkMmas a.toNat b.toNat c.toNat (tileOf ta) (tileOf tb) (tileOf tc) x) [(d.toNat, 1)] (reserve s w)

/-- A pass: the instruction's operands with the offsets of this pass. -/
structure Pass where
  sparse : Bool
  ck     : Bool
  isat   : Bool
  d      : Nat
  p      : Nat
  np     : Nat
  ar     : Nat
  bc     : Nat
  /-- The effective K offset, and the stored K offset of tA. -/
  k0     : Nat
  ka     : Nat
  kc     : Nat
  ta     : W128
  tb     : W128
  tc     : W128
  deriving DecidableEq, Repr

/-- The pass that a busy sequencer is to run. -/
def passOf (b : Block) : Option Pass :=
  let q := b.seq
  let p := (rprStart b).1
  let td (n : BitVec 8) : W128 := (q.td[n.toNat]?).getD 0
  let mk (sparse ck isat : Bool) (d a b c : BitVec 8) (x : MatExt) : Pass :=
    let kc := if sparse then 128 else fmtKc (tileOf (td a)).fmt
    let k0 := x.xk.toNat + p * kc
    { sparse := sparse, ck := ck, isat := isat, d := d.toNat, p := p, np := x.xn.toNat + 1, ar := x.xr.toNat, bc := x.xb.toNat,
      k0 := k0, ka := if sparse then k0 / 2 else k0, kc := kc, ta := td a, tb := td b, tc := td c }
  match decodeStream q.word q.ext with
  | some (.mma ck isat d a b x) => some (mk false ck isat d a b 0 x)
  | some (.mmas d a b c x) => some (mk true false false d a b c x)
  | _ => none

/-- The K extent of tA's elements in a pass. -/
def Pass.na (p : Pass) : Nat := if p.sparse then 64 else p.kc

/-- Whether an operand is held from the block's last pass, as wide along K as this pass needs it (R242). -/
def heldRows (b : Block) (side : Nat) (t : W128) (r k nk : Nat) : Option (List (List Nat)) :=
  (b.seq.held.find? fun h => h.side == side && h.desc == t && h.r == r && h.k == k && h.nk == nk).map (·.rows)

/-- CheckPass (R247, R249, R250): trailers, then metadata; the nibbles of the pass when nothing fails. -/
def checkPass (s : State) (w : Who) (p : Pass) (k : State → List (List (Option Nat)) → State) : State :=
  let ta := tileOf p.ta
  let tb := tileOf p.tb
  let row := (rprStart w.b).2
  let fresh (side : Nat) (t : W128) (r kk nk : Nat) (ts : List Nat) : List Nat :=
    if p.ck && (heldRows w.b side t r kk nk).isNone then ts else []
  let ts := distinctAsc (fresh 0 p.ta p.ar p.ka p.na (tilesAt ta p.ar 128 p.k0 p.kc) ++ fresh 1 p.tb p.bc p.k0 p.kc (tilesAt tb p.bc 128 p.k0 p.kc))
  (engRead s w 8 (tileSpans ta.fmt ts)).run w row fun s get =>
    match checkTiles ta.fmt get ts with
    | some (at_, c, mine, theirs) => engStop s w 0x44#8 [at_, u64 c, u64 mine, u64 theirs]
    | none =>
      if !p.sparse then k s []
      else
        let tc := tileOf p.tc
        let g0 := p.k0 / 4
        let held := heldRows w.b 2 p.tc p.ar p.k0 128
        let spans := if held.isSome then [] else metaSpans tc p.ar g0
        (engRead s w 9 spans).run w row fun s get =>
          let ns : List (List (Option Nat)) := match held with
            | some h => h.map fun r => r.map fun x => if x == 0 then none else some (x - 1)
            | none => (List.range 128).map fun i => (List.range 32).map fun g => nibble tc p.ar g0 get i g
          match illegalNibble ns with
          | some (i, g, x) => engStop s w 0x4A#8 [tc.base + u64 ((p.ar + i) * tc.stride + (g0 + g) / 2), u64 (p.p * 2 ^ 16 + i * 2 ^ 8 + g), u64 x, w.b.seq.next]
          | none => k s ns

/-- The sixteen rows of A in a row-group, as effective elements; `held` rows are not read again. -/
def loadA (s : State) (w : Who) (p : Pass) (row : Nat) (held : Option (List (List Nat))) : Eng (List (List Nat)) :=
  match held with
  | some h => .go s ((h.drop row).take 16)
  | none =>
    let t := tileOf p.ta
    match engRead s w (row / 16) (opSpans t (p.ar + row) 16 p.ka p.na) with
    | .go s get => .go s (opValues t 16 p.ka p.na get)
    | .stop s c a o => .stop s c a o
    | .rest s => .rest s

def loadB (s : State) (w : Who) (p : Pass) (got : Option (List (List Nat))) : Eng (List (List Nat)) :=
  match got with
  | some h => .go s h
  | none =>
    let t := tileOf p.tb
    match engRead s w 10 (opSpans t p.bc 128 p.k0 p.kc) with
    | .go s get => .go s (opValues t 128 p.k0 p.kc get)
    | .stop s c a o => .stop s c a o
    | .rest s => .rest s

/-- The cells of a row-group after the pass (R245, R246). -/
def accumulate (p : Pass) (cells : List W32) (as bs : List (List Nat)) : List FRes :=
  let fa := (tileOf p.ta).fmt
  if fa == 6 then
    let ai := as.map fun r => r.map (signedOf 8)
    let bi := bs.map fun r => r.map (signedOf 8)
    (cells.zip (ai.flatMap fun a => bi.map fun b => (a, b))).map fun x => accumI p.isat x.1 x.2.1 x.2.2
  else
    let av := as.map fun r => r.map (decodeF (fmtTy fa))
    let bv := bs.map fun r => r.map (decodeF (fmtTy (tileOf p.tb).fmt))
    (cells.zip (av.flatMap fun a => bv.map fun b => (a, b))).map fun x => accumF x.1 x.2.1 x.2.2

/-- The end of a pass: PI moves on and the operands stay for the next (R242, R244); the last pass completes the
instruction. -/
def endPass (s : State) (blk : Nat) (p : Pass) (held : List Held) : State :=
  let s := modSeq (dropAnswers s blk) blk fun q => { q with held := held, entries := q.entries - 1, again := false }
  if p.p + 1 ≥ p.np then engDone s blk true else setRpr s blk (rprAt (p.p + 1) 0)

/-- What a pass has loaded, as it is held (R242): of A the rows so far, under the numbers given; and B. -/
def Pass.heldA (p : Pass) (side : Nat) (as : List (List Nat)) : Held := { side := side, desc := p.ta, r := p.ar, k := p.ka, nk := p.na, rows := as }
def Pass.heldB (p : Pass) (side : Nat) (b : List (List Nat)) : Held := { side := side, desc := p.tb, r := p.bc, k := p.k0, nk := p.kc, rows := b }

/-- The metadata of a pass as it is held: each nibble plus 1, 0 out of range. -/
def Pass.heldC (p : Pass) (ns : List (List (Option Nat))) : List Held :=
  if p.sparse then [{ side := 2, desc := p.tc, r := p.ar, k := p.k0, nk := 128, rows := ns.map fun r => r.map fun n => match n with
    | some x => x + 1
    | none => 0 }] else []

/-- Keep what a pass on its way has loaded: after a wait it goes on with that. -/
def keepLoaded (s : State) (blk : Nat) (p : Pass) (as b : List (List Nat)) : State :=
  modSeq s blk fun q => { q with held := p.heldA 3 as :: p.heldB 4 b :: q.held.filter fun h => h.side < 3 }

/-- The row-groups of a pass: the rows of A loaded so far, and B once it is loaded. -/
def passRows (blk : Nat) (p : Pass) (ns : List (List (Option Nat))) (heldA : Option (List (List Nat))) :
    List Nat → List (List Nat) → Option (List (List Nat)) → State → State
  | [], as, b, s =>
    endPass s blk p ((if as.length = 128 then [p.heldA 0 as] else []) ++ (match b with
      | some b => [p.heldB 1 b]
      | none => []) ++ p.heldC ns)
  | row :: rest, as, b, s =>
    match s.blocks[blk]? with
    | none => s
    | some bl => match who? s { blk := blk, grp := bl.seq.owner } with
      | none => s
      | some w =>
        (loadA s w p row heldA).run w row fun s a =>
          (loadB s w p b).run w row fun s bb =>
            let eff := if p.sparse then (a.zip ((ns.drop row).take 16)).map fun x => sparseRow x.1 x.2 else a
            let s := putCells s blk p.d row (accumulate p (accRows bl p.d row 16) eff bb)
            let s := setRpr s blk (if row + 16 = 128 then rprAt (p.p + 1) 0 else rprAt p.p (row + 16))
            passRows blk p ns heldA rest (as ++ a) (some bb) (keepLoaded s blk p (as ++ a) bb)

/-- Run the pass of a busy sequencer (R244). One that goes on after a wait holds what it had loaded. -/
def runPass (s : State) (w : Who) : State :=
  match passOf w.b with
  | none => s
  | some p =>
    let row := (rprStart w.b).2
    let sofar (side : Nat) (t : W128) (r k nk : Nat) : Option (List (List Nat)) := if row == 0 then none else heldRows w.b side t r k nk
    let b := match sofar 4 p.tb p.bc p.k0 p.kc with
      | some b => some b
      | none => heldRows w.b 1 p.tb p.bc p.k0 p.kc
    checkPass s w p fun s ns =>
      passRows w.r.blk p ns (heldRows w.b 0 p.ta p.ar p.ka p.na) (rowGroups row) ((sofar 3 p.ta p.ar p.ka p.na).getD []) b s

/-- The blocks of a quad that have an entry, but those that wait for the fault service (R232, R248). -/
def busyBlocks (s : State) (quad : Nat) : List Nat :=
  (List.range s.blocks.length).filter fun i => match s.blocks[i]? with
    | some b => b.st = .resident && b.seq.busy && decide (0 < b.seq.entries) && b.seq.st == .running && !b.seq.svc && quadOf b.core == quad
    | none => false

/-- The next of some blocks in round-robin order after the one served last, given plus 1 (R232). -/
def roundRobin (bs : List Nat) (last : Nat) : Option Nat := ((bs.filter (last ≤ ·)) ++ bs).head?

/-- Another block's pass ends what the quad's other blocks hold (R242). -/
def dropHeld (s : State) (quad blk : Nat) : State :=
  (List.range s.blocks.length).foldl (fun s i => match s.blocks[i]? with
    | some b => if i != blk && quadOf b.core == quad && !b.seq.held.isEmpty then modSeq s i fun q => { q with held := [] } else s
    | none => s) s

/-- MATRIX_PASS: the arbiter of a quad runs the oldest entry of the next block in round-robin order (R232). -/
def execMatrixPass (quad : Nat) (s : State) : Outcome :=
  .next (match roundRobin (busyBlocks s quad) (sget 0 s.arbiter quad) with
    | none => s
    | some i => match (s.blocks[i]?).bind fun b => who? s { blk := i, grp := b.seq.owner } with
      | some w => runPass { dropHeld s quad i with arbiter := sset 0 s.arbiter quad (i + 1) } w
      | none => s)

/-! ### MDRAIN (R251 to R255, R269) -/

/-- What a drain writes: its pieces with their bytes, the row each is written with, and the cells for flags, NaNs and the
largest magnitude. -/
structure DrainPlan where
  pieces : List (Nat × W64 × List Byte)
  flags  : BitVec 7
  mag    : Nat
  mnan   : Bool
  first  : Option (Nat × Nat × W64)
  deriving DecidableEq, Repr

/-- The first NaN cell in row-major order, from the cells that are written. -/
def firstNan (cells : List (Nat × Nat × Drained)) (at_ : Nat → Nat → W64) : Option (Nat × Nat × W64) :=
  (cells.find? fun c => c.2.2.nan).map fun c => (c.1, c.2.1, at_ c.1 c.2.1)

/-- A drain to a format that is not ZB: cells in range, converted, and laid out in the pieces of each row-group. -/
def plainDrain (w : Who) (td : Tile) (region : Nat) (sat : Bool) (r0 c0 : Nat) : DrainPlan :=
  let es := fmtSize td.fmt
  let base := w.b.seq.drain * 2 ^ 20
  let grid : List (List Drained) := (List.range 128).map fun i =>
    ((accRows w.b region i 1).zipIdx).map fun x => drainCell td.fmt sat w.b.seq.seed (base + 128 * i + x.2) x.1.toNat
  let cell (i j : Nat) : Drained := (grid.getD i []).getD j { bits := 0, flags := 0, nan := false, mag := 0 }
  let inR (i j : Nat) : Bool :=
    if td.tr then decide (c0 + j < td.rows) && decide (r0 + i < td.cols) else decide (r0 + i < td.rows) && decide (c0 + j < td.cols)
  let cells := (List.range 128).flatMap fun i => (List.range 128).filterMap fun j => if inR i j then some (i, j, cell i j) else none
  let at_ (i j : Nat) : W64 := td.base + u64 (if td.tr then (c0 + j) * td.stride + (r0 + i) * es else (r0 + i) * td.stride + (c0 + j) * es)
  { pieces := (rowGroups 0).flatMap fun row => (opSpans td (r0 + row) 16 c0 128).map fun p =>
      (row, p.2.1, (List.range (p.2.2 / es)).flatMap fun k =>
        toBytes es (if td.tr then cell (row + k) p.1 else cell (row + p.1) k).bits),
    flags := (cells.map fun c => c.2.2.flags).foldl (· ||| ·) 0, mag := (cells.map fun c => c.2.2.mag).foldl max 0,
    mnan := cells.any fun c => c.2.2.nan, first := firstNan cells at_ }

/-- A drain to quantised tiles: four tiles of 128 rows by 32 columns, each with its trailer (R252). -/
def zbDrain (w : Who) (td : Tile) (region r0 c0 : Nat) : DrainPlan :=
  let zf := fmtZf td.fmt
  let m := fmtM td.fmt
  let bb := zbBytes m
  let base := w.b.seq.drain * 2 ^ 20
  let rows : List (List Nat) := (List.range 128).map fun i => (accRows w.b region i 1).map (·.toNat)
  let tile (t : Nat) : List Quant := rows.zipIdx.flatMap fun r => (List.range 2).map fun h =>
    let j := 32 * t + 16 * h
    quantBlock m w.b.seq.seed (base + 128 * r.2 + j) ((r.1.drop j).take 16)
  let at_ (t : Nat) : W64 := td.base + u64 (r0 / 128 * td.stride + (c0 + 32 * t) / 32 * (tilePayload m + 16))
  let ts := (List.range 4).map fun t => (t, tile t)
  let bytes (qs : List Quant) : List Byte :=
    let payload := qs.flatMap (·.bytes)
    payload ++ trailerOf zf m payload ((qs.map (·.sat)).foldl (· + ·) 0) (qs.any fun q => q.und > 0) (qs.any (·.inf))
  let cells := (List.range 128).flatMap fun i => ts.flatMap fun t => (List.range 2).flatMap fun h =>
    let q := t.2.getD (2 * i + h) { bytes := [], sat := 0, nan := 0, und := 0, inf := false, flags := 0 }
    (unpackBlock m q.bytes).zipIdx.map fun e =>
      (i, 32 * t.1 + 16 * h + e.2, ({ bits := 0, flags := q.flags, nan := e.1.isNone,
                                      mag := if e.1.isNone then 0 else elemF32 e.1 % 2 ^ 31 } : Drained))
  -- sixteen rows of a tile are 32 blocks; the trailers come with the last rows (R248)
  { pieces := (rowGroups 0).flatMap (fun row => ts.map fun t => (row, at_ t.1 + u64 (2 * row * bb), ((bytes t.2).drop (2 * row * bb)).take (32 * bb)))
      ++ ts.map fun t => (112, at_ t.1 + u64 (tilePayload m), (bytes t.2).drop (tilePayload m)),
    flags := (cells.map fun c => c.2.2.flags).foldl (· ||| ·) 0, mag := (cells.map fun c => c.2.2.mag).foldl max 0,
    mnan := cells.any fun c => c.2.2.nan,
    first := firstNan cells fun i j => at_ (j / 32) + u64 ((2 * i + j % 32 / 16) * bb) }

/-- Write the pieces of the rows before the first that cannot be reached: what remains to be said of that one. -/
def drainPieces (s : State) (w : Who) (ps : List (Nat × W64 × List Byte)) : State × Option (Nat × W64 × Fate) :=
  let (s, fs) := engFates s w .dst ((ps.zipIdx).map fun x => (x.2, x.1.2.1, x.1.2.2.length))
  let rowOf (k : Nat) : Nat := ((ps[k]?).map (·.1)).getD 0
  let bytesOf (k : Nat) : List Byte := ((ps[k]?).map (·.2.2)).getD []
  let bad : Option (Nat × W64 × Fate) := fs.findSome? fun x => match x.2.2.2 with
    | .ok _ => none
    | f => some (rowOf x.1, x.2.1, f)
  match bad with
  | some (_, _, .unmapped) => (s, bad)
  | _ =>
    let stop := match bad with
      | some (row, _) => row
      | none => 128
    -- the pieces of one span follow one another: their places in its bytes are the lengths before them
    let r := fs.foldl (fun (acc : State × Nat × Nat) x =>
      let off := if x.1 == acc.2.1 then acc.2.2 else 0
      let s := if rowOf x.1 < stop then (match x.2.2.2 with
          | .ok loc => storeLane acc.1 w (engPos w.b) x.2.1 loc (((bytesOf x.1).drop off).take x.2.2.1) none
          | _ => acc.1) else acc.1
      (s, x.1, off + x.2.2.1)) (s, ps.length, 0)
    (r.1, bad)

/-- The number of a merge at another device among the sequencer's requests. -/
def mergeKey : Nat := 2 ^ 61

/-- The merge of the largest magnitude (R254): an unsigned maximum, buffered for a shared line in Equinox mode. -/
def mergeMax (s : State) (w : Who) (a : W64) (loc : Loc) (x : Nat) : State :=
  match loc with
  | .dev d pa slot =>
    let r := sendTo (setPte s slot 16) d (.atom pa 2 4 (u64 x)) true
    modSeq r.1 w.r.blk fun q => { q with sent := q.sent ++ [(mergeKey, r.2)] }
  | .mem pa slot _ =>
    if buffered s w (engPos w.b) a then bufferOp (setPte s slot 16) w.b.launch (engPos w.b) (.max pa (u32 x))
    else locWrite s loc (toBytes 4 (max (ofBytes (locBytes s 4 loc)) x))
  | loc => locWrite s loc (toBytes 4 (max (ofBytes (locBytes s 4 loc)) x))

/-- The word the merge reaches, checked as an ATOM's (R145, R248). A merge at another device waits for the frontier, for it can be
buffered nowhere (R335). -/
def mergeWord (s : State) (w : Who) (a : W64) : Eng Loc :=
  let q : Req := { cls := .atomic, write := true, reads := false, size := 4, align := 4, retry := w.b.seq.again, engine := true }
  let (s, f) := resolve s w q a
  let far := match f with
    | .ok (.dev ..) => true
    | _ => false
  match engGate s w 6 12 false far [(0, a, 4, f)] with
  | .rest s => .rest s
  | .stop s c va o => .stop s c va o
  | .go s _ => match f with
    | .ok loc => if locPoisoned s 4 loc then .stop s 0xE0#8 a none else .go s loc
    | _ => .rest s

/-- The end of a drain: flags, then the NaN trap (R251, R255). -/
def endDrain (s : State) (w : Who) (p : DrainPlan) : State :=
  let s := addBflags s w.r.blk (p.flags ||| flagIf p.mnan fMNAN)
  match p.first with
  | some (i, j, a) =>
    if w.b.nantrap.getLsbD 0 then
      engStop (s.modBlk w.r.blk fun b => { b with nantrap := b.nantrap &&& ~~~(1#32) }) w 0x48#8
        [u64 (i * 2 ^ 16 + j), u64 w.b.seq.drain, a, w.b.seq.next]
    else engDone s w.r.blk false
  | none => engDone s w.r.blk false

/-- A drain whose merge is on its way to another device ends when its answer is there. -/
def drainMerged (s : State) (w : Who) (p : DrainPlan) (a : W64) (id : Nat) : State :=
  let bs := sget [] s.answers id
  if bs.isEmpty then s
  else if answerBad bs then engStop s w 0xE0#8 [a, 128, 0, w.b.seq.next]
  else endDrain s w p

/-- The element writes, the merge, and the end. A page that is not mapped, anywhere, makes the drain wait whole (R248). -/
def writeDrain (s : State) (w : Who) (p : DrainPlan) (mx : Option W64) : State :=
  let merged (s : State) (a : W64) (loc : Loc) : State := match loc with
    | .dev .. => mergeMax s w a loc p.mag
    | _ => endDrain (mergeMax s w a loc p.mag) w p
  let before := s
  let finish (s : State) (word : Option (W64 × Loc)) : State :=
    let lines := p.pieces.flatMap fun x => lineAddrs x.2.1 x.2.2.length
    -- a write at another device waits for the frontier, as a group's does (R335)
    let far := p.pieces.any fun x => field x.2.1.toNat 60 4 == 6 && field x.2.1.toNat 48 10 != s.device
    match equinoxGate s w (engPos w.b) lines false far with
    | .wait => s
    -- the merge's line is not taken either (R334)
    | .trap _ a owner me => engStop before w 0xB5#8 [a, owner, me, w.b.seq.next]
    | .full s => terminateWith s w.r.blk 0xB6#8 []
    | .go s =>
      match drainPieces s w p.pieces with
      | (s, some (_, va, .unmapped)) => engService s w va true
      | (s, some (row, va, .fail _ c _)) => engStop s w c [va, u64 row, 0, w.b.seq.next]
      | (s, some (row, va, _)) => engStop s w 0x18#8 [va, u64 row, 0, w.b.seq.next]
      | (s, none) =>
        let s := engLookups s w 6 11 (p.pieces.map fun x => (0, x.2.1, x.2.2.length, Fate.unmapped))
        match word, mx with
        | some (a, loc), _ => merged s a loc
        | none, some a => (mergeWord s w a).run w 128 fun s loc => merged s a loc
        | none, none => endDrain s w p
  match mx with
  | none => finish s none
  | some a =>
    -- the merge's page is looked for first, so that a wait repeats no write; its other failures come after the writes
    match mergeWord s w a with
    | .go s loc => finish s (some (a, loc))
    | .rest s' => s'
    | .stop .. => finish s none

def runDrain (s : State) (w : Who) (p : DrainPlan) (mx : Option W64) : State :=
  match mx, w.b.seq.sent.find? fun x => x.1 == mergeKey with
  | some a, some x => drainMerged s w p a x.2
  | _, _ => writeDrain s w p mx

def execMdrain (sat mx : Bool) (d a b : BitVec 8) (xr xk : BitVec 12) (s : State) : Outcome :=
  streamOp s fun w =>
    let td := tileOf (tdOf w d)
    let tb := tileOf (tdOf w b)
    let r0 := xr.toNat
    let c0 := xk.toNat
    engChecked s w (checkDrain d.toNat td sat (if mx then some (b.toNat, tb) else none) r0 c0) [(a.toNat, 1)]
      (runDrain s w (if fmtZb td.fmt then zbDrain w td a.toNat r0 c0 else plainDrain w td a.toNat sat r0 c0)
        (if mx then some tb.base else none))

end Sys2Proof.Machine
end

