-- ==== Sys2Proof/Machine/Monitors.lean ====
section
/-! DEFINITION. Conservation monitors, OPC 0xD8 to 0xDC (R275 to R277, R283, R285 to R287). What they count and how they merge
stands in Access.lean and Sweep.lean. -/
namespace Sys2Proof.Machine

/-- Wait until every earlier write of the group has been counted (R285): its side log is empty and no counted write of it
waits in a commit buffer; a tile that holds the frontier applies its own. -/
def countedFirst (i : Iss) (k : State → Act) : Act :=
  if !i.g.sideLog.isEmpty then .again i.s
  else
    let waits (l : Launch) : Bool := l.bufs.any fun b => b.ops.any fun o => match o with
      | .store _ bs (some t) => t.who = i.w.r && t.phases.any fun p => counts i.w.b t bs.length p
      | .red _ _ wd _ (some t) => t.who = i.w.r && t.phases.any fun p => counts i.w.b t (atomSize wd.toNat) p
      | _ => false
    if !waits i.w.l then k i.s
    else if tilePos i.w == some i.w.l.frontier then k (applyBuf i.s i.w.b.launch i.w.l.frontier)
    else .again i.s

/-- The monitor a form names; one beyond the declaration raises 0x72 with TVAL1 = 1 (R275). TVAL0 is not stated. -/
def bad72 (i : Iss) (s : State) (check : Nat) : Act := .trap s 0x72#8 i.act [Config.openTval s.fresh 0, u64 check]

def withMonitor (i : Iss) (m : BitVec 8) (k : State → Monitor → Act) : Act :=
  if m.toNat ≥ i.w.b.mons.length then bad72 i i.s 1
  else countedFirst i fun s => match (s.blocks[i.w.r.blk]?).bind (·.mons[m.toNat]?) with
    | some x => k s x
    | none => bad72 i s 1

def setMonitor (s : State) (blk n : Nat) (m : Monitor) : State := s.modBlk blk fun b => { b with mons := b.mons.set n m }

/-- The block's current phase of a barrier (R280): the lowest whose partial it has not sent. -/
def blockPhase (l : Launch) (blk : Nat) (b : Block) (n : Nat) : W32 :=
  let x := barInst l n (barKey l blk b n)
  if x.sent.contains blk then x.phase + 1 else x.phase

/-- The first failing check of a configuration (R276): a check number of cause 0x72, or cause 0xB0. -/
inductive CfgCheck where
  | ok
  | bad (check : Nat)
  | grid
  deriving DecidableEq, Repr

def checkConfig (l : Launch) (x : Vector W32 8) : CfgCheck :=
  let m : Monitor := { cfg := x, ref := 0, bound := 0, st := .off, nf := false, ov := false, ls := false, dr := false, mg := 0,
                       c := 0, cur := 0, nxt := 0, phase := 0, epoch := 0, past := [] }
  let path := field (monWB m) 60 4
  let fs := monFieldSize m
  let fo := field x[4].toNat 0 16
  let rs := x[3].toNat
  if path > 1 then .bad 2
  else if monFF m > 3 || field x[4].toNat 28 4 != 0 || field x[4].toNat 22 2 != 0 || field x[5].toNat 7 25 != 0 || x[6] != 0#32 || x[7] != 0#32 then
    .bad 3
  else if rs % fs != 0 || (monWB m + fo) % fs != 0 || fo + fs > rs then .bad 4
  else match barrierCause l (monBN m) none with
    | none => if barScope l (monBN m) == 0 || barScope l (monBN m) > 5 then .bad 5 else .ok
    | some 0xB0#8 => .grid
    | some _ => .bad 5

/-- What MONCFG and MONCLR leave of a monitor's sums and status: nothing, but the partials as they stand for the block's writes
that are still to be performed (R276, R286, R287). A broken monitor counts none of them (R281). -/
def cleared (l : Launch) (blk : Nat) (b : Block) (n : Nat) (m : Monitor) : Monitor :=
  let waits (e : Nat) : Bool := (pendingTallies l blk b).any fun p => p.mon == n && p.epoch == e
  { m with st := .run, nf := false, ov := false, ls := false, dr := false, mg := 0, c := 0, cur := 0, nxt := 0, epoch := m.epoch + 1,
           past := (if m.st == .broken then m.past
             else { epoch := m.epoch, cfg := m.cfg, phase := m.phase, cur := m.cur, nxt := m.nxt } :: m.past).filter fun z => waits z.epoch }

/-- MONCFG (R276). -/
def execMoncfg (h : Hdr) (d a : BitVec 8) (s : State) : Outcome :=
  issue h false true { reads := (List.range 8).map fun k => Reg.s (a.toNat + k) } s fun i =>
    withMonitor i d fun s m =>
      let c : Vector W32 8 := Vector.ofFn fun k => readS i.g (a.toNat + k.val)
      match checkConfig i.w.l c with
      | .bad k => bad72 i s k
      | .grid => .trap s 0xB0#8 i.act []
      | .ok =>
        let x := { cleared i.w.l i.w.r.blk i.w.b d.toNat m with cfg := c }
        .done (setMonitor s i.w.r.blk d.toNat { x with phase := blockPhase i.w.l i.w.r.blk i.w.b (monBN x) })

/-- MONREF (R286). -/
def execMonref (h : Hdr) (d a b : BitVec 8) (s : State) : Outcome :=
  issue h false true { reads := (List.range 4).map (fun k => Reg.s (a.toNat + k)) ++ regsOf true true b } s fun i =>
    withMonitor i d fun s m =>
      if m.st == .off then bad72 i s 6
      else .done (setMonitor s i.w.r.blk d.toNat
        { m with ref := readSS i.g (a.toNat + 2) ++ readSS i.g a.toNat, bound := readSS i.g b.toNat })

/-- The status word (R283). -/
def statusWord (m : Monitor) : Nat :=
  (match m.st with | .off => 0 | .run => 1 | .stopped => 2 | .broken => 3) * 2 ^ 30
    + (if m.nf then 2 ^ 29 else 0) + (if m.ov then 2 ^ 28 else 0) + (if m.ls then 2 ^ 27 else 0) + (if m.dr then 2 ^ 26 else 0)
    + monBN m * 2 ^ 16 + m.mg

/-- The eight registers of a 256-bit sum, low word first. -/
def sumWrites (d : BitVec 8) (x : Int) : List RegWrite :=
  (List.range 8).map fun k => RegWrite.s (d.toNat + k) (u32 (wrapTo 256 x / 2 ^ (32 * k)))

/-- The three forms of MONRD (R286): what is read into s[D] and on. -/
def readMonitor (h : Hdr) (d a : BitVec 8) (n : Nat) (s : State) (f : Monitor → List RegWrite) : Outcome :=
  issue h false true { writes := (List.range n).map fun k => Reg.s (d.toNat + k) } s fun i =>
    withMonitor i a fun s m => .later s (f m) FlagSet.none

def execMonrdC (h : Hdr) (d a : BitVec 8) (s : State) : Outcome := readMonitor h d a 8 s fun m => sumWrites d m.c
def execMonrdP (h : Hdr) (d a : BitVec 8) (s : State) : Outcome := readMonitor h d a 8 s fun m => sumWrites d m.cur
def execMonrdSt (h : Hdr) (d a : BitVec 8) (s : State) : Outcome :=
  readMonitor h d a 1 s fun m => [RegWrite.s d.toNat (u32 (statusWord m))]

/-- MONCLR (R286). -/
def execMonclr (h : Hdr) (d : BitVec 8) (s : State) : Outcome :=
  issue h false true {} s fun i =>
    withMonitor i d fun s m =>
      if m.st == .off then bad72 i s 6
      else .done (setMonitor s i.w.r.blk d.toNat
        { cleared i.w.l i.w.r.blk i.w.b d.toNat m with phase := blockPhase i.w.l i.w.r.blk i.w.b (monBN m) })

/-- MONSTP (R286). -/
def execMonstp (h : Hdr) (d : BitVec 8) (s : State) : Outcome :=
  issue h false true {} s fun i =>
    withMonitor i d fun s m =>
      .done (if m.st == .run then setMonitor s i.w.r.blk d.toNat { m with st := .stopped } else s)

end Sys2Proof.Machine
end

