-- ==== Sys2Proof/Machine/Save.lean ====
section
/-! DEFINITION. Context save (R315): the group and block save records (R41 to R45, R177, R262, R284, R294, R305), eviction,
and what a restore reads back. Fields that no record holds stay in the evicted block (log 31). -/
namespace Sys2Proof.Machine

/-! ### Reading fields of a record -/

/-- The little-endian number in `n` bytes of a record. -/
def fieldAt (bs : List Byte) (off n : Nat) : Nat := ofBytes ((bs.drop off).take n)

/-- Words as bytes and back. -/
def wordBytes (xs : List W32) : List Byte := xs.flatMap fun x => toBytes 4 x.toNat
def bytesWords : List Byte → List W32
  | a :: b :: c :: d :: t => (d ++ c ++ b ++ a) :: bytesWords t
  | _ => []
def wordsAt (bs : List Byte) (off n : Nat) : List W32 := bytesWords ((bs.drop off).take (4 * n))

/-- A register file written from words. -/
def fromWords (xs : List W32) : SMap W32 := sfill 0#32 [] 0 xs

/-! ### The group record (R41 to R44, R294, R305) -/

/-- A position word (R41, offset 0x010). -/
def levelPos (v : Level) : Nat := let p := posOf v; posWord p.1 p.2

/-- A level put back at a saved position (R85). Until its block's header has been found again, LEN is no more than known to reach
that position (R61). -/
def Level.atPos (v : Level) (x : Nat) : Level :=
  let m := BitVec.ofNat 16 (field x 0 16)
  let k := field x 16 12
  if m == 0xFFFF#16 then { v with label := m, ord := 0, phase := .sweepEnd }
  else if k == 0 then { v with label := m, ord := 0, phase := .enter m false }
  else { v with label := m, ord := k, len := k, phase := .find }

def pqBytes (v : Level) : List Byte := wordBytes v.p.toList ++ toBytes 4 v.q.toNat

/-- A handler frame, 128 bytes (R294). -/
def frameBytes (f : HandlerFrame) : List Byte :=
  layout [(f.cause.toNat, 4), (f.emask.toNat, 4), (f.epos.toNat, 8)] ++ layout (f.tval.toList.map fun x => (x.toNat, 8)) ++
    layout ((List.range 32).map fun l => (if wlOf f.lvl l ≥ 0xFF#16 then 0xFF else (wlOf f.lvl l).toNat, 1)) ++
    layout [((maskOf fun l => riOf f.lvl l != 0#12).toNat, 4), (levelPos f.lvl, 4), (f.lvl.swc.toNat, 4)] ++
    pqBytes f.lvl ++ toBytes 4 0

/-- A side-log entry, 16 + 24n bytes (R305). -/
def sideBytes (e : SideEntry) : List Byte :=
  layout [(e.mask.toNat, 4), (e.kind, 1), (e.wd.toNat, 1), (e.sid.toNat + 16 * e.sc.toNat, 1), (e.ord.toNat + 4 * e.op.toNat, 1),
    (e.items.length, 4), (0, 4)] ++ e.items.flatMap fun it => layout [(it.2.1, 8), (it.2.2.toNat, 16)]

/-- The outstanding counters (R167). -/
def outCounts (g : Group) : List Nat := [outstanding g .copy, outstanding g .gather, outstanding g .coll]

/-- A group's save record (R41 to R43). -/
def groupRecord (diag : Bool) (g : Group) : List Byte :=
  let v := g.lvl
  let head := g.calls.length * 2 ^ 29 + g.nv * 2 ^ 20 + g.depth * 2 ^ 18 + (tagOf g 0).toNat * 2 ^ 12 + 1
  let frame (d : Nat) : List Byte := match g.frameAt d with
    | some f => frameBytes f
    | none => List.replicate 128 0#8
  layout [(head, 4), (v.swc.toNat, 4), (v.base.toNat, 8), (levelPos v, 4), ((readFlags diag g).toNat, 4), (g.sfm.toNat, 4),
      (g.dropcnt.toNat, 4), (g.chkmode.toNat, 4), (v.q.toNat, 4)] ++
    layout ((outCounts g).map fun n => (n, 4)) ++ wordBytes v.p.toList ++ List.replicate 48 0#8 ++
    layout ((List.range 32).map fun l => ((wlOf v l).toNat, 2)) ++ layout ((List.range 32).map fun l => ((riOf v l).toNat, 2)) ++
    layout (g.w.toList.map fun x => (x.toNat, 16)) ++ List.replicate 192 0#8 ++ frame 1 ++ frame 2 ++
    wordBytes (srun 0#32 g.s 0 128) ++
    wordBytes (srun 0#32 g.v 0 (32 * g.nv)) ++
    (g.frames.reverse.flatMap fun f => wordBytes (srun 0#32 f.h 0 1024) ++ wordBytes (srun 0#32 f.hs 0 16)) ++
    (g.calls.reverse.flatMap callBytes) ++
    layout [(g.sideLog.length, 4), (0, 12)] ++ g.sideLog.flatMap sideBytes

/-- Side-log entries read back; each keeps the monitor phases it was logged with. -/
def sideOfBytes : List SideEntry → List Byte → List SideEntry
  | [], _ => []
  | e :: t, bs =>
    let n := fieldAt bs 8 4
    let mask := u32 (fieldAt bs 0 4)
    let at6 := fieldAt bs 6 1
    let at7 := fieldAt bs 7 1
    let ls := laneList mask
    { e with mask := mask, kind := fieldAt bs 4 1, wd := BitVec.ofNat 4 (fieldAt bs 5 1), sid := BitVec.ofNat 4 at6,
             sc := BitVec.ofNat 3 (at6 / 16), ord := BitVec.ofNat 2 at7, op := BitVec.ofNat 4 (at7 / 4),
             items := (List.range n).map fun i => (ls.getD i 0, fieldAt bs (16 + 24 * i) 8, BitVec.ofNat 128 (fieldAt bs (24 + 24 * i) 16)) }
      :: sideOfBytes t (bs.drop (16 + 24 * n))

/-- A handler frame read back (R294). The raw word and the operand window of an emulated cause are to be fetched again. -/
def frameOfBytes (f : HandlerFrame) (bs bank : List Byte) : HandlerFrame :=
  let ri := u32 (fieldAt bs 0x50 4)
  let wl (l : Nat) : W16 := let x := fieldAt bs (0x30 + l) 1; if x == 0xFF then 0xFFFF#16 else BitVec.ofNat 16 x
  let v := { f.lvl with wl := lanes wl, ri := lanes fun l => if has ri l then 1#12 else 0#12, defm := 0, swc := u32 (fieldAt bs 0x58 4),
                        p := Vector.ofFn fun i : Fin 7 => u32 (fieldAt bs (0x5C + 4 * i.val) 4), q := BitVec.ofNat 7 (fieldAt bs 0x78 4) }
  { f with lvl := v.atPos (fieldAt bs 0x54 4), cause := BitVec.ofNat 8 (fieldAt bs 0 4), emask := u32 (fieldAt bs 4 4),
           epos := u64 (fieldAt bs 8 8), tval := Vector.ofFn fun i : Fin 4 => u64 (fieldAt bs (16 + 8 * i.val) 8),
           h := fromWords (wordsAt bank 0 1024), hs := fromWords (wordsAt bank 4096 16), raw := 0, ext := 0,
           ew := Vector.replicate 4 0#32, refetch := 0x80 ≤ fieldAt bs 0 1 && fieldAt bs 0 1 ≤ 0x84 }

/-- A group read back from its record (R41 to R43); also the bytes after the record. A restored group starts with DEFM = 0,
no lane flag, no wake counted, and its region's descriptor still to be read (R67, R79, R85, R219). -/
def groupOfBytes (g : Group) (bs : List Byte) : Group × List Byte :=
  let head := fieldAt bs 0 4
  let nv := field head 20 9
  let cd := field head 29 3
  let hd := field head 18 2
  let banks := bs.drop (0x500 + 128 * nv)
  let calls := banks.drop (4160 * hd)
  let side := calls.drop (128 * cd)
  let v := { g.lvl with
    base := u64 (fieldAt bs 8 8), swc := u32 (fieldAt bs 4 4), defm := 0,
    wl := lanes fun l => BitVec.ofNat 16 (fieldAt bs (0x80 + 2 * l) 2), ri := lanes fun l => BitVec.ofNat 12 (fieldAt bs (0xC0 + 2 * l) 2),
    p := Vector.ofFn fun i : Fin 7 => u32 (fieldAt bs (0x34 + 4 * i.val) 4), q := BitVec.ofNat 7 (fieldAt bs 0x24 4) }
  let frame (f : HandlerFrame × Nat) : HandlerFrame :=
    frameOfBytes f.1 (bs.drop (0x200 + 128 * f.2)) (banks.drop (4160 * f.2))
  let g := { g with
    lvl := v.atPos (fieldAt bs 0x10 4), frames := (g.frames.reverse.zipIdx.map frame).reverse,
    flags := u32 (fieldAt bs 0x14 4) &&& 0x7F#32, laneFlags := Vector.replicate 32 0#5, sfm := u32 (fieldAt bs 0x18 4),
    dropcnt := u32 (fieldAt bs 0x1C 4), chkmode := u32 (fieldAt bs 0x20 4), nv := nv, wakes := 0,
    w := Vector.ofFn fun i : Fin 4 => BitVec.ofNat 128 (fieldAt bs (0x100 + 16 * i.val) 16),
    s := fromWords (wordsAt bs 0x300 128), v := fromWords (wordsAt bs 0x500 (32 * nv)),
    calls := ((List.range cd).map fun i => callOfBytes (calls.drop (128 * i))).reverse,
    sideLog := sideOfBytes g.sideLog (side.drop 16), lacks := g.frames.length }
  let used := 16 + (g.sideLog.map fun e => 16 + 24 * e.items.length).foldl (· + ·) 0
  (g.modCl fun v => { v with unread := true }, side.drop used)

/-! ### The block record (R45, R177, R262, R284) -/

/-- The barrier entries (R177): the mask holds the block's groups that have arrived, all counted in the instance. -/
def barBytes (l : Launch) (blk : Nat) (b : Block) (n : Nat) : List Byte :=
  if n < l.lrec.barriers then
    let x := barInst l n (barKey l blk b n)
    let mask := (List.range b.groups.length).foldl (fun m j => if x.arrived.contains { blk := blk, grp := j } then m + 2 ^ j else m) 0
    layout [(x.phase.toNat, 4), (mask, 2), ((if x.broken then 1 else 0) + (if mask == 0 then 0 else 2), 1), (barScope l n, 1), (0, 8)]
  else List.replicate 16 0#8

/-- The sequencer's part (R262). -/
def seqBytes (q : Seq) : List Byte :=
  layout [(seqCode q.st + 256 * q.cause.toNat, 4), (q.owner, 4), (q.base.toNat, 8), (q.word.toNat, 8), (q.ext.toNat, 8), (q.drain, 4),
    (0, 4), (q.seed.toNat, 8), (0, 80)]

def monBytes (m : Monitor) : List Byte :=
  wordBytes m.cfg.toList ++ layout [(m.ref.toNat, 16), (m.bound.toNat, 8), (statusWord m, 4), (0, 4), (wrapTo 256 m.c, 32),
    (wrapTo 256 m.cur, 32), (wrapTo 256 m.nxt, 32), (m.phase.toNat, 4), (0, 92)]

/-- The block record without its groups' records. -/
def blockHead (l : Launch) (blk : Nat) (b : Block) : List Byte :=
  layout [(1 + 2 ^ 8 * b.groups.length + 2 ^ 16 * l.lrec.accregs + 2 ^ 24 * l.lrec.nbctrs, 4), (b.bflags.toNat, 4), (b.nantrap.toNat, 4),
      (b.rpr.toNat, 4), (b.seed.toNat, 8), (b.seq.next.toNat, 8), (0, 32)] ++
    wordBytes b.nb.toList ++ layout (b.tiles.toList.map fun x => (x.toNat, 16)) ++ seqBytes b.seq ++
    ((List.range 16).flatMap (barBytes l blk b)) ++ List.replicate 256 0#8 ++
    wordBytes (srun 0#32 b.acc 0 (16384 * l.lrec.accregs)) ++ b.mons.flatMap monBytes ++
    scratchImage l.lrec b

/-- A block's save record (R45, R315). -/
def blockRecord (diag : Bool) (l : Launch) (blk : Nat) (b : Block) : List Byte :=
  blockHead l blk b ++ b.groups.flatMap (groupRecord diag)

def seqOf (k : Nat) : SeqSt := match k with
  | 0 => .idle
  | 1 => .running
  | 2 => .waiting
  | _ => .stopped

def seqOfBytes (q : Seq) (next : W64) (bs : List Byte) : Seq :=
  { q with st := seqOf (fieldAt bs 0 1 % 4), cause := BitVec.ofNat 8 (fieldAt bs 1 1), owner := fieldAt bs 4 4, base := u64 (fieldAt bs 8 8),
           next := next, word := u64 (fieldAt bs 16 8), ext := u64 (fieldAt bs 24 8), drain := fieldAt bs 32 4, seed := u64 (fieldAt bs 40 8) }

def monStOf (k : Nat) : MonSt := match k with
  | 0 => .off
  | 1 => .run
  | 2 => .stopped
  | _ => .broken

def monOfBytes (bs : List Byte) : Monitor :=
  let st := u32 (fieldAt bs 56 4)
  { cfg := Vector.ofFn fun i : Fin 8 => u32 (fieldAt bs (4 * i.val) 4), ref := BitVec.ofNat 128 (fieldAt bs 32 16), bound := u64 (fieldAt bs 48 8),
    st := monStOf (st.toNat / 2 ^ 30), nf := st.getLsbD 29, ov := st.getLsbD 28, ls := st.getLsbD 27, dr := st.getLsbD 26,
    mg := st.toNat % 2 ^ 16, c := signedOf 256 (fieldAt bs 64 32), cur := signedOf 256 (fieldAt bs 96 32),
    nxt := signedOf 256 (fieldAt bs 128 32), phase := u32 (fieldAt bs 160 4), epoch := 0, past := [] }

/-- Groups read back one after another. -/
def groupsOfBytes : List Group → List Byte → List Group
  | [], _ => []
  | g :: t, bs => let r := groupOfBytes g bs; r.1 :: groupsOfBytes t r.2

/-- The monitors as a record has them. What was counted, sent or merged while the block was away stands where the record is
as it was saved: counting continues as if the block had not been saved (R284; log 31). -/
def monsOfBytes (n : Nat) (b : Block) (bs : List Byte) : List Monitor :=
  if bs.take (256 * n) == (b.savedMons.take n).flatMap monBytes then b.mons
  else (List.range n).map fun i => { monOfBytes (bs.drop (256 * i)) with epoch := ((b.mons[i]?).map (·.epoch)).getD 0 }

/-- A block read back from its record. Of BFLAGS and NANTRAP a record that software has changed may set bits that no instruction
sets: all 32 are taken as they stand (DESIGN CHOICE, log 41). -/
def blockOfBytes (l : LaunchRec) (b : Block) (bs : List Byte) : Block :=
  let mons := bs.drop (0x400 + 65536 * l.accregs)
  let scr := mons.drop (256 * l.monitors)
  let map := scr.drop l.scratch
  { b with bflags := u32 (fieldAt bs 4 4), nantrap := u32 (fieldAt bs 8 4), rpr := u32 (fieldAt bs 12 4), seed := u64 (fieldAt bs 16 8),
           nb := Vector.ofFn fun i : Fin 16 => u32 (fieldAt bs (0x40 + 4 * i.val) 4),
           tiles := Vector.ofFn fun i : Fin 16 => BitVec.ofNat 128 (fieldAt bs (0x80 + 16 * i.val) 16),
           seq := seqOfBytes b.seq (u64 (fieldAt bs 24 8)) (bs.drop 0x180),
           acc := fromWords (wordsAt bs 0x400 (16384 * l.accregs)),
           mons := monsOfBytes l.monitors b mons,
           scratch := sfill 0#8 [] 0 (scr.take l.scratch),
           sinit := sfill false [] 0 ((map.take (bitmapLen l)).flatMap fun x => (List.range 8).map x.getLsbD),
           groups := groupsOfBytes b.groups (map.drop (bitmapLen l)) }

/-! ### Stopping and evicting (R85, R173, R315, R330) -/

/-- Where a stopped group stands in its record: parked groups at SweepEnd, a WAIT, a GROW and what waits for the fault service at
themselves; DEFM is not saved. -/
def stopped (g : Group) : Group :=
  let g := { g with lvl := { g.lvl with defm := 0 } }
  match g.status with
  | .parked _ | .woken | .remotePark _ => { g with status := .ready, lvl := { g.lvl with phase := .sweepEnd } }
  | .waiting .. | .growing => { g with status := .ready }
  | .service resumed => { g with status := if resumed then .resumed else .ready }
  | _ => g

/-- A group stopped for a save: its records leave the parking area, returns arrive and pending writes commit. -/
def stopGroup (s : State) (r : GRef) : State :=
  match who? s r with
  | none => s
  | some w =>
    let diag := diagMode s w.c
    (unparkAll s w).modGrp r fun g => stopped (commitAll diag (arriveIf diag (fun _ => true) g)).settled

def stopGroups (s : State) (blk : Nat) : State :=
  match s.blocks[blk]? with
  | none => s
  | some b => (List.range b.groups.length).foldl (fun s j => stopGroup s { blk := blk, grp := j }) s

/-- Whether every group of a block stands at an instruction boundary and its stream waits for no answer (R315). -/
def atRest (b : Block) : Bool := b.seq.sent.isEmpty && b.groups.all Group.atBoundary

/-- Whether a block can be saved and leave now: a group that waits for a bank enters its handler first (R35). -/
def canSave (b : Block) : Bool := atRest b && b.groups.all fun g => !g.isEntering

/-- The lines that a block's groups and its stream hold. -/
def ofBlock (blk : Nat) (f : Fetcher) : Bool := match f with
  | .group r => r.blk == blk
  | .stream b => b == blk

/-- An evicted block: its requests for more granules are withdrawn (R40). -/
def away (b : Block) : Block :=
  { b with st := .evicted, leaving := false, savedMons := b.mons, seq := { b.seq with svc := false, entries := 0, held := [] },
           groups := b.groups.map fun g => { g with sideSvc := false } }

/-- Save a block into its launch's save area and release its core (R330); its granules leave the allocation (R39). -/
def evict (s : State) (blk : Nat) : State :=
  let s := stopGroups s blk
  match s.blocks[blk]? with
  | none => s
  | some b => match s.launches[b.launch]? with
    | none => s
    | some l =>
      let s := writeVirtual s l.ctx (l.lrec.save + u64 (b.ordinal * saveSize l.lrec)) (blockRecord (diagMode s l.ctx) l blk b)
      let s := (List.range b.groups.length).foldl (fun s j => releaseGrans s { blk := blk, grp := j }) (leafTells s blk)
      { s.modBlk blk away with growQ := s.growQ.filter fun q => q.who.blk != blk, icache := s.icache.filter fun e => !ofBlock blk e.who }

/-- Order a resident block's eviction at its groups' next instruction boundaries: the command to its leaf waits for a permit
(R323). -/
def evictSoon (s : State) (blk : Nat) : State :=
  match s.blocks[blk]? with
  | none => s
  | some b =>
    let n := regionOf b.core
    match s.leafLinks[n]? with
    | none => s
    | some f =>
      if b.st ≠ .resident || b.leaving || f.evicts.contains blk then s
      else if f.down == 0 then s.modLeaf n fun f => { f with evicts := f.evicts ++ [blk] }
      else
        let s := s.modLeaf n fun f => { f with down := f.down - 1, cmds := f.cmds + 1 }
        if canSave b then evict s blk else s.modBlk blk fun b => { b with leaving := true }

/-- What happens by itself on one leaf's links (R323): commands and messages that have been accepted give their permits back,
messages that have a permit go out, and so do eviction commands. Whether they have been accepted is free (log 36). -/
def leafTurn (s : State) (n : Nat) : State :=
  match s.leafLinks[n]? with
  | none => s
  | some f =>
    let f := if f.cmds > 0 && Config.leafAccepts s.steps (2 * n) then { f with down := f.down + f.cmds, cmds := 0 } else f
    let f := if (!f.msgs.isEmpty || f.faults > 0) && Config.leafAccepts s.steps (2 * n + 1) then
        { f with up := f.up + f.msgs.length + f.faults, msgs := [], faults := 0 } else f
    let k := min f.up f.sendq.length
    let f' := { f with up := f.up - k, msgs := f.msgs ++ f.sendq.take k, sendq := f.sendq.drop k }
    let s := s.modLeaf n fun _ => f'
    if f'.evicts.isEmpty || f'.down == 0 then s
    else f'.evicts.foldl evictSoon (s.modLeaf n fun f => { f with evicts := [] })

def leafTurns (s : State) : State := (List.range 72).foldl (fun s n => if s.leafLinks[n]? = some LeafLink.fresh then s else leafTurn s n) s

/-- Save what has been waiting to leave. -/
def evictReady (s : State) : State :=
  (List.range s.blocks.length).foldl (fun s i => match s.blocks[i]? with
    | some b => if b.leaving && b.st == .resident && canSave b then evict s i else s
    | none => s) s

/-! ### Coming back (R35, R127, R177, R325) -/

/-- The lowest free slots of a core for a block's groups, in group order (R325). -/
def takeSlots (s : State) (core n : Nat) : List Nat :=
  (List.range n).foldl (fun acc j =>
    let used := (s.blocks.flatMap fun b => if b.st = .resident && b.core = core then
        (List.range b.groups.length).filterMap fun k => if k % 4 = j % 4 then (b.groups[k]?).map (·.slot) else none else [])
      ++ (List.range j).filterMap fun k => if k % 4 = j % 4 then acc[k]? else none
    acc ++ [((List.range 16).find? fun k => !used.contains k).getD 0]) []

/-- A group suspended in BAR n whose block has moved from instance `x` to instance `y`: it takes a completion that has passed
while it was away (R177), else it waits for the current phase of the new instance, where its arrival counts now (log 31). -/
def movedBar (x y : BarInst) (r : GRef) (g : Group) : Group :=
  match g.status with
  | .barrier m k h sc la d c =>
    if m != x.n then g
    else if x.phase != k then endBar h la (!(x.broken && x.phase == k + 1)) (x.last == some r) d c g
    else if y.broken then endBar h la false false d c g
    else { g with status := .barrier m y.phase h sc la d c }
  | _ => g

/-- Phases of one barrier count on from another instance's count, `d` further. -/
def Tally.moved (b : Block) (n : Nat) (d : W32) (p : Tally) : Tally :=
  if ((b.mons[p.mon]?).map monBN) == some n then { p with phase := p.phase + d } else p

/-- The monitors of a block that number their phases by one barrier, and its writes that are still to be counted, go over to the
count of another instance, so that counting goes on as if the block had not been saved (R280, R284). -/
def rebase (b : Block) (n : Nat) (d : W32) : Block :=
  { b with
    mons := b.mons.map fun m => { m with
      phase := if monBN m == n then m.phase + d else m.phase,
      past := m.past.map fun z => if field z.cfg[4].toNat 24 4 == n then { z with phase := z.phase + d } else z },
    groups := b.groups.map fun g => { g with sideLog := g.sideLog.map fun e => { e with phases := e.phases.map (Tally.moved b n d) } } }

/-- The same for a block's buffered writes. -/
def CommitOp.moved (blk : Nat) (f : Tally → Tally) : CommitOp → CommitOp
  | .store pa bs (some t) => .store pa bs (some (if t.who.blk == blk then { t with phases := t.phases.map f } else t))
  | .red pa op wd x (some t) => .red pa op wd x (some (if t.who.blk == blk then { t with phases := t.phases.map f } else t))
  | o => o

/-- A barrier of wider scope that the block now shares in another unit: its groups' arrivals go with it, and the partials that it
has sent for the phase. -/
def moveArrivals (s : State) (blk n u u' : Nat) : State :=
  match s.blocks[blk]? with
  | none => s
  | some b => match s.launches[b.launch]? with
    | none => s
    | some l =>
      let x := barInst l n u
      let y := barInst l n u'
      let mine := x.arrived.filter fun r => r.blk == blk
      let d := y.phase - x.phase
      let s := s.modLaunch b.launch fun l =>
        let l := setBarInst (setBarInst l { x with
            arrived := x.arrived.filter (·.blk != blk), sent := x.sent.filter (· != blk), parts := x.parts.filter (·.1 != blk) })
          (if y.broken then y else { y with
            arrived := y.arrived ++ mine, sent := y.sent ++ x.sent.filter (· == blk), parts := y.parts ++ x.parts.filter (·.1 == blk) })
        { l with bufs := l.bufs.map fun t => { t with ops := t.ops.map (CommitOp.moved blk (Tally.moved b n d)) } }
      let s := s.modBlk blk fun b =>
        let b := rebase b n d
        { b with groups := b.groups.zipIdx.map fun g => movedBar x y { blk := blk, grp := g.2 } g.1 }
      tryComplete (tryComplete s b.launch n u none) b.launch n u' none

/-- Restore an evicted block on a core (R315, R330). A granule's fresh tag (R43) is the one it carries in the register file: it has
risen since the granule was last in an allocation (DEDUCED, log 41). -/
def restoreOn (s : State) (blk core : Nat) : State :=
  match s.blocks[blk]? with
  | none => s
  | some b => match s.launches[b.launch]? with
    | none => s
    | some l =>
      let slots := takeSlots s core b.groups.length
      let bs := readVirtual s l.ctx (l.lrec.save + u64 (b.ordinal * saveSize l.lrec)) (saveSize l.lrec)
      let b' := blockOfBytes l.lrec b bs
      let groups := b'.groups.zipIdx.map fun g => { g.1 with slot := slots.getD g.2 0, grans := [] }
      let s := s.modBlk blk fun _ => { b' with st := .resident, core := core, febudget := (s.ctx l.ctx).febudget, groups := groups }
      let s := (List.range groups.length).foldl (fun s j => grantGrans s { blk := blk, grp := j }) s
      (List.range l.lrec.barriers).foldl (fun s n =>
        let u := unitOf (barScope l n) blk b.core
        let u' := unitOf (barScope l n) blk core
        if u == u' then s else moveArrivals s blk n u u') s

end Sys2Proof.Machine
end

