-- ==== Sys2Proof/Machine/Place.lean ====
section
/-! DEFINITION. Placing launches on cores, moving them off and back: reservation and choice of cores (R325, R326, R337),
service order and age (R327), place relocation (R49, R50), pre-emption (R330 to R332), and the steps PLACEMENT,
TIME_SLICE_EXPIRY, BLOCK_RESTORE and FAULT_SERVICE_REWALK. -/
namespace Sys2Proof.Machine

/-! ### What a block needs and what a core has (R325) -/

/-- A block's needs: the registers of its groups in group order, scratchpad bytes, accumulator regions, monitors. Block counters
and barrier state are held for each block apart: the spec gives no limit for them. -/
structure Need where
  regs    : List Nat
  scratch : Nat
  acc     : Nat
  mons    : Nat
  deriving DecidableEq, Repr

def needOf (l : LaunchRec) : Need := { regs := List.replicate l.groups l.vregs, scratch := l.scratch, acc := l.accregs, mons := l.monitors }

/-- The needs of an evicted block: what its groups hold now. -/
def needBack (l : LaunchRec) (b : Block) : Need :=
  { needOf l with regs := b.groups.map fun g => if g.status == .retired then 0 else g.nv }

/-- Needs that cover both. -/
def Need.max (a b : Need) : Need :=
  { regs := (List.range (Nat.max a.regs.length b.regs.length)).map fun i => Nat.max (a.regs.getD i 0) (b.regs.getD i 0),
    scratch := Nat.max a.scratch b.scratch, acc := Nat.max a.acc b.acc, mons := Nat.max a.mons b.mons }

def residentOn (s : State) (f : Nat → Bool) : List Block := s.blocks.filter fun b => b.st == .resident && f b.core

/-- What a launch's blocks reserve of something. -/
def reservedOf (s : State) (bs : List Block) (f : LaunchRec → Nat) : Nat :=
  (bs.map fun b => match s.launches[b.launch]? with
    | some l => f l.lrec
    | none => 0).foldl (· + ·) 0

/-- The registers that a block's groups of one partition need. -/
def Need.regsOf (n : Need) (part : Nat) : Nat :=
  ((List.range n.regs.length).map fun j => if j % 4 == part then n.regs.getD j 0 else 0).foldl (· + ·) 0
def Need.slotsOf (n : Need) (part : Nat) : Nat := ((List.range n.regs.length).filter fun j => j % 4 == part).length

/-- Whether a block's needs fit on a core, its quad's accumulator regions apart: a core has 256 KiB and 8 monitors (R6). -/
def coreFits (s : State) (n : Need) (core : Nat) : Bool :=
  ((List.range 4).all fun p => (partitionGroups s core p).length + n.slotsOf p ≤ 16 && n.regsOf p ≤ freeRegs s core p)
    && reservedOf s (residentOn s (· == core)) (·.scratch) + n.scratch ≤ 262144
    && reservedOf s (residentOn s (· == core)) (·.monitors) + n.mons ≤ 8

/-- Accumulator regions free in a core's quad. -/
def accFree (s : State) (core : Nat) : Nat := 32 - reservedOf s (residentOn s fun c => quadOf c == quadOf core) (·.accregs)

/-- The island of a core's region pair (R3, log 26). -/
def islandOf (core : Nat) : Nat := 14 * (core / 144) + regionOf core % 18 / 2

/-- The free candidate cores of a launch (R326), each by itself, cores of barred regions apart. -/
def freeCores (s : State) (li : Nat) (n : Need) (ok : Nat → Bool) : List Nat :=
  (List.range (if s.boot == 2#2 then 576 else 144)).filter fun c =>
    ok c && !s.retiredCores.contains c && !(s.blocks.any fun b => b.launch == li && b.core == c && b.st == .resident)
      && coreFits s n c && n.acc ≤ accFree s c

/-- Of the candidates, those whose needs can all be reserved together (R325): cores of one quad while its accumulator regions
suffice (log 26). -/
def together (s : State) (n : Need) (cs : List Nat) : List Nat :=
  cs.foldl (fun acc c =>
    if ((acc.filter fun x => quadOf x == quadOf c).length + 1) * n.acc ≤ accFree s c then acc ++ [c] else acc) []

/-- Cores that count under an alignment: 1 whole quads, 2 whole regions. -/
def aligned (align : Nat) (cs : List Nat) : List Nat :=
  match align with
  | 0 => cs
  | 1 => cs.filter fun c => (cs.filter fun x => quadOf x == quadOf c).length == 4
  | _ => cs.filter fun c => (cs.filter fun x => regionOf x == regionOf c).length == 8

/-- The cores of one region in the order they are taken: with align 1, quad by quad (R337). -/
def inRegionOrder (align : Nat) (cs : List Nat) : List Nat :=
  if align == 1 then (distinctAsc (cs.map quadOf)).flatMap fun q => cs.filter fun c => quadOf c == q else cs

/-- Regions, each with its number of free candidates and the cores to take, by decreasing number, the lower region first among
equals. -/
def insRegion (x : Nat × List Nat) : List (Nat × List Nat) → List (Nat × List Nat)
  | [] => [x]
  | y :: t => if y.1 < x.1 then x :: y :: t else y :: insRegion x t

/-- Choose `n` cores (R326, R337): the free candidates `cs` rank the regions, and of each region the cores are taken that can
be reserved together. -/
def chooseCores (align n : Nat) (cs both : List Nat) : List Nat :=
  let rs := ((List.range 72).map fun r => ((cs.filter fun c => regionOf c == r).length,
    inRegionOrder align (both.filter fun c => regionOf c == r))).filter fun r => !r.2.isEmpty
  let one := rs.foldl (fun (best : Option (Nat × List Nat)) r =>
    if r.2.length < n then best else match best with
      | none => some r
      | some b => if r.1 < b.1 then some r else some b) none
  match one with
  | some r => r.2.take n
  | none => ((rs.foldl (fun acc r => insRegion r acc) []).flatMap (·.2)).take n

/-! ### Place relocation (R49, R50) -/

/-- An entry of a place relocation section. -/
structure Reloc where
  off    : Nat
  kind   : Nat
  target : Nat
  dr     : Int
  dc     : Int
  deriving DecidableEq, Repr

def relocsOf (s : State) (c : Nat) (base : W64) : List Reloc :=
  if base == 0#64 then []
  else
    let d := readVirtual s c (base - 64#64) 64
    let sec := u64 (fieldAt d 32 8)
    (List.range (fieldAt d 28 4)).map fun i =>
      let e := readVirtual s c (sec + u64 (16 * i)) 16
      { off := fieldAt e 0 4, kind := fieldAt e 4 1, target := fieldAt e 6 2, dr := signedOf 8 (fieldAt e 8 1), dc := signedOf 8 (fieldAt e 9 1) }

/-- The code regions that a launch record names. -/
def launchRegions (l : LaunchRec) : List W64 := [l.region, l.emuv, l.trapv]

def launchRelocs (s : State) (c : Nat) (l : LaunchRec) : List (W64 × Reloc) :=
  (launchRegions l).flatMap fun base => (relocsOf s c base).map fun r => (base, r)

/-- A partial turn string: where it has come to, its heading, its first heading, its turns and their number. -/
structure Route where
  row   : Int
  col   : Int
  hd    : Nat
  first : Nat
  t     : Nat
  turns : Nat
  deriving DecidableEq, Repr

/-- R50's order of strings to one place. Where length, turns and T are equal, as with no displacement, the lowest initial heading
comes first (DESIGN CHOICE, log 40). -/
def Route.before (a b : Route) : Bool := a.turns < b.turns || (a.turns == b.turns && (a.t < b.t || (a.t == b.t && a.first < b.first)))

def addRoute (x : Route) (es : List Route) : List Route :=
  match es.find? fun e => e.row == x.row && e.col == x.col && e.hd == x.hd with
  | some e => if x.before e then x :: es.filter (· ≠ e) else es
  | none => x :: es

/-- Every partial string with one more turn `k`, the best for each place and heading, over hops that are in order. -/
def lengthen (ok : Int × Int → Int × Int → Bool) (k : Nat) (es : List Route) : List Route :=
  (es.flatMap fun e => ((List.range 3).map fun t =>
    let hd := if t == 1 then (e.hd + 3) % 4 else if t == 2 then (e.hd + 1) % 4 else e.hd
    { e with row := e.row + (if hd == 0 then -1 else if hd == 2 then 1 else 0), col := e.col + (if hd == 1 then 1 else if hd == 3 then -1 else 0),
             hd := hd, t := e.t + t * 4 ^ k, turns := e.turns + (if t == 0 then 0 else 1) }).filter fun x => ok (e.row, e.col) (x.row, x.col)).foldl
    (fun acc x => addRoute x acc) []

/-- The shortest string to a displacement, then the one with fewest turns, then the lowest T (R50). -/
def findRoute (ok : Int × Int → Int × Int → Bool) (dr dc : Int) : (fuel k : Nat) → List Route → Option W64
  | 0, _, _ => none
  | f + 1, k, es =>
    match (es.filter fun e => e.row == dr && e.col == dc).foldl (fun (b : Option Route) e => match b with
        | none => some e
        | some x => if e.before x then some e else some x) none with
    | some e => some (u64 (e.first * 2 ^ 61 + e.t + 3 * 4 ^ k))
    | none => findRoute ok dr dc f (k + 1) (lengthen ok k es)

/-- One route that succeeds from every core. -/
def routeFor (s : State) (cores : List Nat) (dr dc : Int) : Option W64 :=
  let ok (a b : Int × Int) : Bool := cores.all fun k =>
    let row (x : Int × Int) : Int := (k % 144 / 12 : Nat) + x.1
    let col (x : Int × Int) : Int := (k % 12 : Nat) + x.2
    let core (x : Int × Int) : Nat := 144 * (k / 144) + 12 * (row x).toNat + (col x).toNat
    0 ≤ row b && row b < 12 && 0 ≤ col b && col b < 12 && !hopRetired s (core a) (core b)
  findRoute ok dr dc 24 0 ((List.range 4).map fun h => { row := 0, col := 0, hd := h, first := h, t := 0, turns := 0 })

def placeWordAt (s : State) (c : Nat) (base : W64) (r : Reloc) : W64 := u64 (ofBytes (readVirtual s c (base + u64 (r.off + 8)) 8))

/-- Whether the current routes of a launch's code succeed from a core. -/
def routesFrom (s : State) (c : Nat) (rs : List (W64 × Reloc)) (core : Nat) : Bool :=
  rs.all fun e => e.2.kind != 0 || (placeCore s core (placeWordAt s c e.1 e.2)).isSome

/-- Whether some route of each displacement exists from a core. -/
def routable (s : State) (rs : List (W64 × Reloc)) (cores : List Nat) : Bool :=
  rs.all fun e => e.2.kind != 0 || (routeFor s cores e.2.dr e.2.dc).isSome

/-- Tag one line of a region again under the context's key. -/
def retag (s : State) (c : Nat) (base : W64) (off : Nat) : State :=
  match (s.ctx c).key with
  | none => s
  | some k =>
    let d := readVirtual s c (base - 64#64) 64
    let i := off / 128
    let line := base + u64 (128 * i)
    writeVirtual s c (u64 (fieldAt d 40 8 + 8 * i)) (lineTag k line d (readVirtual s c line 128))

/-- What the loader writes in place of an entry's place word. -/
def relocWord (s : State) (c : Nat) (cores : List Nat) (base : W64) (r : Reloc) : Option W64 :=
  if r.kind == 0 then
    if cores.all fun k => (placeCore s k (placeWordAt s c base r)).isSome then none else routeFor s cores r.dr r.dc
  else if r.kind == 1 then (cores[r.target]?).map fun k =>
    u64 (2 ^ 63 + k / 144 * 2 ^ 56 + k % 144 / 12 * 2 ^ 52 + k % 12 * 2 ^ 48)
  else none

/-- Rewrite the place words of a launch's code for the cores chosen, and tag the lines again (R50). -/
def relocate (s : State) (c : Nat) (l : LaunchRec) (cores : List Nat) : State :=
  (launchRelocs s c l).foldl (fun s e => match relocWord s c cores e.1 e.2 with
    | some w => retag (writeVirtual s c (e.1 + u64 (e.2.off + 8)) (toBytes 8 w.toNat)) c e.1 (e.2.off + 8)
    | none => s) s

/-! ### Which launch, on which cores (R325 to R327) -/

/-- A launch's priority (R324). -/
def prioOf (s : State) (l : Launch) : Nat := if l.lrec.priority == 0 then (s.queue l.queue).prio else l.lrec.priority

def hasBlocks (s : State) (li : Nat) : Bool := s.blocks.any fun b => b.launch == li && b.st != .ended

/-- Whether the parking quotas of a context leave room for a launch's (R325). -/
def quotaFits (s : State) (li : Nat) (l : Launch) : Bool :=
  ((List.range s.launches.length).map fun k => match s.launches[k]? with
    | some x => if x.ctx == l.ctx && (k == li || hasBlocks s k) then x.lrec.parkq else 0
    | none => 0).foldl (· + ·) 0 ≤ 122880

/-- The cores a pending launch would be placed on; `none` while it cannot be placed. -/
def placement (s : State) (li : Nat) (barred : List Nat) : Option (List Nat) :=
  match s.launches[li]? with
  | none => none
  | some l =>
    if l.st ≠ .pending || (s.ctx l.ctx).st != 1#2 || s.boot == 0#2 || s.boot == 3#2 || !quotaFits s li l then none
    else
      let rs := launchRelocs s l.ctx l.lrec
      -- a core without a route is a free candidate on which no block is placed (R50, R326)
      let cs := aligned l.lrec.align (freeCores s li (needOf l.lrec) fun c => !barred.contains (regionOf c))
      let both := together s (needOf l.lrec) (cs.filter fun c => routable s rs [c])
      let n := if l.lrec.gang then l.lrec.maxcores else min l.lrec.maxcores both.length
      if both.length < n || n < l.lrec.mincores then none
      else
        let cores := distinctAsc (chooseCores l.lrec.align n cs both)
        if routable s rs cores then some cores else none

/-- The state with some blocks gone, to ask what would fit then. -/
def withoutBlocks (s : State) (f : Nat → Block → Bool) : State :=
  { s with blocks := s.blocks.zipIdx.map fun e => if f e.2 e.1 then { e.1 with st := .ended } else e.1 }

/-- A queue's place in the service order, the first lowest: decreasing priority; within one, the queue that holds the slice
(R322), then the rotation after the queue served last (R327). -/
def serviceRank (s : State) (q prio : Nat) : Nat := (7 - prio) * 65 + (if s.holder == some q then 0 else 1 + (q + 127 - s.served) % 64)

/-- Pending launches in service order. -/
def insHead (s : State) (x : Nat × Launch) : List (Nat × Launch) → List (Nat × Launch)
  | [] => [x]
  | y :: t =>
    if serviceRank s x.2.queue (prioOf s x.2) < serviceRank s y.2.queue (prioOf s y.2) then x :: y :: t else y :: insHead s x t

def heads (s : State) : List (Nat × Launch) :=
  (s.launches.zipIdx.filterMap fun e =>
    let q := s.queue e.1.queue
    if e.1.st = .pending && q.enable && !q.stopped then some (e.2, e.1) else none).foldl (fun acc x => insHead s x acc) []

/-- The highest-priority blocked head. -/
def blockedHead (s : State) : Option (Nat × Launch) := (heads s).find? fun x => (placement s x.1 []).isNone

/-- The regions kept for a blocked head of age 8: those R326 would choose were every core of a launch that bypassed it
free (R327). -/
def keptRegions (s : State) : Option Nat × List Nat :=
  match blockedHead s with
  | some (h, l) => if l.age < 8 then (some h, [])
      else (some h, match placement (withoutBlocks s fun _ b => l.bypass.contains b.launch) h [] with
        | some cores => distinctAsc (cores.map regionOf)
        | none => [])
  | none => (none, [])

/-- The regions closed to a launch now. -/
def barredFor (s : State) (li : Nat) : List Nat := let k := keptRegions s; if k.1 == some li then [] else k.2

/-- The launch that the March core places next, and its cores. -/
def nextPlaced (s : State) : Option (Nat × List Nat) := (heads s).findSome? fun x => (placement s x.1 (barredFor s x.1)).map fun cs => (x.1, cs)

/-- Whether a launch of the queue is checked and still to be placed. -/
def hasPending (s : State) (q : Nat) : Bool := s.launches.any fun l => l.queue == q && l.st == .pending

/-- Whether the head packet of a queue has ORDER set and an earlier packet is not complete (R321, R322). -/
def headWaits (s : State) (x : Queue) : Bool := !x.started.isEmpty && (match packetBytes s x with
  | some bs => (bs.getD 1 0).getLsbD 0
  | none => false)

/-- Whether a queue's head is a LAUNCH that has been read in part: it waits for its record's page or for another device. -/
def launchHeld (x : Queue) : Bool := x.started.any fun p => match p with
  | .held (.launch ..) _ _ => true
  | _ => false

/-- The priority that the head of a queue is served with, and whether the head can be served now. -/
def headOf (s : State) (q : Nat) : Nat × Bool :=
  let x := s.queue q
  match s.launches.zipIdx.find? fun e => e.1.queue == q && e.1.st == .pending with
  | some (l, i) => (prioOf s l, (placement s i (barredFor s i)).isSome)
  | none => (x.prio, !headWaits s x && !launchHeld x)

/-- The queue that the March core serves next (R327): the first in order whose head packet can start. -/
def servedNext (s : State) : Option Nat :=
  (s.queues.foldl (fun (best : Option (Nat × Nat)) e =>
    let x := e.2
    let h := headOf s e.1
    let k := serviceRank s e.1 h.1
    if !x.enable || x.stopped || x.rd == x.wr || !h.2 then best
    else match best with
      | none => some (k, e.1)
      | some b => if k < b.1 then some (k, e.1) else best) none).map (·.2)

/-! ### Commands to the leaf controllers (R323) -/

/-- Whether the March core has a permit for a command to the leaf of each core. -/
def leafRoom (s : State) (cores : List Nat) : Bool :=
  (List.range 72).all fun n => (cores.filter fun c => regionOf c == n).length ≤ ((s.leafLinks[n]?).map (·.down)).getD 0

/-- One command goes out for each core. -/
def commandLeaves (s : State) (cores : List Nat) : State :=
  cores.foldl (fun s c => s.modLeaf (regionOf c) fun f => { f with down := f.down - 1, cmds := f.cmds + 1 }) s

/-- Whether cores can take blocks now: their islands have power (R352), and the commands can go out (R323). -/
def coresReady (s : State) (cores : List Nat) : Bool := !(cores.any fun c => s.gated.contains (islandOf c)) && leafRoom s cores

/-! ### Starting a launch (R69, R81, R327) -/

/-- Place one block: its call-stack areas hold S = 0 before any group starts. -/
def placeBlock (s : State) (li ord core n : Nat) : State :=
  match s.launches[li]? with
  | none => s
  | some l =>
    let slots := takeSlots s core l.lrec.groups
    let rg : Region := { base := l.lrec.region, tab := 0, n := 0, codeLen := 0, tagTab := 0 }
    let groups := (List.range l.lrec.groups).map fun j =>
      Group.start (slots.getD j 0) j (min 32 (l.lrec.lanes - 32 * j)) l.lrec.vregs l.lrec.params ord n rg
    let s := if l.lrec.cssize == 0 then s
      else (List.range l.lrec.groups).foldl (fun s j =>
        writeVirtual s l.ctx (l.lrec.cstack + u64 (l.lrec.cssize * (16 * ord + j))) (toBytes 8 0)) s
    let blk := s.blocks.length
    let s := { s with blocks := s.blocks ++ [Block.start li ord core l.lrec (s.ctx l.ctx).febudget groups] }
    (List.range groups.length).foldl (fun s j => grantGrans s { blk := blk, grp := j }) s

/-- A back-fill ages the blocked head (R327). -/
def ageHead (s : State) (li : Nat) : State :=
  match blockedHead s, s.launches[li]? with
  | some (h, x), some l =>
    if h != li && x.queue != l.queue && prioOf s l ≤ prioOf s x then
      s.modLaunch h fun x => { x with age := x.age + 1, bypass := x.bypass ++ [li] }
    else s
  | _, _ => s

/-- Whether a packet that the queue has begun is still to be completed; a LAUNCH and a WAITC split (R322). -/
def packetBegun (x : Queue) : Bool := x.started.any fun p => match p with
  | .held .. => true
  | _ => false

/-- Whether a launch of the queue has a resident block. -/
def launchOn (s : State) (q : Nat) : Bool := s.blocks.any fun b => b.st == .resident && (match s.launches[b.launch]? with
  | some l => l.queue == q
  | none => false)

/-- Whether a queue's slice runs: it is the queue switched to, or it has a packet begun or a launch on cores, which go on whichever
queue is served (R322, R332; log 26). -/
def sliceRuns (s : State) (q : Nat) : Bool := s.holder == some q || packetBegun (s.queue q) || launchOn s q

/-- A queue's slice begins, shortened by what the queue has overrun (R322). -/
def Queue.beginSlice (x : Queue) (tick : Nat) : Queue := { x with sliceAt := tick - x.overran, overran := 0 }

/-- A queue's slice runs from now on: it begins where it does not run yet (log 26). -/
def runSlice (s : State) (q : Nat) : State := if sliceRuns s q then s else s.modQueue q fun x => x.beginSlice s.tick

/-- A queue starts its head packet: the read index moves past it, and the queue is the one served last (R320, R327). -/
def startNext (s : State) (q : Nat) (p : Started) : State :=
  let s := (runSlice s q).modQueue q fun x => { x with rd := x.rd + 1, started := x.started ++ [p] }
  { s with served := q, holder := if (s.queue q).slice == 0 then none else some q }

/-- Place a launch on its cores, and start its packet. -/
def placeLaunch (s : State) (li : Nat) (cores : List Nat) : State :=
  match s.launches[li]? with
  | none => s
  | some l =>
    let s := relocate (ageHead s li) l.ctx l.lrec cores
    let s := s.modLaunch li fun l => { l with st := .placed, nblocks := cores.length, placedAt := s.steps, age := 0, bypass := [] }
    let s := commandLeaves (startNext s l.queue (.launch li)) cores
    cores.zipIdx.foldl (fun s e => placeBlock s li e.2 e.1 cores.length) s

/-! ### Pre-emption (R330 to R332) -/

/-- Drain a launch: its dispenser stops and the record takes the next tile index (R331). -/
def drain (s : State) (li : Nat) : State :=
  match s.launches[li]? with
  | none => s
  | some l => if l.draining then s
    else (writeVirtual s l.ctx (l.recAddr + 0x70#64) (toBytes 8 l.next)).modLaunch li fun l => { l with draining := true }

/-- The resident blocks of a launch, the highest core first. -/
def blocksDown (s : State) (li : Nat) : List Nat :=
  ((s.blocks.zipIdx.filter fun e => e.1.launch == li && e.1.st == .resident).foldl (fun (acc : List (Nat × Nat)) e =>
    acc.takeWhile (fun x => x.1 > e.1.core) ++ (e.1.core, e.2) :: acc.dropWhile (fun x => x.1 > e.1.core)) []).map (·.2)

/-- Take a whole launch off its cores in its queue's form. -/
def takeWhole (s : State) (li : Nat) : State :=
  match s.launches[li]? with
  | none => s
  | some l => if (s.queue l.queue).drain then drain s li else (blocksDown s li).foldl evictSoon s

/-- The launch to pre-empt: resident, lowest in priority, and of those the one placed latest. -/
def victimOf (s : State) (f : Nat → Launch → Bool) : Option (Nat × Launch) :=
  (s.launches.zipIdx.filter fun e => f e.2 e.1 && !(blocksDown s e.2).isEmpty).foldl (fun (best : Option (Nat × Launch)) e => match best with
    | none => some (e.2, e.1)
    | some b => if prioOf s e.1 < prioOf s b.2 || (prioOf s e.1 == prioOf s b.2 && e.1.placedAt ≥ b.2.placedAt) then some (e.2, e.1) else some b) none

/-- Pre-empt for a blocked head a launch of a priority that satisfies the test: the victim gives up its highest cores, no more
than the head needs (R332). -/
def preemptFor (s : State) (h : Nat) (can : Nat → Bool) : State :=
  let may (i : Nat) (l : Launch) : Bool := i != h && can (prioOf s l)
  match victimOf s may with
  | none => s
  | some (v, l) =>
    if (s.queue l.queue).drain || l.lrec.gang then takeWhole s v
    else
      let down := blocksDown s v
      let k := ((List.range down.length).find? fun k =>
        (placement (withoutBlocks s fun i _ => (down.take (k + 1)).contains i) h []).isSome).map (· + 1)
      (down.take (k.getD down.length)).foldl evictSoon s

/-- PLACEMENT (R326, R327): the March core places the launch if it is the one to be placed now; cores of a gated island
power up first (R352). A blocked one pre-empts launches of lower priority (R332). -/
def execPlacement (launch : Nat) (s : State) : Outcome :=
  match nextPlaced s with
  | some (li, cores) =>
    if li == launch then .next (if coresReady s cores then placeLaunch s li cores else s)
    else .next s
  | none => match (heads s).find? fun x => x.1 == launch with
    | some (_, l) => .next (preemptFor s launch fun p => p < prioOf s l)
    | none => .next s

/-- A queue is switched away; the next slice of one whose launch stays on its cores begins at once (R322, R332; log 26). -/
def switchAway (s : State) (q : Nat) : State :=
  let s := { s with holder := if s.holder == some q then none else s.holder }
  if sliceRuns s q then s.modQueue q fun x => x.beginSlice s.tick else s

/-- Whether the slice of a queue has fallen due: it runs, its time is over, and no packet that the queue has begun is still to be
completed (R322). -/
def sliceDue (s : State) (q : Nat) : Bool :=
  let x := s.queue q
  x.slice != 0 && sliceRuns s q && decide (x.sliceAt + x.slice ≤ s.tick) && !packetBegun x

/-- TIME_SLICE_EXPIRY (R322, R332): a queue's slice has fallen due. The queue is switched away; with a head of equal or higher
priority blocked, a launch is pre-empted for it. Where there is no such head and no other queue to switch to, the queue's next
slice begins at once (DESIGN CHOICE, log 26). -/
def execTimeSliceExpiry (q : Nat) (s : State) : Outcome :=
  if !sliceDue s q then .next s
  else
    let t := switchAway s q
    match (heads t).find? fun h => prioOf t h.2 ≥ (s.queue q).prio && (placement t h.1 []).isNone with
    | some (h, l) => .next (preemptFor t h fun p => p ≤ prioOf t l)
    | none => .next (if t.holder.isSome || (servedNext t).any (· != q) then t
        else { s.modQueue q (fun x => x.beginSlice s.tick) with holder := some q })

/-! ### Restoring (R330) -/

/-- The evicted blocks of a launch that the March core knows of, in ordinal order. -/
def waitingBlocks (s : State) (li : Nat) : List (Nat × Block) :=
  ((s.blocks.zipIdx.filter fun e => e.1.launch == li && e.1.st == .evicted && !untold s e.2).foldl (fun (acc : List (Nat × Block)) e =>
    acc.takeWhile (fun x => x.2.ordinal < e.1.ordinal) ++ (e.2, e.1) :: acc.dropWhile (fun x => x.2.ordinal < e.1.ordinal)) [])

/-- The cores for the first `k` of the waiting blocks. -/
def coresBack (s : State) (li : Nat) (l : Launch) (ws : List (Nat × Block)) (k : Nat) : Option (List Nat) :=
  let need := (ws.take k).foldl (fun n e => n.max (needBack l.lrec e.2)) { needOf l.lrec with regs := [] }
  let rs := launchRelocs s l.ctx l.lrec
  let barred := barredFor s li
  let cs := aligned l.lrec.align (freeCores s li need fun c => !barred.contains (regionOf c))
  let both := together s need (cs.filter (routesFrom s l.ctx rs))
  if both.length < k then none else some (distinctAsc (chooseCores l.lrec.align k cs both))

/-- Whether a head that can be placed goes before the evicted blocks of a launch: one of equal or higher priority (R327;
log 26). -/
def headFirst (s : State) (l : Launch) : Bool :=
  (heads s).any fun h => prioOf s h.2 ≥ prioOf s l && (placement s h.1 (barredFor s h.1)).isSome

/-- Return evicted blocks of a queue's launch to cores, once the cores can take them; the queue's slice runs from then on. -/
def restoreAll (s : State) (q : Nat) (ws : List (Nat × Block)) (cores : List Nat) : State :=
  if coresReady s cores then (ws.zip cores).foldl (fun s e => restoreOn s e.1.1 e.2) (commandLeaves (runSlice s q) cores) else s

/-- BLOCK_RESTORE (R330): the lowest waiting ordinals return to cores that have freed, a gang only whole, once the March core
knows that all its blocks have left; islands power up first (R352). -/
def execBlockRestore (launch : Nat) (s : State) : Outcome :=
  match s.launches[launch]? with
  | none => .next s
  | some l =>
    let ws := waitingBlocks s launch
    if headFirst s l then .next s
    else if l.lrec.gang then
      if !(blocksDown s launch).isEmpty || ws.length < (s.blocks.filter fun b => b.launch == launch && b.st == .evicted).length then .next s
      else match coresBack s launch l ws ws.length with
        | some cores => .next (restoreAll s l.queue ws cores)
        | none => .next s
    else match (List.range ws.length).reverse.findSome? fun k => coresBack s launch l ws (k + 1) with
      | some cores => .next (restoreAll s l.queue ws cores)
      | none => .next s

/-! ### The fault service has acted (R312) -/

/-- What a group does after a service: what waited is tried again. -/
def servedGroup (g : Group) : Group :=
  let copy (k : CopyOp) : CopyOp := { k with stage := match k.stage with
    | .waiting => .queued
    | .adding _ => .adding false
    | x => x }
  let status : GStatus := match g.status with
    | .service resumed => if resumed then .resumed else .ready
    | .entering e => .entering { e with svc := false }
    | x => x
  { g with status := status, sideSvc := false, copies := g.copies.map copy }

def servedPacket (x : Started) : Started := match x with
  | .waitc c v d _ sent => .waitc c v d false sent
  | .held i _ sent => .held i false sent
  | x => x

/-- FAULT_SERVICE_REWALK (R312): once a context's service counter has changed, every waiting agent of it walks again. -/
def execFaultServiceRewalk (ctx : Nat) (s : State) : Outcome :=
  let now := serviceCounter s ctx
  if now == (s.ctx ctx).served then .next s
  else
    let of (b : Block) : Bool := match s.launches[b.launch]? with
      | some l => l.ctx == ctx
      | none => false
    let blk (b : Block) : Block := if of b then { b with groups := b.groups.map servedGroup, seq := { b.seq with svc := false } } else b
    let lau (l : Launch) : Launch := if l.ctx == ctx && l.st = .counting then { l with st := .placed } else l
    let que (e : Nat × Queue) : Nat × Queue := (e.1, if e.2.ctx == ctx then { e.2 with started := e.2.started.map servedPacket } else e.2)
    .next { s.setCtx ctx { s.ctx ctx with served := now } with
      blocks := s.blocks.map blk, launches := s.launches.map lau, queues := s.queues.map que }

end Sys2Proof.Machine
end

