-- ==== Sys2Proof/Machine/March.lean ====
section
/-! DEFINITION. The March core's packets (R320 to R322, R324): NOP, LAUNCH, COPY, WRITE, SIGNAL, WAITC, WSIG, FENCE, TSTAMP,
and WAITC_TIMEOUT. -/
namespace Sys2Proof.Machine

/-! ### Starting and completing a packet (R322) -/

/-- Whether the March core's firmware runs (R349). -/
def marchRuns (s : State) : Bool := s.boot == 1#2 || s.boot == 2#2

/-- Whether a queue's head packet may start now: with ORDER, only when every earlier one has completed. -/
def canStart (s : State) (q : Nat) (order : Bool) : Bool :=
  let x := s.queue q
  marchRuns s && x.enable && !x.stopped && x.rd != x.wr && !hasPending s q && (!order || x.started.isEmpty)

/-- What became of a packet that acted. -/
inductive PktRes where
  /-- It completes; a code stops the queue afterwards. -/
  | done (s : State) (code : Option (BitVec 8))
  /-- An access failed: the queue stops, and the packet does not complete. -/
  | stop (s : State) (code : BitVec 8)
  /-- What is left of it waits: for the fault service (`svc`), for answers, or for its turn. -/
  | wait (s : State) (left : Instr) (svc : Bool) (sent : List (Nat × Nat))
  deriving Repr

/-- The queue's started packet that this instruction goes on with. -/
def heldPacket (s : State) (q : Nat) (i : Instr) : Option (Bool × List (Nat × Nat)) :=
  (s.queue q).started.findSome? fun x => match x with
    | .held j svc sent => if j = i then some (svc, sent) else none
    | _ => none

def isHeld (i : Instr) (x : Started) : Bool := match x with
  | .held j _ _ => decide (j = i)
  | _ => false

/-- Replace or remove the held packet. -/
def setHeld (s : State) (q : Nat) (i : Instr) (new : List Started) : State :=
  s.modQueue q fun x =>
    let k := (x.started.findIdx? (isHeld i)).getD x.started.length
    { x with started := x.started.take k ++ new ++ x.started.drop (k + 1) }

/-- Forget the answers to a packet's requests. -/
def dropSent (s : State) (sent : List (Nat × Nat)) : State :=
  { s with answers := sent.foldl (fun (m : SMap (List Byte)) (e : Nat × Nat) => sdel m e.2) s.answers }

def allAnswered (s : State) (sent : List (Nat × Nat)) : Bool := sent.all fun e => !(sget [] s.answers e.2).isEmpty

/-- A packet that ends past its queue's slice adds its overrun, at most 2 µs, to what the next slice is shortened by (R322). -/
def overrun (s : State) (q : Nat) : State :=
  s.modQueue q fun x =>
    if x.slice != 0 && s.tick > x.sliceAt + x.slice then { x with overran := min 2000 (s.tick - (x.sliceAt + x.slice)) } else x

/-- A packet's step: it starts, or goes on once what it waits for has come. -/
def packet (i : Instr) (q : Nat) (order : Bool) (s : State) (act : State → List (Nat × Nat) → PktRes) : Outcome :=
  let go (s : State) (sent : List (Nat × Nat)) : State :=
    match act s sent with
    | .done s code =>
      let s := signalHost (overrun (dropSent (setHeld s q i []) sent) q) q
      match code with
      | some c => stopQueue s q c
      | none => s
    | .stop s c => stopQueue (dropSent (setHeld s q i []) sent) q c
    | .wait s left svc sent => setHeld s q i [.held left svc sent]
  match heldPacket s q i with
  | some (svc, sent) => .next (if svc || !allAnswered s sent then s else go s sent)
  | none =>
    if !canStart s q order then .next s
    else .next (go (startNext s q (.held i false [])) [])

/-- An unmapped page of a packet: it waits for the fault service, or for room in the fault queue (R312, R321). -/
def waitPage (s : State) (q c : Nat) (a : W64) (write : Bool) (left : Instr) (sent : List (Nat × Nat)) : PktRes :=
  match packetWaits s q c a write with
  | .recorded s => .wait s left true sent
  | .noRoom => .wait s left false sent
  | .stopped s => .stop s 0x82#8

/-- The counter add that ends a packet; `left` is what is left to do when its page is unmapped or while another device makes it. -/
def addThen (s : State) (q c : Nat) (ctr add : W64) (left : Instr) (sent : List (Nat × Nat)) : PktRes :=
  match (match sent with
    | [] => counterAddAt s c ctr add
    | e :: _ => (s, addAnswer (sget [] s.answers e.2))) with
  | (s, .ok false) => .done s none
  | (s, .ok true) => .done s (some 0x83#8)
  | (s, .asked id) => .wait s left false [(0, id)]
  | (s, .failed) => .stop s 0x82#8
  | (s, .unmapped a) => waitPage s q c a true left []

/-- Reading a range: its bytes, or the requests that its pieces on other devices need. -/
inductive PktRead where
  | ok (s : State) (bs : List Byte)
  | ask (s : State) (sent : List (Nat × Nat))
  | fail (s : State) (e : ReadFail)
  deriving Repr

/-- The packet offset from which on its writes to other devices are numbered. -/
def writeKey : Nat := 2 ^ 64

def readPieces (s : State) (ps : List Piece0) (sent : List (Nat × Nat)) : PktRead :=
  let remote : List (Nat × Nat × RemoteOp) := ps.filterMap fun p => match p.loc with
    | .dev d pa _ => some (p.off, d, .load pa p.n)
    | _ => none
  let missing := remote.filter fun e => !sent.any fun x => x.1 == e.1
  let answer (p : Piece0) : List Byte := match sent.find? fun x => x.1 == p.off with
    | some e => sget [] s.answers e.2
    | none => []
  if missing.isEmpty then
    if ps.any fun p => (match p.loc with
        | .dev .. => answerBad (answer p)
        | _ => false) then .fail s (.cause 0xE0#8 [])
    else .ok s (ps.flatMap fun p => match p.loc with
      | .dev .. => ((answer p).drop 1).take p.n
      | loc => locBytes s p.n loc)
  else
    let x := missing.foldl (fun (acc : State × List (Nat × Nat)) e =>
      let (s, id) := sendTo acc.1 e.2.1 e.2.2 true
      (s, acc.2 ++ [(e.1, id)])) (s, sent)
    .ask x.1 x.2

def readRange (s : State) (c : Nat) (a : W64) (n : Nat) (sent : List (Nat × Nat)) : PktRead :=
  match packetRange s c a n false with
  | (s, .error e) => .fail s e
  | (s, .ok ps) => readPieces s ps sent

/-- A failing access: an unmapped page waits, anything else stops the queue. -/
def failRead (s : State) (q c : Nat) (e : ReadFail) (write : Bool) (left : Instr) (sent : List (Nat × Nat)) : PktRes :=
  match e with
  | .unmapped a => waitPage s q c a write left sent
  | .cause _ _ => .stop s 0x82#8

/-! ### The packets (R321) -/

def execNopPacket (q : Nat) (order : Bool) (s : State) : Outcome :=
  packet (.nopPacket q order) q order s fun s _ => .done s none

/-- Write a checked range, and go on once other devices have performed what is theirs. `sent` tells that they are asked. -/
def writeThen (s : State) (ps : List Piece0) (bs : List Byte) (me : Instr) (drop : List (Nat × Nat)) (k : State → PktRes) : PktRes :=
  match writePieces s ps bs writeKey with
  | (s, []) => k (dropSent s drop)
  | (s, ids) => .wait (dropSent s drop) me false ids

/-- Whether a packet has asked other devices to write. -/
def writesOut (sent : List (Nat × Nat)) : Bool := sent.any fun e => e.1 ≥ writeKey

/-- COPY: both ranges are checked, the bytes move, and the counter add comes last. Neither range lies on the state view (R145). -/
def execCopy (q : Nat) (order : Bool) (src dst len ctr add : W64) (s : State) : Outcome :=
  let me : Instr := .copy q order src dst len ctr add
  let c := (s.queue q).ctx
  packet me q order s fun s sent =>
    let last (s : State) : PktRes := if ctr == 0#64 then .done s none else addThen s q c ctr add (.signal q false ctr add 6#8) []
    if field src.toNat 60 4 == 7 || field dst.toNat 60 4 == 7 then .stop s 0x82#8
    else if writesOut sent then last (dropSent s sent)
    else match readRange s c src len.toNat sent with
    | .fail s e => failRead s q c e false me sent
    | .ask s sent => .wait s me false sent
    | .ok s bs => match packetRange s c dst len.toNat true with
      | (s, .error e) => failRead s q c e true me sent
      | (s, .ok ps) => writeThen s ps bs me sent last

/-- A packet that writes some bytes and then does what is left of it. -/
def writePacket (me : Instr) (q : Nat) (order : Bool) (addr : W64) (data : State → List Byte) (s : State) (last : State → PktRes) : Outcome :=
  let c := (s.queue q).ctx
  packet me q order s fun s sent =>
    if writesOut sent then last (dropSent s sent)
    else match packetRange s c addr (data s).length true with
    | (s, .error e) => failRead s q c e true me sent
    | (s, .ok ps) => writeThen s ps (data s) me [] last

def execWrite (q : Nat) (order : Bool) (addr : W64) (data : List Byte) (s : State) : Outcome :=
  writePacket (.write q order addr data) q order addr (fun _ => data) s fun s => .done s none

/-- SIGNAL: the add, as a release at its scope, which one interleaving gives already (log 2). -/
def execSignal (q : Nat) (order : Bool) (ctr add : W64) (scope : BitVec 8) (s : State) : Outcome :=
  let me : Instr := .signal q order ctr add scope
  packet me q order s fun s sent => addThen s q (s.queue q).ctx ctr add me sent

def execWsig (q : Nat) (order : Bool) (addr : W64) (data : List Byte) (ctr add : W64) (s : State) : Outcome :=
  let c := (s.queue q).ctx
  writePacket (.wsig q order addr data ctr add) q order addr (fun _ => data) s fun s =>
    addThen s q c ctr add (.signal q false ctr add 6#8) []

/-- FENCE: it completes once every packet before it has. -/
def execFencePacket (q : Nat) (order : Bool) (scope : BitVec 8) (s : State) : Outcome :=
  let me : Instr := .fencePacket q order scope
  packet me q order s fun s _ => match (s.queue q).started.head? with
    | some x => if isHeld me x then .done s none else .wait s me false []
    | none => .done s none

def execTstamp (q : Nat) (order : Bool) (addr : W64) (s : State) : Outcome :=
  let me : Instr := .tstamp q order addr
  if addr.toNat % 8 != 0 then packet me q order s fun s _ => .stop s 0x82#8
  else writePacket me q order addr (fun s => toBytes 8 s.tick) s fun s => .done s none

/-! ### WAITC (R321, R322) -/

/-- One test of a started WAITC: it completes, stops the queue, or stays. -/
def testWaitc (s : State) (q k : Nat) (ctr value : W64) (due : Option Nat) (sent : Option Nat) : State :=
  let c := (s.queue q).ctx
  let drop (s : State) : State := s.modQueue q fun x => { x with started := x.started.eraseIdx k }
  let keep (s : State) (svc : Bool) (sent : Option Nat) : State :=
    s.modQueue q fun x => { x with started := x.started.set k (.waitc ctr value due svc sent) }
  let late := match due with
    | some t => decide (s.tick ≥ t)
    | none => false
  let below (s : State) : State := if late then stopQueue (drop s) q 5#8 else keep s false none
  let against (s : State) (x : Nat) : State := if x ≥ value.toNat then signalHost (drop s) q else below s
  match sent with
  | some id =>
    let bs := sget [] s.answers id
    if bs.isEmpty then (if late then stopQueue (drop s) q 5#8 else s)
    else if answerBad bs then stopQueue (drop { s with answers := sdel s.answers id }) q 0x82#8
    else against { s with answers := sdel s.answers id } (ofBytes ((bs.drop 1).take 8))
  | none =>
    if ctr.toNat % 8 != 0 then stopQueue (drop s) q 0x82#8
    else match packetPiece s c ctr 8 false true with
      | (s, .error (.unmapped a)) =>
        if late then stopQueue (drop s) q 5#8
        else match packetWaits s q c a false with
          | .recorded s => keep s true none
          | .noRoom => s
          | .stopped s => drop s
      | (s, .error _) => stopQueue (drop s) q 0x82#8
      | (s, .ok (.dev d pa _)) => let (s, id) := sendTo s d (.load pa 8) true; keep s false (some id)
      | (s, .ok loc) => against s (ofBytes (locBytes s 8 loc))

/-- WAITC starts and tests its counter once. -/
def execWaitc (q : Nat) (order : Bool) (ctr value timeout : W64) (s : State) : Outcome :=
  if !canStart s q order then .next s
  else
    let due := if timeout == 0#64 then none else some (s.tick + timeout.toNat)
    let k := (s.queue q).started.length
    .next (testWaitc (startNext s q (.waitc ctr value due false none)) q k ctr value due none)

/-- WAITC_TIMEOUT (R322): the queue's started WAITCs test their counters, and one whose time has run out stops the queue. -/
def execWaitcTimeout (q : Nat) (s : State) : Outcome :=
  .next ((List.range (s.queue q).started.length).reverse.foldl (fun (s : State) (k : Nat) => match (s.queue q).started[k]? with
    | some (Started.waitc ctr value due svc sent) =>
      if svc then
        (match due with
        | some t => if s.tick ≥ t then stopQueue (s.modQueue q fun x => { x with started := x.started.eraseIdx k }) q 5#8 else s
        | none => s)
      else testWaitc s q k ctr value due sent
    | _ => s) s)

/-! ### LAUNCH (R324) -/

/-- The fields of a launch record. -/
def parseLaunch (bs : List Byte) : LaunchRec :=
  let f (off n : Nat) : Nat := fieldAt bs off n
  let d (off : Nat) : W64 := u64 (f off 8)
  { region := d 0x00, emuv := d 0x08, trapv := d 0x10, mstream := d 0x18, params := d 0x20, cstack := d 0x28, cssize := f 0x30 4,
    mincores := f 0x34 2, maxcores := f 0x36 2, align := f 0x38 1, gang := (f 0x39 1).testBit 0, equinox := (f 0x39 1).testBit 1,
    priority := f 0x3A 1, groups := f 0x3C 1, accregs := f 0x3D 1, lanes := f 0x3E 2, vregs := f 0x40 2, barriers := f 0x42 1,
    nbctrs := f 0x43 1, scratch := f 0x44 4, monitors := f 0x48 1, parkq := f 0x4A 2,
    bars := Vector.ofFn fun i : Fin 16 => BitVec.ofNat 4 (f 0x50 8 / 16 ^ i.val), index := (f 0x58 4, f 0x5C 4, f 0x60 4),
    tile := (f 0x64 4, f 0x68 4, f 0x6C 4), next := f 0x70 8, save := d 0x78, done := d 0x80, owna := d 0x88, ownl := d 0x90,
    own := Vector.ofFn fun i : Fin 6 => (d (0xA0 + 16 * i.val), d (0xA8 + 16 * i.val)) }

def between (lo x hi : Nat) : Bool := lo ≤ x && x ≤ hi

/-- The limits of the record's fields. -/
def inLimits (x : LaunchRec) : Bool :=
  x.cssize % 128 == 0 && between 1 x.mincores 576 && between x.mincores x.maxcores 576 && x.align ≤ 2 && x.priority ≤ 7
    && between 1 x.groups 16 && x.accregs ≤ 32 && 1 ≤ x.lanes && between 8 x.vregs 256 && x.vregs % 8 == 0 && x.barriers ≤ 16
    && x.nbctrs ≤ 16 && x.scratch ≤ 262144 && x.scratch % 4 == 0 && x.monitors ≤ 8
    && ((List.range 16).all fun n => n ≥ x.barriers || (x.bars[n]?.getD 0).toNat < 8)
    && [x.index.1, x.index.2.1, x.index.2.2, x.tile.1, x.tile.2.1, x.tile.2.2].all (1 ≤ ·)
    && x.done.toNat % 64 == 0 && x.own.toList.all fun e => e.1.toNat % 128 == 0 && e.2.toNat % 128 == 0

/-- The checks of R324 in order: the number of the first that fails. -/
def checkRecord (addr : W64) (bs : List Byte) : Option Nat :=
  let x := parseLaunch bs
  let f (off n : Nat) : Nat := fieldAt bs off n
  let scopes (bad : Nat → Bool) : Bool := (List.range 16).any fun n => n < x.barriers && bad (x.bars[n]?.getD 0).toNat
  let kib (y : W64) : Bool := y != 0#64 && y.toNat % 65536 == 0
  let bad : List (Nat × Bool) :=
    [(1, addr.toNat % 64 != 0 || [x.region, x.emuv, x.trapv, x.mstream].any fun a => a.toNat % 128 != 0),
     (2, !inLimits x),
     (3, f 0x39 1 ≥ 4 || f 0x49 1 != 0 || f 0x4C 4 != 0 || f 0x98 8 != 0),
     (4, scopes fun k => k == 0 || k == 6 || k == 7),
     (5, x.gang && x.mincores != x.maxcores),
     (6, x.lanes > 32 * x.groups),
     (7, x.save == 0#64 || x.done == 0#64),
     (8, if x.equinox then !(kib x.owna && kib x.ownl) else x.owna != 0#64 || x.ownl != 0#64)]
  (bad.find? (·.2)).map (·.1)

/-- Queue a checked launch for placement; the March core writes its queue's number into the record. -/
def pendLaunch (s : State) (q c : Nat) (record ctr add : W64) (bs : List Byte) : State :=
  let s := writeVirtual s c (record + 0x3B#64) [BitVec.ofNat 8 q]
  { s with launches := s.launches ++ [Launch.start q c record (parseLaunch bs) ctr add] }

/-- LAUNCH: the record is read and checked, and the launch is queued for placement; its packet starts when it is placed. A
head that cannot be placed pre-empts launches of lower priority (R332). -/
def execLaunch (q : Nat) (order : Bool) (record ctr add : W64) (s : State) : Outcome :=
  let me : Instr := .launch q order record ctr add
  let x := s.queue q
  let held := heldPacket s q me
  let sent := match held with
    | some (_, sent) => sent
    | none => []
  let waits := match held with
    | some (svc, sent) => svc || !allAnswered s sent
    | none => false
  let others := x.started.filter fun y => !isHeld me y
  if waits || !marchRuns s || !x.enable || x.stopped || x.rd == x.wr || hasPending s q || (order && !others.isEmpty) then .next s
  else
    let c := x.ctx
    let put (s : State) (new : List Started) : State :=
      if held.isSome then setHeld s q me new else if new.isEmpty then s
      else s.modQueue q fun x => { x with started := x.started ++ new }
    match readRange s c record 256 sent with
    | .fail s (.unmapped a) => match packetWaits s q c a false with
      | .recorded s => .next (put s [.held me true sent])
      | .noRoom => .next (put s [.held me false sent])
      | .stopped s => .next (put s [])
    | .fail s _ => .next (stopQueue (put s []) q 0x82#8)
    | .ask s sent => .next (put s [.held me false sent])
    | .ok s bs =>
      let s := dropSent (put s []) sent
      match checkRecord record bs with
      | some n => .next (stopQueue s q (BitVec.ofNat 8 (0x40 + n)))
      | none =>
        let l := parseLaunch bs
        -- code with block-ordinal places is launched only as a gang (R50, log 26)
        if !l.gang && (launchRelocs s c l).any fun e => e.2.kind == 1 then .next (stopQueue s q Config.refusedLaunch)
        else
          let s := pendLaunch s q c record ctr add bs
          let li := s.launches.length - 1
          match nextPlaced s, s.launches[li]? with
          | none, some l => .next (preemptFor s li fun p => p < prioOf s l)
          | _, _ => .next s

end Sys2Proof.Machine
end

