-- ==== Sys2Proof/Machine/Hub.lean ====
section
/-! DEFINITION. The host, the security block, power, the debug port and the fabric (R319, R338 to R357, R359): every step in
which something outside the package acts on it. -/
namespace Sys2Proof.Machine

/-! ### Host memory accesses (R339) -/

/-- Full service: the port offers CXL.mem. -/
def fullService (s : State) : Bool := s.boot == 2#2

/-- A byte of device memory as the host reads it: all ones beyond device memory. -/
def hostByte (s : State) (pa : Nat) : Byte := if pa < 2 ^ 51 && paValid s pa then sget 0#8 s.mem pa else 0xFF#8

/-- HOST_MEM_READ: the answer goes to the host. -/
def execHostMemRead (pa size : Nat) (s : State) : Outcome :=
  .next (if fullService s then { s with replies := s.replies ++ [(List.range size).map fun i => hostByte s (pa + i)] } else s)

/-- HOST_MEM_WRITE: full/empty states stay, and nobody is woken; bytes beyond device memory are discarded. -/
def execHostMemWrite (pa : Nat) (data : List Byte) (s : State) : Outcome :=
  .next (if fullService s then
    { s with mem := ssetAll 0#8 s.mem ((placed pa data).filter fun e => e.1 < 2 ^ 51 && paValid s e.1) } else s)

/-! ### Registers (R318, R320, R340) -/

/-- A queue's descriptor as its register holds it, and back. -/
def queueBytes (q : Queue) : List Byte :=
  layout [(q.base.toNat, 8), (q.count, 4), (q.ctx, 4), (q.rd.toNat, 8), (q.wr.toNat, 8), (q.prio, 1),
    ((if q.drain then 1 else 0) + (if q.enable then 2 else 0), 1), (0, 2), (q.slice, 4),
    ((if q.stopped then 2 ^ 31 else 0) + q.code.toNat, 4), (0, 20)]

def queueOfBytes (q : Queue) (bs : List Byte) : Queue :=
  { q with base := u64 (fieldAt bs 0 8), count := fieldAt bs 8 4, ctx := fieldAt bs 12 4, rd := u64 (fieldAt bs 16 8), wr := u64 (fieldAt bs 24 8),
           prio := fieldAt bs 32 1, drain := (fieldAt bs 33 1).testBit 0, enable := (fieldAt bs 33 1).testBit 1, slice := fieldAt bs 36 4,
           stopped := (fieldAt bs 40 4).testBit 31, code := BitVec.ofNat 8 (fieldAt bs 40 1) }

def ctxBytes (c : Ctx) : List Byte := layout [(c.desc.toNat, 8), (c.st.toNat, 4), (0, 4)]

/-- A context's initial FEBUDGET from its descriptor (R317): 0 means 1,024. -/
def initialBudget (s : State) (desc : W64) : W32 :=
  let x := rd s (desc.toNat + 0x30) 4
  u32 (if x == 0 then 1024 else min x (2 ^ 20))

/-- A register of `bs` at an offset, with the bytes of a write laid over it. -/
def overlay (at_ : Nat) (bs : List Byte) (offset : Nat) (data : List Byte) : List Byte :=
  bs.zipIdx.map fun e => if offset ≤ at_ + e.2 && at_ + e.2 < offset + data.length then data.getD (at_ + e.2 - offset) 0 else e.1

/-- A write to a queue descriptor; a launch that waited in it for placement goes when its packets move away. -/
def writeQueueReg (s : State) (q : Nat) (new : List Byte) : State :=
  let x := s.queue q
  let y := queueOfBytes x new
  if y = x then s
  else
    let s := s.setQueue q y
    if y.base == x.base && y.count == x.count && y.ctx == x.ctx && y.rd == x.rd then s
    else { s with launches := s.launches.map fun l => if l.queue == q && l.st = .pending then { l with st := .complete } else l }

/-- A write to a context table entry; one that becomes active takes its budget from the descriptor. -/
def writeCtxReg (s : State) (c : Nat) (new : List Byte) : State :=
  let x := s.ctx c
  let y := { x with desc := u64 (fieldAt new 0 8), st := BitVec.ofNat 2 (fieldAt new 8 1) }
  if y = x then s
  else
    let s := s.setCtx c y
    if x.st != 1#2 && y.st == 1#2 then s.setCtx c { y with febudget := initialBudget s y.desc, served := serviceCounter s c } else s

/-- Whether a write touches `n` bytes at an offset. -/
def touches (offset len at_ n : Nat) : Bool := offset < at_ + n && at_ < offset + len

/-- The command words and operands of the request blocks: their status words apart. -/
def operandByte (k : Nat) : Bool :=
  (0x1040 ≤ k && k < 0x105C) || (0x1080 ≤ k && k < 0x1098) || (0x2000 ≤ k && k < 0x2004) || (0x2008 ≤ k && k < 0x3000)

def putOperands (s : State) (at_ : Nat) (bs : List Byte) : State :=
  { s with operands := ssetAll 0#8 s.operands ((placed at_ bs).filter fun e => operandByte e.1) }

/-- `n` bytes of the request blocks as a number. -/
def operand (s : State) (at_ n : Nat) : Nat := ofBytes (srun 0#8 s.operands at_ n)

def commandEvent (s : State) (i : Instr) : State := { s with agenda := s.agenda ++ [.event i] }

/-- A write of a command word starts what the block's operands ask for (R341, R342, R350); the operands of the mailbox take
eight bytes each (log 26). -/
def startCommands (s : State) (offset n : Nat) : State :=
  let s := if touches offset n 0x1058 4 && operand s 0x1058 4 == 1 then
      commandEvent { s with invalStatus := 0 } (.invalidationRequest (operand s 0x1040 4) (u64 (operand s 0x1048 8)) (u64 (operand s 0x1050 8)))
    else s
  let s := if touches offset n 0x1080 4 then
      let x := operand s 0x1088 8
      match operand s 0x1080 4 with
      | 1 => commandEvent { s with cmdStatus := 0 } (.preemptQueue x)
      | 2 => commandEvent { s with cmdStatus := 0 } (.setPowerLimit x)
      | 3 => commandEvent { s with cmdStatus := 0 } (.destroyContext x)
      | _ => { s with cmdStatus := 2 }
    else s
  if touches offset n 0x2000 4 then
    let x (k : Nat) : Nat := operand s (0x2008 + 8 * k) 8
    match operand s 0x2000 4 with
    | 1 => commandEvent { s with mailStatus := 0 } (.keygen (x 0))
    | 2 => commandEvent { s with mailStatus := 0 } (.tag (x 0) (u64 (x 1)) (x 2) (u64 (x 3)) (u64 (x 4)))
    | 3 => commandEvent { s with mailStatus := 0 } (.attest (x 2) (u64 (x 0)) (u64 (x 1)))
    | _ => { s with mailStatus := 2 }
  else s

/-- REGISTER_WRITE: queue descriptors, the context table, and the request blocks; every other offset ignores the write. -/
def execRegisterWrite (offset : Nat) (data : List Byte) (s : State) : Outcome :=
  let n := data.length
  let s := (List.range 64).foldl (fun s q =>
    if touches offset n (64 * q) 64 then writeQueueReg s q (overlay (64 * q) (queueBytes (s.queue q)) offset data) else s) s
  let s := (List.range 1024).foldl (fun s c =>
    if touches offset n (0x4000 + 16 * c) 16 then writeCtxReg s c (overlay (0x4000 + 16 * c) (ctxBytes (s.ctx c)) offset data) else s) s
  .next (startCommands (putOperands s offset data) offset n)

/-- Device status (R351). -/
def deviceStatus (s : State) : Nat := 4 * s.boot.toNat + 16 * s.fst.toNat

/-- A byte of BAR0 as the host reads it (R340). -/
def barByte (s : State) (k : Nat) : Byte :=
  let word (at_ x : Nat) : Byte := (toBytes 8 x).getD (k - at_) 0
  if k < 0x1000 then (queueBytes (s.queue (k / 64))).getD (k % 64) 0
  else if 0x1000 ≤ k && k < 0x1008 then word 0x1000 (deviceStatus s)
  else if operandByte k then sget 0#8 s.operands k
  else if 0x105C ≤ k && k < 0x1060 then word 0x105C s.invalStatus
  else if 0x1098 ≤ k && k < 0x109C then word 0x1098 s.cmdStatus
  else if 0x2004 ≤ k && k < 0x2008 then word 0x2004 s.mailStatus
  else if 0x4000 ≤ k && k < 0x8000 then (ctxBytes (s.ctx ((k - 0x4000) / 16))).getD (k % 16) 0
  else 0

/-- Answer what the host has asked to read in BAR0. -/
def answerReads (s : State) : State :=
  if s.barReads.isEmpty then s
  else { s with replies := s.replies ++ s.barReads.map (fun r => (List.range r.2).map fun i => barByte s (r.1 + i)), barReads := [] }

/-- QUEUE_WRITE_INDEX: a release of the host, which the March core's read acquires; both hold in one interleaving. -/
def execQueueWriteIndex (q : Nat) (index : W64) (s : State) : Outcome :=
  .next (if q < 64 then s.modQueue q fun x => { x with wr := index } else s)

/-- QUEUE_DESCRIPTOR_WRITE: the enable bit is set, or the stopped status cleared. -/
def execQueueDescriptorWrite (q : Nat) (enable clearStop : Bool) (s : State) : Outcome :=
  .next (if q < 64 then s.modQueue q fun x =>
    let x := if enable then { x with enable := true } else x
    if clearStop then { x with stopped := false, code := 0 } else x else s)

def execHostPortLinkUp (rate : Nat) (s : State) : Outcome :=
  .next (if rate ≥ 32 then { s with hostLink := if rate ≥ 64 then 64 else 32 } else s)

/-! ### Requests and commands of the host (R311, R319, R341, R342) -/

/-- Whether a TLB entry's page meets a range of virtual addresses: on path 0x6 a page of the fabric root, by the bits below the
device number, on every other path a page of the page tables, by the bits that the path translates (R143, R144, R306, R311). -/
def TlbEntry.meets (t : TlbEntry) (ctx : Nat) (base len : W64) : Bool :=
  let path := field base.toNat 60 4
  let (a, n) := match path with
    | 5 => (field base.toNat 0 56, len.toNat)
    | 6 => (field base.toNat 0 48, len.toNat)
    | 7 => (16 * field base.toNat 0 56, 16 * len.toNat)
    | _ => (field base.toNat 0 60, len.toNat)
  t.ctx == ctx && t.fabric == (path == 6) && decide (t.base < a + n) && decide (a < t.base + t.size)

/-- Whether a leaf that has been used still stands in its slot: one that is gone is a fresh mapping when it comes again (R148). -/
def leafStands (s : State) (e : Nat × Nat) : Bool :=
  let x := rd s e.1 8
  x.testBit 0 && x.testBit 7 && frameOf x == e.2

/-- INVALIDATION_REQUEST: no TLB holds a leaf of the range any more. -/
def execInvalidationRequest (ctx : Nat) (base len : W64) (s : State) : Outcome :=
  let s := putOperands s 0x1040 (layout [(ctx, 4), (operand s 0x1044 4, 4), (base.toNat, 8), (len.toNat, 8), (1, 4)])
  if base.toNat % 4096 != 0 || len.toNat % 4096 != 0 then .next { s with invalStatus := 2 }
  else
    .next { s with invalStatus := 1, tlb := s.tlb.filter fun t => !t.meets ctx base len, leaves := s.leaves.filter (leafStands s) }

/-- A host command's block: the command word and its operand. -/
def hostCommand (s : State) (cmd x : Nat) : State :=
  putOperands s 0x1080 (layout [(cmd, 4), (operand s 0x1084 4, 4), (x, 8)])

/-- A mailbox command's block: the command word and its operands (log 26). -/
def mailCommand (s : State) (cmd : Nat) (xs : List Nat) : State :=
  putOperands (putOperands s 0x2000 (toBytes 4 cmd)) 0x2008 (layout (xs.map fun x => (x, 8)))

/-- Whether a launch of a queue still has a block to be evicted, or whose eviction waits for a permit (R323). -/
def leavingOf (s : State) (q : Nat) : Bool :=
  let mine (b : Block) : Bool := match s.launches[b.launch]? with
    | some l => l.queue == q
    | none => false
  s.blocks.any (fun b => b.leaving && b.st == .resident && mine b)
    || s.leafLinks.toList.any fun f => f.evicts.any fun i => ((s.blocks[i]?).map mine).getD false

/-- Report a pre-emption done when the last named block has gone. -/
def reportPreempted (s : State) : State :=
  match s.cmdQueue with
  | some q => if leavingOf s q then s else { s with cmdStatus := 1, cmdQueue := none }
  | none => s

/-- PREEMPT_QUEUE (host command 1): every launch of the queue with a resident block is taken whole, in the queue's form. -/
def execPreemptQueue (q : Nat) (s : State) : Outcome :=
  let s := hostCommand s 1 q
  if q ≥ 64 then .next { s with cmdStatus := 2 }
  else
    let mine := (List.range s.launches.length).filter fun i => !(blocksDown s i).isEmpty && (match s.launches[i]? with
      | some l => l.queue == q
      | none => false)
    .next (reportPreempted { mine.foldl takeWhole s with cmdStatus := 0, cmdQueue := some q })

/-- SET_POWER_LIMIT (host command 2). -/
def execSetPowerLimit (watts : Nat) (s : State) : Outcome :=
  let s := hostCommand s 2 watts
  .next (if 1000 ≤ watts && watts ≤ 3200 then { s with power := watts, cmdStatus := 1 } else { s with cmdStatus := 2 })

/-- DESTROY_CONTEXT (host command 3, R319): refused while a queue or a block uses the context. -/
def execDestroyContext (ctx : Nat) (s : State) : Outcome :=
  let s := hostCommand s 3 ctx
  let used := (s.queues.any fun e => e.2.enable && e.2.ctx == ctx) || s.blocks.any fun b => b.st != .ended && (match s.launches[b.launch]? with
    | some l => l.ctx == ctx
    | none => false)
  if ctx ≥ 1024 || used then .next { s with cmdStatus := 2 }
  else .next { s.setCtx ctx { s.ctx ctx with st := 0, key := none } with
    cmdStatus := 1, tlb := s.tlb.filter fun t => t.ctx != ctx, icache := s.icache.filter fun e => e.ctx != ctx }

/-! ### The security block (R314, R350) -/

/-- The security block's firmware runs: boot has reached service. -/
def secured (s : State) : Bool := s.boot == 1#2 || s.boot == 2#2

/-- KEYGEN: a fresh key for the context number (log 8). -/
def execKeygen (ctx : Nat) (s : State) : Outcome :=
  let s := mailCommand s 1 [ctx]
  if !secured s then .next s
  else if ctx ≥ 1024 then .next { s with mailStatus := 2 }
  else .next { s.setCtx ctx { s.ctx ctx with key := some (Config.freshKey s.fresh) } with fresh := s.fresh + 1, mailStatus := 1 }

/-- Reading and writing whole ranges of a context for the security block; `none` where a page fails. -/
def wholeRead (s : State) (c : Nat) (a : W64) (n : Nat) : State × Option (List Byte) :=
  match virtRange s [] c a n false with
  | (s, .ok ps) => (s, some (readAt s ps))
  | (s, .error _) => (s, none)

def wholeWrite (s : State) (c : Nat) (a : W64) (bs : List Byte) : State × Bool :=
  match virtRange s [] c a bs.length true with
  | (s, .ok ps) => (writeAt s ps bs, true)
  | (s, .error _) => (s, false)

/-- TAG: entry i of the table takes the tag of line i (R314). Without a key, or with a range it cannot reach, the command
is refused. -/
def execTag (ctx : Nat) (base : W64) (count : Nat) (desc table : W64) (s : State) : Outcome :=
  let s := mailCommand s 2 [ctx, base.toNat, count, desc.toNat, table.toNat]
  if !secured s then .next s
  else match (s.ctx ctx).key with
    | none => .next { s with mailStatus := 2 }
    | some k => match wholeRead s ctx desc 64 with
      | (s, none) => .next { s with mailStatus := 2 }
      | (s, some d) => match wholeRead s ctx base (128 * count) with
        | (s, none) => .next { s with mailStatus := 2 }
        | (s, some bs) =>
          let tags := (List.range count).flatMap fun i => lineTag k (base + u64 (128 * i)) d ((bs.drop (128 * i)).take 128)
          let (s, ok) := wholeWrite s ctx table tags
          .next { s with mailStatus := if ok then 1 else 2 }

/-- The bytes of a measurement, as SHA3-256 gives them. -/
def hashBytes (x : BitVec 256) : List Byte := toBytes 32 x.toNat

/-- ATTEST: the report of 3,892 bytes, signed over its first 1,472 (log 9). -/
def execAttest (ctx : Nat) (nonce report : W64) (s : State) : Outcome :=
  let s := mailCommand s 3 [nonce.toNat, report.toNat, ctx]
  if !secured s then .next s
  else match wholeRead s ctx nonce 32 with
    | (s, none) => .next { s with mailStatus := 2 }
    | (s, some n) =>
      let m1 := s.measure.getD 0 0
      let body := toBytes 4 1 ++ toBytes 4 0 ++ toBytes 16 Config.serialNumber.toNat ++ (s.measure.take 3).flatMap hashBytes ++ n ++
        toBytes 8 s.tick ++ (List.range 1312).map (Config.identityPublicKey m1)
      let (s, ok) := wholeWrite s ctx report (body ++ (List.range 2420).map (Config.attestSignature m1 body))
      .next { s with mailStatus := if ok then 1 else 2 }

/-! ### Boot, service and power (R348, R349, R351, R352) -/

/-- Load the stages in order: the measurements, and the failing stage, 0 when all hold. -/
def bootStages (stages : List Firmware) : List (BitVec 256) × Nat :=
  (List.range 3).foldl (fun acc i =>
    if acc.2 != 0 then acc
    else match stages[i]? with
      | none => (acc.1, i + 1)
      | some f =>
        let m := acc.1 ++ [BitVec.ofNat 256 (ofBytes (sha3_256 f.image))]
        if Config.firmwareSignatureOk (i + 1) f.image f.sig then (m, 0) else (m, i + 1)) ([], 0)

/-- RESET (R349, R351): no state is kept but what is fused; the boot ROM loads three stages, and a failure halts boot. Host
memory is the host's, and the counters that index free values go on. -/
def execReset (stages : List Firmware) (s : State) : Outcome :=
  let b := bootStages stages
  let host (a : Nat) : Bool := a ≥ 2 ^ 51
  .next { State.reset with steps := s.steps, fresh := s.fresh, retiredCores := s.retiredCores, retiredMesh := s.retiredMesh, measure := b.1,
                           mem := s.mem.filter fun e => host e.1, fe := s.fe.filter fun e => host (4 * e.1),
                           poison := s.poison.filter fun w => host (4 * w),
                           boot := if b.2 == 0 then 1 else 3, fst := BitVec.ofNat 4 b.2 }

/-- HBM_TRAINING_COMPLETE (R351): memory is zeroed with every word FULL, except that the first 96 MiB of D0's HBM take over
the reduced-service memory. -/
def execHbmTrainingComplete (s : State) : Outcome :=
  if s.boot != 1#2 then .next s
  else
    let top := 96 * 2 ^ 20
    let kept (a : Nat) : Bool := a < top || a ≥ 2 ^ 51
    .next { s with boot := 2, mem := s.mem.filter fun e => kept e.1, fe := s.fe.filter fun e => kept (4 * e.1),
                   poison := s.poison.filter fun w => kept (4 * w) }

/-- Whether something is reserved on an island. -/
def islandUsed (s : State) (island : Nat) : Bool := s.blocks.any fun b => b.st == .resident && islandOf b.core == island

/-- POWER_ADJUST (R352): an island's clock is lowered or raised again. An island with nothing reserved may be gated off: lowering
one gates it off at once, and raising it powers it up (DESIGN CHOICE, log 26). -/
def execPowerAdjust (island : Nat) (lowered : Bool) (s : State) : Outcome :=
  if island ≥ 64 then .next s
  else if lowered then
    .next { s with lowered := insertAsc island s.lowered,
                   gated := if island < 56 && island % 14 < 9 && !islandUsed s island then insertAsc island s.gated else s.gated }
  else .next { s with lowered := s.lowered.filter (· != island), gated := s.gated.filter (· != island) }

def execIslandPoweredUp (island : Nat) (s : State) : Outcome := .next { s with gated := s.gated.filter (· != island) }

/-- HBM_SCRUB (R348): a correctable error is corrected in place and counted. -/
def execHbmScrub (pa : Nat) (s : State) : Outcome :=
  .next (if pa < 2 ^ 51 && paValid s pa && !poisoned s pa 1 then { s with scrubbed := s.scrubbed + 1 } else s)

/-! ### The debug port (R138, R185, R353, R355 to R357) -/

def debugAct (s : State) : DebugAct → State
  | .setBreak b => if s.breaks.contains b then s else { s with breaks := s.breaks ++ [b] }
  | .clearBreak b => { s with breaks := s.breaks.filter (· ≠ b) }
  | .triggerEntry n a => { s with trig := s.trig.set n { s.trig[n] with actions := a } }
  | .harvestAt a => { s with harvestArea := a }
  | .takeSamples => { s with samples := [] }

/-- Do what the debugger has asked for (log 37). -/
def debugActs (s : State) : State := { s.debugPort.foldl debugAct s with debugPort := [] }

/-- STEP_REQUEST: the group stops, or takes cause 0xD1, at its next safe point. -/
def execStepRequest (r : GRef) (s : State) : Outcome :=
  .next (match s.grp? r with
    | some g => if g.status = .retired || s.steps1.contains r then s else { s with steps1 := s.steps1 ++ [r] }
    | none => s)

/-- DEBUGGER_RESUME: a stopped group issues its instruction; focus moves to a group of its block, or ends. The package holds one
focus: a resumption of another block's group moves it there or ends it (DESIGN CHOICE, log 41). -/
def execDebuggerResume (r : GRef) (focus : Option Nat) (s : State) : Outcome :=
  let s := { s with focus := focus.map fun j => { r with grp := j } }
  .next (s.modGrp r fun g => if g.status = .stopped then { g with status := .resumed } else g)

/-- Whether a suspended WAIT ends at its next look: it is woken or its time is up, and its conditions hold, or one fails (R151,
R172, R173). -/
def waitOver (s : State) (w : Who) (t : WaitSt) (x : WaitForm) : Bool :=
  let r := testAll s w x fun k => .last (t.seen.getLsbD k)
  w.g.sent.isEmpty && (t.due s.tick || (t.woken || watchWakes w x t (watchNow s w x t.seen)) && (r.bad.isSome || waitOk x r.fired))

/-- Whether a group at a BAR or BARA waits for a phase at which it has arrived already, to arrive at the next (R175): it is
suspended at the barrier. -/
def barWaits (s : State) (w : Who) : Bool :=
  let at_ (n : BitVec 8) : Bool := let x := barNow s w n.toNat; !x.broken && x.arrived.contains w.r
  w.g.cl.phase == .body && decide (w.g.cl.ord ≤ w.g.cl.len) && (match nextWords s w with
    | .ok (x, e) => actsOn s w x e != 0#32 && (match settle (decodeEnv s w) x e with
      | .bar _ _ _ _ n _ | .bara _ _ _ n => at_ n
      | _ => false)
    | .error _ => false)

/-- Whether every bank that a restored group lacks is free (R35). -/
def banksFree (s : State) (w : Who) : Bool := (List.range w.g.lacks).all fun k => bankFree s w (w.g.depth - w.g.lacks + 1 + k)

/-- Whether a group can issue once it is not held: one that a wake, a completed phase or the end of its WAIT or of its ticks
has released can; one that lacks a bank or waits for a phase to arrive at the next cannot (R35, R175, R185). -/
def canIssue (s : State) (r : GRef) : Bool := match who? s r with
  | none => false
  | some w => banksFree s w && match w.g.status with
    | .ready | .resumed => !barWaits s w
    | .woken => true
    | .barrier n phase .. => (barInst w.l n (barKey w.l r.blk w.b n)).phase != phase
    | .waiting t _ x => waitOver s w t x
    | .remotePark since => s.tick ≥ since + 1000
    | _ => false

/-- Whether a group that cannot issue gives its focus up: it has parked, suspended in WAIT or at a barrier, or retired
(R153, R185). -/
def givesFocus (s : State) (w : Who) : Bool := match w.g.status with
  | .parked _ | .waiting .. | .barrier .. | .retired => true
  | .ready | .resumed => barWaits s w
  | _ => false

/-- When the group in focus parks, suspends or retires, focus passes to the block's lowest-numbered group that can issue
(R185). While none can, focus stays where it is, and passes, or stays, once one can: the spec does not say where it is meanwhile
(DESIGN CHOICE, log 40). -/
def passFocus (s : State) : State :=
  match s.focus with
  | none => s
  | some f => match s.blocks[f.blk]? with
    | none => s
    | some b =>
      let can (j : Nat) : Bool := canIssue s { f with grp := j }
      if can f.grp || ((who? s f).map (givesFocus s)) == some false then s
      else match (List.range b.groups.length).find? can with
        | some j => { s with focus := some { f with grp := j } }
        | none => s

/-- SCAN_READOUT (R357): the chains are read at the debug port; nothing changes. -/
def execScanReadout (s : State) : Outcome := .next s

/-! ### Harvest (R356, R359) -/

/-- A recorded flit (R343): the spec gives the header; the payload, and a control flit's sequence number, are free (log 17). -/
def flitBytes (f : FlitRec) : List Byte :=
  let m := f.hdr
  let seq := if f.kind == 3 then ofBytes [Config.flitPayload f.num 4 0, Config.flitPayload f.num 4 1] else m.seq
  let body := layout [(f.index * 64 + (m.flits.length - 1) * 16 + m.vc.toNat * 4 + f.kind, 1), (0, 1), (m.src, 2), (m.dst, 2), (seq, 2)] ++
    (List.range 52).map (Config.flitPayload f.num f.index)
  body ++ toBytes 4 (crc32c body)

/-- Links that reach another device: none where the pod holds only this one (log 17). -/
def usedLinks (s : State) : List Nat :=
  if s.devices.length ≤ 1 then [] else (List.range 32).filter fun k => match s.links[k]? with
    | some l => !l.retired
    | none => false

/-- This device's part starts: its groups stop at their instruction boundaries. -/
def startHarvest (s : State) : State := if s.harvest then s else { s with harvest := true, harvestTick := s.tick, harvestEnd := 0 }

/-- The resident blocks by ascending CORE. -/
def byCore (s : State) : List Nat :=
  ((s.blocks.zipIdx.filter fun e => e.1.st == .resident).foldl (fun (acc : List (Nat × Nat)) e =>
    acc.takeWhile (fun x => x.1 ≤ e.1.core) ++ (e.1.core, e.2) :: acc.dropWhile (fun x => x.1 ≤ e.1.core)) []).map (·.2)

/-- A block's record as a save would write it, the block itself unchanged. -/
def harvestRecord (s : State) (blk : Nat) : List Byte :=
  let s := stopGroups s blk
  match s.blocks[blk]? with
  | none => []
  | some b => match s.launches[b.launch]? with
    | some l => blockRecord (diagMode s l.ctx) l blk b
    | none => []

def harvestHeader (s : State) (blocks links : Nat) : List Byte :=
  layout [(s.device, 2), (blocks, 2), (links, 4), (s.harvestTick, 8), (0, 48)]

/-- Once every resident block can be saved, the records go to the area and a marker goes out on every link. -/
def saveHarvest (s : State) : State :=
  if !s.harvest || s.harvestEnd != 0 || !(s.blocks.all fun b => b.st != .resident || atRest b) then s
  else
    let bs := (byCore s).flatMap (harvestRecord s)
    let s := wrBytes s s.harvestArea.toNat (harvestHeader s (byCore s).length 0 ++ bs)
    let s := (usedLinks s).foldl (fun s k => (sendOn s 0 0 (.marker k) false).1) s
    { s with harvestEnd := 64 + bs.length }

/-- When every link has delivered its marker, the channel state is written and the groups resume. -/
def endHarvest (s : State) : State :=
  if !s.harvest || s.harvestEnd == 0 || (usedLinks s).any fun k => (s.links[k]?.map (·.marked)) != some true then s
  else
    let held := (List.range 32).filterMap fun k => match s.links[k]? with
      | some l => if l.flits.isEmpty then none else some (k, l)
      | none => none
    let sections := held.flatMap fun e => layout [(e.1, 2), (0, 2), (e.2.flits.length, 4), (0, 8)] ++ e.2.flits.flatMap flitBytes
    let s := wrBytes (wrBytes s (s.harvestArea.toNat + s.harvestEnd) sections) (s.harvestArea.toNat + 4) (toBytes 4 held.length)
    { s with harvest := false, harvestEnd := 0, links := s.links.map fun l => { l with marked := false, flits := [] } }

/-- A flit has been tried on a link some times in a row (R343). -/
def triedOn (s : State) (e : Nat × Nat) : State := { s with links := vmod s.links e.1 fun l => l.tried e.2 }

/-- A control or marker flit comes over a link; one that has failed 16 times in a row does not get through (R343). -/
def overLink (s : State) (e : OnLink) (act : State → State) : State :=
  let s := triedOn s (e.link, e.fails)
  if e.fails ≥ 16 then s else act s

/-- MARKER: the first starts this device's part. -/
def execMarker (link : OnLink) (s : State) : Outcome :=
  if link.link ≥ 32 then .next s
  else .next (overLink s link fun s =>
    endHarvest (saveHarvest { startHarvest s with links := vmod s.links link.link fun l => { l with marked := true } }))

/-- Record the flits of a message that arrive ahead of their link's marker as channel state, control flits among them
(R356). -/
def recordFlits (s : State) (m : MsgHdr) (kind : Nat) : State :=
  m.flits.zipIdx.foldl (fun s e => match s.links[e.1]? with
    | some l => if s.harvest && !l.marked then
        { s with links := vmod s.links e.1 fun l => { l with flits := l.flits ++ [{ hdr := m, kind := kind, num := s.fresh, index := e.2 }] } }
      else s
    | none => s) s

/-- A control flit that arrives on a link, from a device, and then acts; what sent it is free where it is not given (log 17). -/
def controlFlit (s : State) (link : OnLink) (src : Option Nat) (vc : BitVec 2) (act : State → State) : State :=
  overLink s link fun s =>
    let src := src.getD (ofBytes [Config.flitPayload s.fresh 4 2, Config.flitPayload s.fresh 4 3] % 1024)
    act { recordFlits s { flits := [link.link], vc := vc, src := src, dst := s.device, seq := 0, fails := [link.fails] } 3 with
      fresh := s.fresh + 1 }

/-! ### Triggers (R355) -/

/-- Deliver cause 0xD2 to every live group of a context. -/
def triggerCause (s : State) (ctx n origin : Nat) (tick : W64) : State :=
  (List.range s.blocks.length).foldl (fun s i => match s.blocks[i]? with
    | some b =>
      let mine := b.st != .ended && (match s.launches[b.launch]? with
        | some l => l.ctx == ctx
        | none => false)
      if mine then (List.range b.groups.length).foldl (fun s j => match b.groups[j]? with
        | some g => if canTake g then deliver s { blk := i, grp := j } 0xD2#8 [u64 n, u64 origin, tick] else s
        | none => s) s
      else s
    | none => s) s

/-- A trigger's table entry acts, and the arrival is recorded (R355). -/
def triggerActs (s : State) (n origin : Nat) (tick : W64) : State :=
  if h : n < 16 then
    let a := s.trig[n].actions
    let s := { s with trig := s.trig.set n { s.trig[n] with arrival := u64 s.tick } }
    let s := if a.getLsbD 0 then { s with window := true } else s
    let s := if a.getLsbD 1 then { s with window := false } else s
    let s := if a.getLsbD 2 then endHarvest (saveHarvest (startHarvest s)) else s
    let s := if a.getLsbD 4 then triggerCause s (field a.toNat 8 8) n origin tick else s
    if a.getLsbD 3 then { s with frozen := true } else s
  else s

/-- TRIGGER_MESSAGE, on a link or of this device's own. -/
def execTriggerMessage (n : Nat) (origin : Origin) (tick : W64) (s : State) : Outcome :=
  .next (match origin.flit with
    | some link => controlFlit s link (some origin.device) 0 fun s => triggerActs s n origin.device tick
    | none => triggerActs s n origin.device tick)

/-! ### The fabric (R142, R343 to R347) -/

/-- What a request does at its target, and its answer: a status byte, 0xE0 where a read met an uncorrectable error, then the
data (R142, R145, log 17). -/
def serveRequest (s : State) : RemoteOp → State × List Byte
  | .load pa n => (s, if poisoned s pa n then [0xE0#8] else 0#8 :: rdBytes s pa n)
  | .store pa bs => (wrBytes s pa bs, [0#8])
  | .atom pa op wd x =>
    if poisoned s pa (atomSize wd.toNat) then (s, [0xE0#8])
    else let r := atomAt s (.mem pa none false) op wd x.toNat none; (r.1, 0#8 :: toBytes (atomSize wd.toNat) r.2)
  | .cas pa wd cmp new =>
    let n := atomSize wd.toNat
    if poisoned s pa n then (s, [0xE0#8])
    else let r := casAt s (.mem pa none false) n cmp.toNat new.toNat none; (r.1, 0#8 :: toBytes n r.2)
  | .cadd pa x =>
    if poisoned s pa 8 then (s, [0xE0#8])
    else match caddAt s (.mem pa none false) x.toNat none with
      | (s, some old) => (s, 0#8 :: 1#8 :: toBytes 8 old)
      | (s, none) => (s, [0#8, 0#8])
  | .addMax pa x =>
    if poisoned s pa 8 then (s, [0xE0#8])
    else match caddAt s (.mem pa none false) x.toNat none with
      | (s, some _) => (s, [0#8, 1#8])
      | (s, none) => (wr s pa 8 (2 ^ 64 - 1), [0#8, 0#8])
  | .fullEmpty pa n need data fill =>
    -- words whose state another device has changed are no fresh ones (R148)
    let s := if fill.isNone || s.farPages.contains (pa / 4096) then s else { s with farPages := pa / 4096 :: s.farPages }
    let r := fullEmptyAt s none pa n need data fill
    let reads := need.isSome || (data.isNone && fill.isNone)
    if reads && poisoned s pa n then (s, [0xE0#8]) else (r.s, 0#8 :: feAnswer r)
  | .contribute .. => (s, [0#8])

/-- What a message of a flow does: a request executes and is answered on channel 2; a response's request leaves the outbox,
and who waits for it finds the answer (log 17). -/
def present (s : State) (m : MsgHdr) : OutBody → State
  | .request op => let r := serveRequest s op; (sendOn r.1 m.src 2 (.response r.2) false).1
  | .response data =>
    let isIt (o : OutMsg) : Bool := o.dst == m.src && o.seq == m.seq && (match o.body with
      | .request _ => true
      | _ => false)
    (match s.outbox.find? isIt with
      | none => s
      | some o => { s with outbox := s.outbox.filter fun x => x.id != o.id,
                           answers := if o.wait && !data.isEmpty then sset [] s.answers o.id data else s.answers })
  | _ => s

def flowOf (m : MsgHdr) : Nat := m.src * 4 + m.vc.toNat

/-- Present the messages of a flow that are next in its order, from those that have arrived ahead (R345). -/
def presentNext (flow : Nat) : (fuel : Nat) → State → State
  | 0, s => s
  | k + 1, s => match s.early.find? fun e => flowOf e.hdr == flow && e.hdr.seq == sget 0 s.inFlows flow with
    | none => s
    | some e =>
      presentNext flow k (present { s with early := s.early.filter (· ≠ e), inFlows := sset 0 s.inFlows flow ((e.hdr.seq + 1) % 2 ^ 16) } e.hdr e.body)

/-- How each flit of a message came: its link and how often it failed there. -/
def flitWays (m : MsgHdr) : List (Nat × Nat) := m.flits.zipIdx.map fun e => (e.1, m.fails.getD e.2 0)

/-- A message arrives for this device (R343 to R345), flit by flit over the links: where one has failed 16 times in a row it
does not get through, and that link is retired; its flits are recorded for a Harvest and give their permits back; it is
presented in the order of its flow, and one that has been presented before is dropped. -/
def receive (s : State) (m : MsgHdr) (body : OutBody) (kind : Nat) : State :=
  let s := (flitWays m).foldl triedOn s
  if (flitWays m).any fun e => e.2 ≥ 16 then s
  else
    let s := { recordFlits s m kind with fresh := s.fresh + 1 }
    let s := m.flits.foldl (fun s k => (sendOn s m.src 0 (.permits k m.vc.toNat 1) false).1) s
    let flow := flowOf m
    let next := sget 0 s.inFlows flow
    if m.seq == next then presentNext flow s.early.length (present { s with inFlows := sset 0 s.inFlows flow ((next + 1) % 2 ^ 16) } m body)
    else if (m.seq + 2 ^ 16 - next) % 2 ^ 16 < 2 ^ 15 && !(s.early.any fun e => flowOf e.hdr == flow && e.hdr.seq == m.seq) then
      { s with early := s.early ++ [{ hdr := m, body := body }] }
    else s

/-- PELLOR_REQUEST: a request for this device. -/
def execPellorRequest (m : MsgHdr) (op : RemoteOp) (s : State) : Outcome :=
  .next (if m.dst != s.device then s else receive s m (.request op) 0)

/-- PELLOR_RESPONSE: a response to this device. -/
def execPellorResponse (m : MsgHdr) (data : List Byte) (s : State) : Outcome :=
  .next (if m.dst != s.device then s else receive s m (.response data) 1)

/-- PERMIT_RETURN: a receiver grants 32 permits of a channel at most; what waited for permits goes. -/
def execPermitReturn (link : OnLink) (vc n : Nat) (s : State) : Outcome :=
  .next (controlFlit s link none (BitVec.ofNat 2 vc) fun s =>
    if link.link < 32 && vc < 4 then
      transmit { s with links := vmod s.links link.link fun l => { l with permits := vmod l.permits vc fun k => min 32 (k + n) } } else s)

/-- POD_CONFIGURATION: the device numbers, and TICK within 50 ticks of device 0's (log 3). -/
def execPodConfiguration (own : Nat) (devices : List Nat) (tick : W64) (s : State) : Outcome :=
  if own < 1024 && devices.contains own && devices.all (· < 1024) && devices.length ≤ 1024 then
    .next { s with device := own, devices := devices, fresh := s.fresh + 1,
                   tick := if own == 0 then tick.toNat else tick.toNat + Config.tickAlignment s.fresh % 101 - 50 }
  else .next s

/-- SWITCH_CHUNK_TIMEOUT: the switch aborts a chunk; the abort is on its way to every rank. -/
def execSwitchChunkTimeout (dst : W64) (set : Nat) (s : State) : Outcome :=
  .next (if s.chunks.contains (dst, set) then s else { s with chunks := s.chunks ++ [(dst, set)] })

/-- The CPYR whose chunk goes to a destination: its group, itself, and the number of its request. -/
def chunkOwner (s : State) (dst : W64) : Option (GRef × CopyOp × Nat) :=
  (groupRefs s).findSome? fun r => (s.grp? r).bind fun g => g.copies.findSome? fun k =>
    if k.cls != .coll then none
    else (k.sent.find? fun e => e.1 ≥ chunkKey && k.dst + u64 (e.1 - chunkKey) == dst).map fun e => (r, k, e.2)

/-- This rank's own source chunk, from its memory. -/
def ownChunk (s : State) (r : GRef) (k : CopyOp) : Option (List Byte) := (who? s r).bind fun w =>
  match planPieces s w k k.cur with
  | (s, .ok ms) => some (sourceBytes s k ms)
  | _ => none

/-- Whether an outgoing message is this rank's contribution to a chunk. -/
def isContribution (dst : W64) (set : Nat) (o : OutMsg) : Bool := match o.body with
  | .request (.contribute n d _) => n == set && d == dst
  | _ => false

/-- A chunk is aborted (R347): the rank's engine reads every rank's chunk, those of the others over the links, and combines them in
rank order, by the set's operation and type; cause 0xC0 goes to the issuing group. A rank that has not sent its chunk yet does so
when its CPYR comes to it. -/
def abortChunk (s : State) (dst : W64) (set : Nat) (sources : List (List Byte)) : State :=
  let s := { s with chunks := s.chunks.filter (· ≠ (dst, set)) }
  match chunkOwner s dst, s.sets.find? fun z => z.num == set with
  | some (r, k, id), some z =>
    deliver { s with answers := sset [] s.answers id (0#8 :: combineRanks z s.device sources (ownChunk s r k)),
                     outbox := s.outbox.filter fun x => x.id != id } r 0xC0#8 [dst, u64 set]
  | none, some z =>
    let out := s.outbox.filter fun x => !isContribution dst set x
    if !z.ranks.contains s.device || out.length != s.outbox.length then { s with outbox := out }
    else { s with lateChunks := s.lateChunks.filter (fun e => e.1 ≠ (dst, set)) ++ [((dst, set), sources)] }
  | _, none => s

/-- REDUCTION_ABORT. -/
def execReductionAbort (dst : W64) (set : SetOn) (sources : List (List Byte)) (s : State) : Outcome :=
  .next (controlFlit s set.flit none 0 fun s => abortChunk s dst set.num sources)

end Sys2Proof.Machine
end

