-- ==== Sys2Proof/Machine/Integer.lean ====
section
/-! DEFINITION. Integer, logic, bit-field, address and move instructions, OPC 0x10 to 0x33 (R100 to R105). -/
namespace Sys2Proof.Machine

/-- An exact integer result (R100): saturated under SAT, which raises SAT, else modulo the width. -/
def intResult (ty : Ty) (sat : Bool) (x : Int) : FRes :=
  if sat && maxInt ty < x then { bits := wrapTo ty.width (maxInt ty), flags := fSAT }
  else if sat && x < minInt ty then { bits := wrapTo ty.width (minInt ty), flags := fSAT }
  else { bits := wrapTo ty.width x, flags := 0 }

/-- OS bit 0 of an integer form is SAT (R100). -/
def aluSat (x : Alu) : Bool := x.os.getLsbD 0

/-- A two-operand integer form: `f` on the values that the type gives the sources. -/
def int2 (h : Hdr) (x : Alu) (lat : Nat) (s : State) (f : Int → Int → Int) : Outcome :=
  aluOp h x (some lat) (Slots.two x.ty) s fun a b _ => intResult x.ty (aluSat x) (f (valInt x.ty a) (valInt x.ty b))

def execIadd (h : Hdr) (x : Alu) (s : State) : Outcome := int2 h x 2 s fun a b => a + b
def execIsub (h : Hdr) (x : Alu) (s : State) : Outcome := int2 h x 2 s fun a b => a - b
def execImul (h : Hdr) (x : Alu) (s : State) : Outcome := int2 h x 4 s fun a b => a * b
/-- IMULH: the floor of the full product over `2^w`. -/
def execImulh (h : Hdr) (x : Alu) (s : State) : Outcome := int2 h x 4 s fun a b => a * b / ((2 ^ x.ty.width : Nat) : Int)
def execImin (h : Hdr) (x : Alu) (s : State) : Outcome := int2 h x 2 s fun a b => if a ≤ b then a else b
def execImax (h : Hdr) (x : Alu) (s : State) : Outcome := int2 h x 2 s fun a b => if a ≤ b then b else a
def execImad (h : Hdr) (x : Alu) (s : State) : Outcome :=
  aluOp h x (some 4) (Slots.three x.ty) s fun a b c => intResult x.ty (aluSat x) (valInt x.ty a * valInt x.ty b + valInt x.ty c)
def execIabs (h : Hdr) (x : Alu) (s : State) : Outcome :=
  aluOp h x (some 2) (Slots.one x.ty) s fun a _ _ => intResult x.ty (aluSat x) ((valInt x.ty a).natAbs : Int)
def execIneg (h : Hdr) (x : Alu) (s : State) : Outcome :=
  aluOp h x (some 2) (Slots.one x.ty) s fun a _ _ => intResult x.ty (aluSat x) (-(valInt x.ty a))

/-- IMADW (R101): two 32-bit sources, extended by the type, and a 64-bit addend. -/
def execImadw (h : Hdr) (x : Alu) (s : State) : Outcome :=
  aluOp h x (some 4) { a := some false, b := some false, c := some true, d := true } s fun a b c =>
    bare (wrapTo 64 (valInt x.ty a * valInt x.ty b + (c : Int)))

/-! ### Logic and bits (R102, R103) -/

/-- A logic form on raw bits of the type's width. -/
def bits2 (h : Hdr) (x : Alu) (s : State) (f : Nat → Nat → Nat → Nat) : Outcome :=
  aluOp h x (some 2) (Slots.two x.ty) s fun a b _ => bare (f x.ty.width a b)
def bits1 (h : Hdr) (x : Alu) (s : State) (f : Nat → Nat → Nat) : Outcome :=
  aluOp h x (some 2) (Slots.one x.ty) s fun a _ _ => bare (f x.ty.width a)

/-- The complement within a width. -/
def notBits (w a : Nat) : Nat := 2 ^ w - 1 - a % 2 ^ w
/-- A shift amount: bits 7:0 of B (R102). -/
def shiftBy (b : Nat) : Nat := b % 256
/-- Assemble `w` bits from a predicate on bit numbers. -/
def bitsNat (w : Nat) (f : Nat → Bool) : Nat := (bitsBelow f w).toNat
def leadZeros (w a : Nat) : Nat := if a % 2 ^ w == 0 then w else w - 1 - Nat.log2 (a % 2 ^ w)
def trailZeros (w a : Nat) : Nat := ((List.range w).find? fun i => a.testBit i).getD w
def countOnes (w a : Nat) : Nat := ((List.range w).filter fun i => a.testBit i).length
def rotLeft (w a n : Nat) : Nat := let k := n % w; (a * 2 ^ k + a / 2 ^ (w - k)) % 2 ^ w

def execAnd (h : Hdr) (x : Alu) (s : State) : Outcome := bits2 h x s fun _ a b => a &&& b
def execOr (h : Hdr) (x : Alu) (s : State) : Outcome := bits2 h x s fun _ a b => a ||| b
def execXor (h : Hdr) (x : Alu) (s : State) : Outcome := bits2 h x s fun _ a b => a ^^^ b
def execAndn (h : Hdr) (x : Alu) (s : State) : Outcome := bits2 h x s fun w a b => a &&& notBits w b
def execNot (h : Hdr) (x : Alu) (s : State) : Outcome := bits1 h x s notBits
def execShl (h : Hdr) (x : Alu) (s : State) : Outcome :=
  bits2 h x s fun w a b => if shiftBy b ≥ w then 0 else a * 2 ^ shiftBy b % 2 ^ w
def execShr (h : Hdr) (x : Alu) (s : State) : Outcome :=
  bits2 h x s fun w a b => if shiftBy b ≥ w then 0 else a / 2 ^ shiftBy b
/-- SAR: a shift by the width or more gives copies of the sign bit, as a shift by `w - 1` does. -/
def execSar (h : Hdr) (x : Alu) (s : State) : Outcome :=
  bits2 h x s fun w a b => wrapTo w (signedOf w a / ((2 ^ min (shiftBy b) (w - 1) : Nat) : Int))
def execRotl (h : Hdr) (x : Alu) (s : State) : Outcome := bits2 h x s fun w a b => rotLeft w a (shiftBy b)
def execClz (h : Hdr) (x : Alu) (s : State) : Outcome := bits1 h x s leadZeros
def execCtz (h : Hdr) (x : Alu) (s : State) : Outcome := bits1 h x s trailZeros
def execPopc (h : Hdr) (x : Alu) (s : State) : Outcome := bits1 h x s countOnes
def execBrev (h : Hdr) (x : Alu) (s : State) : Outcome := bits1 h x s fun w a => bitsNat w fun i => a.testBit (w - 1 - i)

/-- BFX (R103): bits at or above the width read as copies of the sign bit for i types, else as zero. -/
def bfxBits (w : Nat) (sgn : Bool) (a pos len : Nat) : Nat :=
  let src (j : Nat) : Bool := if j < w then a.testBit j else sgn && a.testBit (w - 1)
  bitsNat w fun i =>
    if i < min len w then src (pos + i) else if sgn && len > 0 then src (pos + min len w - 1) else false

/-- BFI (R103). -/
def bfiBits (w a c pos len : Nat) : Nat :=
  bitsNat w fun i => if pos ≤ i && i < min (pos + len) w then a.testBit (i - pos) else c.testBit i

/-- The len of a field (R103): an 8-bit immediate gives 0. -/
def fieldLen (b : BSrc) (x : Nat) : Nat := match b with
  | .imm8 _ => 0
  | _ => x / 256 % 256

def execBfx (h : Hdr) (x : Alu) (s : State) : Outcome :=
  aluOp h x (some 2) (Slots.two x.ty) s fun a b _ => bare (bfxBits x.ty.width x.ty.isSigned a (b % 256) (fieldLen x.b b))
def execBfi (h : Hdr) (x : Alu) (s : State) : Outcome :=
  aluOp h x (some 2) (Slots.three x.ty) s fun a b c => bare (bfiBits x.ty.width a c (b % 256) (fieldLen x.b b))

/-! ### Addresses and moves (R104, R105) -/

/-- LEA (R104): the base pair plus the scaled index. -/
def execLea (h : Hdr) (x : Alu) (s : State) : Outcome :=
  aluOp h x (some 2) { a := some true, b := some false, c := none, d := true } s fun a b _ =>
    bare (wrapTo 64 ((a : Int) + valInt x.ty b * ((2 ^ x.os.toNat : Nat) : Int)))

/-- SEL (R105): C names a predicate. -/
def execSel (h : Hdr) (x : Alu) (s : State) : Outcome :=
  let w := x.ty.is64
  let k := Slots.two x.ty
  regOp h (bLong x.b) x.u (some 2) (k.reads x ++ [if x.u then .q x.c.toNat else .p x.c.toNat]) w x.d s fun i l =>
    let c := if x.u then readQ i.g x.c.toNat else has (readP i.g x.c.toNat) l
    bare (if c != x.os.getLsbD 0 then readReg i.g x.u w x.a l else readB i.g x.ty w x.b l)

def execMov (h : Hdr) (x : Alu) (s : State) : Outcome :=
  aluOp h x (some 2) { a := none, b := some x.ty.is64, c := none, d := x.ty.is64 } s fun _ b _ => bare b

/-- MOVI (R105): base plus step times the lane number; C is the signed step. -/
def execMovi (h : Hdr) (x : Alu) (s : State) : Outcome :=
  regOp h (bLong x.b) x.u (some 2) [] false x.d s fun i l =>
    let base := readB i.g x.ty false x.b l
    bare (if x.u then base else wrapTo 32 ((base : Int) + signedOf 8 x.c.toNat * (l : Int)))

end Sys2Proof.Machine
end

