-- ==== Sys2Proof/Machine/LoadStore.lean ====
section
/-! DEFINITION. Plain loads, stores and prefetch, multicast stores and full/empty operations, OPC 0x80 to 0x89 and 0x94
(R77, R79, R128 to R136, R148 to R156, R162). -/
namespace Sys2Proof.Machine

/-- The registers that form an address (R129). -/
def addrRegs (u : Bool) (a : BitVec 8) : List Reg := regsOf u true a

/-! ### Plain loads and stores -/

/-- The request of a plain load or store. -/
def plainReq (cls : Cls) (x : MemForm) : Req :=
  { cls := cls, write := cls != .load, reads := cls == .load, size := wdSize x.wd.toNat, place := extPlace x.ext, align := wdSize x.wd.toNat }

/-- A plain load as an access: it reads, and ORD 01 acquires (R187, R196). -/
def loadKind (x : MemForm) : OwnKind := .access true false (x.ord == 1#2) false

/-- The bytes that each lane that passed its checks finds, and what its read covers: through the group's own writes (R190).
Lanes that read one location find the same (R131). -/
def laneReads (i : Iss) (s : State) (x : MemForm) (c : Checked) (got : Nat → List Byte) : List ((Nat × W64) × List Byte × List Cover) :=
  c.ok.map fun e => ((e.1, e.2.1), match e.2.2 with
    | .dev .. => (got e.1, [])
    | loc => loadBytes s i.w.r s.fresh (loadKind x) x.sid.toNat e.2.1 loc (wdSize x.wd.toNat))

/-- The value that each lane loads, with the group's side log at its issue over what it found (R131, R183), and the state after. -/
def loadValues (i : Iss) (s : State) (x : MemForm) (c : Checked) (got : Nat → List Byte) : State × List (Nat × Nat) :=
  let rs := laneReads i s x c got
  (logAccess s i.w.r (loadKind x) x.sid (rs.flatMap fun e => e.2.2),
   rs.map fun e => (e.1.1, extend x.wd (ofBytes (forwarded { i.g with sideLog := c.log } i.w.die e.1.2 e.2.1))))

/-- A load by the lanes of a list (R131, R133). -/
def loadAct (i : Iss) (u : Bool) (x : MemForm) (acts : List (Nat × W64)) : Act :=
  accessing i { req := plainReq .load x, stop := true, pure := true } acts
    (fun _ _ pa => some (.load pa (wdSize x.wd.toNat))) fun s c got =>
    let r := loadValues i s x c got
    .later r.1 (valueWrites u (wdRegs x.wd) x.d r.2) FlagSet.none

/-- LD (R131). -/
def execLd (h : Hdr) (x : MemForm) (s : State) : Outcome :=
  issue h (extLong x.ext) false { reads := addrRegs false x.a, writes := regRun false x.d (wdRegs x.wd) } s fun i =>
    loadAct i false x (laneAddrs i x)

/-- LDU (R133): one access, made for the lowest active lane, which alone a failure's mask and SFM name (R136; DESIGN CHOICE,
log 40). -/
def execLdu (h : Hdr) (x : MemForm) (s : State) : Outcome :=
  issue h (extLong x.ext) true { reads := addrRegs true x.a, writes := regRun true x.d (wdRegs x.wd) } s fun i =>
    loadAct i true x [(lowLane i.act, readSS i.g x.a.toNat + extOff x.ext)]

/-- The bytes a lane stores (R130, R132). -/
def storeBytes (i : Iss) (x : MemForm) (l : Nat) : List Byte :=
  toBytes (wdSize x.wd.toNat) (readRun i.g x.b (wdRegs x.wd) l)

/-- A plain or multicast store as an access: it writes, and ORD 10 releases (R187, R196). -/
def storeKind (x : MemForm) : OwnKind := .access false true false (x.ord == 2#2)

/-- The lanes of a store write to what they reach, in ascending order, in one place of the group's order (R132, R189, R190). -/
def laneWrites (i : Iss) (s : State) (x : MemForm) (tag : W64 → Option CountTag) (ws : List (Nat × W64 × Loc)) : State :=
  let b := evNow s i.g (storeKind x) (oneStream x.sid.toNat) []
  let spots := ws.flatMap fun e => spotsOf e.2.1 e.2.2 (storeBytes i x e.1)
  let r := ws.foldl (fun (acc : State × List Cover) e =>
    let y := groupStore acc.1 i.w s.fresh e.1 b spots e.2.1 e.2.2 (storeBytes i x e.1) (tag e.2.1)
    (y.1, acc.2 ++ y.2)) (s, [])
  if ws.isEmpty then r.1 else logAccess r.1 i.w.r (storeKind x) x.sid r.2

/-- ST (R132): lanes store in ascending order, so the highest lane's byte stands; unmapped lanes go to the side log. -/
def execSt (h : Hdr) (x : MemForm) (s : State) : Outcome :=
  issue h (extLong x.ext) false { reads := addrRegs false x.a ++ regRun false x.b (wdRegs x.wd) } s fun i =>
    accessing i { req := plainReq .store x, log := true, mon := true, rel := x.ord == 2#2 } (laneAddrs i x)
      (fun _ _ _ => none) fun s c _ =>
      logLanes i (laneWrites i s x (fun a => some (countTag i.w a)) c.ok) c 0 x (fun l => readRun i.g x.b (wdRegs x.wd) l) .done

/-- PFT (R134): a request for a line. It never faults, writes nothing and changes no value. Its lanes make no page lookup that a
TLB, a leaf's AC or the hotness count would show (R307, R310, R313): the spec does not say whether they do (DESIGN CHOICE, log
40). -/
def execPft (h : Hdr) (x : MemForm) (s : State) : Outcome :=
  issue h (extLong x.ext) false { reads := addrRegs false x.a } s fun i => .done i.s

/-- The four replicas that a lane of MST writes (R162). -/
def replicasOf (e : Nat × W64 × Loc) : List (Nat × W64 × Loc) := match e.2.2 with
  | .mem pa slot rp => (List.range 4).map fun d => (e.1, e.2.1, .mem (replica pa d) slot rp)
  | _ => []

/-- MST (R162): each lane's bytes go to the four replicas of its location. -/
def execMst (h : Hdr) (x : MemForm) (s : State) : Outcome :=
  issue h (extLong x.ext) false { reads := addrRegs false x.a ++ regRun false x.b (wdRegs x.wd) } s fun i =>
    accessing i { req := plainReq .mst x, log := true, rel := x.ord == 2#2 } (laneAddrs i x) (fun _ _ _ => none) fun s c _ =>
      logLanes i (laneWrites i s x (fun _ => none) (c.ok.flatMap replicasOf)) c 2 x (fun l => readRun i.g x.b (wdRegs x.wd) l) .done

/-! ### Full/empty operations (R149 to R156) -/

/-- A full/empty operation: the FULL bit it asks for, whether it reads data into D, writes data from B, and the FULL bit
it leaves. -/
structure FeOp where
  need  : Option Bool
  load  : Bool
  store : Bool
  fill  : Option Bool
  deriving DecidableEq, Repr

def FeOp.writes (o : FeOp) : Bool := o.store || o.fill.isSome

/-- A full/empty operation's request. LDW, LDCN and STF read what they wait for, and FEGET what it returns, so an uncorrectable error
there raises cause 0xE0 (R145, R187). -/
def feReq (o : FeOp) (x : MemForm) : Req :=
  { cls := .fe, write := o.writes, reads := o.need.isSome || !o.writes, size := wdSize x.wd.toNat, align := wdSize x.wd.toNat }

/-- A full/empty operation as an access (R187): LDW and LDCN read and write and may acquire, STF reads and writes, STE and FESET
write, and these may release; FEGET reads. -/
def FeOp.kind (o : FeOp) (ord : BitVec 2) : OwnKind :=
  .access (o.need.isSome || !o.writes) (o.need.isSome || o.writes) (o.load && ord == 1#2) (!o.load && o.writes && ord == 2#2)

/-- What the lanes of a full/empty operation have done so far: the state, the values read, and the lanes deferred. -/
structure FeRun where
  s     : State
  vals  : List (Nat × Nat)
  defer : List (Nat × W64)
  deriving Repr

/-- The data a lane writes. -/
def feData (i : Iss) (o : FeOp) (x : MemForm) (l : Nat) : Option (List Byte) := if o.store then some (storeBytes i x l) else none

/-- One lane, in the state that the lower lanes left (R150). -/
def feLane (i : Iss) (o : FeOp) (x : MemForm) (got : Nat → List Byte) (r : FeRun) (l : Nat) (addr : W64) (loc : Loc) : FeRun :=
  let n := wdSize x.wd.toNat
  let land (ok : Bool) (data : List Byte) (fe : Nat) (s : State) : FeRun :=
    if !ok then { r with s := s, defer := r.defer ++ [(l, addr)] }
    else if o.load then { r with s := s, vals := r.vals ++ [(l, ofBytes data)] }
    else if !o.writes then { r with s := s, vals := r.vals ++ [(l, fe)] }
    else { r with s := s }
  match loc with
  | .mem pa slot _ =>
    let f := fullEmptyAt r.s slot pa n o.need (feData i o x l) o.fill
    let s := match f.ok, feData i o x l with
      | true, some bs => countWrite (noteSolid r.s f.s i.w.r l x.sid.toNat addr loc n) (countTag i.w addr) f.data bs
      | _, _ => f.s
    land f.ok f.data f.fe.toNat s
  | .dev _ _ slot =>
    let a := got l
    let ok := a.getD 0 0 == 1#8
    -- a word of another device's page that is left EMPTY sets NF in the leaf used here (R154)
    land ok (a.drop 2) (a.getD 1 0).toNat (if ok && o.fill == some false then setPte r.s slot (2 ^ 63) else r.s)
  | _ => r

/-- Defer lanes at the current ordinal (R77): they wait on their addresses. -/
def deferLanes (v : Level) (o : FeOp) (ls : List (Nat × W64)) : Level :=
  let m := maskOfList (ls.map (·.1))
  let flag (b : Bool) (x : Mask) : Mask := if b then x ||| m else x &&& ~~~m
  let v := v.setRi m fun _ => BitVec.ofNat 12 v.ord
  { v with defm := v.defm ||| m, dneed := flag (o.need == some true) v.dneed, dwr := flag o.writes v.dwr,
           dva := lanes fun l => match ls.find? fun (e : Nat × W64) => e.1 == l with
             | some e => e.2
             | none => lget 0 v.dva l }

/-- The lanes of a full/empty operation, one after another (R150, R155): the lanes that find their state wrong are
deferred and order nothing; the others complete, which is progress (R79). -/
def feAct (i : Iss) (o : FeOp) (x : MemForm) : Act :=
  accessing i { req := feReq o x, mon := o.store, rel := x.ord == 2#2, stop := true, pure := o.need.isNone && !o.writes } (laneAddrs i x)
    (fun l _ pa => some (.fullEmpty pa (wdSize x.wd.toNat) o.need (feData i o x l) o.fill)) fun s c got =>
    let r := c.ok.foldl (fun r e => feLane i o x got r e.1 e.2.1 e.2.2) { s := s, vals := [], defer := [] }
    let went := c.ok.filter fun e => !r.defer.any fun d => d.1 == e.1
    let s := if went.isEmpty then r.s
      else logAccess r.s i.w.r (o.kind x.ord) x.sid (coversOf { c with ok := went } (wdSize x.wd.toNat))
    let s := if r.defer.isEmpty then s else s.modGrp i.w.r fun g => g.modCl fun v => deferLanes v o r.defer
    let s := if o.need.isSome || o.store then (if went.isEmpty then s else s.modGrp i.w.r fun g => { g with wakes := 0 }) else s
    .later s (valueWrites false (if o.load then wdRegs x.wd else 1) x.d r.vals) FlagSet.none

/-- Issue a full/empty operation: D is a destination of a load and of FEGET, B a source of a store. -/
def feOp (h : Hdr) (o : FeOp) (x : MemForm) (s : State) : Outcome :=
  issue h (extLong x.ext) false
    { reads := addrRegs false x.a ++ (if o.store then regRun false x.b (wdRegs x.wd) else []),
      writes := if o.load || !o.writes then regRun false x.d (wdRegs x.wd) else [] } s fun i => feAct i o x

def execLdw (h : Hdr) (x : MemForm) (s : State) : Outcome := feOp h { need := some true, load := true, store := false, fill := none } x s
def execLdcn (h : Hdr) (x : MemForm) (s : State) : Outcome :=
  feOp h { need := some true, load := true, store := false, fill := some false } x s
def execStf (h : Hdr) (x : MemForm) (s : State) : Outcome :=
  feOp h { need := some false, load := false, store := true, fill := some true } x s
/-- STE (R149): the word is left EMPTY whatever its state was. -/
def execSte (h : Hdr) (x : MemForm) (s : State) : Outcome := feOp h { need := none, load := false, store := true, fill := some false } x s
def execFeget (h : Hdr) (x : MemForm) (s : State) : Outcome := feOp h { need := none, load := false, store := false, fill := none } x s
/-- FESET (R156): S is the low bit of the form's operation field. -/
def execFeset (h : Hdr) (x : MemForm) (s : State) : Outcome :=
  feOp h { need := none, load := false, store := false, fill := some (x.op.getLsbD 0) } x s

end Sys2Proof.Machine
end

