-- ==== Sys2Proof/Machine/Predicate.lean ====
section
/-! DEFINITION. Predicates, lane exchange and special registers, OPC 0x70 to 0x79, 0xE8 and 0xE9 (R115 to R127). -/
namespace Sys2Proof.Machine

/-! ### Predicates -/

def predReg (u : Bool) (n : BitVec 8) : Reg := if u then .q n.toNat else .p n.toNat
def predBit (g : Group) (u : Bool) (n : BitVec 8) (l : Nat) : Bool := if u then readQ g n.toNat else has (readP g n.toNat) l
/-- One predicate bit for each acting lane, or the uniform predicate. -/
def predWrite (u : Bool) (n : Nat) (act : Mask) (f : Nat → Bool) : RegWrite := if u then .q n (f 0) else .p n act (maskOf f)

/-- A comparison of SETP (R115), by CMP, from an order on comparable values. -/
def cmpHolds (cmp : BitVec 3) (c : Int) : Bool :=
  match cmp.toNat with
  | 0 => c = 0
  | 1 => c ≠ 0
  | 2 => c < 0
  | 3 => c ≤ 0
  | 4 => 0 < c
  | 5 => 0 ≤ c
  | 6 => true
  | _ => false

/-- Compare of R115: the ordered comparisons raise IV on any NaN, the others on a signalling one. -/
def compareTy (ty : Ty) (cmp : BitVec 3) (a b : Nat) : Bool × BitVec 7 :=
  if ty.isInt then
    let x := valInt ty a
    let y := valInt ty b
    (cmpHolds cmp (if x < y then -1 else if x = y then 0 else 1), 0)
  else
    let x := decodeF ty a
    let y := decodeF ty b
    let ordered := 2#3 ≤ cmp && cmp ≤ 5#3
    if x.isNaN || y.isNaN then (cmp == 1#3 || cmp == 7#3, flagIf (ordered || x.isSNaN || y.isSNaN) fIV)
    else (cmpHolds cmp (cmpFV x y), 0)

/-- The combination of CB with pC (R115). -/
def combinePred (cb : BitVec 3) (c pc : Bool) : Bool :=
  let y := pc != cb.getLsbD 2
  match (cb.extractLsb' 0 2).toNat with
  | 0 => c
  | 1 => c && y
  | 2 => c || y
  | _ => c != y

def execSetp (h : Hdr) (x : SetpForm) (s : State) : Outcome :=
  let w := x.ty.is64
  let useC := x.cb.extractLsb' 0 2 != 0#2
  let reads := regsOf x.u w x.a ++ bRegs w x.b ++ (if useC then [predReg x.u x.c] else [])
  issue h (bLong x.b) x.u { reads := reads, writes := [predReg x.u x.d], lat := some 2 } s fun i =>
    let r (l : Nat) : Bool × BitVec 7 := compareTy x.ty x.cmp (readReg i.g x.u w x.a l) (readB i.g x.ty w x.b l)
    .fixed i.s 2 [predWrite x.u x.d.toNat i.act fun l => combinePred x.cb (r l).1 (predBit i.g x.u x.c l)]
      (if x.u then FlagSet.ofGroup (r 0).2 else FlagSet.ofLanes i.act fun l => (r l).2)

/-- PLOP (R116). -/
def execPlop (h : Hdr) (u : Bool) (lut : BitVec 8) (d a b c : BitVec 8) (s : State) : Outcome :=
  issue h false u { reads := [predReg u a, predReg u b, predReg u c], writes := [predReg u d], lat := some 2 } s fun i =>
    let bit (n : BitVec 8) (k l : Nat) : Nat := if predBit i.g u n l then k else 0
    .fixed i.s 2 [predWrite u d.toNat i.act fun l => lut.getLsbD (bit a 4 l + bit b 2 l + bit c 1 l)] FlagSet.none

/-- P2V (R117): p0 to p6 and a 1 in bit 7. -/
def execP2v (h : Hdr) (u : Bool) (d : BitVec 8) (s : State) : Outcome :=
  regOp h false u (some 2) ((List.range 7).map fun n => predReg u (BitVec.ofNat 8 n)) false d s fun i l =>
    bare (bitsNat 8 fun n => predBit i.g u (BitVec.ofNat 8 n) l)

/-- V2P (R117). -/
def execV2p (h : Hdr) (u : Bool) (mask : BitVec 7) (a : BitVec 8) (s : State) : Outcome :=
  let ns := (List.range 7).filter fun n => mask.getLsbD n
  issue h false u { reads := regsOf u false a, writes := ns.map fun n => predReg u (BitVec.ofNat 8 n), lat := some 2 } s fun i =>
    .fixed i.s 2 (ns.map fun n => predWrite u n i.act fun l => (readReg i.g u false a l).testBit n) FlagSet.none

/-! ### Lane exchange (R118 to R124) -/

/-- The source lane of SHFL (R119). -/
def shflLane (mode : BitVec 2) (l b : Nat) : Nat :=
  match mode.toNat with
  | 0 => b % 32
  | 1 => if b ≤ l then l - b else l
  | 2 => if l + b ≤ 31 then l + b else l
  | _ => l ^^^ (b % 32)

def execShfl (h : Hdr) (mode : BitVec 2) (d a : BitVec 8) (b : BSrc) (s : State) : Outcome :=
  regOp h false false (some 4) (.v a.toNat :: bRegs false b) false d s fun i l =>
    bare (readV i.g a.toNat (shflLane mode l (readB i.g .b32 false b l))).toNat

/-- The lanes of G whose predicate, possibly negated, holds. -/
def predLanes (i : Iss) (a : BitVec 8) (ng : Bool) : Mask := i.act &&& (if ng then ~~~(readP i.g a.toNat) else readP i.g a.toNat)

/-- VOTE (R120). -/
def execVote (h : Hdr) (mode : BitVec 2) (ng : Bool) (d a : BitVec 8) (s : State) : Outcome :=
  issue h false false { reads := [.p a.toNat], writes := [.p d.toNat], lat := some 4 } s fun i =>
    let m := predLanes i a ng
    let y := match mode.toNat with
      | 0 => m == i.act
      | 1 => m != 0#32
      | _ => m == i.act || m == 0#32
    .fixed i.s 4 [.p d.toNat i.act (if y then i.act else 0)] FlagSet.none

/-- A vector-class instruction with one result: to every lane of G, or to a uniform register (R95, R97). -/
def oneResult (h : Hdr) (lat : Nat) (reads : List Reg) (ud : Bool) (d : BitVec 8) (s : State) (f : Iss → FRes) : Outcome :=
  issue h false false { reads := reads, writes := regsOf ud false d, lat := some lat } s fun i =>
    let r := f i
    .fixed i.s lat (results ud false d i.act fun _ => { r with flags := 0 }).1 (FlagSet.ofGroup r.flags)

/-- BALLOT (R121). -/
def execBallot (h : Hdr) (ud ng : Bool) (d a : BitVec 8) (s : State) : Outcome :=
  oneResult h 4 [.p a.toNat] ud d s fun i => bare (predLanes i a ng).toNat

/-- MATCH (R122). -/
def execMatch (h : Hdr) (ty : Ty) (d a : BitVec 8) (s : State) : Outcome :=
  regOp h false false (some 4) (regsOf false ty.is64 a) ty.is64 d s fun i l =>
    let x (l : Nat) : Nat := readReg i.g false ty.is64 a l
    bare (i.act &&& maskOf fun k => x k == x l).toNat

/-- The exact sum of a list of f32 values, rounded once (R123): a NaN term gives the canonical NaN, as do infinities of
both signs. Beside a quiet NaN term, infinities of both signs raise no IV (DESIGN CHOICE, log 40); the sign of an exact zero is
log 12. -/
def sumF32 (l : List FV) : FRes :=
  if l.any FV.isNaN then nanRes .f32 (l.any FV.isSNaN)
  else
    let r := match l with
      | [] => (FV.num false 0 0, false)
      | x :: t => t.foldl (fun acc y => if acc.2 then acc else addFV .rn acc.1 y) (x, false)
    finishF .f32 .rn r

/-- The reduction of R123 over the values of the acting lanes, lowest lane first. -/
def reduceLanes (op : BitVec 3) (ty : Ty) (l : List Nat) : FRes :=
  let x := l.headD 0
  if ty == .f32 then
    if op == 0#3 then sumF32 (l.map (decodeF .f32))
    else l.foldl (fun acc y => let r := minMaxF .f32 (op == 2#3) false acc.bits y; { r with flags := r.flags ||| acc.flags }) (bare x)
  else
    bare (match op.toNat with
      | 0 => wrapTo 32 (l.foldl (fun acc y => acc + valInt ty y) 0)
      | 1 => l.foldl (fun acc y => if valInt ty y < valInt ty acc then y else acc) x
      | 2 => l.foldl (fun acc y => if valInt ty acc < valInt ty y then y else acc) x
      | 3 => l.foldl (fun acc y => acc &&& y) x
      | 4 => l.foldl (fun acc y => acc ||| y) 0
      | _ => l.foldl (fun acc y => acc ^^^ y) 0)

def execRedux (h : Hdr) (ud : Bool) (op : BitVec 3) (ty : Ty) (d a : BitVec 8) (s : State) : Outcome :=
  oneResult h 8 [.v a.toNat] ud d s fun i => reduceLanes op ty ((laneList i.act).map fun l => (readV i.g a.toNat l).toNat)

/-- V2S (R124). -/
def execV2s (h : Hdr) (sel : BitVec 2) (d a b : BitVec 8) (s : State) : Outcome :=
  oneResult h 4 (.v a.toNat :: if sel == 1#2 then [.s b.toNat] else []) true d s fun i =>
    bare (readV i.g a.toNat (match sel.toNat with
      | 0 => b.toNat
      | 1 => (readS i.g b.toNat).toNat % 32
      | _ => lowLane i.act)).toNat

/-! ### Special registers (R37, R125 to R127) -/

/-- The value of a special register in a lane: the registers of a handler read as zero outside one (R37). -/
def specialReg (s : State) (w : Who) (num : BitVec 8) (l : Nat) : Nat :=
  let hd (f : HandlerFrame → Nat) : Nat := match w.g.frames with
    | [] => 0
    | fr :: _ => f fr
  match num.toNat with
  | 0x00 => l
  | 0x01 => w.r.grp
  | 0x02 => w.b.ordinal
  | 0x03 => w.b.core
  | 0x04 => w.g.cl.swc.toNat
  | 0x05 => s.tick
  | 0x08 => (readFlags (diagMode s w.c) w.g).toNat
  | 0x09 => w.b.bflags.toNat
  | 0x0A => w.g.sfm.toNat
  | 0x0B => w.g.dropcnt.toNat
  | 0x0C => w.g.chkmode.toNat
  | 0x0D => w.b.nantrap.toNat
  | 0x0E => w.b.seed.toNat
  | 0x0F => w.b.rpr.toNat
  | 0x10 => w.b.febudget.toNat
  | 0x11 => w.l.lrec.emuv.toNat
  | 0x12 => w.l.lrec.trapv.toNat
  | 0x18 => hd fun f => f.cause.toNat
  | 0x19 => hd fun f => f.emask.toNat
  | 0x1A => hd fun f => f.epos.toNat
  | 0x1C => hd fun f => (f.tval[0]).toNat
  | 0x1D => hd fun f => (f.tval[1]).toNat
  | 0x1E => hd fun f => (f.tval[2]).toNat
  | 0x1F => hd fun f => (f.tval[3]).toNat
  | _ => 0

def execRdsr (h : Hdr) (ud : Bool) (num d : BitVec 8) (s : State) : Outcome :=
  let w := sr64 num
  issue h false false { writes := regsOf ud w d, lat := some 2 } s fun i =>
    .fixed i.s 2 (results ud w d i.act fun l => bare (specialReg i.s i.w num l)).1 FlagSet.none

/-- The budget that WRSR stores (R127). -/
def clampBudget (x : W32) : W32 := if x == 0#32 then 1#32 else if 0x100000#32 < x then 0x100000#32 else x

/-- A write to a writable special register other than FEBUDGET (R127): BFLAGS, NANTRAP and SEED are the block's. -/
def writeSpecial (s : State) (w : Who) (num : BitVec 8) (x : W64) : State :=
  let v := lo32 x
  match num.toNat with
  | 0x08 => s.modGrp w.r (writeFlags v)
  | 0x09 => s.modBlk w.r.blk fun b => { b with bflags := v &&& 0x7F#32 }
  | 0x0A => s.modGrp w.r fun g => { g with sfm := v }
  | 0x0B => s.modGrp w.r fun g => { g with dropcnt := v }
  | 0x0C => s.modGrp w.r fun g => { g with chkmode := v &&& 3#32 }
  | 0x0D => s.modBlk w.r.blk fun b => { b with nantrap := v &&& 1#32 }
  | 0x0E => s.modBlk w.r.blk fun b => { b with seed := x }
  | _ => s

/-- WRSR (R127): FEBUDGET is written in handler mode only, for the block and the context. -/
def execWrsr (h : Hdr) (num a : BitVec 8) (s : State) : Outcome :=
  let w := sr64 num
  issue h false false { reads := regsOf true w a } s fun i =>
    let x := u64 (readReg i.g true w a 0)
    if num == 0x10#8 then
      if i.g.depth == 0 then .trap i.s 0x08#8 i.act []
      else
        let v := clampBudget (lo32 x)
        let s := i.s.modBlk i.w.r.blk fun b => { b with febudget := v }
        .done (s.setCtx i.w.c { s.ctx i.w.c with febudget := v })
    else .done (writeSpecial i.s i.w num x)

end Sys2Proof.Machine
end

