-- ==== Sys2Proof/Machine/Special.lean ====
section
/-! DEFINITION. The special functions, OPC 0x48 to 0x4E (R112): each the correctly rounded value of the exact function.
FRCP, FRSQ and FSQRT are exact up to a sticky bit. FEX2 and FLG2 are evaluated to 300 binary places, FSIN and FCOS to 512,
far below the distance between any f32 argument's exact value and a rounding boundary (log 7). -/
namespace Sys2Proof.Machine

/-- The integer square root, found bit by bit from bit `k`. -/
def isqrtFrom (x : Nat) : Nat → Nat → Nat
  | 0, r => if (r + 1) * (r + 1) ≤ x then r + 1 else r
  | k + 1, r => isqrtFrom x k (if (r + 2 ^ (k + 1)) * (r + 2 ^ (k + 1)) ≤ x then r + 2 ^ (k + 1) else r)
def isqrt (x : Nat) : Nat := isqrtFrom x (Nat.log2 x / 2 + 1) 0

/-- A magnitude whose exact value is `m * 2^e`, or lies strictly between it and `(m + 1) * 2^e`, for rounding. -/
def sticky (neg : Bool) (m : Nat) (e : Int) (exact : Bool) : FV :=
  if exact then .num neg m e else .num neg (2 * m + 1) (e - 1)

/-- 1/x of a finite non-zero value. -/
def recipMag (neg : Bool) (m : Nat) (e : Int) : FV := sticky neg (2 ^ 80 / m) (-e - 80) (2 ^ 80 % m == 0)

/-- An exponent no greater than `e - k`, with even parity. -/
def evenBelow (e : Int) (k : Nat) : Int := let q := e - k; if q % 2 = 0 then q else q - 1

/-- √x of a positive value. -/
def sqrtMag (m : Nat) (e : Int) : FV :=
  let q := evenBelow e 80
  let n := m * 2 ^ (e - q).toNat
  let r := isqrt n
  sticky false r (q / 2) (r * r == n)

/-- 1/√x of a positive value. -/
def rsqrtMag (m : Nat) (e : Int) : FV :=
  let q := evenBelow (-e) 120
  let k := (-e - q).toNat
  let r := isqrt (2 ^ k / m)
  sticky false r (q / 2) (r * r * m == 2 ^ k)

/-- Fixed-point scale of FEX2 and FLG2. -/
def one300 : Nat := 2 ^ 300

/-- The sum of `y^(2k+1) / (2k+1)` over `n` terms from `k`, at the 300-place scale: `p` is `y^(2k+1)`, `y2` is `y²`. -/
def atanhSum (y2 : Nat) : (n k p : Nat) → Nat
  | 0, _, _ => 0
  | n + 1, k, p => p / (2 * k + 1) + atanhSum y2 n (k + 1) (p * y2 / one300)

/-- The natural logarithm of a ratio `a/b` from 1 to 2, at the 300-place scale: twice the inverse hyperbolic tangent of
`(a - b)/(a + b)`. -/
def lnRatio (a b : Nat) : Nat :=
  let y := (a - b) * one300 / (a + b)
  2 * atanhSum (y * y / one300) 100 0 y

def ln2 : Nat := lnRatio 2 1

/-- The sum of `t^k / k!` over `n` terms from `k`, at the 300-place scale; `p` is the term of `k`. -/
def expSum (t : Nat) : (n k p : Nat) → Nat
  | 0, _, _ => 0
  | n + 1, k, p => p + expSum t n (k + 1) (p * t / one300 / (k + 1))

/-- 2^x of a finite value: 2 to the floor, exactly, times 2 to the fraction. -/
def exp2Val (neg : Bool) (m : Nat) (e : Int) : FV :=
  if 8 ≤ topExp m e then (if neg then sticky false 1 (-400) false else .num false 1 400)
  else
    let v := scaled neg m e (min e (-300))
    let k : Nat := 2 ^ (-(min e (-300))).toNat
    let n := v / (k : Int)
    let f := (v % (k : Int)).toNat
    if f == 0 then .num false 1 n
    else sticky false (expSum (f * ln2 / k) 80 0 one300) (n - 300) false

/-- log2 of a positive value. -/
def log2Val (m : Nat) (e : Int) : FV :=
  let n := Nat.log2 m
  let top : Int := n + e
  if m == 2 ^ n then fvOfInt top
  else
    let v : Int := top * (one300 : Int) + (lnRatio m (2 ^ n) * one300 / ln2 : Nat)
    sticky (v < 0) v.natAbs (-300) false

/-- Fixed-point scale of FSIN and FCOS. -/
def one512 : Nat := 2 ^ 512

/-- The sum of `± y^(2k+1) / (2k+1)` for `y = 1/d`, at the 512-place scale: `p` is `y^(2k+1)`. -/
def atanSum (d2 : Nat) : (n k p : Nat) → Int
  | 0, _, _ => 0
  | n + 1, k, p => (p / (2 * k + 1) : Nat) - atanSum d2 n (k + 1) (p / d2)

/-- π/2 by Machin's formula, with 64 guard places. -/
def halfPi : Nat :=
  let one := one512 * 2 ^ 64
  let a (d : Nat) : Int := atanSum (d * d) 140 0 (one / d)
  ((8 * a 5 - 2 * a 239) / ((2 ^ 64 : Nat) : Int)).toNat

/-- The alternating sum of `t^j / j!` in steps of two from the term `p` of `j`, at the 512-place scale. -/
def trigSum (t2 : Nat) : (n j p : Nat) → Int
  | 0, _, _ => 0
  | n + 1, j, p => (p : Int) - trigSum t2 n (j + 2) (p * t2 / one512 / ((j + 1) * (j + 2)))

def sinFix (t : Nat) : Int := trigSum (t * t / one512) 60 1 t
def cosFix (t : Nat) : Int := trigSum (t * t / one512) 60 0 one512

/-- sin or cos of a finite non-zero value in radians: the argument is reduced exactly by quarter turns. -/
def trigVal (cos neg : Bool) (m : Nat) (e : Int) : FV :=
  let v := m * 2 ^ (e + 512).toNat
  let t := v % halfPi
  let k := v / halfPi + (if cos then 1 else 0)
  let r := if k % 2 == 0 then sinFix t else cosFix t
  let r := if k % 4 ≥ 2 then -r else r
  let r := if neg && !cos then -r else r
  sticky (r < 0) r.natAbs (-512) false

/-! ### The instructions -/

/-- The special cases of R112's table, and the function on finite non-zero values. -/
structure Special where
  zero : Bool → FV × BitVec 7
  inf  : Bool → FV × BitVec 7
  fin  : Bool → Nat → Int → FV × BitVec 7

def invalid : FV × BitVec 7 := (.nan false, fIV)
def fine (v : FV) : FV × BitVec 7 := (v, 0)

def Special.eval (f : Special) (rm : Rm) (a : Nat) : FRes :=
  let r := match decodeF .f32 a with
    | .nan sig => (FV.nan false, flagIf sig fIV)
    | .inf neg => f.inf neg
    | .num neg m e => if m == 0 then f.zero neg else f.fin neg m e
  match r.1 with
  | .nan _ => { bits := canonNaN .f32, flags := r.2 }
  | v => let x := roundTo .f32 rm false v; { x with flags := x.flags ||| r.2 }

def specialOp (h : Hdr) (x : Alu) (s : State) (f : Special) : Outcome :=
  aluOp h x none (Slots.one x.ty) s fun a _ _ => f.eval x.rm a

def zeroV (neg : Bool) : FV := .num neg 0 0
def oneV : FV := .num false 1 0

def execFrcp (h : Hdr) (x : Alu) (s : State) : Outcome :=
  specialOp h x s { zero := fun n => (.inf n, fDZ), inf := fun n => fine (zeroV n), fin := fun n m e => fine (recipMag n m e) }
def execFrsq (h : Hdr) (x : Alu) (s : State) : Outcome :=
  specialOp h x s { zero := fun n => (.inf n, fDZ), inf := fun n => if n then invalid else fine (zeroV false),
                    fin := fun n m e => if n then invalid else fine (rsqrtMag m e) }
def execFsqrt (h : Hdr) (x : Alu) (s : State) : Outcome :=
  specialOp h x s { zero := fun n => fine (zeroV n), inf := fun n => if n then invalid else fine (.inf false),
                    fin := fun n m e => if n then invalid else fine (sqrtMag m e) }
def execFex2 (h : Hdr) (x : Alu) (s : State) : Outcome :=
  specialOp h x s { zero := fun _ => fine oneV, inf := fun n => fine (if n then zeroV false else .inf false),
                    fin := fun n m e => fine (exp2Val n m e) }
def execFlg2 (h : Hdr) (x : Alu) (s : State) : Outcome :=
  specialOp h x s { zero := fun _ => (.inf true, fDZ), inf := fun n => if n then invalid else fine (.inf false),
                    fin := fun n m e => if n then invalid else fine (log2Val m e) }
def execFsin (h : Hdr) (x : Alu) (s : State) : Outcome :=
  specialOp h x s { zero := fun n => fine (zeroV n), inf := fun _ => invalid, fin := fun n m e => fine (trigVal false n m e) }
def execFcos (h : Hdr) (x : Alu) (s : State) : Outcome :=
  specialOp h x s { zero := fun _ => fine oneV, inf := fun _ => invalid, fin := fun n m e => fine (trigVal true n m e) }

end Sys2Proof.Machine
end

