-- ==== Sys2Proof/Machine/Traps.lean ====
section
/-! DEFINITION. Traps, OPC 0xE0 to 0xE6, register allocation, OPC 0xEA and 0xEB, and the steps EMULATED_ENCODING,
DELIVERED_CAUSE_ENTRY and RESULT_ARRIVAL (R23, R38 to R40, R55, R288 to R304, R316, R354). -/
namespace Sys2Proof.Machine

/-- EMULATED_ENCODING (R54, R55, R296, R316): an encoding that does not execute enters EMUV with its operand window, on the
lanes it would have acted on; with none of those it only issues. -/
def execEmulatedEncoding (h : Hdr) (cause : BitVec 8) (raw ext : W64) (long uniform : Bool) (s : State) : Outcome :=
  issue h long uniform { chk := false } s fun i =>
    let e := preciseEntry i.w cause i.act [raw, ext, 0, 0] long
    .again (enterHandler i.s i.w.r { e with raw := raw, ext := ext, ew := windowWords cause raw ext uniform })

/-! ### Delivered causes (R256, R273, R292) -/

/-- How a group that waits leaves its wait to take a delivered cause (R256): a parked one at the position of R85, one in
a WAIT at that WAIT. -/
def leaveWait (g : Group) : Group :=
  match g.status with
  | .parked _ => { g with status := .ready, lvl := { g.lvl with defm := 0, phase := .sweepEnd } }
  | .waiting .. => { g with status := .ready }
  | _ => g

/-- Whether a group can take its oldest delivered cause now (R292). -/
def canDeliver (w : Who) : Bool := w.g.depth == 0 && w.b.st = .resident && liveNow w.g && !w.g.isEntering

/-- Hand the causes of a group with no live lane on to the next group that can take them (R256, R273). -/
def passCauses (s : State) (w : Who) : State := match nextTaker w.b w.r.grp with
  | some j => (s.modGrp w.r fun g => { g with delivered := [] }).modGrp { w.r with grp := j } fun g =>
      { g with delivered := g.delivered ++ w.g.delivered }
  | none => s

def execDeliveredCauseEntry (r : GRef) (s : State) : Outcome :=
  match who? s r with
  | none => .next s
  | some w =>
    match w.g.delivered with
    | [] => .next s
    | d :: rest =>
      if liveMask w.g.lvl == 0#32 && w.g.depth == 0 then .next (passCauses s w)
      else if !canDeliver w then .next s
      else
        let g := { leaveWait w.g with delivered := rest }
        let s := (unparkAll s w).modGrp r fun _ => g
        .next (enterHandler s r { cause := d.cause, emask := liveMask g.lvl, tv := d.tval.toList, kind := .delivered,
                                  epos := eposOf g.lvl 0 })

/-- RESULT_ARRIVAL (R23, R39): the k-th result in flight arrives. A result dropped after its block's end is counted in the
completion record. -/
def execResultArrival (r : GRef) (k : Nat) (s : State) : Outcome :=
  match who? s r with
  | none => .next s
  | some w =>
    match w.g.inflight[k]? with
    | none => .next s
    | some x =>
      let g := arriveOne (diagMode s w.c) x { w.g with inflight := w.g.inflight.eraseIdx k }
      let s := s.modGrp r fun _ => g
      .next (if w.b.st = .ended && g.dropcnt != w.g.dropcnt then writeCompletion s r.blk w.b.status else s)

/-! ### TRAP, BKPT, ERET, ERETX (R299, R300, R302, R303) -/

def execTrap (h : Hdr) (code : BitVec 8) (s : State) : Outcome :=
  issue h false false {} s fun i => .trap i.s code i.act [code.setWidth 64, 0, 0, 0]

def execTrapKill (h : Hdr) (code : BitVec 8) (s : State) : Outcome :=
  issue h false false {} s fun i =>
    match i.g.frames with
    | f :: _ =>
      if code == 0#8 then .again (terminate i.s i.w.r.blk f.cause f.tval)
      else .again (terminateWith i.s i.w.r.blk code [0, 0, 0, 0])
    | [] => .again (terminateWith i.s i.w.r.blk code [0, 0, 0, 0])

/-- BKPT: with debugger stops enabled the group stops before it issues, and after a resumption it only issues. -/
def execBkpt (h : Hdr) (n : BitVec 8) (s : State) : Outcome :=
  issue h false true {} s fun i =>
    if debugStops i.s i.w.c then
      if i.g.status = .resumed then .done i.s else .again (i.s.modGrp i.w.r (stopHere (diagMode i.s i.w.c)))
    else .trap i.s 0xD0#8 i.act [n.setWidth 64]

/-- ERET and ERETX: the issue counts once the handler is left. -/
def returnOp (h : Hdr) (resume : Bool) (s : State) : Outcome :=
  issue h false true {} s fun i =>
    let s := returnFromHandler i.s i.w resume
    match s.grp? i.w.r with
    | some g => if g.depth < i.g.depth then .at s else .again s
    | none => .again s

def execEret (h : Hdr) (s : State) : Outcome := returnOp h false s
def execEretx (h : Hdr) (s : State) : Outcome := returnOp h true s

/-! ### EWRD and EWWR (R297, R301) -/

/-- What EWRD and EWWR can name of the faulting level. -/
inductive EwCls where
  | none | v | s | p | q | t | a | w | nb | imm | ext | wl | ri | raw | rgn | desc
  deriving DecidableEq, Repr

/-- A selection: its class, first number, and how many 32-bit registers move. -/
structure EwSel where
  cls : EwCls
  n   : Nat
  cnt : Nat
  deriving DecidableEq, Repr

/-- The class of a descriptor's CLS. -/
def ewClass (c : Nat) : EwCls :=
  match c with
  | 1 => .v | 2 => .s | 3 => .p | 4 => .q | 5 => .t | 6 => .a | 7 => .w | 8 => .nb | 9 => .imm | 10 => .ext | _ => .none

/-- How many registers W or NW names. -/
def ewCount (x : BitVec 2) : Nat := if x == 1#2 then 2 else if x == 2#2 then 4 else 1

def ewSel (f : HandlerFrame) (kind : BitVec 4) (nw : BitVec 2) (a : BitVec 8) : EwSel :=
  let n := a.toNat
  match kind.toNat with
  | 0 =>
    let x := (f.ew[n % 4]?).getD 0#32
    let c := ewClass (x.extractLsb' 28 4).toNat
    { cls := c, n := (x.extractLsb' 0 16).toNat, cnt := match c with
      | .v | .s => ewCount (x.extractLsb' 26 2)
      | .t | .w => 4
      | _ => 1 }
  | 1 => { cls := .v, n := n, cnt := ewCount nw }
  | 2 => { cls := .s, n := n, cnt := ewCount nw }
  | 3 => { cls := .p, n := n, cnt := 1 }
  | 4 => { cls := .q, n := n, cnt := 1 }
  | 5 => { cls := .wl, n := 0, cnt := 1 }
  | 6 => { cls := .ri, n := 0, cnt := 1 }
  | 7 => { cls := .t, n := n, cnt := 4 }
  | 8 => { cls := .w, n := n, cnt := 4 }
  | 9 => { cls := .nb, n := n, cnt := 1 }
  | 10 => { cls := .raw, n := 0, cnt := 4 }
  | 11 => { cls := .rgn, n := 0, cnt := 2 }
  | _ => { cls := .desc, n := 0, cnt := 4 }

/-- The faulting level's registers that a selection names. -/
def EwSel.regs (e : EwSel) : List Reg :=
  match e.cls with
  | .v => (List.range e.cnt).map fun k => .v (e.n + k)
  | .s => (List.range e.cnt).map fun k => .s (e.n + k)
  | .p => [.p e.n]
  | .q => [.q e.n]
  | _ => []

/-- The bank registers: h from 224, hs from 112. -/
def bankRegs (r : BitVec 8) (cnt : Nat) : List Reg :=
  (List.range cnt).map fun k => if r.toNat ≥ 224 then .v (r.toNat + k) else .s (r.toNat + k)

/-- Whether the bank register holds the class (R301): lanes in h, words in hs; a read of one register's value or of a
number fits h too, the same in every lane (log 28). -/
def bankHolds (write : Bool) (hv : Bool) (e : EwSel) : Bool :=
  match e.cls with
  | .v | .p | .wl | .ri => hv
  | .s | .imm | .ext | .none => !write || !hv
  | .a => false
  | _ => !hv

/-- Classes that EWWR cannot write. -/
def readOnlyClass : EwCls → Bool
  | .none | .nb | .imm | .ext | .raw | .rgn | .desc => true
  | _ => false

/-- Whether a selection lies beyond the group's allocation (R33), seen from the faulting level `d`. -/
def ewBeyond (w : Who) (d : Nat) (e : EwSel) : Bool :=
  match e.cls with
  | .v => (List.range e.cnt).any fun k => e.n + k > 255 || (e.n + k ≥ w.g.nv && !(e.n + k ≥ 224 && d > 0))
  | .s => e.n + e.cnt > 128
  | .nb => e.n ≥ w.l.lrec.nbctrs
  | _ => false

/-- The causes EWRD and EWWR raise, in order: 0x09, then 0x06. -/
def ewCause (w : Who) (d : Nat) (act : Mask) (write : Bool) (r : BitVec 8) (e : EwSel) : Option (BitVec 8) :=
  let hv : Bool := r.toNat ≥ 224
  let fits := if hv then r.toNat + e.cnt ≤ 256 else r.toNat + e.cnt ≤ 128
  let lanesOut := (e.cls = .wl || e.cls = .ri) && d = 1 && act &&& ~~~(liveMask (w.g.levelAt d)) != 0#32
  if !bankHolds write hv e || !fits || (write && readOnlyClass e.cls) || lanesOut then some 0x09#8
  else if ewBeyond w d e then some 0x06#8
  else none

/-- Word `k` of a selection as lane `l` sees it. -/
def ewValue (w : Who) (d : Nat) (f : HandlerFrame) (e : EwSel) (k l : Nat) : W32 :=
  let part (x : Nat) : W32 := u32 (x / 2 ^ (32 * k))
  let v := w.g.levelAt d
  match e.cls with
  | .v => readVAt w.g d (e.n + k) l
  | .s => readSAt w.g d (e.n + k)
  | .p => if has (pOf v e.n) l then 1 else 0
  | .q => if qOf v e.n then 1 else 0
  | .wl => (wlOf v l).setWidth 32
  | .ri => (riOf v l).setWidth 32
  | .t => part ((w.b.tiles[e.n % 16]?).getD 0).toNat
  | .w => part ((w.g.w[e.n % 4]?).getD 0).toNat
  | .nb => (w.b.nb[e.n % 16]?).getD 0
  | .raw => part (f.raw.toNat + 2 ^ 64 * f.ext.toNat)
  | .rgn => part v.base.toNat
  | .desc => (f.ew[k % 4]?).getD 0
  | .imm => u32 e.n
  | .ext => lo32 f.ext
  | .none | .a => 0

/-- What EWRD and EWWR select, for the handler frame of the group on turn. -/
def curSel (s : State) (kind : BitVec 4) (nw : BitVec 2) (a : BitVec 8) : EwSel :=
  match ((s.cur.bind (who? s)).bind fun w => w.g.frames.head?) with
  | some f => ewSel f kind nw a
  | none => { cls := .none, n := 0, cnt := 1 }

/-- Let the returns arrive that a selection waits for, at the faulting level. -/
def settleSel (i : Iss) (d : Nat) (e : EwSel) : State × Who :=
  let g := arriveIf (diagMode i.s i.w.c) (fun x => x.touches d e.regs) i.g
  (i.s.modGrp i.w.r fun _ => g, { i.w with g := g })

/-- EWRD (R301). -/
def execEwrd (h : Hdr) (kind : BitVec 4) (nw : BitVec 2) (d a : BitVec 8) (s : State) : Outcome :=
  let e := curSel s kind nw a
  issue h false false { writes := bankRegs d e.cnt, below := e.regs } s fun i =>
    match i.g.frames with
    | [] => .again i.s
    | f :: below =>
      match ewCause i.w below.length i.act false d e with
      | some c => .trap i.s c i.act []
      | none =>
        let (s, w) := settleSel i below.length e
        .later s ((List.range e.cnt).map fun k =>
          if d.toNat ≥ 224 then .v (d.toNat + k) i.act (lanes fun l => ewValue w below.length f e k l)
          else .s (d.toNat + k) (ewValue w below.length f e k 0)) FlagSet.none

/-- The lanes whose new WL is no label, 0xFFFF or, inside a call, 0xFFFE (R301). -/
def badWl (g : Group) (d : Nat) (act : Mask) (x : Nat → W32) : Mask :=
  act &&& maskOf fun l =>
    let y := (x l).extractLsb' 0 16
    !(y.toNat < (g.levelAt d).n || y == 0xFFFF#16 || (y == 0xFFFE#16 && d == 0 && !g.calls.isEmpty))

/-- Put the handler's values where a selection names them. -/
def ewPut (s : State) (w : Who) (d : Nat) (act : Mask) (e : EwSel) (hv : Nat → Nat → W32) (hs : Nat → W32) : State :=
  let wide : W128 := BitVec.ofNat 128 (((List.range 4).map fun k => (hs k).toNat * 2 ^ (32 * k)).foldl (· + ·) 0)
  let ks := List.range e.cnt
  match e.cls with
  | .v => s.modGrp w.r (applyWrites d (ks.map fun k => .v (e.n + k) act (lanes fun l => hv k l)))
  | .s => s.modGrp w.r (applyWrites d (ks.map fun k => .s (e.n + k) (hs k)))
  | .p => s.modGrp w.r (applyWrites d [.p e.n act (maskOf fun l => (hv 0 l).getLsbD 0)])
  | .q => s.modGrp w.r (applyWrites d [.q e.n ((hs 0).getLsbD 0)])
  | .wl => s.modGrp w.r fun g => g.modLevel d fun v =>
      { v.setWl act (fun l => (hv 0 l).extractLsb' 0 16) with defm := v.defm &&& ~~~act }
  | .ri => s.modGrp w.r fun g => g.modLevel d fun v =>
      { v.setRi act (fun l => (hv 0 l).extractLsb' 0 12) with defm := v.defm &&& ~~~act }
  | .t => s.modBlk w.r.blk fun b => { b with tiles := if k : e.n < 16 then b.tiles.set e.n wide else b.tiles }
  | .w => s.modGrp w.r fun g => { g with w := if k : e.n < 4 then g.w.set e.n wide else g.w }
  | _ => s

/-- EWWR (R301, R316). -/
def execEwwr (h : Hdr) (kind : BitVec 4) (nw : BitVec 2) (a b : BitVec 8) (s : State) : Outcome :=
  let e := curSel s kind nw a
  issue h false false { reads := bankRegs b e.cnt, putsBelow := e.regs } s fun i =>
    match i.g.frames with
    | [] => .again i.s
    | _ :: below =>
      match ewCause i.w below.length i.act true b e with
      | some c => .trap i.s c i.act []
      | none =>
        let hv (k l : Nat) : W32 := readV i.g (b.toNat + k) l
        let hs (k : Nat) : W32 := readS i.g (b.toNat + k)
        if e.cls = .wl && badWl i.g below.length i.act (hv 0) != 0#32 then .trap i.s 0x01#8 i.act []
        else
          let (s, w) := settleSel i below.length e
          .done (ewPut s w below.length i.act e hv hs)

/-! ### TRIG (R354) -/

/-- Send a trigger to every other device of the pod. -/
def sendTrigger (s : State) (n : Nat) : State :=
  (s.devices.filter (· ≠ s.device)).foldl (fun s d => (sendOn s d 0 (.trigger n (u64 s.tick)) false).1) s

/-- Whether a turn is the arrival of a trigger above a number. -/
def triggerAbove (n : Nat) : Turn → Bool
  | .event (.triggerMessage m _ _) => m > n
  | _ => false

/-- Put a trigger's arrival on the agenda: of those that arrive together the lower numbers come first (R355). -/
def insTrigger (n : Nat) (t : Turn) (l : List Turn) : List Turn :=
  let k := (l.findIdx? (triggerAbove n)).getD l.length
  l.take k ++ t :: l.drop k

def execTrig (h : Hdr) (sc : BitVec 3) (n : BitVec 8) (s : State) : Outcome :=
  issue h false true {} s fun i =>
    let s := i.s
    let s := { s with agenda := insTrigger n.toNat (.event (.triggerMessage n.toNat { flit := none, device := s.device } (u64 s.tick))) s.agenda }
    .done (if sc == 5#3 then sendTrigger s n.toNat else s)

/-! ### GROW and SHRINK (R38 to R40) -/

/-- The granules that GROW or SHRINK names. As CALL and WAIT do with theirs, the register form reads its source before R21's commit
of pending writes: the spec does not say which comes first (DESIGN CHOICE, log 40). -/
def granules (g : Group) (imm : Bool) (b : BitVec 8) : Nat := if imm then b.toNat else (readS g b.toNat).toNat

def allocUses (imm : Bool) (d b : BitVec 8) : Uses :=
  { reads := if imm then [] else [.s b.toNat], writes := [.s d.toNat] }

/-- The register form with g = 0: pending writes commit (R21), and D takes the allocated count. -/
def countResult (i : Iss) (d : BitVec 8) : Act :=
  .later (i.s.modGrp i.w.r fun g => commitAll (diagMode i.s i.w.c) g) [.s d.toNat (u32 i.g.nv)] FlagSet.none

/-- GROW: the request joins its partition's queue, and is granted at once where it heads it and fits. -/
def execGrow (h : Hdr) (imm : Bool) (d b : BitVec 8) (s : State) : Outcome :=
  issue h false true (allocUses imm d b) s fun i =>
    let k := granules i.g imm b
    if k == 0 then countResult i d
    else if i.g.nv + 8 * k > 256 then .trap i.s 0x07#8 i.act []
    else
      let part := i.w.r.grp % 4
      let diag := diagMode i.s i.w.c
      let s := i.s.modGrp i.w.r fun g => { commitAll diag g with status := .growing }
      let s := { s with growQ := s.growQ ++ [{ core := i.w.b.core, part := part, who := i.w.r, regs := 8 * k, h := h, d := d }] }
      .again (grantFrom i.w.b.core part 16 s)

/-- The top granules leave the allocation, and writes still to come to them are discarded. -/
def shrunk (g : Group) (k : Nat) : Group :=
  let nv := g.nv - 8 * k
  let gone (w : RegWrite) : Bool := match w with
    | .v n _ _ => nv ≤ n && n < g.nv && !(n ≥ 224 && g.depth > 0)
    | _ => false
  { g with nv := nv,
           pend := g.pend.map fun p => { p with writes := p.writes.filter fun w => !gone w },
           grans := g.grans.take (nv / 8) }

def execShrink (h : Hdr) (imm : Bool) (d b : BitVec 8) (s : State) : Outcome :=
  issue h false true (allocUses imm d b) s fun i =>
    let k := granules i.g imm b
    if k == 0 then countResult i d
    else if i.g.nv < 8 * k + 8 then .trap i.s 0x07#8 i.act []
    else
      let diag := diagMode i.s i.w.c
      let s := (i.s.dropGrans i.w.b.core (i.w.r.grp % 4) (i.g.grans.drop (i.g.nv / 8 - k))).modGrp i.w.r fun g => commitAll diag (shrunk g k)
      .later (grantFrom i.w.b.core (i.w.r.grp % 4) 16 s) [.s d.toNat (u32 (i.g.nv - 8 * k))] FlagSet.none

end Sys2Proof.Machine
end

