-- ==== Sys2Proof/Machine/Dispatch.lean ====
section
/-! DEFINITION. The dispatch: one arm for each constructor of `Instr`, in the opcode table's order. -/
namespace Sys2Proof.Machine

def exec (i : Instr) (s : State) : Host.Outcome State Fault Refusal :=
  match i with
  | .nop h => Sys2Proof.Machine.execNop h s
  | .blk stall label ft len => Sys2Proof.Machine.execBlk stall label ft len s
  | .want h label => Sys2Proof.Machine.execWant h label s
  | .wantv h a => Sys2Proof.Machine.execWantv h a s
  | .call h entry a => Sys2Proof.Machine.execCall h entry a s
  | .callv h entry a => Sys2Proof.Machine.execCallv h entry a s
  | .ret h => Sys2Proof.Machine.execRet h s
  | .exit h => Sys2Proof.Machine.execExit h s
  | .yield h n => Sys2Proof.Machine.execYield h n s
  | .iadd h x => Sys2Proof.Machine.execIadd h x s
  | .isub h x => Sys2Proof.Machine.execIsub h x s
  | .imul h x => Sys2Proof.Machine.execImul h x s
  | .imulh h x => Sys2Proof.Machine.execImulh h x s
  | .imad h x => Sys2Proof.Machine.execImad h x s
  | .imadw h x => Sys2Proof.Machine.execImadw h x s
  | .imin h x => Sys2Proof.Machine.execImin h x s
  | .imax h x => Sys2Proof.Machine.execImax h x s
  | .iabs h x => Sys2Proof.Machine.execIabs h x s
  | .ineg h x => Sys2Proof.Machine.execIneg h x s
  | .and h x => Sys2Proof.Machine.execAnd h x s
  | .or h x => Sys2Proof.Machine.execOr h x s
  | .xor h x => Sys2Proof.Machine.execXor h x s
  | .andn h x => Sys2Proof.Machine.execAndn h x s
  | .not h x => Sys2Proof.Machine.execNot h x s
  | .shl h x => Sys2Proof.Machine.execShl h x s
  | .shr h x => Sys2Proof.Machine.execShr h x s
  | .sar h x => Sys2Proof.Machine.execSar h x s
  | .rotl h x => Sys2Proof.Machine.execRotl h x s
  | .clz h x => Sys2Proof.Machine.execClz h x s
  | .ctz h x => Sys2Proof.Machine.execCtz h x s
  | .popc h x => Sys2Proof.Machine.execPopc h x s
  | .brev h x => Sys2Proof.Machine.execBrev h x s
  | .bfx h x => Sys2Proof.Machine.execBfx h x s
  | .bfi h x => Sys2Proof.Machine.execBfi h x s
  | .lea h x => Sys2Proof.Machine.execLea h x s
  | .sel h x => Sys2Proof.Machine.execSel h x s
  | .mov h x => Sys2Proof.Machine.execMov h x s
  | .movi h x => Sys2Proof.Machine.execMovi h x s
  | .fadd h x => Sys2Proof.Machine.execFadd h x s
  | .fsub h x => Sys2Proof.Machine.execFsub h x s
  | .fmul h x => Sys2Proof.Machine.execFmul h x s
  | .ffma h x => Sys2Proof.Machine.execFfma h x s
  | .fmin h x => Sys2Proof.Machine.execFmin h x s
  | .fmax h x => Sys2Proof.Machine.execFmax h x s
  | .frnd h x => Sys2Proof.Machine.execFrnd h x s
  | .fcls h x => Sys2Proof.Machine.execFcls h x s
  | .frcp h x => Sys2Proof.Machine.execFrcp h x s
  | .frsq h x => Sys2Proof.Machine.execFrsq h x s
  | .fsqrt h x => Sys2Proof.Machine.execFsqrt h x s
  | .fex2 h x => Sys2Proof.Machine.execFex2 h x s
  | .flg2 h x => Sys2Proof.Machine.execFlg2 h x s
  | .fsin h x => Sys2Proof.Machine.execFsin h x s
  | .fcos h x => Sys2Proof.Machine.execFcos h x s
  | .dadd h x => Sys2Proof.Machine.execDadd h x s
  | .dmul h x => Sys2Proof.Machine.execDmul h x s
  | .dfma h x => Sys2Proof.Machine.execDfma h x s
  | .dmin h x => Sys2Proof.Machine.execDmin h x s
  | .dmax h x => Sys2Proof.Machine.execDmax h x s
  | .hadd2 h x => Sys2Proof.Machine.execHadd2 h x s
  | .hmul2 h x => Sys2Proof.Machine.execHmul2 h x s
  | .hfma2 h x => Sys2Proof.Machine.execHfma2 h x s
  | .cvt h x => Sys2Proof.Machine.execCvt h x s
  | .cvtsr h x => Sys2Proof.Machine.execCvtsr h x s
  | .setp h x => Sys2Proof.Machine.execSetp h x s
  | .plop h u lut d a b c => Sys2Proof.Machine.execPlop h u lut d a b c s
  | .p2v h u d => Sys2Proof.Machine.execP2v h u d s
  | .v2p h u mask a => Sys2Proof.Machine.execV2p h u mask a s
  | .shfl h mode d a b => Sys2Proof.Machine.execShfl h mode d a b s
  | .vote h mode ng d a => Sys2Proof.Machine.execVote h mode ng d a s
  | .ballot h ud ng d a => Sys2Proof.Machine.execBallot h ud ng d a s
  | .match_ h ty d a => Sys2Proof.Machine.execMatch h ty d a s
  | .redux h ud op ty d a => Sys2Proof.Machine.execRedux h ud op ty d a s
  | .v2s h sel d a b => Sys2Proof.Machine.execV2s h sel d a b s
  | .ld h x => Sys2Proof.Machine.execLd h x s
  | .st h x => Sys2Proof.Machine.execSt h x s
  | .ldu h x => Sys2Proof.Machine.execLdu h x s
  | .pft h x => Sys2Proof.Machine.execPft h x s
  | .ldw h x => Sys2Proof.Machine.execLdw h x s
  | .ldcn h x => Sys2Proof.Machine.execLdcn h x s
  | .stf h x => Sys2Proof.Machine.execStf h x s
  | .ste h x => Sys2Proof.Machine.execSte h x s
  | .feget h x => Sys2Proof.Machine.execFeget h x s
  | .feset h x => Sys2Proof.Machine.execFeset h x s
  | .atom h x => Sys2Proof.Machine.execAtom h x s
  | .red h x => Sys2Proof.Machine.execRed h x s
  | .cas h x => Sys2Proof.Machine.execCas h x s
  | .cadd h x => Sys2Proof.Machine.execCadd h x s
  | .mst h x => Sys2Proof.Machine.execMst h x s
  | .cpy h x => Sys2Proof.Machine.execCpy h x s
  | .cpyg h x => Sys2Proof.Machine.execCpyg h x s
  | .cpyr h x => Sys2Proof.Machine.execCpyr h x s
  | .wcond h x => Sys2Proof.Machine.execWcond h x s
  | .wait h x => Sys2Proof.Machine.execWait h x s
  | .bar h sc la d a c => Sys2Proof.Machine.execBar h sc la d a c s
  | .bara h sc d a => Sys2Proof.Machine.execBara h sc d a s
  | .sig h imm sc d b => Sys2Proof.Machine.execSig h imm sc d b s
  | .fence h sc kind mask => Sys2Proof.Machine.execFence h sc kind mask s
  | .fencex h mask => Sys2Proof.Machine.execFencex h mask s
  | .fetchb h sc => Sys2Proof.Machine.execFetchb h sc s
  | .tfetch h d c => Sys2Proof.Machine.execTfetch h d c s
  | .mstart h a => Sys2Proof.Machine.execMstart h a s
  | .mstartResume h => Sys2Proof.Machine.execMstartResume h s
  | .mstartRetry h => Sys2Proof.Machine.execMstartRetry h s
  | .mend => Sys2Proof.Machine.execMend s
  | .mtile h d a => Sys2Proof.Machine.execMtile h d a s
  | .mtileMemory d addr => Sys2Proof.Machine.execMtileMemory d addr s
  | .mma ck isat d a b x => Sys2Proof.Machine.execMma ck isat d a b x s
  | .mmas d a b c x => Sys2Proof.Machine.execMmas d a b c x s
  | .mzero d n => Sys2Proof.Machine.execMzero d n s
  | .mscale d a m => Sys2Proof.Machine.execMscale d a m s
  | .mdrain sat mx d a b xr xk => Sys2Proof.Machine.execMdrain sat mx d a b xr xk s
  | .mldacc d a xr xk => Sys2Proof.Machine.execMldacc d a xr xk s
  | .cpyaccRd h d a b => Sys2Proof.Machine.execCpyaccRd h d a b s
  | .cpyaccWr h d a b => Sys2Proof.Machine.execCpyaccWr h d a b s
  | .cpyaccSt h sid d a b => Sys2Proof.Machine.execCpyaccSt h sid d a b s
  | .cpyaccLd h sid d a b => Sys2Proof.Machine.execCpyaccLd h sid d a b s
  | .msig sc d v => Sys2Proof.Machine.execMsig sc d v s
  | .mwait sc a v => Sys2Proof.Machine.execMwait sc a v s
  | .mchk a xr xk xn => Sys2Proof.Machine.execMchk a xr xk xn s
  | .rng h x => Sys2Proof.Machine.execRng h x s
  | .qpk h zf d a c => Sys2Proof.Machine.execQpk h zf d a c s
  | .qpkTile h zf sid sc d a c => Sys2Proof.Machine.execQpkTile h zf sid sc d a c s
  | .qunpk h zf d a => Sys2Proof.Machine.execQunpk h zf d a s
  | .qunpkTile h zf sid sc ck d a => Sys2Proof.Machine.execQunpkTile h zf sid sc ck d a s
  | .flrd h src clr d => Sys2Proof.Machine.execFlrd h src clr d s
  | .flclr h src mask => Sys2Proof.Machine.execFlclr h src mask s
  | .moncfg h d a => Sys2Proof.Machine.execMoncfg h d a s
  | .monref h d a b => Sys2Proof.Machine.execMonref h d a b s
  | .monrdC h d a => Sys2Proof.Machine.execMonrdC h d a s
  | .monrdP h d a => Sys2Proof.Machine.execMonrdP h d a s
  | .monrdSt h d a => Sys2Proof.Machine.execMonrdSt h d a s
  | .monclr h d => Sys2Proof.Machine.execMonclr h d s
  | .monstp h d => Sys2Proof.Machine.execMonstp h d s
  | .trap h code => Sys2Proof.Machine.execTrap h code s
  | .trapKill h code => Sys2Proof.Machine.execTrapKill h code s
  | .bkpt h n => Sys2Proof.Machine.execBkpt h n s
  | .eret h => Sys2Proof.Machine.execEret h s
  | .eretx h => Sys2Proof.Machine.execEretx h s
  | .ewrd h kind nw d a => Sys2Proof.Machine.execEwrd h kind nw d a s
  | .ewwr h kind nw a b => Sys2Proof.Machine.execEwwr h kind nw a b s
  | .trig h sc n => Sys2Proof.Machine.execTrig h sc n s
  | .rdsr h ud num d => Sys2Proof.Machine.execRdsr h ud num d s
  | .wrsr h num a => Sys2Proof.Machine.execWrsr h num a s
  | .grow h imm d b => Sys2Proof.Machine.execGrow h imm d b s
  | .shrink h imm d b => Sys2Proof.Machine.execShrink h imm d b s
  | .emulatedEncoding h cause raw ext long uniform => Sys2Proof.Machine.execEmulatedEncoding h cause raw ext long uniform s
  | .deliveredCauseEntry r => Sys2Proof.Machine.execDeliveredCauseEntry r s
  | .resultArrival r k => Sys2Proof.Machine.execResultArrival r k s
  | .census => Sys2Proof.Machine.execCensus s
  | .sweepEnd => Sys2Proof.Machine.execSweepEnd s
  | .remoteParkDelay r => Sys2Proof.Machine.execRemoteParkDelay r s
  | .sideLogReplay r => Sys2Proof.Machine.execSideLogReplay r s
  | .copyRetire r cls => Sys2Proof.Machine.execCopyRetire r cls s
  | .copyAbort r cls => Sys2Proof.Machine.execCopyAbort r cls s
  | .waitRetest r => Sys2Proof.Machine.execWaitRetest r s
  | .waitTimeout r => Sys2Proof.Machine.execWaitTimeout r s
  | .waitRemotePoll r => Sys2Proof.Machine.execWaitRemotePoll r s
  | .faultServiceRewalk ctx => Sys2Proof.Machine.execFaultServiceRewalk ctx s
  | .codeLineFill f line => Sys2Proof.Machine.execCodeLineFill f line s
  | .matrixPass quad => Sys2Proof.Machine.execMatrixPass quad s
  | .sequencerResume blk => Sys2Proof.Machine.execSequencerResume blk s
  | .tileCommit launch => Sys2Proof.Machine.execTileCommit launch s
  | .placement launch => Sys2Proof.Machine.execPlacement launch s
  | .timeSliceExpiry q => Sys2Proof.Machine.execTimeSliceExpiry q s
  | .blockRestore launch => Sys2Proof.Machine.execBlockRestore launch s
  | .nopPacket q order => Sys2Proof.Machine.execNopPacket q order s
  | .launch q order record ctr add => Sys2Proof.Machine.execLaunch q order record ctr add s
  | .copy q order src dst len ctr add => Sys2Proof.Machine.execCopy q order src dst len ctr add s
  | .write q order addr data => Sys2Proof.Machine.execWrite q order addr data s
  | .signal q order ctr add scope => Sys2Proof.Machine.execSignal q order ctr add scope s
  | .waitc q order ctr value timeout => Sys2Proof.Machine.execWaitc q order ctr value timeout s
  | .waitcTimeout q => Sys2Proof.Machine.execWaitcTimeout q s
  | .wsig q order addr data ctr add => Sys2Proof.Machine.execWsig q order addr data ctr add s
  | .fencePacket q order scope => Sys2Proof.Machine.execFencePacket q order scope s
  | .tstamp q order addr => Sys2Proof.Machine.execTstamp q order addr s
  | .queueWriteIndex q index => Sys2Proof.Machine.execQueueWriteIndex q index s
  | .hostMemRead pa size => Sys2Proof.Machine.execHostMemRead pa size s
  | .hostMemWrite pa data => Sys2Proof.Machine.execHostMemWrite pa data s
  | .invalidationRequest ctx base len => Sys2Proof.Machine.execInvalidationRequest ctx base len s
  | .preemptQueue q => Sys2Proof.Machine.execPreemptQueue q s
  | .setPowerLimit watts => Sys2Proof.Machine.execSetPowerLimit watts s
  | .destroyContext ctx => Sys2Proof.Machine.execDestroyContext ctx s
  | .keygen ctx => Sys2Proof.Machine.execKeygen ctx s
  | .tag ctx base count desc table => Sys2Proof.Machine.execTag ctx base count desc table s
  | .attest ctx nonce report => Sys2Proof.Machine.execAttest ctx nonce report s
  | .registerWrite offset data => Sys2Proof.Machine.execRegisterWrite offset data s
  | .pellorRequest m op => Sys2Proof.Machine.execPellorRequest m op s
  | .pellorResponse m data => Sys2Proof.Machine.execPellorResponse m data s
  | .permitReturn link vc n => Sys2Proof.Machine.execPermitReturn link vc n s
  | .marker link => Sys2Proof.Machine.execMarker link s
  | .triggerMessage n origin tick => Sys2Proof.Machine.execTriggerMessage n origin tick s
  | .scanReadout => Sys2Proof.Machine.execScanReadout s
  | .reductionAbort dst set sources => Sys2Proof.Machine.execReductionAbort dst set sources s
  | .switchChunkTimeout dst set => Sys2Proof.Machine.execSwitchChunkTimeout dst set s
  | .reset stages => Sys2Proof.Machine.execReset stages s
  | .hbmTrainingComplete => Sys2Proof.Machine.execHbmTrainingComplete s
  | .powerAdjust island lowered => Sys2Proof.Machine.execPowerAdjust island lowered s
  | .hbmScrub pa => Sys2Proof.Machine.execHbmScrub pa s
  | .stepRequest r => Sys2Proof.Machine.execStepRequest r s
  | .queueDescriptorWrite q enable clearStop => Sys2Proof.Machine.execQueueDescriptorWrite q enable clearStop s
  | .debuggerResume r focus => Sys2Proof.Machine.execDebuggerResume r focus s
  | .badStreamWord blk word ext => Sys2Proof.Machine.execBadStreamWord blk word ext s
  | .islandPoweredUp island => Sys2Proof.Machine.execIslandPoweredUp island s
  | .podConfiguration own devices tick => Sys2Proof.Machine.execPodConfiguration own devices tick s
  | .hostPortLinkUp rate => Sys2Proof.Machine.execHostPortLinkUp rate s

end Sys2Proof.Machine
end

