-- ==== Sys2Proof/Machine/Moves.lean ====
section
/-! DEFINITION. Which agent moves next, what the hub and the partitions do of themselves between moves, and the placement of
one instruction for the host's question (R11, logs 1, 3, 5). -/
namespace Sys2Proof.Machine

/-! ### Choosing the next turn (R11, log 1) -/

/-- The steps of one class of a group's copies: what any of them has to do, and the report of the oldest where it has failed. -/
def copyTurns (r : GRef) (c : CopyClass) (g : Group) : List Turn :=
  (if (copyTasks g c).isEmpty then [] else [Turn.event (.copyRetire r c)])
    ++ (match (oldest g c).map (·.stage) with
        | some (.failed ..) => [Turn.event (.copyAbort r c)]
        | _ => [])

/-- Every turn that can be taken: groups, results, copies, side logs, WAITs, sequencers, the queue that the March core serves
next and packets that go on (R327), launches to place, restore or commit, and fault services that have acted. -/
def enabledTurns (s : State) : List Turn :=
  let gs := (groupRefs s).flatMap fun r => match s.grp? r with
    | none => []
    | some g =>
      let live := g.status ≠ .retired && (match s.blocks[r.blk]? with
        | some b => b.st = .resident
        | none => false)
      (if live then [Turn.group r] else [])
        ++ (List.range g.inflight.length).map (fun k => Turn.event (.resultArrival r k))
        ++ (if g.sideLog.isEmpty || g.sideSvc then [] else [Turn.event (.sideLogReplay r)])
        ++ ([CopyClass.copy, .gather, .coll].flatMap fun c => copyTurns r c g)
        ++ (match g.status with
            | .waiting _ _ x => [Turn.event (.waitTimeout r)] ++ (if watchesRemote g x then [Turn.event (.waitRemotePoll r)] else [])
            | _ => [])
  let bs := (List.range s.blocks.length).filterMap fun i => match s.blocks[i]? with
    | some b => if b.st = .resident && (b.seq.st = .running || b.seq.st = .waiting) then some (Turn.sequencer i) else none
    | none => none
  let ls := (List.range s.launches.length).flatMap fun i => match s.launches[i]? with
    | some l => (if l.st = .pending && (servedNext s == some l.queue || !(headOf s l.queue).2) then [Turn.event (.placement i)] else [])
        ++ (if l.st = .placed && s.blocks.any (fun b => b.launch = i && b.st = .evicted) then [Turn.event (.blockRestore i)] else [])
        ++ (if l.lrec.equinox && l.st = .placed && passes l l.frontier then [Turn.event (.tileCommit i)] else [])
    | none => []
  let qs := (s.queues.flatMap fun e =>
    (if (servedNext s == some e.1 && !hasPending s e.1) || (e.2.started.zipIdx.findSome? (goesOn s)).isSome then [Turn.march e.1] else [])
      ++ (if sliceDue s e.1 then [Turn.event (.timeSliceExpiry e.1)] else [])
      ++ (if e.2.started.any (fun x => match x with
            | .waitc .. => true
            | _ => false) then [Turn.event (.waitcTimeout e.1)] else []))
  let fs := s.ctxs.filterMap fun e => if serviceCounter s e.1 ≠ e.2.served then some (Turn.event (.faultServiceRewalk e.1)) else none
  let ps := if s.launches.any (fun l => l.st = .pending) || s.blocks.any (fun b => b.st = .evicted) then s.gated.map fun i => Turn.event (.islandPoweredUp i) else []
  gs ++ bs ++ ls ++ qs ++ fs ++ ps

/-- The next turn: the head of the agenda, else a free choice among those enabled. -/
def chooseTurn (s : State) : Option Turn × State :=
  match s.agenda with
  | t :: rest => (some t, { s with agenda := rest })
  | [] =>
    let ts := enabledTurns s
    (ts[Config.schedule s.steps % max ts.length 1]?, s)

def nextOf (s : State) : Turn → Next
  | .group r => groupTurn s r
  | .sequencer b => sequencerTurn s b
  | .march q => marchTurn s q
  | .event i => .run i s

/-- In Winter stop only scan read-out and reset go on (R357). -/
def allowedFrozen : Turn → Bool
  | .event .scanReadout => true
  | .event (.reset _) => true
  | _ => false

/-- What the hub and the partitions do of themselves between steps: the debugger's and the host's requests are met (R340, R353),
messages go out as permits allow (R323, R344), blocks that can be saved leave (R330), launches that have ended make their
counter adds (R329), phases whose last outstanding writes have been performed complete (R174, R281), GROW requests that fit are
granted (R38), but for a Harvest, which holds their groups, focus passes on (R185), and a Harvest goes on (R356). -/
def upkeep (s : State) : State :=
  let s := answerReads (debugActs s)
  let s := reportPreempted (evictReady (leafTurns (transmit s)))
  let s := (List.range s.launches.length).foldl tryDue (settleAll s)
  let s := if s.harvest then s else s.growQ.foldl (fun s q => grantFrom q.core q.part 16 s) s
  endHarvest (saveHarvest (passFocus s))

/-- The whole move before an instruction's meaning: time passes, the turn is chosen, its instruction found. -/
def nextMove (s : State) : Next :=
  let (t, s) := chooseTurn (if s.frozen then s else upkeep s)
  let s := { s with steps := s.steps + 1, tick := if s.frozen then s.tick else s.tick + Config.elapsed s.steps }
  match t with
  | none => .moved s
  | some t => if s.frozen && !allowedFrozen t then .moved s else nextOf s t

/-! ### One instruction as the first after reset (log 5) -/

/-- Where a word is read: as a block's header, by a group, by a group in a handler, or in a matrix stream. -/
inductive Spot where
  | header (label : W16) | group | handler | stream
  deriving DecidableEq, Repr

def spotOf (word ext : W64) : Spot :=
  match decodeHeader word with
  | some (.blk _ label _ _) => .header label
  | _ => match decodeWord .plain word ext with
    | .ok _ => .group
    | .error _ => match decodeWord { DecodeEnv.plain with handler := true } word ext with
      | .ok _ => .handler
      | .error _ => if (decodeStream word ext).isSome then .stream else .group

/-- One block of one group of one launch, resident on core 0, about to fetch the words from its code line; the agenda's
head is that group, or its block's sequencer for a word that only a stream holds. -/
def placeOne (s : State) (word ext : W64) : State :=
  let spot := spotOf word ext
  let rg : Region := { base := 0x1000#64, tab := 0x2000#64, n := 65534, codeLen := 128, tagTab := 0x3000#64 }
  let l : LaunchRec := { LaunchRec.blank with region := 0x1000#64, vregs := 256, accregs := 32, barriers := 16, nbctrs := 16,
                                              scratch := 262144, monitors := 8 }
  let g := { Group.start 0 0 32 256 0 0 1 rg with grans := (List.range 32).map fun k => (k, 0#4) }
  let v := { g.lvl with ord := 1, off := 8, len := 1, phase := .body, unread := false }
  let g := match spot with
    | .header label => { g with lvl := { v with off := 8, phase := .enter label true } }
    | .handler => { g with lvl := v, frames := [{ lvl := v, cause := 0xF0, emask := 0xFFFFFFFF, epos := 0, tval := Vector.replicate 4 0#64,
                                                  kind := .precise false, h := [], hs := [], raw := 0, ext := 0, refetch := false,
                                                  ew := Vector.replicate 4 0#32 }] }
    | _ => { g with lvl := v }
  let b := Block.start 0 0 0 l 1024 [g]
  let b := if spot = .stream then { b with seq := { Seq.idle with st := .running, base := 0x1000#64, next := 0x1008#64,
                                                                  desc := some (0x3000#64, 128) } } else b
  let line := toBytes 8 0x00E0200000000001 ++ toBytes 8 word.toNat ++ toBytes 8 ext.toNat ++ List.replicate 104 0#8
  let r : GRef := { blk := 0, grp := 0 }
  { s with boot := 2, launches := [{ Launch.start 0 0 0 l 0 0 with st := .placed, nblocks := 1 }], blocks := [b],
           ctxs := [(0, { Ctx.absent with st := 1, febudget := 1024 })],
           icache := [{ who := if spot = .stream then .stream 0 else .group r, ctx := 0, line := 0x1000#64, bytes := line }],
           agenda := [if spot = .stream then .sequencer 0 else .group r] }

end Sys2Proof.Machine
end

