-- ==== Sys2Proof/Machine/Step.lean ====
section
/-! DEFINITION. One step of the package: time passes, one agent moves, and the instruction or event it comes to is
executed. -/
namespace Sys2Proof.Machine

/-- One step. -/
def step (s : State) : Host.Outcome State Fault Refusal :=
  match nextMove s with
  | .run i s => exec i s
  | .moved s => .next s

/-- The state with an instruction where the next step fetches it (log 5). -/
def State.withFetchWord (s : State) (nbits w : Nat) : State :=
  placeOne s (BitVec.ofNat 64 (w % 2 ^ nbits)) (BitVec.ofNat 64 (w % 2 ^ nbits / 2 ^ 64))

end Sys2Proof.Machine
end

