-- ==== Sys2Proof/Safety.lean ====
section
/-! DEFINITION. What holds of a package at every moment, and what a safe step is, in the terms that the statements use. -/
namespace Sys2Proof.Machine

/-- Memory and the full/empty states are in their one canonical form. -/
def State.Inv (s : State) : Prop := Memory.wf s.mem = true ∧ swf (1#2) s.fe = true

/-- The group on turn, if there is one. -/
def State.onTurn (s : State) : Option Who := s.cur.bind (who? s)

/-- A step goes on: it ends neither in a fault nor in a refusal. -/
def State.goesOn (s : State) : Prop := ∃ t, step s = .next t

/-- Every state that is reached from another by steps. -/
inductive Reached (s : State) : State → Prop where
  | refl : Reached s s
  | next {t u : State} : Reached s t → step t = .next u → Reached s u

end Sys2Proof.Machine
end

