-- ==== Sys2Proof/Certificates/Slice0/Shapes.lean ====
section
/-! DEFINITION. What the statements of Obligations.lean share: how the group on turn finds an instruction, what its next state
is, and what a value is. Conditions speak of the state and the operands alone. -/
namespace Sys2Proof.Machine

/-! ### Issue and what follows it -/

/-- The group on turn as an instruction finds it: the results in flight that a register of it waits for have arrived (R23),
and the acting set is that of its guard (R25, R71). -/
def foundBy (s : State) (h : Hdr) (long uniform : Bool) (u : Uses) : Option Iss :=
  (s.cur.bind (who? s)).map fun w =>
    let g := arriveIf (diagMode s w.c) (fun x => x.touches w.g.depth (guardReg h uniform ++ u.reads ++ u.writes)) w.g
    { s := s.modGrp w.r fun _ => g, w := { w with g := g }, act := actingSet g h uniform, long := long }

/-- An instruction issues: a lane acts, every vector register lies in the allocation (R33), and under CHKMODE no pending
write makes a read or a write hazardous (R22). -/
def Issues (s : State) (h : Hdr) (long uniform : Bool) (u : Uses) (i : Iss) : Prop :=
  foundBy s h long uniform u = some i ∧ i.act ≠ 0#32 ∧ (u.reads ++ u.writes).any (beyond i.g) = false
    ∧ hazard i.g h uniform u = false

/-- What a group's instruction names as it issues (R25 to R30, R33, R95): its header fields, whether it has an extension word, whether
it is uniform, and the registers it reads and writes with the latency of a fixed result. BLK has no guard and is no such
instruction. What EWRD and EWWR move depends on the handler's window (R301). -/
def issued (s : State) (i : Instr) : Option (Hdr × Bool × Bool × Uses) :=
  let alu (h : Hdr) (x : Alu) (lat : Option Nat) (k : Slots) : Option (Hdr × Bool × Bool × Uses) :=
    some (h, bLong x.b, x.u, { reads := k.reads x, writes := regsOf x.u k.d x.d, lat := lat })
  let two (h : Hdr) (x : Alu) (n : Nat) : Option (Hdr × Bool × Bool × Uses) := alu h x (some n) (Slots.two x.ty)
  let three (h : Hdr) (x : Alu) (n : Nat) : Option (Hdr × Bool × Bool × Uses) := alu h x (some n) (Slots.three x.ty)
  let one (h : Hdr) (x : Alu) (n : Option Nat) : Option (Hdr × Bool × Bool × Uses) := alu h x n (Slots.one x.ty)
  let float (h : Hdr) (x : Alu) : Option (Hdr × Bool × Bool × Uses) :=
    alu h x (some 4) { Slots.two x.ty with c := if x.rm == .rs then some false else none }
  let lane (h : Hdr) (u : Uses) : Option (Hdr × Bool × Bool × Uses) := some (h, false, false, u)
  let unif (h : Hdr) (u : Uses) : Option (Hdr × Bool × Bool × Uses) := some (h, false, true, u)
  let mem (h : Hdr) (x : MemForm) (k d : Nat) : Option (Hdr × Bool × Bool × Uses) :=
    some (h, extLong x.ext, false, { reads := regsOf false true x.a ++ regRun false x.b k, writes := regRun false x.d d })
  let cvts (h : Hdr) (x : CvtForm) (b : List Reg) : Option (Hdr × Bool × Bool × Uses) :=
    some (h, false, x.u, { lat := some 4, reads := regsOf x.u x.sty.is64 x.a ++ b ++ (if x.mg then regsOf x.u x.ty.is64 x.d else []),
                           writes := regsOf x.u x.ty.is64 x.d })
  let n (x : MemForm) : Nat := wdRegs x.wd
  let run (k : Nat) (a : BitVec 8) : List Reg := (List.range k).map fun j => Reg.s (a.toNat + j)
  match i with
  | .nop h => lane { h with gn := false, gp := 7 } {}
  | .want h _ | .ret h | .exit h => lane h { chk := false }
  | .wantv h a => lane h { reads := [.v a.toNat], chk := false }
  | .call h _ a => lane h { reads := [.s a.toNat, .s (a.toNat + 1)], chk := false }
  | .callv h _ a => lane h { reads := [.v a.toNat, .v (a.toNat + 1)], chk := false }
  | .yield h _ => unif h { chk := false }
  | .iadd h x | .isub h x | .imin h x | .imax h x | .and h x | .or h x | .xor h x | .andn h x | .shl h x | .shr h x | .sar h x
  | .rotl h x | .bfx h x => two h x 2
  | .imul h x | .imulh h x | .fmin h x | .fmax h x | .hadd2 h x | .hmul2 h x => two h x 4
  | .dadd h x | .dmul h x | .dmin h x | .dmax h x => two h x 8
  | .bfi h x => three h x 2
  | .imad h x | .ffma h x | .hfma2 h x => three h x 4
  | .dfma h x => three h x 8
  | .iabs h x | .ineg h x | .not h x | .clz h x | .ctz h x | .popc h x | .brev h x => one h x (some 2)
  | .frnd h x | .fcls h x => one h x (some 4)
  | .frcp h x | .frsq h x | .fsqrt h x | .fex2 h x | .flg2 h x | .fsin h x | .fcos h x => one h x none
  | .fadd h x | .fsub h x | .fmul h x => float h x
  | .imadw h x => alu h x (some 4) { a := some false, b := some false, c := some true, d := true }
  | .lea h x => alu h x (some 2) { a := some true, b := some false, c := none, d := true }
  | .mov h x => alu h x (some 2) { a := none, b := some x.ty.is64, c := none, d := x.ty.is64 }
  | .rng h x => alu h x (some 4) { a := some false, b := some true, c := none, d := false }
  | .sel h x => some (h, bLong x.b, x.u, { reads := (Slots.two x.ty).reads x ++ [if x.u then .q x.c.toNat else .p x.c.toNat],
                                           writes := regsOf x.u x.ty.is64 x.d, lat := some 2 })
  | .movi h x => some (h, bLong x.b, x.u, { writes := regsOf x.u false x.d, lat := some 2 })
  | .cvt h x => cvts h x []
  | .cvtsr h x => cvts h x (bRegs false x.b)
  | .setp h y => some (h, bLong y.b, y.u, {
      writes := [predReg y.u y.d], lat := some 2,
      reads := regsOf y.u y.ty.is64 y.a ++ bRegs y.ty.is64 y.b ++ (if y.cb.extractLsb' 0 2 != 0#2 then [predReg y.u y.c] else []) })
  | .plop h u _ d a b c => some (h, false, u, { reads := [predReg u a, predReg u b, predReg u c], writes := [predReg u d], lat := some 2 })
  | .p2v h u d => some (h, false, u, { reads := (List.range 7).map (fun n => predReg u (BitVec.ofNat 8 n)), writes := regsOf u false d, lat := some 2 })
  | .v2p h u mask a => some (h, false, u, { reads := regsOf u false a, lat := some 2,
                                            writes := ((List.range 7).filter fun n => mask.getLsbD n).map fun n => predReg u (BitVec.ofNat 8 n) })
  | .shfl h _ d a b => lane h { reads := .v a.toNat :: bRegs false b, writes := regsOf false false d, lat := some 4 }
  | .vote h _ _ d a => lane h { reads := [.p a.toNat], writes := [.p d.toNat], lat := some 4 }
  | .ballot h ud _ d a => lane h { reads := [.p a.toNat], writes := regsOf ud false d, lat := some 4 }
  | .match_ h ty d a => lane h { reads := regsOf false ty.is64 a, writes := regsOf false ty.is64 d, lat := some 4 }
  | .redux h ud _ _ d a => lane h { reads := [.v a.toNat], writes := regsOf ud false d, lat := some 8 }
  | .v2s h sel d a b => lane h { reads := .v a.toNat :: (if sel == 1#2 then [.s b.toNat] else []), writes := regsOf true false d, lat := some 4 }
  | .ld h x => mem h x 0 (n x)
  | .st h x | .mst h x | .red h x => mem h x (n x) 0
  | .ldu h x => some (h, extLong x.ext, true, { reads := regsOf true true x.a, writes := regRun true x.d (n x) })
  | .pft h x => mem h x 0 0
  | .ldw h x | .ldcn h x | .feget h x => mem h x 0 (n x)
  | .stf h x | .ste h x => mem h x (n x) 0
  | .feset h x => mem h x 0 0
  | .atom h x => mem h x (n x) (n x)
  | .cas h x => mem h x (2 * n x) (n x)
  | .cadd h x => some (h, extLong x.ext, false, { reads := regsOf false true x.a ++ regRun false x.b 2,
                                                  writes := if x.op.getLsbD 0 then [] else regRun false x.d 2 })
  | .cpy h x | .cpyr h x => some (h, x.ctr.isSome, true, { reads := regsOf true true x.d ++ regsOf true true x.a ++ regsOf true false x.b })
  | .cpyg h x => some (h, x.ctr.isSome, true, { reads := regsOf true true x.a })
  | .wcond h x => unif h { reads := match x.kind.toNat with
      | 1 => regsOf true true x.a ++ regsOf true true x.b
      | 2 | 5 => regsOf true false x.b
      | 4 => regsOf true true x.a
      | _ => [] }
  | .wait h x => unif h { reads := regsOf true false x.b, writes := Reg.q x.d.toNat :: (if x.mw then [Reg.s x.c.toNat] else []) }
  | .bar h _ la d _ c => unif h { writes := Reg.q d.toNat :: (if la then [Reg.q c.toNat] else []) }
  | .bara h _ d _ => unif h { writes := regsOf true false d }
  | .sig h imm _ _ b => unif h { reads := if imm then [] else regsOf true false b }
  | .tfetch h d c => unif h { writes := Reg.q c.toNat :: run 4 d }
  | .mstart h a => unif h { reads := regsOf true true a }
  | .mtile h _ a => unif h { reads := regRun true a 4 }
  | .fence h .. | .fencex h _ | .fetchb h _ | .mstartResume h | .mstartRetry h | .flclr h .. | .monclr h _ | .monstp h _ | .bkpt h _
  | .eret h | .eretx h | .trig h .. => unif h {}
  | .cpyaccRd h d _ b => unif h { reads := regsOf true false b, writes := regsOf false false d }
  | .cpyaccWr h _ a b => unif h { reads := regsOf false false a ++ regsOf true false b }
  | .cpyaccSt h _ a _ b | .cpyaccLd h _ _ a b => unif h { reads := regsOf true true a ++ regsOf true false b }
  | .qpk h zf d a c => lane h { reads := regRun false a 16 ++ [.v c.toNat], writes := regRun false d (zbRegs (zbM zf.toNat) + 1) }
  | .qunpk h zf d a => lane h { reads := regRun false a (zbRegs (zbM zf.toNat)), writes := regRun false d 16 }
  | .qpkTile h _ _ _ d a c => lane h { reads := regsOf true true d ++ regsOf true true a ++ regsOf true false c }
  | .qunpkTile h _ _ _ _ d a => lane h { reads := regsOf true true d ++ regsOf true true a }
  | .flrd h src _ d => unif h { writes := regRun true d (if src == 2#2 then 5 else 1) }
  | .moncfg h _ a => unif h { reads := run 8 a }
  | .monref h _ a b => unif h { reads := run 4 a ++ regsOf true true b }
  | .monrdC h d _ | .monrdP h d _ => unif h { writes := run 8 d }
  | .monrdSt h d _ => unif h { writes := run 1 d }
  | .trap h _ | .trapKill h _ => lane h {}
  | .ewrd h kind nw d a => let e := curSel s kind nw a; lane h { writes := bankRegs d e.cnt, below := e.regs }
  | .ewwr h kind nw a b => let e := curSel s kind nw a; lane h { reads := bankRegs b e.cnt, putsBelow := e.regs }
  | .rdsr h ud num d => lane h { writes := regsOf ud (sr64 num) d, lat := some 2 }
  | .wrsr h num a => lane h { reads := regsOf true (sr64 num) a }
  | .grow h imm d b | .shrink h imm d b => unif h { reads := if imm then [] else [.s b.toNat], writes := [.s d.toNat] }
  | _ => none

/-- Whether a group stands in a BAR whose phase has to release it (R175); the BAR then returns and does not issue again. -/
def barHeld (g : Group) : Bool := match g.status with
  | .barrier .. => true
  | _ => false

/-- The next state of an instruction whose effect is made: the group has moved past it. -/
def passed (h : Hdr) (i : Iss) (s : State) : State := s.modGrp i.w.r fun g => g.past h i.long

/-- The next state of a fixed-latency instruction: its result is to commit at that issue distance (R19). -/
def pended (h : Hdr) (i : Iss) (s : State) (lat : Nat) (ws : List RegWrite) (fs : FlagSet) : State :=
  s.modGrp i.w.r fun g => (g.addPend lat ws fs).past h i.long

/-- The next state of a variable-latency instruction: its result is on its way (R23). -/
def flown (h : Hdr) (i : Iss) (s : State) (ws : List RegWrite) (fs : FlagSet) : State :=
  s.modGrp i.w.r fun g => (g.addFlight ws fs).past h i.long

/-- The next state of a register result of a fixed or a variable latency. -/
def landed (h : Hdr) (i : Iss) (lat : Option Nat) (r : List RegWrite × FlagSet) : State :=
  match lat with
  | some n => pended h i i.s n r.1 r.2
  | none => flown h i i.s r.1 r.2

/-! ### Register results -/

/-- A register instruction completes wherever it issues, and the result of each lane it acts on (of lane 0 for a uniform
form) is one that `R` allows. -/
def RegGives (e : Instr) (h : Hdr) (long u : Bool) (lat : Option Nat) (reads : List Reg) (wide : Bool) (d : BitVec 8)
    (R : Iss → Nat → FRes → Prop) : Prop :=
  e.wf = true → ∀ s i, Issues s h long u { reads := reads, writes := regsOf u wide d, lat := lat } i →
    ∃ r : Nat → FRes, (∀ l, (if u then l = 0 else has i.act l = true) → R i l (r l)) ∧
      exec e s = .next (landed h i lat (results u wide d i.act r))

/-- The value of an ALU form's slot in a lane; 0 for a slot that the form does not read. -/
def slotVal (i : Iss) (x : Alu) (w : Option Bool) (n : BitVec 8) (l : Nat) : Nat := match w with
  | some w => readReg i.g x.u w n l
  | none => 0
def slotValB (i : Iss) (x : Alu) (w : Option Bool) (l : Nat) : Nat := match w with
  | some w => readB i.g x.ty w x.b l
  | none => 0

/-- An ALU form completes wherever it issues, with a result that `R` allows for the values of A, B and C. -/
def AluGives (e : Instr) (h : Hdr) (x : Alu) (lat : Option Nat) (k : Slots) (R : (a b c : Nat) → FRes → Prop) : Prop :=
  RegGives e h (bLong x.b) x.u lat (k.reads x) k.d x.d fun i l r =>
    R (slotVal i x k.a x.a l) (slotValB i x k.b l) (slotVal i x k.c x.c l) r

/-- A result of an exact integer (R100): its bits are the integer modulo the width, or under SAT the nearest bound with
the flag SAT. -/
def Narrowed (ty : Ty) (sat : Bool) (v : Int) (r : FRes) : Prop :=
  r.bits < 2 ^ ty.width ∧
    (if sat = true ∧ (v < minInt ty ∨ maxInt ty < v) then
      valInt ty r.bits = (if v < minInt ty then minInt ty else maxInt ty) ∧ r.flags = fSAT
     else ((r.bits : Int) - v) % (2 ^ ty.width : Nat) = 0 ∧ r.flags = 0#7)

/-- A result given bit by bit. -/
def BitsAre (w : Nat) (f : Nat → Bool) (r : FRes) : Prop :=
  r.bits < 2 ^ w ∧ (∀ k, k < w → r.bits.testBit k = f k) ∧ r.flags = 0#7

/-- A decoded float is a sign and an exact magnitude `m * 2^e`. -/
def SameValue (v : FV) (neg : Bool) (m : Nat) (e : Int) : Prop :=
  ∃ k f, v = .num neg k f ∧ scaled neg k f (min f e) = scaled neg m e (min f e)

/-- A number as a multiple of `2^q`, for a `q` no greater than its exponent. -/
def multiple (q : Int) : FV → Int
  | .num n m e => scaled n m e q
  | _ => 0

/-- Whether a `q` is no greater than a number's exponent. -/
def notAbove (q : Int) : FV → Prop
  | .num _ _ e => q ≤ e
  | _ => True

/-- A value less than another, zeros of either sign being equal (R115). -/
def Less : FV → FV → Prop
  | .inf n, .inf k => n = true ∧ k = false
  | .inf n, .num .. => n = true
  | .num .., .inf k => k = false
  | .num n m e, .num n' m' e' => scaled n m e (min e e') < scaled n' m' e' (min e e')
  | _, _ => False

/-- A value below another where −0 counts below +0 (R110). -/
def Below (a b : FV) : Prop := Less a b ∨ ∃ e e', a = .num true 0 e ∧ b = .num false 0 e'

/-- A result without flags. -/
def Plainly (n : Nat) (r : FRes) : Prop := r.bits = n ∧ r.flags = 0#7

/-- A predicate instruction completes wherever it issues: each written predicate takes a bit for every lane it acts on,
and other lanes' bits are outside its mask. -/
def PredGives (e : Instr) (h : Hdr) (long u : Bool) (lat : Nat) (reads : List Reg) (ds : List (BitVec 8))
    (B : Iss → BitVec 8 → Nat → Bool) (F : Iss → Nat → BitVec 7) : Prop :=
  e.wf = true → ∀ s i, Issues s h long u { reads := reads, writes := ds.map (predReg u), lat := some lat } i →
    ∃ (m : BitVec 8 → Mask) (fs : FlagSet),
      (∀ d ∈ ds, ∀ l, has i.act l = true → has (m d) l = B i d l) ∧
      (if u then fs = FlagSet.ofGroup (F i 0) else fs.grp = 0#7 ∧ ∀ l, lget 0 fs.lanes l = if has i.act l then F i l else 0#7) ∧
      exec e s = .next (pended h i i.s lat (ds.map fun d => if u then .q d.toNat (B i d 0) else .p d.toNat i.act (m d)) fs)

/-! ### Memory -/

/-- Every access of an instruction is made where it stands: no request of it is on its way, all acting lanes pass their checks
(R136, R145) and reach this device, no store of the group is in its side log, and the launch is not in Equinox mode. `s'` is the
state after the translations; `ok` says what each lane reaches. -/
def Reaches (i : Iss) (p : Plan) (acts : List (Nat × W64)) (s' : State) (ok : List (Nat × W64 × Loc)) : Prop :=
  checkLanes i.s i.w p.req p.log p.mon acts = (s', .pass { ok := ok, unm := [], off := 0, log := [], probed := true })
    ∧ i.g.sent = [] ∧ i.g.sideLog = [] ∧ i.w.l.lrec.equinox = false ∧ ∀ e ∈ ok, ∀ d pa slot, e.2.2 ≠ .dev d pa slot

/-- An access of a stream to `n` bytes of a location comes after every write of the group that some later access of it need not
see yet: each to a unit of those bytes shares a stream with it, on paths that the table marks with = (R190, R201, log 39). -/
def ComesAfter (g : Group) (sid n : Nat) (va : W64) (loc : Loc) : Prop :=
  ∀ m ∈ g.notes, m.at_ ∈ unitsOf n loc → m.sids &&& oneStream sid ≠ 0#16 ∧ pathsOrdered m.path (field va.toNat 60 4) = true

/-- Two states that differ at most in the notes of a group's own unordered accesses and in the counter of free values
(log 39). -/
def Noted (r : GRef) (s t : State) : Prop :=
  ∃ ns es f, t = ({ s with fresh := f } : State).modGrp r fun g => { g with notes := ns, own := es }

/-- One byte of memory. -/
def byteOf (s : State) (a : Nat) : Byte := sget 0#8 s.mem a

/-- Whether a byte lies in the bytes that a lane stores to, or in the page-table entry that the store marks dirty. -/
def inStore (n : Nat) (loc : Loc) (a : Nat) : Prop := match loc with
  | .mem pa slot _ => (pa ≤ a ∧ a < pa + n) ∨ ∃ p, slot = some p ∧ p ≤ a ∧ a < p + 8
  | _ => False

/-- A byte in the page-table entry that an access to a location marks (R307). -/
def InEntry (loc : Loc) (a : Nat) : Prop := match loc with
  | .mem _ slot _ | .dev _ _ slot | .view _ slot => ∃ e, slot = some e ∧ e ≤ a ∧ a < e + 8
  | _ => False

/-- A byte of this device's memory that a move writes. -/
def InMove (m : Move) (a : Nat) : Prop := match m.dst with
  | .mem pa _ _ => pa ≤ a ∧ a < pa + m.p.n
  | _ => False

/-! ### Waits -/

/-- The barrier that a KIND 5 condition names. -/
def condBar (w : Who) (k : Nat) : BarInst :=
  let n := ((wOf w.g k).extractLsb' 64 4).toNat
  barInst w.l n (barKey w.l w.r.blk w.b n)

/-- Whether a condition of KIND 2, 3 or 5 holds (R170): a block counter has reached its value, fewer copies of a class than
its number are outstanding, a barrier has reached its phase (as a signed distance) or is broken. -/
def condNow (w : Who) (k : Nat) : Bool :=
  let n := ((wOf w.g k).extractLsb' 64 4).toNat
  let val := ((wOf w.g k).extractLsb' 0 32).toNat
  match condKind (wOf w.g k) with
  | 2 => decide (val ≤ ((w.b.nb[n]?).getD 0).toNat)
  | 3 => decide (outstanding w.g (if n % 4 = 0 then .copy else if n % 4 = 1 then .gather else .coll) < val % 512)
  | _ => (condBar w k).broken || decide (((condBar w k).phase.toNat + 2 ^ 32 - val) % 2 ^ 32 < 2 ^ 31)

/-- The conditions of a WAIT that fire. -/
def firedNow (w : Who) (x : WaitForm) : BitVec 4 := bitsBelow (fun k => x.mask.getLsbD k && condNow w k) 4

/-- A WAIT ends (R172): q[D] tells whether it held with no fired barrier broken (R176), the fired mask goes to s[C] where the form
asks, BFLAGS merges where a block counter fired (R218), and the group moves on. -/
def waitEnds (w : Who) (h : Hdr) (x : WaitForm) (fired : BitVec 4) (ok : Bool) (g : Group) : Group :=
  let is (k n : Nat) : Bool := fired.getLsbD k && condKind (wOf w.g k) == n
  let broken := (List.range 4).any fun k => is k 5 && (condBar w k).broken
  let g := applyWrite g.depth g (.q x.d.toNat (ok && !broken))
  let g := if x.mw then applyWrite g.depth g (.s x.c.toNat (fired.setWidth 32)) else g
  let g := if (List.range 4).any fun k => is k 2 then { g with flags := g.flags ||| (w.b.bflags &&& 0x7F#32) } else g
  { g.past h false with status := .ready, sent := [] }

/-! ### Matrix streams -/

/-- The state in which a stream instruction without requests to other devices is complete: the sequencer stands at the next
one, with nothing decoded, and RPR is clear. A drain has taken its number (R252). -/
def streamPast (s : State) (blk : Nat) : State :=
  s.modBlk blk fun b =>
    { b with rpr := 0,
             seq := { b.seq with next := b.seq.next + (if b.seq.word.getLsbD 63 then 16#64 else 8#64), word := 0, ext := 0, busy := false,
                                 entries := 0, seed := 0, again := false, sent := [], looked := [], held := [], drain := afterDrain b.seq } }

/-- The block on turn decodes a stream instruction, has no request to other devices on its way, and holds no operands. -/
def Streams (s : State) (w : Who) : Prop :=
  s.onTurn = some w ∧ w.b.seq.sent = [] ∧ w.b.seq.held = [] ∧ w.b.seq.st = .running

/-- A read of the engine reaches all its pieces on this device. -/
def EngReads (s : State) (w : Who) (phase : Nat) (spans : List (Nat × W64 × Nat)) (s' : State) (get : Nat → List Byte) : Prop :=
  engRead s w phase spans = .go s' get ∧ ((s'.blocks[w.r.blk]?).map (·.seq.sent)) = some []

/-- The trailers of some tiles hold, each read and verified after those before it (R269). -/
def ChecksOut (w : Who) (fmt : Nat) : List Nat → Nat → State → State → Prop
  | [], _, s, s' => s' = s
  | t :: ts, phase, s, s' => ∃ s1 get, EngReads s w phase (tileSpans fmt [t]) s1 get ∧ checkTiles fmt get [t] = none
      ∧ ChecksOut w fmt ts (phase + 1) s1 s'

/-- Pieces of an access that all lie in this device's memory, apart from each other and from the page-table entries that they
mark. -/
def PiecesApart (fs : List EngPiece) : Prop :=
  (∀ x ∈ fs, ∃ pa slot rp, x.2.2.2 = .ok (.mem pa slot rp) ∧ ∀ e, slot = some e → ∀ y ∈ fs, ∀ pb sb rb,
    y.2.2.2 = .ok (.mem pb sb rb) → e + 8 ≤ pb ∨ pb + y.2.2.1 ≤ e)
  ∧ fs.Pairwise fun x y => ∀ pa sa ra pb sb rb, x.2.2.2 = .ok (.mem pa sa ra) → y.2.2.2 = .ok (.mem pb sb rb) →
    pa + x.2.2.1 ≤ pb ∨ pb + y.2.2.1 ≤ pa

/-- One piece holds all of `n` bytes at a virtual address. -/
def Covers (fs : List EngPiece) (a n : Nat) : Prop := ∃ x ∈ fs, x.2.1.toNat ≤ a ∧ a + n ≤ x.2.1.toNat + x.2.2.1

/-- Where the pieces reach memory, the bytes from a virtual address on are these. -/
def ShowsAt (fs : List EngPiece) (t : State) (a : Nat) (bs : List Byte) : Prop :=
  ∀ x ∈ fs, ∀ pa slot rp, x.2.2.2 = .ok (.mem pa slot rp) → ∀ k, k < x.2.2.1 → a ≤ x.2.1.toNat + k → x.2.1.toNat + k < a + bs.length →
    byteOf t (pa + k) = bs.getD (x.2.1.toNat + k - a) 0

/-- Every byte is as before but those of the pieces and of the page-table entries that they mark. -/
def KeepsBut (fs : List EngPiece) (s t : State) : Prop :=
  ∀ a, (∀ x ∈ fs, ∀ loc, x.2.2.2 = .ok loc → ¬ inStore x.2.2.1 loc a) → byteOf t a = byteOf s a

/-- One accumulator cell of a block (R233). -/
def cellOf (s : State) (blk region row col : Nat) : W32 :=
  match s.blocks[blk]? with
  | some b => sget 0#32 b.acc (regionCells * region + 128 * row + col)
  | none => 0#32

/-! ### Sweeps and packets -/

/-- A new sweep (R70): SWC rises by one, and the level goes to the lowest label that a live lane wants. -/
def SweepsAgain (v v' : Level) : Prop :=
  v' = { v with swc := v.swc + 1, phase := v'.phase } ∧ ∃ n, v'.phase = .enter n false ∧ n < 0xFFFE#16 ∧ (∃ l, l < 32 ∧ wlOf v l = n)
    ∧ ∀ l, l < 32 → wlOf v l < 0xFFFE#16 → n ≤ wlOf v l

/-- A queue whose head packet starts now (R322). -/
def Starts (s : State) (q : Nat) (order : Bool) (i : Instr) : Prop := canStart s q order = true ∧ heldPacket s q i = none

/-- The state once a packet has started: the read index is past it, and the queue holds the slice. -/
def begun (s : State) (q : Nat) (i : Instr) : State := startNext s q (.held i false [])

/-- A queue whose head packet starts: the read index is past it. A queue whose slice does not run yet begins it at this tick, less
its overrun (R322; which slices run is log 26's). -/
def queueBegun (s : State) (q : Nat) : Queue :=
  let x := s.queue q
  if sliceRuns s q = true then { x with rd := x.rd + 1 } else { x with rd := x.rd + 1, sliceAt := s.tick - x.overran, overran := 0 }

/-- The same once the packet has completed: past the end of its slice it carries what it has run over, at most 2 µs. -/
def queuePast (s : State) (q : Nat) : Queue :=
  let y := queueBegun s q
  if y.slice ≠ 0 ∧ y.sliceAt + y.slice < s.tick then { y with overran := min 2000 (s.tick - (y.sliceAt + y.slice)) } else y

/-- A queue's head packet has started and completed (R322, R327, R338): the read index is past it, the queue is the one served
last, vector q tells the host, and no other queue, no launch and no block has changed. -/
def PacketDone (s : State) (q : Nat) (t : State) : Prop :=
  t.queue q = queuePast s q ∧ t.msix = s.msix ++ [q] ∧ t.served = q ∧ t.holder = (if (s.queue q).slice = 0 then none else some q)
    ∧ (∀ k, k ≠ q → t.queue k = s.queue k) ∧ t.launches = s.launches ∧ t.blocks = s.blocks

/-- A range of one piece, in this device's memory. -/
def onePiece (pa : Nat) (slot : Option Nat) (rp : Bool) (n : Nat) : List Piece0 := [{ off := 0, loc := .mem pa slot rp, n := n }]

/-- The entry that a store marks dirty lies outside the bytes stored. -/
def apart (slot : Option Nat) (pa n : Nat) : Prop := ∀ p, slot = some p → p + 8 ≤ pa ∨ pa + n ≤ p

/-! ### Decoding and stepping -/

/-- The decoder that an instruction's words are read by: a header's, a stream's, a handler's, or a group's. -/
def readsAs (i : Instr) (x e : W64) : Prop := match i with
  | .blk .. => decodeHeader x = some i
  | .mend | .mtileMemory .. | .mma .. | .mmas .. | .mzero .. | .mscale .. | .mdrain .. | .mldacc .. | .msig .. | .mwait ..
  | .mchk .. => decodeStream x e = some i
  | .ewrd .. | .ewwr .. | .eret .. | .eretx .. => decodeWord { DecodeEnv.plain with handler := true } x e = .ok i
  | _ => decodeWord .plain x e = .ok i

/-- The state in which the next turn is taken (logs 1, 3): the hub has done what it does of itself, the agenda's head is taken,
and time has passed. -/
def dueTurn (s : State) (rest : List Turn) : State :=
  let u := upkeep s
  { u with agenda := rest, steps := u.steps + 1, tick := u.tick + Config.elapsed u.steps }

/-- A group that goes on with its level: nothing holds it, owes it a cause, or stops it. -/
def Unhindered (s : State) (w : Who) : Prop :=
  w.b.st = .resident ∧ w.b.leaving = false ∧ s.harvest = false ∧ s.focus = none ∧ w.g.lacks = 0 ∧ w.g.cl.unread = false
    ∧ w.g.status = .ready ∧ w.g.delivered = [] ∧ toRefetch w.g = none ∧ w.g.cl.callv = none ∧ s.steps1 = [] ∧ s.breaks = []

/-- The group on turn with the writes due committed (R19) and the lanes held out until this ordinal resumed (R70); with the sample
window open the safe point may have left a record (R353, log 37). -/
def atInstruction (s : State) (w : Who) (x : W64) : State :=
  sampled ({ s with cur := some w.r }.modGrp w.r fun g => (commitDue (diagMode s w.c) g).modCl fun v => resumeLanes v) w x

end Sys2Proof.Machine
end

