-- ==== Sys2Proof/Certificates/Slice0/Obligations.lean ====
section
/-! DEFINITION. The statements for the provers. Each docstring names the rules it formalises; `Shapes.lean` says what issue,
results and next states are. -/
open Sys2Proof Sys2Proof.Machine

/-! ### Integer instructions, OPC 0x10 to 0x33 -/

/-- R100, R101: each integer form completes wherever it issues; its result is the exact integer, narrowed. -/
def Claim.IntegerResults : Prop := ∀ (h : Hdr) (x : Alu),
  let v := valInt x.ty
  let sat := x.os.getLsbD 0
  AluGives (.iadd h x) h x (some 2) (.two x.ty) (fun a b _ r => Narrowed x.ty sat (v a + v b) r)
  ∧ AluGives (.isub h x) h x (some 2) (.two x.ty) (fun a b _ r => Narrowed x.ty sat (v a - v b) r)
  ∧ AluGives (.imul h x) h x (some 4) (.two x.ty) (fun a b _ r => Narrowed x.ty false (v a * v b) r)
  ∧ AluGives (.imulh h x) h x (some 4) (.two x.ty) (fun a b _ r => Narrowed x.ty false (v a * v b / (2 ^ x.ty.width : Nat)) r)
  ∧ AluGives (.imad h x) h x (some 4) (.three x.ty) (fun a b c r => Narrowed x.ty sat (v a * v b + v c) r)
  ∧ AluGives (.imadw h x) h x (some 4) { a := some false, b := some false, c := some true, d := true }
      (fun a b c r => Narrowed .i64 false (v a * v b + c) r)
  ∧ AluGives (.imin h x) h x (some 2) (.two x.ty) (fun a b _ r => Narrowed x.ty false (min (v a) (v b)) r)
  ∧ AluGives (.imax h x) h x (some 2) (.two x.ty) (fun a b _ r => Narrowed x.ty false (max (v a) (v b)) r)
  ∧ AluGives (.iabs h x) h x (some 2) (.one x.ty) (fun a _ _ r => Narrowed x.ty sat (if v a < 0 then -(v a) else v a) r)
  ∧ AluGives (.ineg h x) h x (some 2) (.one x.ty) (fun a _ _ r => Narrowed x.ty sat (-(v a)) r)

/-- R102: the logic forms, bit by bit. -/
def Claim.LogicResults : Prop := ∀ (h : Hdr) (x : Alu),
  let w := x.ty.width
  AluGives (.and h x) h x (some 2) (.two x.ty) (fun a b _ => BitsAre w fun k => a.testBit k && b.testBit k)
  ∧ AluGives (.or h x) h x (some 2) (.two x.ty) (fun a b _ => BitsAre w fun k => a.testBit k || b.testBit k)
  ∧ AluGives (.xor h x) h x (some 2) (.two x.ty) (fun a b _ => BitsAre w fun k => a.testBit k != b.testBit k)
  ∧ AluGives (.andn h x) h x (some 2) (.two x.ty) (fun a b _ => BitsAre w fun k => a.testBit k && !b.testBit k)
  ∧ AluGives (.not h x) h x (some 2) (.one x.ty) (fun a _ _ => BitsAre w fun k => !a.testBit k)

/-- R102: the shifts, bit by bit; the amount is bits 7:0 of B, and an amount of the width or more shifts everything out. -/
def Claim.ShiftResults : Prop := ∀ (h : Hdr) (x : Alu),
  let w := x.ty.width
  let n (b : Nat) : Nat := b % 256
  AluGives (.shl h x) h x (some 2) (.two x.ty) (fun a b _ => BitsAre w fun k => n b ≤ k && a.testBit (k - n b))
  ∧ AluGives (.shr h x) h x (some 2) (.two x.ty) (fun a b _ => BitsAre w fun k => k + n b < w && a.testBit (k + n b))
  ∧ AluGives (.sar h x) h x (some 2) (.two x.ty) (fun a b _ => BitsAre w fun k => a.testBit (min (k + n b) (w - 1)))
  ∧ AluGives (.rotl h x) h x (some 2) (.two x.ty) (fun a b _ => BitsAre w fun k => a.testBit ((k + (w - n b % w)) % w))

/-- R102, R103: counts of bits, reversal, and bit fields; the field of an 8-bit immediate has length 0. -/
def Claim.BitFieldResults : Prop := ∀ (h : Hdr) (x : Alu),
  let w := x.ty.width
  let sgn := x.ty.isSigned
  let pos (b : Nat) : Nat := b % 256
  let len (b : Nat) : Nat := match x.b with
    | .imm8 _ => 0
    | _ => b / 256 % 256
  AluGives (.clz h x) h x (some 2) (.one x.ty) (fun a _ _ r => r.flags = 0#7 ∧ r.bits ≤ w
      ∧ (∀ k, w - r.bits ≤ k → k < w → a.testBit k = false) ∧ (r.bits < w → a.testBit (w - 1 - r.bits) = true))
  ∧ AluGives (.ctz h x) h x (some 2) (.one x.ty) (fun a _ _ r => r.flags = 0#7 ∧ r.bits ≤ w
      ∧ (∀ k, k < r.bits → a.testBit k = false) ∧ (r.bits < w → a.testBit r.bits = true))
  ∧ AluGives (.popc h x) h x (some 2) (.one x.ty) (fun a _ _ r => Plainly (((List.range w).map fun k => a / 2 ^ k % 2).sum) r)
  ∧ AluGives (.brev h x) h x (some 2) (.one x.ty) (fun a _ _ => BitsAre w fun k => a.testBit (w - 1 - k))
  ∧ AluGives (.bfx h x) h x (some 2) (.two x.ty) (fun a b _ =>
      let src (j : Nat) : Bool := if j < w then a.testBit j else sgn && a.testBit (w - 1)
      BitsAre w fun k => if k < len b then src (pos b + k) else sgn && len b != 0 && src (pos b + (len b - 1)))
  ∧ AluGives (.bfi h x) h x (some 2) (.three x.ty) (fun a b c =>
      BitsAre w fun k => if pos b ≤ k ∧ k < pos b + len b then a.testBit (k - pos b) else c.testBit k)

/-- R102, R103: the logic forms, the shifts, counts of bits, and bit fields. -/
def Obligations.BitResults : Prop := Claim.LogicResults ∧ Claim.ShiftResults ∧ Claim.BitFieldResults

/-- R104, R105: addresses and moves. -/
def Claim.MoveResults : Prop := ∀ (h : Hdr) (x : Alu),
  let w := x.ty.is64
  AluGives (.lea h x) h x (some 2) { a := some true, b := some false, c := none, d := true }
    (fun a b _ r => Narrowed .i64 false (a + valInt x.ty b * (2 ^ x.os.toNat : Nat)) r)
  ∧ AluGives (.mov h x) h x (some 2) { a := none, b := some w, c := none, d := w } (fun _ b _ => Plainly b)
  ∧ RegGives (.sel h x) h (bLong x.b) x.u (some 2) ((Slots.two x.ty).reads x ++ [predReg x.u x.c]) w x.d (fun i l =>
      Plainly (if predBit i.g x.u x.c l = !x.os.getLsbD 0 then readReg i.g x.u w x.a l else readB i.g x.ty w x.b l))
  ∧ RegGives (.movi h x) h (bLong x.b) x.u (some 2) [] false x.d (fun i l r =>
      let base := readB i.g x.ty false x.b l
      Narrowed .i32 false (if x.u then base else base + signedOf 8 x.c.toNat * l) r)

/-- R100, R101, R104, R105: integer arithmetic, addresses and moves. -/
def Obligations.IntegerForms : Prop := Claim.IntegerResults ∧ Claim.MoveResults

/-! ### Floating point, OPC 0x40 to 0x61 and 0xD0 -/

/-- R107 to R111, R113, R114: each arithmetic form completes wherever it issues, with one rounding of the exact value.
Signs of zero sums are as log 11 says. -/
def Claim.FloatResults : Prop := ∀ (h : Hdr) (x : Alu),
  let rs : Slots := { Slots.two x.ty with c := if x.rm == .rs then some false else none }
  let v := decodeF x.ty
  let neg (n : Bool) (y : FV) : FV := if n then y.negate else y
  let fused (ty : Ty) (a b c : Nat) : FRes :=
    finishF ty x.rm (fmaFV x.rm (neg (x.os.getLsbD 0) (decodeF ty a)) (decodeF ty b) (neg (x.os.getLsbD 1) (decodeF ty c)))
  let pick (isMax : Bool) (a b _c : Nat) (r : FRes) : Prop := r = minMaxF x.ty isMax (x.os.getLsbD 0) a b
  AluGives (.fadd h x) h x (some 4) rs (fun a b c r => r = finishRS x.rm c (addFV x.rm (v a) (v b)))
  ∧ AluGives (.fsub h x) h x (some 4) rs (fun a b c r => r = finishRS x.rm c (addFV x.rm (v a) (v b).negate))
  ∧ AluGives (.fmul h x) h x (some 4) rs (fun a b c r => r = finishRS x.rm c (mulFV (v a) (v b)))
  ∧ AluGives (.ffma h x) h x (some 4) (.three x.ty) (fun a b c r => r = fused .f32 a b c)
  ∧ AluGives (.fmin h x) h x (some 4) (.two x.ty) (pick false)
  ∧ AluGives (.fmax h x) h x (some 4) (.two x.ty) (pick true)
  ∧ AluGives (.dadd h x) h x (some 8) (.two x.ty) (fun a b _ r => r = finishF .f64 x.rm (addFV x.rm (v a) (v b)))
  ∧ AluGives (.dmul h x) h x (some 8) (.two x.ty) (fun a b _ r => r = finishF .f64 x.rm (mulFV (v a) (v b)))
  ∧ AluGives (.dfma h x) h x (some 8) (.three x.ty) (fun a b c r => r = fused .f64 a b c)
  ∧ AluGives (.dmin h x) h x (some 8) (.two x.ty) (pick false)
  ∧ AluGives (.dmax h x) h x (some 8) (.two x.ty) (pick true)

/-- R114: each element of a packed form is what the scalar operation gives, and the flags are those of both. -/
def Claim.PackedHalfResults : Prop := ∀ (h : Hdr) (x : Alu),
  let v := decodeF x.ty
  let neg (n : Bool) (y : FV) : FV := if n then y.negate else y
  let both (f : Nat → Nat → Nat → FRes) (a b c : Nat) (r : FRes) : Prop :=
    let lo := f (a % 2 ^ 16) (b % 2 ^ 16) (c % 2 ^ 16)
    let hi := f (a / 2 ^ 16) (b / 2 ^ 16) (c / 2 ^ 16)
    r.bits = lo.bits + 2 ^ 16 * hi.bits ∧ r.flags = lo.flags ||| hi.flags
  AluGives (.hadd2 h x) h x (some 4) (.two x.ty) (both fun a b _ => finishF x.ty x.rm (addFV x.rm (v a) (v b)))
  ∧ AluGives (.hmul2 h x) h x (some 4) (.two x.ty) (both fun a b _ => finishF x.ty x.rm (mulFV (v a) (v b)))
  ∧ AluGives (.hfma2 h x) h x (some 4) (.three x.ty) (both fun a b c =>
      finishF x.ty x.rm (fmaFV x.rm (neg (x.os.getLsbD 0) (v a)) (v b) (neg (x.os.getLsbD 1) (v c))))

/-- R107: what a sum, a product and a fused product-sum form before rounding: a NaN from a NaN input, with IV for a signalling one,
from infinities of opposite signs, and from zero times infinity; else an infinity, or the exact value. An exact zero sum takes its
sign as R107 says, that of a fused one as log 11 reads it. -/
def Claim.FloatOperands : Prop := ∀ (rm : Rm) (a b c : FV) (n k : Bool) (m m' : Nat) (e e' : Int),
  let isNaN (r : FV × Bool) (iv : Bool) : Prop := (∃ s, r.1 = .nan s) ∧ r.2 = iv
  let snan (x : FV) : Prop := x = .nan true
  let x : FV := .num n m e
  let y : FV := .num k m' e'
  (((∃ s, a = .nan s) ∨ ∃ s, b = .nan s) →
    isNaN (addFV rm a b) (a.isSNaN || b.isSNaN) ∧ isNaN (mulFV a b) (a.isSNaN || b.isSNaN)) ∧ (a.isSNaN = true ↔ snan a)
  ∧ (if n = k then addFV rm (.inf n) (.inf k) = (.inf n, false) else isNaN (addFV rm (.inf n) (.inf k)) true)
  ∧ addFV rm (.inf n) y = (.inf n, false) ∧ addFV rm y (.inf n) = (.inf n, false)
  ∧ (∃ z i f, addFV rm x y = (.num z i f, false) ∧ (∀ q, q ≤ e → q ≤ e' → q ≤ f → scaled z i f q = scaled n m e q + scaled k m' e' q)
      ∧ (i = 0 → z = if m = 0 ∧ m' = 0 ∧ n = k then n else decide (rm = .rd)))
  ∧ mulFV (.inf n) (.inf k) = (.inf (n != k), false)
  ∧ (m' = 0 → isNaN (mulFV (.inf n) y) true ∧ isNaN (mulFV y (.inf n)) true)
  ∧ (m' ≠ 0 → mulFV (.inf n) y = (.inf (n != k), false) ∧ mulFV y (.inf n) = (.inf (n != k), false))
  ∧ (∃ i f, mulFV x y = (.num (n != k) i f, false) ∧ ∀ q, q ≤ e + e' → q ≤ f → scaled false i f q = scaled false (m * m') (e + e') q)
  ∧ ((mulFV a b).2 = true → isNaN (fmaFV rm a b c) true)
  ∧ ((mulFV a b).2 = false → let r := addFV rm (mulFV a b).1 c
      ((∃ z f, r.1 = .num z 0 f) → (∃ f, (fmaFV rm a b c).1 = .num (decide (rm = .rd)) 0 f) ∧ (fmaFV rm a b c).2 = r.2)
      ∧ ((∀ z f, r.1 ≠ .num z 0 f) → fmaFV rm a b c = r))

/-- R110: FMIN and FMAX by value: of two numbers the one below or above, −0 below +0, bit-exact; of a number and a NaN the number, or
under NAN the canonical NaN; IV for a signalling NaN. -/
def Claim.MinMaxValues : Prop := ∀ (t : Ty) (isMax nanMode : Bool) (x y : Nat),
  let a := decodeF t x
  let b := decodeF t y
  let r := minMaxF t isMax nanMode x y
  let iv : BitVec 7 := if a = .nan true ∨ b = .nan true then fIV else 0
  (∀ s s', a = .nan s → b = .nan s' → r = { bits := canonNaN t, flags := iv })
  ∧ (∀ s, a = .nan s → (∀ s', b ≠ .nan s') → r = { bits := if nanMode then canonNaN t else y, flags := iv })
  ∧ (∀ s, b = .nan s → (∀ s', a ≠ .nan s') → r = { bits := if nanMode then canonNaN t else x, flags := iv })
  ∧ ((∀ s, a ≠ .nan s ∧ b ≠ .nan s) → (r = { bits := x, flags := 0 } ∨ r = { bits := y, flags := 0 })
      ∧ (Below a b → r.bits = if isMax then y else x) ∧ (Below b a → r.bits = if isMax then x else y))

/-- R107 to R111, R113, R114: floating-point arithmetic, scalar and packed. -/
def Obligations.FloatForms : Prop := Claim.FloatResults ∧ Claim.PackedHalfResults ∧ Claim.FloatOperands ∧ Claim.MinMaxValues

/-- R111: FCLS sets the one bit of its operand's class and sign, read from the fields of the pattern, and FRND gives an
integral value, or leaves a value that already is one. -/
def Claim.ClassAndRound : Prop := ∀ (h : Hdr) (x : Alu),
  let fb := if x.ty.is64 then 52 else 23
  let eb := if x.ty.is64 then 11 else 8
  let sign (a : Nat) : Bool := a.testBit (fb + eb)
  let ex (a : Nat) : Nat := a / 2 ^ fb % 2 ^ eb
  let frac (a : Nat) : Nat := a % 2 ^ fb
  let kind (a : Nat) : Nat :=
    if ex a = 2 ^ eb - 1 then
      (if frac a = 0 then (if sign a then 0 else 7) else if a.testBit (fb - 1) then 9 else 8)
    else if ex a = 0 then
      (if frac a = 0 then (if sign a then 3 else 4) else if sign a then 2 else 5)
    else if sign a then 1 else 6
  AluGives (.fcls h x) h x (some 4) (.one x.ty) (fun a _ _ => Plainly (2 ^ kind a))
  ∧ AluGives (.frnd h x) h x (some 4) (.one x.ty) (fun a _ _ r =>
      match decodeF .f32 a with
      | .nan sig => r = nanRes .f32 sig
      | .inf _ => Plainly a r
      | .num neg m e => r.flags = 0#7 ∧ (0 ≤ e ∨ m = 0 → r.bits = a) ∧
          (e < 0 ∧ m ≠ 0 → decodeF .f32 r.bits = .num neg 0 (qmin .f32) ∧ (roundAt x.rm neg m e 0).1 = 0
            ∨ ∃ m' e', decodeF .f32 r.bits = .num neg m' e' ∧ scaled neg m' e' (min e' 0) =
                scaled neg (roundAt x.rm neg m e 0).1 0 (min e' 0)))

/-- R112: the special cases of each special function, as its table lists them; an undefined argument gives the canonical
NaN with IV, a pole the infinity with DZ. -/
def Claim.SpecialFunctionCases : Prop := ∀ (h : Hdr) (x : Alu),
  let one : Nat := 0x3F800000
  let gives (e : Instr) (zero inf : Bool → Nat × BitVec 7) (negative : Bool) : Prop :=
    AluGives e h x none (.one x.ty) fun a _ _ r => match decodeF .f32 a with
      | .nan sig => r = nanRes .f32 sig
      | .inf n => (r.bits, r.flags) = inf n
      | .num n m _ => (m = 0 → (r.bits, r.flags) = zero n) ∧ (m ≠ 0 ∧ n = true ∧ negative = true → r = nanRes .f32 true)
  let nan : Nat × BitVec 7 := (canonNaN .f32, fIV)
  let z (n : Bool) : Nat := signBit .f32 n
  let oo (n : Bool) : Nat := infBits .f32 n
  gives (.frcp h x) (fun n => (oo n, fDZ)) (fun n => (z n, 0)) false
  ∧ gives (.frsq h x) (fun n => (oo n, fDZ)) (fun n => if n then nan else (0, 0)) true
  ∧ gives (.fsqrt h x) (fun n => (z n, 0)) (fun n => if n then nan else (oo false, 0)) true
  ∧ gives (.fex2 h x) (fun _ => (one, 0)) (fun n => (if n then 0 else oo false, 0)) false
  ∧ gives (.flg2 h x) (fun _ => (oo true, fDZ)) (fun n => if n then nan else (oo false, 0)) true
  ∧ gives (.fsin h x) (fun n => (z n, 0)) (fun _ => nan) false
  ∧ gives (.fcos h x) (fun _ => (one, 0)) (fun _ => nan) false
  ∧ AluGives (.flg2 h x) h x none (.one x.ty) (fun a _ _ r => a = one → Plainly 0 r)

/-- R111, R112: rounding to integers, classes, and the special functions. -/
def Obligations.FloatFunctions : Prop := Claim.ClassAndRound ∧ Claim.SpecialFunctionCases

/-- R221 to R224: a conversion reads one element of its source and writes one element of D: without MG D takes the
result, sign-extended from a narrow signed type; with MG the other bits of D stay. -/
def Claim.ConversionResults : Prop := ∀ (h : Hdr) (x : CvtForm),
  let wide := x.ty.is64
  let w := x.ty.width
  let k := w * x.de.toNat
  let src (i : Iss) (l : Nat) : Nat := readReg i.g x.u x.sty.is64 x.a l / 2 ^ (x.sty.width * x.se.toNat) % 2 ^ x.sty.width
  let put (i : Iss) (l : Nat) (c r : FRes) : Prop :=
    let old := readReg i.g x.u wide x.d l
    r.flags = c.flags ∧
    if x.mg then ∀ j, r.bits.testBit j = if k ≤ j ∧ j < k + w then c.bits.testBit (j - k) else old.testBit j
    else if w < 32 && x.ty.isSigned then r.bits < 2 ^ 32 ∧ signedOf 32 r.bits = signedOf w c.bits
    else r.bits = c.bits
  let mergeRead : List Reg := if x.mg then regsOf x.u wide x.d else []
  RegGives (.cvt h x) h false x.u (some 4) (regsOf x.u x.sty.is64 x.a ++ [] ++ mergeRead) wide x.d
    (fun i l r => put i l (convert x.sty x.ty x.rm x.sat (src i l)) r)
  ∧ RegGives (.cvtsr h x) h false x.u (some 4) (regsOf x.u x.sty.is64 x.a ++ bRegs false x.b ++ mergeRead) wide x.d
    (fun i l r => put i l (convertSR x.sty x.ty x.sat (src i l) (readB i.g .b32 false x.b l)) r)

/-- R207: rounding to a multiple of 2^q under a mode, and what RoundTo gives: the rounded magnitude where the type holds it,
with NX where it is inexact, else the type's overflow; zeros keep their sign, and an infinity stays one but in e4m3. -/
def Claim.RoundToValues : Prop :=
  (∀ (rm : Rm) (neg : Bool) (m : Nat) (e q : Int),
    let i := (roundAt rm neg m e q).1
    let d := 2 ^ (q - e).toNat
    (q ≤ e → i = m * 2 ^ (e - q).toNat) ∧ ((roundAt rm neg m e q).2 = true ↔ e < q ∧ ¬ d ∣ m)
    ∧ (e < q → match rm with
      | .rn => 2 * (i * d) ≤ 2 * m + d ∧ 2 * m ≤ 2 * (i * d) + d ∧ (2 * (i * d) = 2 * m + d ∨ 2 * m = 2 * (i * d) + d → i % 2 = 0)
      | .ru => i = if neg then m / d else (m + (d - 1)) / d
      | .rd => i = if neg then (m + (d - 1)) / d else m / d
      | _ => i = m / d))
  ∧ ∀ (t : Ty) (rm : Rm) (sat neg : Bool) (m : Nat) (e : Int), t.isInt = false → expBits t ≠ 0 →
    let top : Int := (Nat.log2 m : Int) + e
    let q : Int := max (top - fracBits t) (1 - ((2 ^ (expBits t - 1) - 1 : Nat) : Int) - fracBits t)
    let y := roundAt rm neg m e q
    let r := roundTo t rm sat (.num neg m e)
    let beyondMax : FRes :=
      if t = .e4m3 ∨ sat = true then { bits := maxFin t neg, flags := fSAT ||| fNX }
      else { flags := fOF ||| fNX,
             bits := if rm = .rz ∨ rm = .ru ∧ neg = true ∨ rm = .rd ∧ neg = false then maxFin t neg else infBits t neg }
    (m = 0 → r = { bits := signBit t neg, flags := 0 })
    ∧ (m ≠ 0 → magLt (maxMant t) (maxExp t) y.1 q = false →
        SameValue (decodeF t r.bits) neg y.1 q ∧ r.bits < 2 ^ t.width ∧ r.flags &&& (fIV ||| fDZ ||| fOF ||| fSAT) = 0#7
          ∧ (r.flags &&& fNX ≠ 0#7 ↔ y.2 = true) ∧ (r.flags &&& fUF ≠ 0#7 → r.flags &&& fNX ≠ 0#7))
    ∧ (m ≠ 0 → magLt (maxMant t) (maxExp t) y.1 q = true → r = beyondMax)
    ∧ roundTo t rm sat (.inf neg) = (if t = .e4m3 then { bits := maxFin t neg, flags := fSAT ||| fNX }
        else { bits := infBits t neg, flags := 0 })

/-- R222: the value of a conversion: between integers, to an integer, to a float. -/
def Claim.ConvertValues : Prop := ∀ (s d : Ty) (rm : Rm) (sat : Bool) (a : Nat),
  let r := convert s d rm sat a
  let at_ (v : Int) (flags : BitVec 7) : Prop := r.bits < 2 ^ d.width ∧ valInt d r.bits = v ∧ r.flags = flags
  (d.isInt = true → s.isInt = true → Narrowed d sat (valInt s a) r)
  ∧ (d.isInt = true → s.isInt = false → match decodeF s a with
      | .nan _ => r.bits = 0 ∧ r.flags = fIV
      | .inf neg => at_ (if neg then minInt d else maxInt d) fIV
      | .num neg m e =>
        let y := roundAt rm neg m e 0
        let v : Int := if neg then -(y.1 : Int) else y.1
        if v < minInt d then at_ (minInt d) fIV
        else if maxInt d < v then at_ (maxInt d) fIV
        else at_ v (if y.2 then fNX else 0))
  ∧ (d.isInt = false → s.isInt = true →
      r = roundTo d rm sat (.num (decide (valInt s a < 0)) (valInt s a).natAbs 0))
  ∧ (d.isInt = false → s.isInt = false → match decodeF s a with
      | .nan sig => r = nanRes d sig
      | v => if s = d then Plainly (a % 2 ^ d.width) r else r = roundTo d rm sat v)

/-- R208, R223: the value of a stochastic conversion, for the pairs that CVTSR accepts: the source's unit is 2^e, the
destination's 2^q at its magnitude, and the random bits decide whether the discarded field carries into it. -/
def Claim.StochasticValues : Prop := ∀ (h : Hdr) (x : CvtForm) (a rand : Nat) (neg : Bool) (m : Nat) (e : Int),
  (Instr.cvtsr h x).wf = true → decodeF x.sty a = .num neg m e →
  let r := convertSR x.sty x.ty x.sat a rand
  let top : Int := (Nat.log2 m : Int) + e
  let q : Int := max top (1 - ((2 ^ (expBits x.ty - 1) - 1 : Nat) : Int)) - fracBits x.ty
  let k := (q - e).toNat
  let n := min k 32
  let lost := m % 2 ^ k
  let c := if lost / 2 ^ (k - n) + rand % 2 ^ n ≥ 2 ^ n then 1 else 0
  let i := m / 2 ^ k + c
  (m = 0 → r = { bits := signBit x.ty neg, flags := 0 })
  ∧ (m ≠ 0 → e ≤ q ∧ (magLt (maxMant x.ty) (maxExp x.ty) i q = false →
        SameValue (decodeF x.ty r.bits) neg i q ∧ r.bits < 2 ^ x.ty.width
          ∧ r.flags = (if lost = 0 then 0 else if top < 1 - ((2 ^ (expBits x.ty - 1) - 1 : Nat) : Int) then fUF ||| fNX else fNX))
      ∧ (magLt (maxMant x.ty) (maxExp x.ty) i q = true → r =
          if x.ty = .e4m3 ∨ x.sat = true then { bits := maxFin x.ty neg, flags := fSAT ||| fNX }
          else { bits := infBits x.ty neg, flags := fOF ||| fNX }))

/-- R209, R224: RNG is the random function of the seed pair in B and the counter in A. -/
def Claim.RandomResult : Prop := ∀ (h : Hdr) (x : Alu),
  AluGives (.rng h x) h x (some 4) { a := some false, b := some true, c := none, d := false } fun a b _ =>
    let c := BitVec.ofNat 32 a ^^^ BitVec.ofNat 32 b
    let c := (c ^^^ c >>> 16) * 0x7FEB352D#32
    let c := (c ^^^ c >>> 15) * 0x846CA68B#32
    Plainly ((c ^^^ c >>> 16) + BitVec.ofNat 32 (b / 2 ^ 32)).toNat

/-- R207, R208, R221 to R225: conversions, their values, and the random number generator. -/
def Obligations.ConversionForms : Prop :=
  Claim.ConversionResults ∧ Claim.RoundToValues ∧ Claim.ConvertValues ∧ Claim.StochasticValues ∧ Claim.RandomResult

/-! ### Predicates and lane exchange, OPC 0x70 to 0x79 -/

/-- R115 to R117: SETP, PLOP and V2P write a predicate bit for each lane of G, or a uniform predicate; P2V reads p0 to p6. -/
def Claim.PredicateResults : Prop := ∀ (h : Hdr) (y : SetpForm) (u : Bool) (lut : BitVec 8) (d a b c : BitVec 8) (mask : BitVec 7),
  let cmp (i : Iss) (l : Nat) : Bool × BitVec 7 :=
    compareTy y.ty y.cmp (readReg i.g y.u y.ty.is64 y.a l) (readB i.g y.ty y.ty.is64 y.b l)
  let second (i : Iss) (l : Nat) : Bool := predBit i.g y.u y.c l != y.cb.getLsbD 2
  let useC := y.cb.extractLsb' 0 2 != 0#2
  PredGives (.setp h y) h (bLong y.b) y.u 2 (regsOf y.u y.ty.is64 y.a ++ bRegs y.ty.is64 y.b ++ (if useC then [predReg y.u y.c] else []))
    [y.d] (fun i _ l => match (y.cb.extractLsb' 0 2).toNat with
      | 0 => (cmp i l).1
      | 1 => (cmp i l).1 && second i l
      | 2 => (cmp i l).1 || second i l
      | _ => (cmp i l).1 != second i l) (fun i l => (cmp i l).2)
  ∧ PredGives (.plop h u lut d a b c) h false u 2 [predReg u a, predReg u b, predReg u c] [d] (fun i _ l =>
      lut.getLsbD ((predBit i.g u a l).toNat * 4 + (predBit i.g u b l).toNat * 2 + (predBit i.g u c l).toNat)) (fun _ _ => 0#7)
  ∧ PredGives (.v2p h u mask a) h false u 2 (regsOf u false a)
      (((List.range 7).filter fun n => mask.getLsbD n).map fun n => BitVec.ofNat 8 n)
      (fun i n l => (readReg i.g u false a l).testBit n.toNat) (fun _ _ => 0#7)
  ∧ RegGives (.p2v h u d) h false u (some 2) ((List.range 7).map fun n => predReg u (BitVec.ofNat 8 n)) false d (fun i l =>
      BitsAre 8 fun n => predBit i.g u (BitVec.ofNat 8 n) l)

/-- R115: a comparison by value: unsigned or signed integers, floats with equal zeros; with a NaN only ne and nan hold. -/
def Claim.ComparisonValues : Prop := ∀ (t : Ty) (cmp : BitVec 3) (a b : Nat),
  let r := compareTy t cmp a b
  let v := valInt t
  let x := decodeF t a
  let y := decodeF t b
  let nan : Prop := (∃ s, x = .nan s) ∨ ∃ s, y = .nan s
  (t.isInt = true → cmp < 6#3 → r = (match cmp.toNat with
      | 0 => decide (v a = v b)
      | 1 => decide (v a ≠ v b)
      | 2 => decide (v a < v b)
      | 3 => decide (v a ≤ v b)
      | 4 => decide (v b < v a)
      | _ => decide (v b ≤ v a), 0#7))
  ∧ (t.isInt = false → nan → r.1 = decide (cmp = 1#3 ∨ cmp = 7#3)
      ∧ r.2 = if (2#3 ≤ cmp ∧ cmp ≤ 5#3) ∨ x = .nan true ∨ y = .nan true then fIV else 0)
  ∧ (t.isInt = false → ¬ nan → r.2 = 0#7 ∧ (r.1 = true ↔ match cmp.toNat with
      | 0 => ¬ Less x y ∧ ¬ Less y x
      | 1 => Less x y ∨ Less y x
      | 2 => Less x y
      | 3 => ¬ Less y x
      | 4 => Less y x
      | 5 => ¬ Less x y
      | 6 => True
      | _ => False))

/-- R123: REDUX over f32 by value: the exact sum of all terms, rounded once; the least and the greatest number, and IV for a
signalling NaN. The sum's sign and flags are as log 12 says. -/
def Claim.ReductionValues : Prop := ∀ (l : List Nat),
  let vs := l.map (decodeF .f32)
  let some' (p : FV → Prop) : Prop := ∃ v ∈ vs, p v
  let nan (v : FV) : Prop := ∃ s, v = .nan s
  let iv : BitVec 7 := if FV.nan true ∈ vs then fIV else 0
  let sum := reduceLanes 0 .f32 l
  let ends (isMax : Bool) : Prop :=
    let r := reduceLanes (if isMax then 2 else 1) .f32 l
    (l ≠ [] → r.flags = iv) ∧ ((∀ v ∈ vs, nan v) → l ≠ [] → r.bits = canonNaN .f32)
      ∧ (some' (fun v => ¬ nan v) → r.bits ∈ l ∧ ¬ nan (decodeF .f32 r.bits)
          ∧ ∀ v ∈ vs, if isMax then ¬ Below (decodeF .f32 r.bits) v else ¬ Below v (decodeF .f32 r.bits))
  (some' nan → sum = { bits := canonNaN .f32, flags := iv })
  ∧ (¬ some' nan → FV.inf true ∈ vs → FV.inf false ∈ vs → sum = { bits := canonNaN .f32, flags := fIV })
  ∧ (∀ n, ¬ some' nan → FV.inf n ∈ vs → FV.inf (!n) ∉ vs → sum = { bits := infBits .f32 n, flags := 0 })
  ∧ (l ≠ [] → (∀ v ∈ vs, ∃ n m e, v = .num n m e) → ∃ n m e, sum = roundTo .f32 .rn false (.num n m e)
      ∧ (∀ q, q ≤ e → (∀ v ∈ vs, notAbove q v) → scaled n m e q = (vs.map (multiple q)).sum)
      ∧ (m = 0 → (n = true ↔ ∀ v ∈ vs, ∃ e, v = .num true 0 e)))
  ∧ ends false ∧ ends true

/-- R119, R122: SHFL reads A in the source lane of its mode; MATCH gives the acting lanes that hold the same value. -/
def Claim.LaneExchangeResults : Prop := ∀ (h : Hdr) (mode : BitVec 2) (ty : Ty) (d a : BitVec 8) (b : BSrc),
  RegGives (.shfl h mode d a b) h false false (some 4) (.v a.toNat :: bRegs false b) false d (fun i l =>
      let n := readB i.g .b32 false b l
      Plainly (readV i.g a.toNat (match mode.toNat with
        | 0 => n % 32
        | 1 => if n ≤ l then l - n else l
        | 2 => if l + n ≤ 31 then l + n else l
        | _ => l ^^^ (n % 32))).toNat)
  ∧ RegGives (.match_ h ty d a) h false false (some 4) (regsOf false ty.is64 a) ty.is64 d (fun i l =>
      BitsAre 32 fun k => has i.act k && decide (readReg i.g false ty.is64 a k = readReg i.g false ty.is64 a l))

/-- R120, R121, R123, R124: VOTE, BALLOT, REDUX and V2S give one result for the acting lanes: to every one of them, or to
a uniform register. The sum of REDUX.ADD.F32 takes its sign and flags as log 12 says. -/
def Claim.GroupWideResults : Prop :=
  ∀ (h : Hdr) (mode op2 : BitVec 2) (op : BitVec 3) (ud ng : Bool) (ty : Ty) (d a b : BitVec 8) (s : State) (i : Iss),
  let on (l : Nat) : Bool := has i.act l && (has (readP i.g a.toNat) l != ng)
  let vals : List Nat := (laneList i.act).map fun l => (readV i.g a.toNat l).toNat
  let one (e : Instr) (u : Bool) (lat : Nat) (reads : List Reg) (r : FRes) : Prop :=
    e.wf = true → Issues s h false false { reads := reads, writes := regsOf u false d, lat := some lat } i →
      exec e s = .next (pended h i i.s lat (results u false d i.act fun _ => { r with flags := 0 }).1 (FlagSet.ofGroup r.flags))
  ((Instr.vote h mode ng d a).wf = true →
    Issues s h false false { reads := [.p a.toNat], writes := [.p d.toNat], lat := some 4 } i →
    let all := (laneList i.act).all on
    let any := (laneList i.act).any on
    let y := match mode.toNat with | 0 => all | 1 => any | _ => all || !any
    exec (.vote h mode ng d a) s = .next (pended h i i.s 4 [.p d.toNat i.act (if y then i.act else 0)] FlagSet.none))
  ∧ one (.ballot h ud ng d a) ud 4 [.p a.toNat] { bits := (maskOf on).toNat, flags := 0 }
  ∧ (ty ≠ .f32 → one (.redux h ud op ty d a) ud 8 [.v a.toNat] { flags := 0, bits := match op.toNat with
      | 0 => vals.sum % 2 ^ 32
      | 1 => vals.foldl (fun m y => if valInt ty y < valInt ty m then y else m) (vals.headD 0)
      | 2 => vals.foldl (fun m y => if valInt ty m < valInt ty y then y else m) (vals.headD 0)
      | 3 => vals.foldl (· &&& ·) (2 ^ 32 - 1)
      | 4 => vals.foldl (· ||| ·) 0
      | _ => vals.foldl (· ^^^ ·) 0 })
  ∧ (ty = .f32 → one (.redux h ud op ty d a) ud 8 [.v a.toNat] (reduceLanes op .f32 vals))
  ∧ one (.v2s h op2 d a b) true 4 (.v a.toNat :: if op2 == 1#2 then [.s b.toNat] else [])
      { flags := 0, bits := (readV i.g a.toNat (match op2.toNat with
          | 0 => b.toNat
          | 1 => (readS i.g b.toNat).toNat % 32
          | _ => ((laneList i.act).head?).getD 0)).toNat }

/-- R115 to R125: predicates, lane exchange, and what the whole group computes. -/
def Obligations.PredicateForms : Prop :=
  Claim.PredicateResults ∧ Claim.ComparisonValues ∧ Claim.LaneExchangeResults ∧ Claim.GroupWideResults ∧ Claim.ReductionValues

/-! ### Memory, OPC 0x80 to 0x94 -/

/-- R131, R133, R134: a load whose lanes pass their checks writes to D what stands at the address of each lane, extended
by its type; LDU reads for the lowest acting lane only; a prefetch completes and changes nothing.
Accesses are made when the instruction issues: log 2. Which writes of the group a load comes after: log 39. -/
def Claim.LoadResults : Prop := ∀ (h : Hdr) (x : MemForm) (s s' : State) (i : Iss) (ok : List (Nat × W64 × Loc)),
  let n := wdSize x.wd.toNat
  let req : Req := { cls := .load, write := false, reads := true, size := n, place := extPlace x.ext, align := n }
  let vals := ok.map fun e => (e.1, extend x.wd (ofBytes (locBytes s' n e.2.2)))
  (Issues s h (extLong x.ext) false { reads := regsOf false true x.a, writes := regRun false x.d (wdRegs x.wd) } i →
    Reaches i { req := req, stop := true } ((laneList i.act).map fun l => (l, readVV i.g x.a.toNat l + extOff x.ext)) s' ok →
    (∀ e ∈ ok, ComesAfter i.g x.sid.toNat n e.2.1 e.2.2) →
    ∃ t, Noted i.w.r s' t ∧ exec (.ld h x) s = .next (flown h i t (valueWrites false (wdRegs x.wd) x.d vals) FlagSet.none))
  ∧ (Issues s h (extLong x.ext) true { reads := regsOf true true x.a, writes := regRun true x.d (wdRegs x.wd) } i →
    Reaches i { req := req, stop := true } [(lowLane i.act, readSS i.g x.a.toNat + extOff x.ext)] s' ok →
    (∀ e ∈ ok, ComesAfter i.g x.sid.toNat n e.2.1 e.2.2) →
    ∃ t, Noted i.w.r s' t ∧ exec (.ldu h x) s = .next (flown h i t (valueWrites true (wdRegs x.wd) x.d vals) FlagSet.none))
  ∧ (Issues s h (extLong x.ext) false { reads := regsOf false true x.a } i → exec (.pft h x) s = .next (passed h i i.s))

/-- R130: the values of distinct lanes, as writes to `n` registers from `d`, put word `k` of each value into register
`d + k` of its lane, and touch no other lane. -/
def Claim.ValueWritesLanes : Prop := ∀ (n : Nat) (d : BitVec 8) (vals : List (Nat × Nat)),
  vals ≠ [] → (∀ v ∈ vals, v.1 < 32) → (vals.map (·.1)).Nodup →
    ∃ (m : Mask) (xs : Nat → Lanes W32), valueWrites false n d vals = (List.range n).map (fun k => .v (d.toNat + k) m (xs k))
      ∧ (∀ l, has m l = decide (l ∈ vals.map (·.1)))
      ∧ ∀ v ∈ vals, ∀ k, lget 0 (xs k) v.1 = BitVec.ofNat 32 (v.2 / 2 ^ (32 * k))

/-- R130, R131, R133, R134: loads, what they write in each lane, and prefetch. -/
def Obligations.Loads : Prop := Claim.LoadResults ∧ Claim.ValueWritesLanes

/-- R132: a store of lanes that pass their checks completes, and where no monitor runs it leaves in memory the bytes of
the last lane that covers a byte, and every byte outside the lanes' bytes and their dirty-marked page-table entries as
the translations left it. Accesses are made when the instruction issues: log 2. Which writes of the group a store comes
after: log 39. -/
def Claim.StoreResults : Prop := ∀ (h : Hdr) (x : MemForm) (s s' : State) (i : Iss) (ok : List (Nat × W64 × Loc)),
  let n := wdSize x.wd.toNat
  let req : Req := { cls := .store, write := true, reads := false, size := n, place := extPlace x.ext, align := n }
  let bytes (l : Nat) : List Byte := toBytes n (readRun i.g x.b (wdRegs x.wd) l)
  Issues s h (extLong x.ext) false { reads := regsOf false true x.a ++ regRun false x.b (wdRegs x.wd) } i →
  Reaches i { req := req, log := true, mon := true, rel := x.ord == 2#2 }
    ((laneList i.act).map fun l => (l, readVV i.g x.a.toNat l + extOff x.ext)) s' ok →
  (∀ e ∈ ok, ComesAfter i.g x.sid.toNat n e.2.1 e.2.2) →
  ∃ t, exec (.st h x) s = .next (passed h i t) ∧
    (i.w.b.mons = [] → (∀ e ∈ ok, ∀ pa sl, e.2.2 ≠ .view pa sl) →
      (∀ a, (∀ e ∈ ok, ¬ inStore n e.2.2 a) → byteOf t a = byteOf s' a)
      ∧ ∀ pre post l va pa slot rp, ok = pre ++ (l, va, .mem pa slot rp) :: post → ∀ a, pa ≤ a → a < pa + n →
          (∀ e ∈ post, ¬ inStore n e.2.2 a) → byteOf t a = (bytes l).getD (a - pa) 0)

/-- R162: a multicast store of one lane leaves its bytes at the location's place in all four replicas, and every byte outside
the four and the page-table entry it marks dirty as the translation left it. Accesses are made when the instruction issues:
log 2. Which writes of the group a store comes after: log 39. -/
def Claim.MulticastStore : Prop := ∀ (h : Hdr) (x : MemForm) (s s' : State) (i : Iss) (l : Nat) (va : W64) (pa : Nat)
    (slot : Option Nat) (rp : Bool),
  let n := wdSize x.wd.toNat
  let req : Req := { cls := .mst, write := true, reads := false, size := n, place := extPlace x.ext, align := n }
  Issues s h (extLong x.ext) false { reads := regsOf false true x.a ++ regRun false x.b (wdRegs x.wd) } i →
  Reaches i { req := req, log := true, rel := x.ord == 2#2 }
    ((laneList i.act).map fun l => (l, readVV i.g x.a.toNat l + extOff x.ext)) s' [(l, va, .mem pa slot rp)] →
  (∀ d, d < 4 → ComesAfter i.g x.sid.toNat n va (.mem (replica pa d) slot rp)) →
  pa % 2 ^ 39 + n ≤ 2 ^ 39 → (∀ p, slot = some p → ∀ d, d < 4 → p + 8 ≤ replica pa d ∨ replica pa d + n ≤ p) →
  ∃ t, exec (.mst h x) s = .next (passed h i t)
    ∧ (∀ d, d < 4 → ∀ k, k < n → byteOf t (replica pa d + k) = (toBytes n (readRun i.g x.b (wdRegs x.wd) l)).getD k 0)
    ∧ ∀ a, (∀ d, d < 4 → ¬ inStore n (.mem (replica pa d) slot rp) a) → byteOf t a = byteOf s' a

/-- R132, R162: stores, and multicast stores. -/
def Obligations.Stores : Prop := Claim.StoreResults ∧ Claim.MulticastStore

/-- R149, R150, R155, R156: a full/empty operation of one lane on one aligned word or more, whose FULL bits are what it
asks for and that nothing waits on, completes: a load gets the data, a store puts it, and every word is left FULL or
EMPTY as its row of R149 says. FEGET gets the state and changes none. Accesses are made when the instruction issues: log 2. -/
def Claim.FullEmptyResults : Prop := ∀ (h : Hdr) (x : MemForm) (s s' : State) (i : Iss) (l : Nat) (va : W64) (pa : Nat)
    (slot : Option Nat) (rp : Bool),
  let n := wdSize x.wd.toNat
  let words := wordsOf pa n
  let acts := (laneList i.act).map fun l => (l, readVV i.g x.a.toNat l + extOff x.ext)
  let done (e : Instr) (need : Option Bool) (load store : Bool) (fill : Option Bool) : Prop :=
    let writes := store || fill.isSome
    let req : Req := { cls := .fe, write := writes, reads := need.isSome || !writes, size := n, align := n }
    let src := regsOf false true x.a ++ (if store then regRun false x.b (wdRegs x.wd) else [])
    Issues s h (extLong x.ext) false { reads := src, writes := if load || !writes then regRun false x.d (wdRegs x.wd) else [] } i →
    Reaches i { req := req, mon := store, rel := x.ord == 2#2, stop := true } acts s' [(l, va, .mem pa slot rp)] →
    (∀ b, need = some b → ∀ k ∈ words, isFull s' k = b) → (∀ k ∈ words, (feOf s' k).getLsbD 1 = false) →
    poisoned s' pa n = false → i.w.b.mons = [] →
    ∃ t, exec e s = .next (flown h i t (if load then valueWrites false (wdRegs x.wd) x.d [(l, ofBytes (rdBytes s' pa n))]
        else if writes then [] else valueWrites false 1 x.d [(l, (feOf s' (pa / 4)).toNat)]) FlagSet.none)
      ∧ (∀ k, feOf t k = match fill with
          | some b => if k ∈ words then (if b then 1#2 else 0#2) else feOf s' k
          | none => feOf s' k)
      ∧ (∀ a, ¬ inStore n (.mem pa slot rp) a → byteOf t a = byteOf s' a)
      ∧ ((∀ p, slot = some p → p + 8 ≤ pa ∨ pa + n ≤ p) → store = true → ∀ k, k < n → byteOf t (pa + k) = (toBytes n (readRun i.g x.b (wdRegs x.wd) l)).getD k 0)
  done (.ldw h x) (some true) true false none
  ∧ done (.ldcn h x) (some true) true false (some false)
  ∧ done (.stf h x) (some false) false true (some true)
  ∧ done (.ste h x) none false true (some false)
  ∧ done (.feget h x) none false false none
  ∧ done (.feset h x) none false false (some (x.op.getLsbD 0))

/-- R77, R79: a full/empty load or store of one lane that finds the wrong state defers its lane: nothing is written to
memory, the lane's bit of DEFM is set, and the lane stays at the instruction. -/
def Claim.FullEmptyDefers : Prop := ∀ (h : Hdr) (x : MemForm) (s s' : State) (i : Iss) (l : Nat) (va : W64) (pa : Nat)
    (slot : Option Nat) (rp : Bool),
  let n := wdSize x.wd.toNat
  let acts := (laneList i.act).map fun l => (l, readVV i.g x.a.toNat l + extOff x.ext)
  let waits (e : Instr) (need load store writes : Bool) : Prop :=
    let req : Req := { cls := .fe, write := writes, reads := true, size := n, align := n }
    let src := regsOf false true x.a ++ (if store then regRun false x.b (wdRegs x.wd) else [])
    Issues s h (extLong x.ext) false { reads := src, writes := if load then regRun false x.d (wdRegs x.wd) else [] } i →
    Reaches i { req := req, mon := store, rel := x.ord == 2#2, stop := true } acts s' [(l, va, .mem pa slot rp)] → l < 32 →
    (∃ k ∈ wordsOf pa n, isFull s' k ≠ need) →
    ∃ (g g' : Group) (t : State), s'.grp? i.w.r = some g ∧ exec e s = .next (flown h i t [] FlagSet.none) ∧ t = s'.modGrp i.w.r (fun _ => g')
      ∧ has g'.cl.defm l = true ∧ lget 0 g'.cl.dva l = va ∧ (riOf g'.cl l).toNat = g.cl.ord % 4096
      ∧ ∀ j, j ≠ l → has g'.cl.defm j = has g.cl.defm j ∧ riOf g'.cl j = riOf g.cl j
  waits (.ldw h x) true true false false ∧ waits (.ldcn h x) true true false true ∧ waits (.stf h x) false false true true

/-- R77, R79, R149, R155, R156: full/empty operations that proceed, and those that defer. -/
def Obligations.FullEmptyForms : Prop := Claim.FullEmptyResults ∧ Claim.FullEmptyDefers

/-- R157 to R161: an atomic of one lane at a location that no monitor counts completes; ATOM and CAS write the old value to
D, RED writes none, CADD writes the old value and adds where the sum does not wrap. Accesses are made when the instruction issues: log 2. -/
def Claim.AtomicForms : Prop := ∀ (h : Hdr) (x : MemForm) (s s' : State) (i : Iss) (l : Nat) (va : W64) (pa : Nat)
    (slot : Option Nat) (rp : Bool),
  let n := atomSize x.wd.toNat
  let r := wdRegs x.wd
  let acts := (laneList i.act).map fun l => (l, readVV i.g x.a.toNat l + extOff x.ext)
  let b := readRun i.g x.b r l
  let old := ofBytes (rdBytes s' pa n)
  let leaves (e : Instr) (u : Uses) (req : Req) (log stop : Bool) (new : Nat) (next : State → State) : Prop :=
    Issues s h (extLong x.ext) false u i →
    Reaches i { req := req, log := log, mon := true, rel := x.ord.getLsbD 1, stop := stop } acts s' [(l, va, .mem pa slot rp)] →
    (∀ p, slot = some p → p + 8 ≤ pa ∨ pa + n ≤ p) → i.w.b.mons = [] →
    ∃ t, exec e s = .next (next t) ∧ (∀ k, k < n → byteOf t (pa + k) = (toBytes n new).getD k 0)
      ∧ ∀ a, ¬ inStore n (.mem pa slot rp) a → byteOf t a = byteOf s' a
  let req (c : Cls) : Req := { cls := c, write := true, reads := true, size := n, place := extPlace x.ext, align := n }
  let val (t : State) : State := flown h i t (valueWrites false r x.d [(l, old)]) FlagSet.none
  let src : List Reg := regsOf false true x.a ++ regRun false x.b r
  let new := readRun i.g (x.b + BitVec.ofNat 8 r) r l
  leaves (.atom h x) { reads := src, writes := regRun false x.d r } (req .atomic) false true (combine x.op.toNat x.wd.toNat old b) val
  ∧ leaves (.red h x) { reads := src } (req .atomic) true false (combine x.op.toNat x.wd.toNat old b) (passed h i)
  ∧ ((Instr.cas h x).wf = true →
      leaves (.cas h x) { reads := regsOf false true x.a ++ regRun false x.b (2 * r), writes := regRun false x.d r } (req .atomic)
        false true (if old = b then new else old) val)
  ∧ ((Instr.cadd h x).wf = true → old + b < 2 ^ 64 →
      leaves (.cadd h x) { reads := src, writes := if x.op.getLsbD 0 then [] else regRun false x.d r } (req .cadd) false true (old + b)
        fun t => passed h i (if x.op.getLsbD 0 then t else t.modGrp i.w.r fun g => applyWrites g.depth (valueWrites false r x.d [(l, old)]) g))

/-- R159: what an atomic combines: sums modulo the width, minimum and maximum unsigned or signed by type, bit by bit forms, exchange; of
floats the sum rounded to nearest, and FMIN and FMAX with NAN = 0. -/
def Claim.CombineValues : Prop := ∀ (t : Ty) (wd old x : Nat), (wd, t) ∈ [(4, Ty.b32), (5, .b64), (7, .i32), (8, .i64), (9, .f32), (10, .f64)] →
  old < 2 ^ t.width → x < 2 ^ t.width →
  (wd < 9 → combine 0 wd old x = (old + x) % 2 ^ t.width
    ∧ combine 1 wd old x = (if valInt t old < valInt t x then old else x) ∧ combine 2 wd old x = if valInt t old < valInt t x then x else old)
  ∧ (9 ≤ wd → combine 0 wd old x = (finishF t .rn (addFV .rn (decodeF t old) (decodeF t x))).bits
    ∧ combine 1 wd old x = (minMaxF t false false old x).bits ∧ combine 2 wd old x = (minMaxF t true false old x).bits)
  ∧ (wd < 6 → combine 3 wd old x = old &&& x ∧ combine 4 wd old x = old ||| x ∧ combine 5 wd old x = old ^^^ x ∧ combine 6 wd old x = x)

/-- R157 to R161: atomics, and what they combine. -/
def Obligations.AtomicResults : Prop := Claim.AtomicForms ∧ Claim.CombineValues

/-! ### Control, OPC 0x00 to 0x08 -/

/-- R87: NOP issues whatever its guard, counts toward the issue distance, and has no other effect; the all-zero word is `(p0) nop`. -/
def Obligations.NopEffect : Prop :=
  (∀ (h : Hdr) (s : State) (i : Iss), foundBy s { h with gn := false, gp := 7 } false false {} = some i →
    exec (.nop h) s = .next (passed h i i.s)
      ∧ passed h i i.s = i.s.modGrp i.w.r fun g => { (g.modCl fun v => { v with ord := v.ord + 1, off := v.off + 8, callv := none }) with
          clock := g.clock + 1 + h.stall.toNat, status := if g.status = .resumed then .ready else g.status, told := [] })
  ∧ decodeWord .plain 0#64 0#64 = .ok (.nop { sp := false, stall := 0, hold := 0, gn := false, gp := 0 })

/-- R93: YIELD has no effect but its group's turn. -/
def Claim.YieldResult : Prop := ∀ (h : Hdr) (n : BitVec 8) (s : State) (i : Iss),
  foundBy s h false true { chk := false } = some i → exec (.yield h n) s = .next (passed h i i.s)

/-- R25, R71: without an acting lane an instruction of a group (`issued`), a NOP apart, only moves its group on. A BAR that its
group stands in is on its way already. -/
def Claim.NoLaneActs : Prop := ∀ (e : Instr) (h : Hdr) (long uniform : Bool) (u : Uses) (s : State) (i : Iss),
  issued s e = some (h, long, uniform, u) → foundBy s h long uniform u = some i → barHeld i.g = false → i.act = 0#32 →
  exec e s = .next (passed h i i.s)

/-- R25, R71, R93: YIELD, and every other instruction of a group that no lane acts on, only moves its group on. -/
def Obligations.OnlyIssues : Prop := Claim.YieldResult ∧ Claim.NoLaneActs

/-- R88, R70: BLK enters its block: at ordinal 1 where a lane wants the label from its start, else at the lowest ordinal at
which one of its lanes resumes, or past the block's last instruction where all resume beyond it. No lane moves. -/
def Obligations.BlockEntry : Prop := ∀ (stall : BitVec 3) (label : W16) (ft : Bool) (len : BitVec 12) (s : State) (w : Who),
  s.onTurn = some w →
  ∃ v : Level, exec (.blk stall label ft len) s = .next (s.modGrp w.r fun g => { g.modCl (fun _ => v) with clock := g.clock + 1 + stall.toNat })
    ∧ v.label = label ∧ v.len = len.toNat ∧ v.wl = w.g.cl.wl ∧ v.ri = w.g.cl.ri ∧ v.defm = w.g.cl.defm ∧ v.base = w.g.cl.base
    ∧ (∀ l, l < 32 → wlOf w.g.cl l = label → label < 0xFFFE#16 → riOf w.g.cl l = 0#12 → v.ord = 1 ∧ v.phase = .body)
    ∧ (∀ l, l < 32 → wlOf w.g.cl l = label → label < 0xFFFE#16 → riOf w.g.cl l ≠ 0#12 →
        (∀ k, k < 32 → wlOf w.g.cl k = label → riOf w.g.cl k ≠ 0#12 ∧ riOf w.g.cl l ≤ riOf w.g.cl k) →
          v.ord = min (riOf w.g.cl l).toNat (len.toNat + 1) ∧ v.phase = if v.ord = 1 then .body else .seek 1)

/-- R72, R89, R90, R92: WANT and WANTV send each acting lane to its label: a lane sent ahead goes on this sweep, a lane sent to
this block or behind waits out the visit; WANTV's 0xFFFF exits; EXIT takes lanes out for good, RET to the caller or, with
none, out. Lanes that do not act keep their labels. A label out of range is cause 0x01. -/
def Obligations.LabelWrites : Prop := ∀ (h : Hdr) (label : W16) (a : BitVec 8) (s : State) (i : Iss),
  let moves (e : Instr) (u : Uses) (ok : Prop) (bars : Bool) (goal : Nat → W16) (hold : Nat → Bool) : Prop :=
    Issues s h false false u i → ok →
    ∃ v : Level, exec e s = .next (passed h i
        (let t := i.s.modGrp i.w.r fun g => g.modCl fun _ => v; if bars then tryBarriers t i.w.r else t))
      ∧ (∀ l, has i.act l = true → wlOf v l = goal l ∧ (riOf v l = 0#12 ↔ hold l = false))
      ∧ (∀ l, has i.act l = false → wlOf v l = wlOf i.g.cl l ∧ riOf v l = riOf i.g.cl l)
      ∧ v.label = i.g.cl.label ∧ v.ord = i.g.cl.ord ∧ v.defm = i.g.cl.defm ∧ v.p = i.g.cl.p ∧ v.q = i.g.cl.q
  let x (l : Nat) : W32 := readV i.g a.toNat l
  let fits (y : W32) : Prop := y.toNat < i.g.cl.n ∨ y = 0xFFFF#32
  moves (.want h label) { chk := false } (label.toNat < i.g.cl.n) false (fun _ => label) (fun _ => decide (label ≤ i.g.cl.label))
  ∧ moves (.wantv h a) { reads := [.v a.toNat], chk := false } (i.g.cl.n ≤ 65534 ∧ ∀ l, has i.act l = true → fits (x l)) false
      (fun l => (x l).setWidth 16) (fun l => x l != 0xFFFF#32 && decide ((x l).setWidth 16 ≤ i.g.cl.label))
  ∧ moves (.exit h) { chk := false } True true (fun _ => 0xFFFF#16) (fun _ => false)
  ∧ moves (.ret h) { chk := false } True true
      (fun _ => if i.g.frames = [] ∧ i.g.calls ≠ [] then 0xFFFE#16 else 0xFFFF#16) (fun _ => false)
  ∧ (Issues s h false false { chk := false } i → i.g.cl.n ≤ label.toNat →
      exec (.want h label) s = .next (enterHandler i.s i.w.r (preciseEntry i.w 0x01#8 i.act [label.setWidth 64] false)))

/-- R80, R83, R91: a CALL whose callee can be entered and whose hardware stack has room pushes the caller's position, sends
the acting lanes to the entry label and every other live lane to 0xFFFE; a CALLV does so for the lanes of its smallest base
not yet served, and goes on when every base is served. That the callee's base is read as it stands before the commit of pending writes,
which R80 puts first, is the model's choice (log 40). -/
def Obligations.Calls : Prop := ∀ (h : Hdr) (entry : W16) (a : BitVec 8) (s s' : State) (i : Iss) (rg : Region),
  let enters (base : W64) (c : Mask) (e : Instr) : Prop :=
    readRegion i.s i.w.tlbs i.w.c base = (s', .ok (some rg)) → entry.toNat < rg.n → i.g.calls.length < 4 →
    ∃ (g' : Group) (v : Level), exec e s = .next (s'.modGrp i.w.r fun _ => g') ∧ g'.lvl = v
      ∧ v.base = rg.base ∧ v.n = rg.n ∧ v.tab = rg.tab ∧ v.phase = .enter entry false ∧ v.swc = 0 ∧ v.defm = 0
      ∧ g'.calls = { wl := i.g.lvl.wl, base := i.g.lvl.base, label := i.g.lvl.label, ord := i.g.lvl.ord, swc := i.g.lvl.swc,
                     mask := c } :: i.g.calls
      ∧ (∀ l, l < 32 → wlOf v l = if has c l then entry else if wlOf i.g.lvl l < 0xFFFE#16 then 0xFFFE#16 else wlOf i.g.lvl l)
      ∧ g'.clock = i.g.clock + 1 + h.stall.toNat ∧ g'.pend = []
  let base (l : Nat) : W64 := readVV i.g a.toNat l
  let fresh (l : Nat) : Prop := has i.act l = true ∧ ∀ b, i.g.cl.callv = some b → b < base l
  (Issues s h false false { reads := [.s a.toNat, .s (a.toNat + 1)], chk := false } i → i.g.frames = [] → s'.grp? i.w.r = some i.g →
    enters (readSS i.g a.toNat) i.act (.call h entry a))
  ∧ (Issues s h false false { reads := [.v a.toNat, .v (a.toNat + 1)], chk := false } i → i.g.frames = [] → s'.grp? i.w.r = some i.g →
    ∀ l, fresh l → (∀ k, fresh k → base l ≤ base k) →
      enters (base l) (i.act &&& maskOf fun k => base k == base l) (.callv h entry a))
  ∧ (Issues s h false false { reads := [.v a.toNat, .v (a.toNat + 1)], chk := false } i → (∀ l, ¬ fresh l) →
    exec (.callv h entry a) s = .next (i.s.modGrp i.w.r fun g =>
      (g.modCl fun v => { v with ord := v.ord + 1, off := v.off + 8, callv := none }).tickIssue h))

/-! ### Copies, OPC 0x95 to 0x97 -/

/-- R163 to R167: a copy whose ends pass the checks at issue joins its class's outstanding copies, unmade, with the
addresses and length read from its registers; nothing else but the group's position changes.
That pages are checked at issue is the reading of log 33. -/
def Claim.CopyIssues : Prop := ∀ (h : Hdr) (x : CopyForm) (s : State) (i : Iss),
  let dst := readSS i.g x.d.toNat
  let src := readSS i.g x.a.toNat
  let n := (readS i.g x.b.toNat).toNat
  let joins (e : Instr) (c : CopyClass) (d a : W64) (len : Nat) : Prop :=
    i.g.sideLog = [] → i.w.l.lrec.equinox = false → outstanding i.g c < 255 →
    ∃ k : CopyOp, exec e s = .next (passed h i (i.s.modGrp i.w.r fun g => { g with copies := g.copies ++ [k] }))
      ∧ k.cls = c ∧ k.dst = d ∧ k.src = a ∧ k.len = len ∧ k.wd = x.wd ∧ k.op = x.op ∧ k.ctr = x.ctr ∧ k.stage = .queued
      ∧ k.label = i.g.cl.label ∧ k.ord = i.g.cl.ord ∧ k.todo = none ∧ k.cur = [] ∧ k.acks = [] ∧ k.sent = [] ∧ k.behind = 0
      ∧ ∀ y ∈ i.g.copies, y.id ≠ k.id
  let uses : Uses := { reads := regsOf true true x.d ++ regsOf true true x.a ++ regsOf true false x.b }
  let checked (state : Bool) : Prop := endCauses i.s .src state src = [] ∧ endCauses i.s .dst state dst = [] ∧ ctrCauses i.s x.ctr = []
    ∧ pageCauses i.s i.w false state src n = [] ∧ pageCauses i.s i.w true state dst n = []
    ∧ scrBeyond i.w src n = false ∧ scrBeyond i.w dst n = false ∧ rangesMeet i.w.die dst n src n = false
  (Issues s h x.ctr.isSome true uses i → checked (x.wd != 7#4) →
    (x.wd = 7#4 ∨ dst.toNat % 4 = 0 ∧ src.toNat % 4 = 0 ∧ n % 4 = 0) → joins (.cpy h x) .copy dst src n)
  ∧ (Issues s h x.ctr.isSome true uses i → checked false → dst.toNat / 2 ^ 60 = 0 ∨ dst.toNat / 2 ^ 60 = 6 → n % atomSize x.wd.toNat = 0 →
    joins (.cpyr h x) .coll dst src n)
  ∧ (Issues s h x.ctr.isSome true { reads := regsOf true true x.a } i → src.toNat / 2 ^ 60 = 0 →
    ctrCauses i.s x.ctr = [] → joins (.cpyg h x) .gather 0 src 0)

/-- R164, R167, R186: COPY_RETIRE moves some bytes of a group's oldest queued data copy, here of one piece within a page at
each end: the destination gets the source's bytes as they stand, and no other byte changes but the page-table entry marked
dirty. Once all bytes are moved the copy, having no counter, is outstanding no more; until then it keeps the others. Which
bytes move in one step is free (log 15). -/
def Claim.CopyRetires : Prop := ∀ (s : State) (w : Who) (r : GRef) (k : CopyOp) (p : Piece) (ps pd : Nat) (slot slot' : Option Nat)
    (rp : Bool) (S : Nat → Nat → State),
  who? s r = some w → w.b.st = .resident → w.l.lrec.equinox = false → w.g.copies = [k] → k.cls = .copy → k.wd = 7#4 →
  k.stage = .queued → k.ctr = none → k.sent = [] → k.cur = [] → k.acks = [] → k.todo = some [p] → w.g.sideLog = [] → 0 < p.n →
  (∀ lo n, 0 < n → lo + n ≤ p.n → ∃ q, (q.src, q.dst, q.off, q.n) = (p.src + u64 lo, p.dst + u64 lo, p.off + lo, n)
    ∧ planPieces { s with fresh := s.fresh + 3 } w k (recut { s with fresh := s.fresh + 3 } w { p.part lo n with seen := p.seen })
      = (S lo n, .ok [{ p := q, src := .mem (ps + lo) slot' false, dst := .mem (pd + lo) slot rp }])
    ∧ (S lo n).parked = [] ∧ (S lo n).grp? r = some w.g) →
  (∀ e, slot = some e → e + 8 ≤ pd ∨ pd + p.n ≤ e) →
  ∃ lo n t g', 0 < n ∧ lo + n ≤ p.n ∧ exec (.copyRetire r .copy) s = .next t ∧ t.grp? r = some g'
    ∧ (∀ j, j < n → byteOf t (pd + lo + j) = byteOf (S lo n) (ps + lo + j))
    ∧ (∀ a, ¬ inStore n (.mem (pd + lo) slot rp) a → byteOf t a = byteOf (S lo n) a)
    ∧ (n = p.n → g'.copies = [])
    ∧ (n ≠ p.n → ∃ k' rest, g'.copies = [k'] ∧ k'.stage = .queued ∧ k'.cur = [] ∧ k'.todo = some rest
        ∧ ∀ j, (∃ q ∈ rest, q.off ≤ p.off + j ∧ p.off + j < q.off + q.n) ↔ j < p.n ∧ ¬ (lo ≤ j ∧ j < lo + n))

/-- R169: COPY_ABORT reports the failed copy, the oldest outstanding one of its class: it leaves the outstanding copies, and its
group takes cause 0x1D with the failing address, the count known to be written, the copy's position and the failure's cause. No
register and no other group's state changes. What the engine does with the bytes from that count upward is `abortParts` from the
state of the abort: a byte of memory changes only where it moved a planned word or element, or in a page-table entry that planning
one marks. Which of them are written is free (log 15). Words on which no group waits. -/
def Claim.CopyAborts : Prop := ∀ (s : State) (w : Who) (r : GRef) (c : CopyClass) (k : CopyOp) (pre post : List CopyOp) (a n : Nat)
    (cause : BitVec 8),
  let s1 : State := { s with fresh := s.fresh + 2 ^ 40 }
  let planned := (abortParts s1 w k s.fresh (abortLeft s1 k n)).2
  who? s r = some w → w.b.st = .resident → w.g.copies = pre ++ k :: post → (∀ x ∈ pre, x.isOut c = false ∧ x.id ≠ k.id) → k.cls = c →
  k.stage = .failed a n cause → k.acks = [] → s.parked = [] → w.g.status ≠ .retired → w.l.lrec.equinox = false →
  ∃ t, exec (.copyAbort r c) s = .next t
    ∧ (∃ g', t.grp? r = some g' ∧ g' = { w.g with
        copies := pre ++ post,
        delivered := w.g.delivered ++ [{ cause := 0x1D#8, tval := #v[u64 a, u64 n, u64 (posWord k.label k.ord), cause.setWidth 64] }] })
    ∧ (∀ r', r' ≠ r → t.grp? r' = s.grp? r')
    ∧ (∀ y ∈ planned, ∀ m ∈ y.2, n ≤ m.p.off)
    ∧ ∀ x, byteOf t x ≠ byteOf s x → ∃ y ∈ planned, ∃ m ∈ y.2, (y.1 = true ∧ InMove m x) ∨ InEntry m.src x ∨ InEntry m.dst x

/-- R163 to R169: copies issue, retire, and abort. -/
def Obligations.Copies : Prop := Claim.CopyIssues ∧ Claim.CopyRetires ∧ Claim.CopyAborts

/-! ### Waits, barriers, fences, OPC 0xA0 to 0xA8 -/

/-- R171: WCOND writes one wait-condition register: the kind, the address or number, and the value it waits for. -/
def Claim.ConditionWrites : Prop := ∀ (h : Hdr) (x : WcondForm) (s : State) (i : Iss) (d : Fin 4),
  let addr := readSS i.g x.a.toNat
  let off := field addr.toNat 0 60
  let path6 := field addr.toNat 60 4 == 6
  let writes (reads : List Reg) (ok : Prop) (p : Bool) (high val : Nat) : Prop :=
    Issues s h false true { reads := reads } i → ok → x.d.toNat = d.val →
    exec (.wcond h x) s = .next (passed h i (i.s.modGrp i.w.r fun g => { g with w := g.w.set d.val (condWord x.kind.toNat p high val) }))
  (x.kind = 1#3 → writes (regsOf true true x.a ++ regsOf true true x.b)
    ((field addr.toNat 60 4 = 0 ∨ field addr.toNat 60 4 = 6) ∧ off % 8 = 0) path6 (off / 8) (readSS i.g x.b.toNat).toNat)
  ∧ (x.kind = 2#3 → writes (regsOf true false x.b) (x.a.toNat < i.w.l.lrec.nbctrs) false x.a.toNat (readS i.g x.b.toNat).toNat)
  ∧ (x.kind = 3#3 → writes [] True false x.cls.toNat x.b.toNat)
  ∧ (x.kind = 4#3 → writes (regsOf true true x.a)
    ((field addr.toNat 60 4 = 0 ∨ field addr.toNat 60 4 = 6) ∧ off % 4 = 0) path6 (off / 4) (if x.s then 1 else 0))
  ∧ (x.kind = 5#3 → writes (regsOf true false x.b) (barrierCause i.w.l x.a.toNat none = none) false x.a.toNat (readS i.g x.b.toNat).toNat)

/-- R21, R170, R172, R176, R218: a WAIT on conditions that name no memory word (block counters, outstanding copies, barriers)
commits the pending writes and ends at once where they hold: q[D] is 1, but 0 for a barrier that is broken, the fired mask
goes to s[C] where the form asks, and BFLAGS merges into FLAGS where a block counter fired; where they do not hold and time is
left, the group is suspended at the WAIT. BFLAGS merges as log 32 reads R218; that the time-out in s[B] is read as it stands before R21's
commit is the model's choice (log 40). -/
def Claim.WaitOnConditions : Prop := ∀ (h : Hdr) (x : WaitForm) (s : State) (i : Iss),
  let fired := firedNow i.w x
  let holds := if x.any then fired ≠ 0#4 else fired = x.mask
  let committed (f : Group → Group) : State := i.s.modGrp i.w.r fun g => f (commitAll (diagMode i.s i.w.c) g)
  Issues s h false true { reads := regsOf true false x.b, writes := Reg.q x.d.toNat :: (if x.mw then [Reg.s x.c.toNat] else []) } i →
  (∀ k, x.mask.getLsbD k = true → condKind (wOf i.g k) ∈ [2, 3, 5]) → (∀ e ∈ i.s.parked, ∀ y ∈ e.2, y.1 ≠ i.w.r) → x.mask ≠ 0#4 →
  i.g.sent = [] →
  (holds → ∃ t, Noted i.w.r (committed (waitEnds i.w h x fired true)) t ∧ exec (.wait h x) s = .next t)
  ∧ (¬ holds → readS i.g x.b.toNat = 0#32 → ∃ t, Noted i.w.r (committed (waitEnds i.w h x fired false)) t ∧ exec (.wait h x) s = .next t)
  ∧ (¬ holds → readS i.g x.b.toNat ≠ 0#32 → exec (.wait h x) s = .next (committed fun g =>
    { g with status := .waiting { start := i.s.tick, limit := readS i.g x.b.toNat, polled := i.s.tick, recs := [], seen := fired,
                                  vals := watchVals i.w x, tested := true, woken := false } h x }))

/-- R21, R170, R172: a WAIT on one word of path 0x0 or 0x6 of this device commits the pending writes and ends at once where its
condition holds: a counter that has reached its value, or a full/empty state. Its test counts as one lookup of the page
(R313). -/
def Claim.WaitOnWord : Prop := ∀ (h : Hdr) (x : WaitForm) (s s' : State) (i : Iss) (pa : Nat) (slot : Option Nat) (rp : Bool),
  let c := wOf i.g 0
  let g := commitAll (diagMode i.s i.w.c) i.g
  let s0 := i.s.modGrp i.w.r fun _ => g
  let w0 : Who := { i.w with g := g }
  let req (n : Nat) (k : Cls) : Req := { cls := k, write := false, reads := n == 8, size := n, align := n }
  let u := countLookups s' w0 0 [condAddr c]
  let ends : Prop := ∃ t, Noted i.w.r (u.modGrp i.w.r (waitEnds w0 h x 1#4 true)) t ∧ exec (.wait h x) s = .next t
  Issues s h false true { reads := regsOf true false x.b, writes := Reg.q x.d.toNat :: (if x.mw then [Reg.s x.c.toNat] else []) } i →
  x.mask = 1#4 → i.w.l.lrec.equinox = false → (∀ e ∈ u.parked, ∀ y ∈ e.2, y.1 ≠ i.w.r) → i.g.sent = [] →
  (condKind c = 1 → resolve s0 w0 (req 8 .load) (condAddr c) = (s', .ok (.mem pa slot rp)) → poisoned s' pa 8 = false →
    (c.extractLsb' 0 64).toNat ≤ ofBytes (rdBytes u pa 8) → ends)
  ∧ (condKind c = 4 → resolve s0 w0 (req 4 .fe) (condAddr c) = (s', .ok (.mem pa slot rp)) → poisoned s' pa 4 = false →
    isFull u (pa / 4) = c.getLsbD 0 → ends)

/-- R172, R173: a suspended WAIT on such conditions is looked at again: WAIT_RETEST ends it where it is woken, or a count
or a barrier that it watches has changed, and they hold by now; WAIT_TIMEOUT ends it, with q[D] = 0, once its ticks have passed and they do not hold. BFLAGS
merges as log 32 reads R218. -/
def Claim.WaitGoesOn : Prop := ∀ (s : State) (w : Who) (r : GRef) (t : WaitSt) (h : Hdr) (x : WaitForm),
  let fired := firedNow w x
  let holds := if x.any then fired ≠ 0#4 else fired = x.mask
  let ends (e : Instr) (ok : Bool) : Prop := ∃ u, Noted r (s.modGrp r (waitEnds w h x fired ok)) u ∧ exec e s = .next u
  who? s r = some w → w.g.status = .waiting t h x → w.g.sent = [] → x.mask ≠ 0#4 →
  (∀ k, x.mask.getLsbD k = true → condKind (wOf w.g k) ∈ [2, 3, 5]) → (∀ e ∈ s.parked, ∀ y ∈ e.2, y.1 ≠ r) →
  (holds → (t.woken = true ∨ watchVals w x ≠ t.vals) → ends (.waitRetest r) true)
  ∧ (¬ holds → s.harvest = false → t.limit ≠ 0xFFFFFFFF#32 → t.start + t.limit.toNat ≤ s.tick → ends (.waitTimeout r) false)

/-- R173: every 1,000 ticks a WAIT with a condition of path 0x6 tests it again: where the counter, which stands on this
device at the page the address names, has reached its value, WAIT_REMOTE_POLL ends the WAIT with q[D] = 1. -/
def Claim.RemotePoll : Prop := ∀ (s s' : State) (w : Who) (r : GRef) (t : WaitSt) (pa : Nat) (h : Hdr) (x : WaitForm)
    (slot : Option Nat) (rp : Bool),
  let c := wOf w.g 0
  let req : Req := { cls := .load, write := false, reads := true, size := 8, align := 8 }
  let u := countLookups s' w 0 [condAddr c]
  who? s r = some w → w.g.status = .waiting t h x → w.g.sent = [] → x.mask = 1#4 →
  condKind c = 1 → c.getLsbD 124 = true → t.polled + 1000 ≤ s.tick → s.harvest = false → w.l.lrec.equinox = false →
  resolve s w req (condAddr c) = (s', .ok (.mem pa slot rp)) →
  poisoned s' pa 8 = false → (c.extractLsb' 0 64).toNat ≤ ofBytes (rdBytes u pa 8) → (∀ e ∈ u.parked, ∀ y ∈ e.2, y.1 ≠ r) →
  ∃ v, Noted r (u.modGrp r (waitEnds w h x 1#4 true)) v ∧ exec (.waitRemotePoll r) s = .next v

/-- R170 to R173, R218: wait conditions and the WAITs on them. -/
def Obligations.Waits : Prop := Claim.ConditionWrites ∧ Claim.WaitOnConditions ∧ Claim.WaitOnWord ∧ Claim.WaitGoesOn ∧ Claim.RemotePoll

/-- R174 to R176: a group whose BAR its phase has released goes on with q[D] telling whether the phase completed unbroken and,
where the form asks, q[C] whether it was the last arriver; at a broken barrier BAR goes on at once with 0 in both. -/
def Claim.BarrierReturns : Prop := ∀ (h h' : Hdr) (sc sc' : BitVec 3) (la la' : Bool) (d a c d' c' : BitVec 8) (s : State) (w : Who) (i : Iss)
    (n : Nat) (k : W32),
  let x := barNow s w n
  let y := barNow i.s i.w a.toNat
  let goes (ok last : Bool) (g : Group) : Group :=
    let g := applyWrite g.depth g (.q d.toNat ok)
    let g := if la then applyWrite g.depth g (.q c.toNat (ok && last)) else g
    { g.past h false with status := .ready, notes := [], own := [] }
  (s.onTurn = some w → w.g.status = .barrier n k h' sc' la' d' c' → x.phase ≠ k →
    exec (.bar h sc la d a c) s = .next (s.modGrp w.r (goes (!(x.broken && x.phase == k + 1)) (x.last == some w.r))))
  ∧ (Issues s h false true { writes := Reg.q d.toNat :: (if la then [Reg.q c.toNat] else []) } i →
    (∀ n k h sc la d c, i.g.status ≠ .barrier n k h sc la d c) → s.onTurn.map (·.g.status) = some i.g.status →
    barrierCause i.w.l a.toNat (some sc.toNat) = none → i.g.sideLog = [] → y.broken = true →
    exec (.bar h sc la d a c) s = .next (i.s.modGrp i.w.r fun g => goes false false (commitAll (diagMode i.s i.w.c) g)))

/-- R174, R175: at a barrier that others still have to reach, BAR records the group's arrival and suspends it, and BARA
records it, gives s[D] the phase count, and goes on. -/
def Claim.BarrierArrives : Prop := ∀ (h : Hdr) (sc : BitVec 3) (la : Bool) (d a c : BitVec 8) (s : State) (i : Iss),
  let n := a.toNat
  let x := barNow i.s i.w n
  let waits (st : State) : Prop := (participants st i.w.b.launch n (barKey i.w.l i.w.r.blk i.w.b n)).any
    (fun r => r != i.w.r && !x.arrived.contains r && !countsArrived st r) = true ∧ (∀ b ∈ st.blocks, b.mons = [])
  let plain := barrierCause i.w.l n (some sc.toNat) = none ∧ i.g.sideLog = [] ∧ x.broken = false ∧ x.arrived.contains i.w.r = false
    ∧ i.s.launches[i.w.b.launch]? = some i.w.l
  let arrived (l : Launch) : Prop := (barInst l n (barKey i.w.l i.w.r.blk i.w.b n)).arrived = x.arrived ++ [i.w.r]
    ∧ (barInst l n (barKey i.w.l i.w.r.blk i.w.b n)).phase = x.phase
  (Issues s h false true { writes := Reg.q d.toNat :: (if la then [Reg.q c.toNat] else []) } i →
    (∀ n k h sc la d c, i.g.status ≠ .barrier n k h sc la d c) → s.onTurn.map (·.g.status) = some i.g.status → plain →
    waits (i.s.modGrp i.w.r fun g => { commitAll (diagMode i.s i.w.c) g with status := .barrier n x.phase h sc la d c }) →
    ∃ t l g, exec (.bar h sc la d a c) s = .next t ∧ t.launches[i.w.b.launch]? = some l ∧ arrived l
      ∧ t.grp? i.w.r = some g ∧ g.status = .barrier n x.phase h sc la d c ∧ g.cl.ord = i.g.cl.ord)
  ∧ (Issues s h false true { writes := regsOf true false d } i → plain →
    waits (i.s.modGrp i.w.r fun g => applyWrite g.depth g (.s d.toNat x.phase)) →
    ∃ t l g, exec (.bara h sc d a) s = .next (passed h i t) ∧ t.launches[i.w.b.launch]? = some l ∧ arrived l
      ∧ t.grp? i.w.r = some g ∧ readS g d.toNat = x.phase)

/-- R174 to R176: arriving at a barrier and going on from it. -/
def Obligations.Barriers : Prop := Claim.BarrierReturns ∧ Claim.BarrierArrives

/-- R178: SIG adds to a block counter, and traps with 0x15 and writes nothing where the sum would pass 2^32 - 1. -/
def Claim.SignalAdds : Prop := ∀ (h : Hdr) (imm : Bool) (sc : BitVec 3) (d b : BitVec 8) (s : State) (i : Iss) (n : Fin 16),
  let v := if imm then b.toNat else (readS i.g b.toNat).toNat
  Issues s h false true { reads := if imm then [] else regsOf true false b } i → i.g.sideLog = [] → d.toNat = n.val →
  n.val < i.w.l.lrec.nbctrs →
  (i.w.b.nb[n.val].toNat + v < 2 ^ 32 →
    ∃ t, Noted i.w.r (i.s.modBlk i.w.r.blk fun y => { y with nb := i.w.b.nb.set n.val (BitVec.ofNat 32 (i.w.b.nb[n.val].toNat + v)) }) t
      ∧ exec (.sig h imm sc d b) s = .next (passed h i t))
  ∧ (2 ^ 32 ≤ i.w.b.nb[n.val].toNat + v →
    exec (.sig h imm sc d b) s = .next (enterHandler i.s i.w.r (preciseEntry i.w 0x15#8 i.act [u64 n.val] false)))

/-- R179 to R181: a fence with no entry of its streams in the side log, and a stream fence, complete and change only which of
the group's own accesses come after others (log 39); FETCHB drops the code lines that the groups of the partition hold, and
no other line. That a fence orders nothing further is the reading of log 2. -/
def Claim.FencesComplete : Prop := ∀ (h : Hdr) (sc : BitVec 3) (kind : BitVec 2) (mask : W16) (s : State) (i : Iss),
  Issues s h false true {} i →
  ((kind = 1#2 ∨ ∀ e ∈ i.g.sideLog, mask.getLsbD e.sid.toNat = false) →
    ∃ t, Noted i.w.r i.s t ∧ exec (.fence h sc kind mask) s = .next (passed h i t))
  ∧ (∃ t, Noted i.w.r i.s t ∧ exec (.fencex h mask) s = .next (passed h i t))
  ∧ ∃ ic, exec (.fetchb h sc) s = .next (passed h i { i.s with icache := ic }) ∧ ∀ e, e ∈ ic ↔ e ∈ i.s.icache ∧
      ¬ ∃ r, e.who = .group r ∧ r.grp % 4 = i.w.r.grp % 4 ∧ (i.s.blocks[r.blk]?).map (·.core) = some i.w.b.core

/-- R178 to R181: block counters and fences. -/
def Obligations.SignalsAndFences : Prop := Claim.SignalAdds ∧ Claim.FencesComplete

/-- R182, R328: outside Equinox mode TFETCH takes the launch's next tile: its coordinates and number go to s[D] and on, q[C]
is 0 and the next tile moves on; with no tile left, or in a drain, q[C] is 1. -/
def Obligations.TileFetch : Prop := ∀ (h : Hdr) (d c : BitVec 8) (s : State) (i : Iss),
  let l := i.w.l
  let n := tileCounts l.lrec
  let t := l.next
  Issues s h false true { writes := Reg.q c.toNat :: (List.range 4).map fun k => Reg.s (d.toNat + k) } i → l.lrec.equinox = false →
  i.s.launches[i.w.b.launch]? = some l →
  (l.draining = false → t < n.1 * n.2.1 * n.2.2 → exec (.tfetch h d c) s = .next (flown h i (i.s.modLaunch i.w.b.launch fun l => { l with next := t + 1 })
    [.s d.toNat (u32 (t % n.1 * l.lrec.tile.1)), .s (d.toNat + 1) (u32 (t / n.1 % n.2.1 * l.lrec.tile.2.1)),
     .s (d.toNat + 2) (u32 (t / (n.1 * n.2.1) * l.lrec.tile.2.2)), .s (d.toNat + 3) (u32 t), .q c.toNat false] FlagSet.none))
  ∧ ((l.draining = true ∨ n.1 * n.2.1 * n.2.2 ≤ t) → exec (.tfetch h d c) s = .next (flown h i i.s [.q c.toNat true] FlagSet.none))

/-! ### Matrix engine, OPC 0xB0 to 0xBC -/

/-- R258, R265: MSTART starts an idle or stopped sequencer at the base in s[A], with RPR clear; `mstart.resume` goes on after the
instruction that stopped it, `mstart.retry` at that instruction. In any other state of the sequencer each is cause 0x42. That a new
stream takes up the number of a drain that its sequencer had abandoned (`afterDrain`) is log 29's reading (DEDUCED). -/
def Obligations.StreamStarts : Prop := ∀ (h : Hdr) (a : BitVec 8) (s : State) (i : Iss),
  let q := i.w.b.seq
  let base := readSS i.g a.toNat
  let busy (e : Instr) (u : Uses) (states : List SeqSt) : Prop := Issues s h false true u i → q.st ∈ states →
    exec e s = .next (enterHandler i.s i.w.r (preciseEntry i.w 0x42#8 i.act [u64 (seqCode q.st)] false))
  let reads : Uses := { reads := regsOf true true a }
  (Issues s h false true reads i → q.st = .idle ∨ q.st = .stopped → base.toNat % 128 = 0 →
    ∃ ic q', exec (.mstart h a) s = .next (passed h i ({ i.s with icache := ic }.modBlk i.w.r.blk fun b => { b with rpr := 0, seq := q' }))
      ∧ q'.st = .running ∧ q'.owner = i.w.r.grp ∧ q'.base = base ∧ q'.next = base ∧ q'.word = 0 ∧ q'.busy = false ∧ q'.cause = 0
      ∧ q'.drain = afterDrain q ∧ ∀ e ∈ ic, e ∈ i.s.icache ∧ e.who ≠ .stream i.w.r.blk)
  ∧ (Issues s h false true {} i → q.st = .stopped →
    ∃ q', exec (.mstartResume h) s = .next (passed h i (i.s.modBlk i.w.r.blk fun b =>
        { b with rpr := b.rpr &&& ~~~(0x8000#32), seq := q' }))
      ∧ q'.st = .running ∧ q'.owner = i.w.r.grp ∧ q'.cause = 0 ∧ q'.next = q.next + (if q.word.getLsbD 63 then 16#64 else 8#64) ∧ q'.word = 0)
  ∧ (Issues s h false true {} i → q.st = .stopped →
    ∃ q', exec (.mstartRetry h) s = .next (passed h i (i.s.modBlk i.w.r.blk fun b => { b with seq := q' }))
      ∧ q'.st = .running ∧ q'.owner = i.w.r.grp ∧ q'.cause = 0 ∧ q'.next = q.next ∧ q'.word = q.word ∧ q'.td = i.w.b.tiles)
  ∧ busy (.mstart h a) reads [.running, .waiting]
  ∧ busy (.mstartResume h) {} [.idle, .running, .waiting]
  ∧ busy (.mstartRetry h) {} [.idle, .running, .waiting]

/-- R266: MTILE writes a tile descriptor, from four uniform registers or from 16 bytes of memory. -/
def Obligations.TileDescriptorWrites : Prop := ∀ (h : Hdr) (d a : BitVec 8) (addr : W64) (s s' : State) (i : Iss) (w : Who) (n : Fin 16)
    (get : Nat → List Byte), d.toNat = n.val →
  let x : W128 := readS i.g (a.toNat + 3) ++ readS i.g (a.toNat + 2) ++ readS i.g (a.toNat + 1) ++ readS i.g a.toNat
  (Issues s h false true { reads := regRun true a 4 } i →
    exec (.mtile h d a) s = .next (passed h i (i.s.modBlk i.w.r.blk fun b => { b with tiles := b.tiles.set n.val x })))
  ∧ (Streams s w → (addr.toNat / 2 ^ 60 = 0 ∨ addr.toNat / 2 ^ 60 = 1 ∨ addr.toNat / 2 ^ 60 = 3) → addr.toNat % 16 = 0 →
    EngReads s w 0 [(0, addr, 16)] s' get →
    exec (.mtileMemory d addr) s = .next (streamPast (s'.modBlk w.r.blk fun b =>
      { b with tiles := b.tiles.set n.val (BitVec.ofNat 128 (ofBytes (get 0))) }) w.r.blk))

/-- R237, R271: MEND leaves the sequencer idle; MSIG adds its value to a block counter, and stops the stream with 0x15 where
the sum would pass 2^32 - 1; MWAIT goes on once its counter has reached its value, and otherwise leaves the sequencer
waiting. -/
def Claim.StreamSignals : Prop := ∀ (sc : BitVec 3) (d v : BitVec 8) (x : W32) (s : State) (w : Who) (n : Fin 16),
  Streams s w → d.toNat = n.val → n.val < w.l.lrec.nbctrs → w.b.liveGroups ≠ [] →
  (exec .mend s = .next ((streamPast s w.r.blk).modBlk w.r.blk fun b => { b with seq := { b.seq with st := .idle } }))
  ∧ (w.b.nb[n.val].toNat + v.toNat < 2 ^ 32 → exec (.msig sc d v) s = .next (streamPast (s.modBlk w.r.blk fun b =>
      { b with nb := w.b.nb.set n.val (BitVec.ofNat 32 (w.b.nb[n.val].toNat + v.toNat)) }) w.r.blk))
  ∧ (2 ^ 32 ≤ w.b.nb[n.val].toNat + v.toNat → exec (.msig sc d v) s = .next (engStop s w 0x15#8 [d.setWidth 64, 0, 0, w.b.seq.next]))
  ∧ (x ≤ w.b.nb[n.val] → exec (.mwait sc d x) s = .next (streamPast s w.r.blk))
  ∧ (w.b.nb[n.val] < x → exec (.mwait sc d x) s = .next (s.modBlk w.r.blk fun b => { b with seq := { b.seq with st := .waiting } }))

/-- R237, R271: SEQUENCER_RESUME completes the MWAIT of a waiting sequencer whose counter has reached its value. -/
def Claim.StreamResumes : Prop := ∀ (s : State) (blk : Nat) (b : Block) (n : Fin 16),
  s.blocks[blk]? = some b → b.st = .resident → b.seq.st = .waiting → b.seq.sent = [] → (rawOf b.seq.word b.seq.ext).a.toNat = n.val →
  b.seq.ext.extractLsb' 0 32 ≤ b.nb[n.val] →
  exec (.sequencerResume blk) s = .next (streamPast (s.modBlk blk fun b => { b with seq := { b.seq with st := .running } }) blk)

/-- R235, R256: a word that is no stream instruction stops its sequencer with cause 0x41, its address and the word, and an
MMA, MMAS, MSCALE, MDRAIN, MLDACC or MCHK with a descriptor that fails a check stops it with 0x40 before it has any effect. -/
def Claim.StreamStops : Prop := ∀ (s : State) (w : Who) (blk : Nat) (b : Block) (word ext : W64) (ck isat sat mx : Bool)
    (d x y z n : BitVec 8) (off xr xk : BitVec 12) (m : MatExt) (c t : Nat),
  let td (k : BitVec 8) : Tile := tileOf (tdOf w k)
  let stops (e : Instr) (fail : Option (Nat × Nat)) : Prop := s.onTurn = some w → fail = some (c, t) →
    exec e s = .next (engStop s w 0x40#8 [u64 t, u64 c, ((w.b.seq.td[t]?).getD 0).extractLsb' 64 64, w.b.seq.next])
  (s.blocks[blk]? = some b → who? s { blk := blk, grp := b.seq.owner } = some w →
    exec (.badStreamWord blk word ext) s = .next (engStop s w 0x41#8 [b.seq.next, word, ext, 0]))
  ∧ stops (.mma ck isat d x y m) (checkMma x.toNat y.toNat (td x) (td y) ck isat m)
  ∧ stops (.mmas d x y z m) (checkMmas x.toNat y.toNat z.toNat (td x) (td y) (td z) m)
  ∧ stops (.mscale d x (.row y off)) (checkScale y.toNat (td y))
  ∧ stops (.mscale d x (.col y off)) (checkScale y.toNat (td y))
  ∧ stops (.mdrain sat mx d x y xr xk)
      (checkDrain d.toNat (td d) sat (if mx then some (y.toNat, td y) else none) xr.toNat xk.toNat)
  ∧ stops (.mldacc d x xr xk) (checkLdacc x.toNat (td x))
  ∧ stops (.mchk x xr xk n) (checkMchk x.toNat (td x) xr.toNat xk.toNat)

/-- R234 to R237, R257, R258, R271: what a stream does beside its passes. -/
def Obligations.StreamSteps : Prop := Claim.StreamSignals ∧ Claim.StreamResumes ∧ Claim.StreamStops

/-- R268, R269: MZERO clears the cells of its regions and no other cell. -/
def Claim.RegionsZeroed : Prop := ∀ (d n : BitVec 8) (s : State) (w : Who),
  Streams s w → d.toNat + n.toNat ≤ w.l.lrec.accregs →
  ∃ acc, exec (.mzero d n) s = .next (streamPast (s.modBlk w.r.blk fun b => { b with acc := acc }) w.r.blk)
    ∧ ∀ k, sget 0#32 acc k = if 16384 * d.toNat ≤ k ∧ k < 16384 * (d.toNat + n.toNat) then 0#32 else sget 0#32 w.b.acc k

/-- R268: MSCALE, from the first row: every cell of D becomes D + s × A rounded once, with the scalar, or with the element of
its row or its column; A's cells stay. -/
def Obligations.ScaleResults : Prop := ∀ (d a t : BitVec 8) (off : BitVec 12) (x : W32) (s s' : State) (w : Who) (get : Nat → List Byte),
  let scaled (e : Instr) (sc : Nat → Nat → Nat) : Prop :=
    ∃ u, exec e s = .next u ∧ ∀ i j, i < 128 → j < 128 →
      cellOf u w.r.blk d.toNat i j = BitVec.ofNat 32 (finishF .f32 .rn (fmaFV .rn (decodeF .f32 (sc i j))
        (decodeF .f32 (cellOf s w.r.blk a.toNat i j).toNat) (decodeF .f32 (cellOf s w.r.blk d.toNat i j).toNat))).bits
      ∧ cellOf u w.r.blk a.toNat i j = cellOf s w.r.blk a.toNat i j
  let td := tileOf (tdOf w t)
  let xs := (opValues td 1 off.toNat 128 get).headD []
  Streams s w → w.b.rpr = 0 → d.toNat ≠ a.toNat → d.toNat < w.l.lrec.accregs → a.toNat < w.l.lrec.accregs →
  scaled (.mscale d a (.scalar x)) (fun _ _ => x.toNat)
  ∧ (checkScale t.toNat td = none → EngReads (setRpr s w.r.blk (rprAt 0 0)) w 0 (opSpans td 0 1 off.toNat 128) s' get →
    (∀ r i j, cellOf s' w.r.blk r i j = cellOf s w.r.blk r i j) →
    scaled (.mscale d a (.row t off)) (fun i _ => xs.getD i 0) ∧ scaled (.mscale d a (.col t off)) (fun _ j => xs.getD j 0))

/-- R242 to R244, R249: MMA and MMAS whose descriptors, as decoded, pass their checks and whose region is allocated have their
passes to run: RPR names the pass and row the engine goes on from. -/
def Obligations.PassesReserved : Prop := ∀ (ck isat : Bool) (d a b c : BitVec 8) (x : MatExt) (s : State) (w : Who),
  let p : Nat × Nat := if w.b.rpr.getLsbD 15 then ((w.b.rpr.extractLsb' 24 8).toNat, (w.b.rpr.extractLsb' 16 8).toNat) else (0, 0)
  let waits : State := s.modBlk w.r.blk fun b =>
    { b with rpr := BitVec.ofNat 8 p.1 ++ BitVec.ofNat 8 p.2 ++ 0x8000#16, seq := { b.seq with busy := true } }
  s.onTurn = some w → d.toNat < w.l.lrec.accregs →
  (checkMma a.toNat b.toNat (tileOf (tdOf w a)) (tileOf (tdOf w b)) ck isat x = none →
    exec (.mma ck isat d a b x) s = .next waits)
  ∧ (checkMmas a.toNat b.toNat c.toNat (tileOf (tdOf w a)) (tileOf (tdOf w b)) (tileOf (tdOf w c)) x = none →
    exec (.mmas d a b c x) s = .next waits)

/-- R244 to R246: MATRIX_PASS on the last row-group of an MMA's last pass adds each row's chunk sums into the region's cells and
completes the instruction. One pass is one step: log 16. -/
def Obligations.PassAccumulates : Prop := ∀ (s s1 s2 s3 : State) (w w1 : Who) (b3 : Block) (quad : Nat) (p : Pass) (as bs : List (List Nat)) (get : Nat → List Byte),
  let blk := w.r.blk
  let s0 : State := { s with arbiter := sset 0 s.arbiter quad (blk + 1) }
  s.onTurn = some w → w.r.grp = w.b.seq.owner → busyBlocks s quad = [blk] → (∀ x ∈ s.blocks, x.seq.held = []) → w.b.seq.sent = [] →
  passOf w.b = some p → p.sparse = false → p.ck = false → p.p + 1 = p.np → (rprStart w.b).2 = 112 → p.d < w.l.lrec.accregs →
  EngReads s0 w 8 [] s1 get → who? s1 w.r = some w1 → loadA s1 w1 p 112 none = .go s2 as → loadB s2 w1 p none = .go s3 bs →
  w1.b.acc = w.b.acc → s3.blocks[blk]? = some b3 → b3.acc = w.b.acc → as.length = 16 → bs.length = 128 →
  ∃ t b, exec (.matrixPass quad) s = .next t ∧ t.blocks[blk]? = some b ∧ b.seq.busy = false ∧ b.rpr = 0
    ∧ b.seq.next = w.b.seq.next + (if w.b.seq.word.getLsbD 63 then 16#64 else 8#64)
    ∧ ∀ i j, i < 16 → j < 128 → cellOf t blk p.d (112 + i) j =
      BitVec.ofNat 32 ((accumulate p [sget 0#32 w.b.acc (regionCells * p.d + 128 * (112 + i) + j)] [as.getD i []] [bs.getD j []]).headD (bare 0)).bits

/-- R241, R251, R252, R254, R255: a drain to a format other than ZB writes every in-range cell, converted, at its element's
address, and no other byte but the page-table entries it marks dirty; its flags, and MNAN where it writes a NaN, go to
BFLAGS; with MX it merges the largest magnitude written, NaNs aside, into the word at tB's base; and where NANTRAP.DRN is set
and an element is a NaN it clears DRN and stops with cause 0x48 at the first such cell. The drain is one step: log 16. -/
def Claim.DrainWrites : Prop := ∀ (sat mx : Bool) (d a b : BitVec 8) (xr xk : BitVec 12) (s s1 s' : State) (w : Who) (fs : List EngPiece)
    (pm : Nat) (sl : Option Nat) (rp : Bool),
  let td := tileOf (tdOf w d)
  let tm := tileOf (tdOf w b)
  let es := fmtSize td.fmt
  let ty := fmtTy td.fmt
  let cell (i j : Nat) : Nat := (sget 0#32 w.b.acc (16384 * a.toNat + 128 * i + j)).toNat
  let out (i j : Nat) : FRes :=
    if td.fmt = 1 ∨ td.fmt = 10 then bare (cell i j)
    else (drainConvert ty (sat || td.fmt == 4) (cell i j)
      (rng (hi32 w.b.seq.seed) (lo32 w.b.seq.seed) (u32 (w.b.seq.drain * 2 ^ 20 + 128 * i + j))).toNat).1
  let isNan (i j : Nat) : Bool := td.fmt != 10 && (decodeF ty (out i j).bits).isNaN
  let row (i j : Nat) : Nat := if td.tr then xk.toNat + j else xr.toNat + i
  let col (i j : Nat) : Nat := if td.tr then xr.toNat + i else xk.toNat + j
  let writes (i j : Nat) : Prop := i < 128 ∧ j < 128 ∧ row i j < td.rows ∧ col i j < td.cols
  let at_ (i j : Nat) : Nat := td.base.toNat + row i j * td.stride + col i j * es
  let plan := plainDrain w td a.toNat sat xr.toNat xk.toNat
  Streams s w → w.l.lrec.equinox = false → a.toNat < w.l.lrec.accregs → fmtZb td.fmt = false →
  checkDrain d.toNat td sat (if mx then some (b.toNat, tm) else none) xr.toNat xk.toNat = none →
  td.base.toNat + 4096 * td.stride + 16384 ≤ 2 ^ 64 →
  (if mx then mergeWord s w tm.base = .go s1 (.mem pm sl rp) else s1 = s) →
  engFates s1 w .dst ((plan.pieces.zipIdx).map fun x => (x.2, x.1.2.1, x.1.2.2.length)) = (s', fs) → PiecesApart fs →
  ∃ (u v : State) (f : BitVec 7) (m : Nat),
    (∀ i j, writes i j → Covers fs (at_ i j) es ∧ ShowsAt fs u (at_ i j) (toBytes es (out i j).bits)) ∧ KeepsBut fs s' u
    ∧ (∀ k, k < 7 → (f.getLsbD k = true ↔ ∃ i j, writes i j ∧ ((out i j).flags.getLsbD k = true ∨ k = 6 ∧ isNan i j = true)))
    ∧ (∀ i j, writes i j → isNan i j = false → magF32 ty (out i j).bits ≤ m)
    ∧ (m = 0 ∨ ∃ i j, writes i j ∧ isNan i j = false ∧ magF32 ty (out i j).bits = m)
    ∧ (let u' := engLookups u w 6 11 (plan.pieces.map fun x => (0, x.2.1, x.2.2.length, Fate.unmapped))
       v = (if mx then locWrite u' (.mem pm sl rp) (toBytes 4 (max (rd u' pm 4) m)) else u').modBlk w.r.blk fun b =>
         { b with bflags := b.bflags ||| f.setWidth 32 })
    ∧ (w.b.nantrap.getLsbD 0 = false ∨ (∀ i j, writes i j → isNan i j = false) →
        exec (.mdrain sat mx d a b xr xk) s = .next (engDone v w.r.blk false))
    ∧ ∀ i j, w.b.nantrap.getLsbD 0 = true → writes i j → isNan i j = true →
        (∀ i' j', writes i' j' → 128 * i' + j' < 128 * i + j → isNan i' j' = false) →
        exec (.mdrain sat mx d a b xr xk) s = .next (engStop (v.modBlk w.r.blk fun b => { b with nantrap := b.nantrap &&& ~~~(1#32) })
          w 0x48#8 [u64 (i * 2 ^ 16 + j), u64 w.b.seq.drain, u64 (at_ i j), w.b.seq.next])

/-- R213 to R215, R252: a drain to a ZB format writes four quantised tiles: the blocks of each row's two sixteens of cells, as
QuantBlock encodes them with the drain's counters, then the trailer, and no other byte but the page-table entries it marks
dirty; the blocks' flags, and MNAN where an element is a NaN, go to BFLAGS. The drain is one step: log 16. -/
def Claim.DrainTiles : Prop := ∀ (d a b : BitVec 8) (xr xk : BitVec 12) (s s' : State) (w : Who) (fs : List EngPiece),
  let td := tileOf (tdOf w d)
  let m := fmtM td.fmt
  let cell (i j : Nat) : Nat := (sget 0#32 w.b.acc (16384 * a.toNat + 128 * i + j)).toNat
  let q (t i h : Nat) : Quant := quantBlock m w.b.seq.seed (w.b.seq.drain * 2 ^ 20 + 128 * i + (32 * t + 16 * h))
    ((List.range 16).map fun e => cell i (32 * t + 16 * h + e))
  let blocks (t : Nat) : List Quant := (List.range 128).flatMap fun i => [q t i 0, q t i 1]
  let payload (t : Nat) : List Byte := (blocks t).flatMap (·.bytes)
  let tile (t : Nat) : List Byte := payload t ++ trailerOf (fmtZf td.fmt) m (payload t) ((blocks t).map (·.sat)).sum
    ((blocks t).any fun x => x.und > 0) ((blocks t).any (·.inf))
  let at_ (t : Nat) : Nat := td.base.toNat + xr.toNat / 128 * td.stride + (xk.toNat + 32 * t) / 32 * (tilePayload m + 16)
  let plan := zbDrain w td a.toNat xr.toNat xk.toNat
  Streams s w → w.l.lrec.equinox = false → a.toNat < w.l.lrec.accregs → fmtZb td.fmt = true →
  checkDrain d.toNat td false none xr.toNat xk.toNat = none → w.b.nantrap.getLsbD 0 = false →
  td.base.toNat + 32 * td.stride + 132 * (tilePayload m + 16) ≤ 2 ^ 64 →
  engFates s w .dst ((plan.pieces.zipIdx).map fun x => (x.2, x.1.2.1, x.1.2.2.length)) = (s', fs) → PiecesApart fs →
  ∃ (u : State) (f : BitVec 7),
    (∀ t, t < 4 → ShowsAt fs u (at_ t) (tile t) ∧ ∀ k, k < (tile t).length → Covers fs (at_ t + k) 1) ∧ KeepsBut fs s' u
    ∧ (∀ k, k < 7 → (f.getLsbD k = true ↔ ∃ t i h, t < 4 ∧ i < 128 ∧ h < 2 ∧ ((q t i h).flags.getLsbD k = true
        ∨ k = 6 ∧ (unpackBlock m (q t i h).bytes).any Option.isNone = true)))
    ∧ exec (.mdrain false false d a b xr xk) s = .next (engDone
        ((engLookups u w 6 11 (plan.pieces.map fun x => (0, x.2.1, x.2.2.length, Fate.unmapped))).modBlk w.r.blk fun b =>
          { b with bflags := b.bflags ||| f.setWidth 32 }) w.r.blk false)

/-- R269: MLDACC loads a region from a tile, row-group by row-group; MCHK completes where no trailer fails, one tile after
another. Each is one step, MLDACC but for its last row-group: log 16. -/
def Claim.RegionTransfers : Prop := ∀ (d a : BitVec 8) (xr xk : BitVec 12) (xn : BitVec 8) (s s' : State) (w : Who)
    (get : Nat → List Byte),
  let ta := tileOf (tdOf w a)
  let ts := (List.range (xn.toNat + 1)).flatMap fun i => tilesAt ta xr.toNat 1 (xk.toNat + 32 * i) 32
  Streams s w → w.l.lrec.equinox = false →
  (checkLdacc a.toNat ta = none → d.toNat < w.l.lrec.accregs → (rprStart w.b).2 = 112 →
    EngReads (setRpr s w.r.blk (rprAt 0 112)) { w with b := { w.b with rpr := rprAt 0 112 } } 7 (opSpans ta (xr.toNat + 112) 16 xk.toNat 128) s' get →
    (∃ w', who? s' w.r = some w') → w.r.grp = w.b.seq.owner →
    ∃ t, exec (.mldacc d a xr xk) s = .next t ∧ ∀ i j, i < 16 → j < 128 → cellOf t w.r.blk d.toNat (112 + i) j =
      ldaccCell ta.fmt (((opValues ta 16 xk.toNat 128 get).getD i []).getD j 0))
  ∧ (checkMchk a.toNat ta xr.toNat xk.toNat = none → ChecksOut w ta.fmt ts 0 s s' →
    exec (.mchk a xr xk xn) s = .next (engDone s' w.r.blk false))

/-- R251 to R255, R264, R269: accumulator regions zeroed, drained, loaded and checked. -/
def Obligations.Regions : Prop := Claim.RegionsZeroed ∧ Claim.DrainWrites ∧ Claim.DrainTiles ∧ Claim.RegionTransfers

/-- R270: CPYACC moves a quarter of an accumulator row between a region and a vector register, lane by lane, and a whole
region to memory or from it: 128 rows of 512 bytes, a stride apart. Which writes of the group a transfer comes after: log
39. -/
def Claim.AccumulatorResults : Prop := ∀ (h : Hdr) (sid : BitVec 4) (d a b : BitVec 8) (s s' : State) (i : Iss)
    (fs : List (Nat × W64 × Nat × Fate)),
  let sel := (readS i.g b.toNat).toNat
  let stride := (readS i.g b.toNat).toNat
  let src := readSS i.g a.toNat
  let dst := readSS i.g d.toNat
  let at_ (r l : Nat) : Nat := 16384 * r + 128 * (sel % 128) + 32 * (sel / 128) + l
  let here := ∀ e ∈ tileOk fs, (∀ v pa slot, e.2.2 ≠ .dev v pa slot) ∧ ComesAfter i.g sid.toNat (pieceLen fs e.1) e.2.1 e.2.2
  let looked (type : Nat) : State := countLookups s' i.w type ((tileOk fs).map (·.2.1))
  (Issues s h false true { reads := regsOf true false b, writes := regsOf false false d } i → sel < 512 → a.toNat < i.w.l.lrec.accregs →
    ∃ x, exec (.cpyaccRd h d a b) s = .next (flown h i i.s [.v d.toNat i.act x] FlagSet.none)
      ∧ ∀ l, l < 32 → lget 0 x l = sget 0#32 i.w.b.acc (at_ a.toNat l))
  ∧ (Issues s h false true { reads := regsOf false false a ++ regsOf true false b } i → sel < 512 → d.toNat < i.w.l.lrec.accregs →
    ∃ acc, exec (.cpyaccWr h d a b) s = .next (passed h i (i.s.modBlk i.w.r.blk fun x => { x with acc := acc }))
      ∧ (∀ l, has i.act l = true → sget 0#32 acc (at_ d.toNat l) = readV i.g a.toNat l)
      ∧ ∀ k, (∀ l, has i.act l = true → k ≠ at_ d.toNat l) → sget 0#32 acc k = sget 0#32 i.w.b.acc k)
  ∧ (Issues s h false true { reads := regsOf true true d ++ regsOf true false b } i → a.toNat < i.w.l.lrec.accregs →
    rowFates i.s i.w .dst dst stride = (s', fs) → rowChecks i.w dst stride fs = .pass → i.g.sideLog = [] → i.g.sent = [] →
    i.w.l.lrec.equinox = false → (∀ e ∈ tileOk fs, ∀ v pa slot, e.2.2 ≠ .dev v pa slot) →
    ∃ u, Noted i.w.r (tileWrite (looked 1) i.w (reachedOf fs)
        ((List.range 16384).flatMap fun k => toBytes 4 (sget 0#32 i.w.b.acc (16384 * a.toNat + k)).toNat)).1 u
      ∧ exec (.cpyaccSt h sid d a b) s = .next (passed h i u))
  ∧ (Issues s h false true { reads := regsOf true true a ++ regsOf true false b } i → d.toNat < i.w.l.lrec.accregs →
    rowFates i.s i.w .src src stride = (s', fs) → rowChecks i.w src stride fs = .pass → i.g.sideLog = [] → i.g.sent = [] →
    i.w.l.lrec.equinox = false → here → (∀ e ∈ tileOk fs, locPoisoned (looked 0) (pieceLen fs e.1) e.2.2 = false) →
    ∃ t, exec (.cpyaccLd h sid d a b) s = .next (passed h i t) ∧ (i.w.r.blk < s'.blocks.length → ∀ r c, r < 128 → c < 128 →
      cellOf t i.w.r.blk d.toNat r c = BitVec.ofNat 32 (slice ((tileOk fs).flatMap fun e => locBytes (looked 0) (pieceLen fs e.1) e.2.2)
        (4 * (128 * r + c)) 4)))

/-- R227, R270: writing bytes to the pieces of a destination in this device's memory: each piece holds its bytes, every other
byte but the page-table entries marked dirty is as before, and nothing else changes but the notes of log 39. -/
def Claim.PiecesWritten : Prop := ∀ (s : State) (w : Who) (fs : List (Nat × W64 × Nat × Fate)) (bs : List Byte),
  let t := (tileWrite s w (reachedOf fs) bs).1
  w.l.lrec.equinox = false → PiecesApart fs → (fs.map (·.1)).Nodup → (∀ x ∈ fs, x.1 + x.2.2.1 ≤ bs.length) →
  Noted w.r { s with mem := t.mem } t ∧ KeepsBut fs s t
    ∧ ∀ x ∈ fs, ∀ pa slot rp, x.2.2.2 = .ok (.mem pa slot rp) → ∀ k, k < x.2.2.1 → byteOf t (pa + k) = bs.getD (x.1 + k) 0

/-- R227, R270: a transfer whose destination lies at another device has sent its writes there and waits for them; once all are
answered without an error, it completes. -/
def Claim.TransfersPerformed : Prop := ∀ (h : Hdr) (zf sc : BitVec 3) (sid : BitVec 4) (ck : Bool) (d a b c : BitVec 8) (s : State) (i : Iss),
  let ids := i.g.sent.map (·.2)
  let ends (e : Instr) (uniform : Bool) (u : Uses) : Prop :=
    Issues s h false uniform u i → i.g.sent ≠ [] → (∀ x ∈ i.g.sent, wroteKey ≤ x.1 ∧ x.1 < tornKey ∧ sget [] i.s.answers x.2 ≠ []
      ∧ (sget [] i.s.answers x.2).getD 0 0 ≠ 0xE0#8) →
    exec e s = .next (passed h i (({ i.s with answers := ids.foldl sdel i.s.answers } : State).modGrp i.w.r fun g =>
      { g with sent := [], reached := Checked.none }))
  ends (.qpkTile h zf sid sc d a c) false { reads := regsOf true true d ++ regsOf true true a ++ regsOf true false c }
  ∧ ends (.qunpkTile h zf sid sc ck d a) false { reads := regsOf true true d ++ regsOf true true a }
  ∧ (a.toNat < i.w.l.lrec.accregs → ends (.cpyaccSt h sid d a b) true { reads := regsOf true true d ++ regsOf true false b })

/-- R227, R270: the copies of accumulator regions, and what a transfer to memory leaves there, at this device and at others. -/
def Obligations.AccumulatorCopies : Prop := Claim.AccumulatorResults ∧ Claim.PiecesWritten ∧ Claim.TransfersPerformed

/-! ### Block formats and flags, OPC 0xD1 to 0xD4 -/

/-- R226, R227: QPK encodes sixteen f32 values of each lane into a block with its counts, and QUNPK decodes a block; the tile
forms do the same between two ranges of memory, QUNPK's after its trailer where the form asks; `PiecesWritten` says what
the pieces hold then. Which writes of the group a transfer comes after: log 39. -/
def Obligations.QuantiseResults : Prop := ∀ (h : Hdr) (zf sc : BitVec 3) (sid : BitVec 4) (ck : Bool) (d a c : BitVec 8) (s s1 s2 : State) (i : Iss)
    (fs fd : List (Nat × W64 × Nat × Fate)),
  let m := zbM zf.toNat
  let k := zbRegs m
  let q (l : Nat) : Quant :=
    quantBlock m i.w.b.seed (readV i.g c.toNat l).toNat ((List.range 16).map fun j => (readV i.g (a.toNat + j) l).toNat)
  let src := readSS i.g a.toNat
  let dst := readSS i.g d.toNat
  let tileN := tilePayload m + 16
  let s3 := countLookups (countLookups s2 i.w 0 ((tileOk fs).map (·.2.1))) i.w 1 ((tileOk fd).map (·.2.1))
  let bytes := (tileOk fs).flatMap fun e => locBytes s3 (pieceLen fs e.1) e.2.2
  let moves (s0 : State) (ns nd : Nat) : Prop := rangeFates s0 i.w .src src ns = (s1, fs) ∧ rangeFates s1 i.w .dst dst nd = (s2, fd)
    ∧ tileChecks i.w src dst ns nd fs fd = .pass ∧ i.g.sideLog = [] ∧ i.g.sent = [] ∧ i.w.l.lrec.equinox = false
    ∧ (∀ e ∈ tileOk fs, (∀ v pa slot, e.2.2 ≠ .dev v pa slot) ∧ ComesAfter i.g sid.toNat (pieceLen fs e.1) e.2.1 e.2.2
        ∧ locPoisoned s3 (pieceLen fs e.1) e.2.2 = false) ∧ ∀ e ∈ tileOk fd, ∀ v pa slot, e.2.2 ≠ .dev v pa slot
  let flags (f : BitVec 7) (t : State) : State := t.modGrp i.w.r (raiseFlags (diagMode t i.w.c) (FlagSet.ofGroup f))
  (Issues s h false false { reads := regRun false a 16 ++ [.v c.toNat], writes := regRun false d (k + 1) } i →
    ∃ (xs : Nat → Lanes W32) (f : FlagSet), exec (.qpk h zf d a c) s = .next (flown h i i.s
        ((List.range (k + 1)).map fun j => .v (d.toNat + j) i.act (xs j)) f)
      ∧ ∀ l, has i.act l = true → lget 0 f.lanes l = (q l).flags
        ∧ (∀ j, j < k → lget 0 (xs j) l = u32 (slice (q l).bytes (4 * j) 4))
        ∧ lget 0 (xs k) l = u32 ((q l).sat + 2 ^ 8 * (q l).nan + 2 ^ 16 * (q l).und))
  ∧ (Issues s h false false { reads := regRun false a k, writes := regRun false d 16 } i →
    ∃ xs : Nat → Lanes W32, exec (.qunpk h zf d a) s = .next (flown h i i.s
        ((List.range 16).map fun j => .v (d.toNat + j) i.act (xs j)) FlagSet.none)
      ∧ ∀ l, has i.act l = true → ∀ j, j < 16 → lget 0 (xs j) l =
          u32 (((unpackBlock m ((toBytes (4 * k) (readRun i.g a k l)).take (zbBytes m))).map elemF32).getD j 0))
  ∧ (Issues s h false false { reads := regsOf true true d ++ regsOf true true a ++ regsOf true false c } i →
    moves (i.s.modGrp i.w.r fun g => { g with seed := i.w.b.seed }) (4 * tileElems) tileN →
    let out := quantTile zf.toNat i.w.b.seed (readS i.g c.toNat).toNat (wordsIn tileElems bytes)
    ∃ u, Noted i.w.r (flags out.2 (tileWrite s3 i.w (reachedOf fd) out.1).1) u ∧ exec (.qpkTile h zf sid sc d a c) s = .next (passed h i u))
  ∧ (Issues s h false false { reads := regsOf true true d ++ regsOf true true a } i → moves i.s tileN (4 * tileElems) →
    (ck = true → verifyTrailer zf.toNat m (bytes.take (tilePayload m)) (bytes.drop (tilePayload m)) = none) →
    ∃ u, Noted i.w.r (flags 0 (tileWrite s3 i.w (reachedOf fd)
        ((blocksOf m (bytes.take (tilePayload m))).flatMap fun y => (unpackBlock m y).flatMap fun x => toBytes 4 (elemF32 x))).1) u
      ∧ exec (.qunpkTile h zf sid sc ck d a) s = .next (passed h i u))

/-- R219, R228: FLRD reads FLAGS, BFLAGS or the masks of the lane flags once every earlier contribution is in, and clears what it
reads where the form asks; FLCLR clears the flags of its mask in FLAGS or BFLAGS. Outside diagnostic mode there are no lane flags. -/
def Obligations.FlagReads : Prop := ∀ (h : Hdr) (clr : Bool) (mask d : BitVec 8) (s : State) (i : Iss),
  let diag := diagMode i.s i.w.c
  let g1 := arriveIf diag (fun _ => true) (commitAll diag i.g)
  let m : BitVec 7 := mask.setWidth 7
  let t1 := i.s.modGrp i.w.r fun _ => g1
  let lane (k : Nat) : W32 := if diag then maskOf fun l => (lget 0 g1.laneFlags l).getLsbD k else 0
  (Issues s h false true { writes := regRun true d 1 } i →
    exec (.flrd h 0 clr d) s = .next (flown h i (if clr then t1.modGrp i.w.r fun g =>
        { g with flags := g.flags &&& ~~~(0x7F#32), laneFlags := g.laneFlags.map fun _ => 0#5 } else t1) [.s d.toNat (readFlags diag g1)] FlagSet.none)
    ∧ exec (.flrd h 1 clr d) s = .next (flown h i (if clr then t1.modBlk i.w.r.blk fun b => { b with bflags := 0 } else t1)
      [.s d.toNat i.w.b.bflags] FlagSet.none))
  ∧ (Issues s h false true { writes := regRun true d 5 } i →
    exec (.flrd h 2 clr d) s = .next (flown h i (if clr then t1.modGrp i.w.r fun g => { g with laneFlags := Vector.replicate 32 0#5 } else t1)
      ((List.range 5).map fun k => .s (d.toNat + k) (lane k)) FlagSet.none))
  ∧ (Issues s h false true {} i →
    exec (.flclr h 0 mask) s = .next (passed h i (t1.modGrp i.w.r fun g =>
        { g with flags := g.flags &&& ~~~(m.setWidth 32), laneFlags := g.laneFlags.map fun f => f &&& ~~~(m.setWidth 5) }))
    ∧ exec (.flclr h 1 mask) s = .next (passed h i (t1.modBlk i.w.r.blk fun b => { b with bflags := b.bflags &&& ~~~(m.setWidth 32) })))

/-! ### Monitors, OPC 0xD8 to 0xDC -/

/-- R275, R276, R283, R285 to R287: with every earlier write counted, MONCFG with a valid configuration starts a monitor at zero,
MONREF sets its reference and bound, MONRD reads a sum or the status word, MONCLR restarts it at zero and MONSTP stops it; no
other monitor changes. A monitor that starts is in its block's current phase, and counts no write issued before (`epoch`, R287);
the partials that such writes still count into are kept apart (`kept`). A monitor that is not declared is cause 0x72. TVAL0 of 0x72 is a free value (log 23). -/
def Obligations.MonitorResults : Prop := ∀ (h : Hdr) (d a b : BitVec 8) (s : State) (i : Iss) (m : Monitor),
  let at_ (n : BitVec 8) : Prop := i.w.b.mons[n.toNat]? = some m ∧ (i.s.blocks[i.w.r.blk]?).map (·.mons) = some i.w.b.mons
    ∧ i.g.sideLog = [] ∧ i.w.l.bufs = []
  let sets (e : Instr) (m' : Monitor) : Prop := exec e s = .next (passed h i (i.s.modBlk i.w.r.blk fun y => { y with mons := y.mons.set d.toNat m' }))
  let kept : List MonPast := (cleared i.w.l i.w.r.blk i.w.b d.toNat m).past
  let zero (m : Monitor) : Monitor := { m with st := .run, nf := false, ov := false, ls := false, dr := false, mg := 0, c := 0, cur := 0, nxt := 0,
                                               phase := blockPhase i.w.l i.w.r.blk i.w.b (monBN m), epoch := m.epoch + 1, past := kept }
  let cfg : Vector W32 8 := Vector.ofFn fun k => readS i.g (a.toNat + k.val)
  let out (n : Nat) : Uses := { writes := (List.range n).map fun k => Reg.s (d.toNat + k) }
  let words (x : Int) : List RegWrite := (List.range 8).map fun k => .s (d.toNat + k) (BitVec.ofInt 256 x |>.extractLsb' (32 * k) 32)
  (at_ d →
    (Issues s h false true { reads := (List.range 8).map fun k => Reg.s (a.toNat + k) } i → checkConfig i.w.l cfg = .ok →
      sets (.moncfg h d a) (zero { m with cfg := cfg }))
    ∧ (Issues s h false true { reads := (List.range 4).map (fun k => Reg.s (a.toNat + k)) ++ regsOf true true b } i → m.st ≠ .off →
      sets (.monref h d a b) { m with ref := readSS i.g (a.toNat + 2) ++ readSS i.g a.toNat, bound := readSS i.g b.toNat })
    ∧ (Issues s h false true {} i → m.st ≠ .off → sets (.monclr h d) (zero m))
    ∧ (Issues s h false true {} i → m.st = .run → sets (.monstp h d) { m with st := .stopped })
    ∧ (Issues s h false true {} i → m.st ≠ .run → exec (.monstp h d) s = .next (passed h i i.s)))
  ∧ (at_ a →
    (Issues s h false true (out 8) i → exec (.monrdC h d a) s = .next (flown h i i.s (words m.c) FlagSet.none)
      ∧ exec (.monrdP h d a) s = .next (flown h i i.s (words m.cur) FlagSet.none))
    ∧ (Issues s h false true (out 1) i → exec (.monrdSt h d a) s = .next (flown h i i.s [.s d.toNat (u32 (statusWord m))] FlagSet.none)))
  ∧ (Issues s h false true {} i → i.w.b.mons.length ≤ d.toNat →
    exec (.monstp h d) s = .next (enterHandler i.s i.w.r (preciseEntry i.w 0x72#8 i.act [Config.openTval i.s.fresh 0, 1] false)))

/-! ### Special registers, traps and allocation, OPC 0xE0 to 0xEB -/

/-- R37, R126, R127: RDSR reads a special register for each acting lane or into uniform registers, the registers of a handler as zero
outside one; WRSR writes the bits that exist of
a group's or a block's special register; FEBUDGET is written in handler mode only, clamped, for the block and the context. -/
def Obligations.SpecialRegisters : Prop := ∀ (h : Hdr) (ud : Bool) (num d a : BitVec 8) (s : State) (i : Iss),
  let v := readS i.g a.toNat
  let wr (n : BitVec 8) (t : State) : Prop := num = n → Issues s h false false { reads := regsOf true (sr64 n) a } i →
    exec (.wrsr h num a) s = .next (passed h i t)
  let grp (f : Group → Group) : State := i.s.modGrp i.w.r f
  let blk (f : Block → Block) : State := i.s.modBlk i.w.r.blk f
  let clamped : W32 := if v = 0#32 then 1#32 else if 0x100000#32 < v then 0x100000#32 else v
  (Issues s h false false { writes := regsOf ud (sr64 num) d, lat := some 2 } i →
    exec (.rdsr h ud num d) s = .next (pended h i i.s 2
      (results ud (sr64 num) d i.act fun l => { bits := specialReg i.s i.w num l, flags := 0 }).1 FlagSet.none))
  ∧ (∀ l, (specialReg i.s i.w 0x00#8 l = l ∧ specialReg i.s i.w 0x01#8 l = i.w.r.grp ∧ specialReg i.s i.w 0x02#8 l = i.w.b.ordinal
      ∧ specialReg i.s i.w 0x03#8 l = i.w.b.core ∧ specialReg i.s i.w 0x04#8 l = i.v.swc.toNat ∧ specialReg i.s i.w 0x05#8 l = i.s.tick)
    ∧ (specialReg i.s i.w 0x08#8 l = (if diagMode i.s i.w.c = true then
        i.g.flags ||| ((i.g.laneFlags.toList.foldl (· ||| ·) 0#5).setWidth 32) ||| 0x80000000#32 else i.g.flags).toNat
      ∧ specialReg i.s i.w 0x09#8 l = i.w.b.bflags.toNat ∧ specialReg i.s i.w 0x0A#8 l = i.g.sfm.toNat
      ∧ specialReg i.s i.w 0x0B#8 l = i.g.dropcnt.toNat ∧ specialReg i.s i.w 0x0C#8 l = i.g.chkmode.toNat
      ∧ specialReg i.s i.w 0x0D#8 l = i.w.b.nantrap.toNat ∧ specialReg i.s i.w 0x0E#8 l = i.w.b.seed.toNat
      ∧ specialReg i.s i.w 0x0F#8 l = i.w.b.rpr.toNat ∧ specialReg i.s i.w 0x10#8 l = i.w.b.febudget.toNat
      ∧ specialReg i.s i.w 0x11#8 l = i.w.l.lrec.emuv.toNat ∧ specialReg i.s i.w 0x12#8 l = i.w.l.lrec.trapv.toNat)
    ∧ (∀ n ∈ [0x18#8, 0x19#8, 0x1A#8, 0x1C#8, 0x1D#8, 0x1E#8, 0x1F#8], i.g.frames = [] → specialReg i.s i.w n l = 0)
    ∧ ∀ f rest, i.g.frames = f :: rest → specialReg i.s i.w 0x18#8 l = f.cause.toNat ∧ specialReg i.s i.w 0x19#8 l = f.emask.toNat
      ∧ specialReg i.s i.w 0x1A#8 l = f.epos.toNat
      ∧ ∀ (n : BitVec 8) (k : Fin 4), n.toNat = 0x1C + k.val → specialReg i.s i.w n l = (f.tval[k]).toNat)
  ∧ wr 0x08#8 (grp fun g => { g with flags := v &&& 0x7F#32, laneFlags := g.laneFlags.map fun f => f &&& v.setWidth 5 })
  ∧ wr 0x09#8 (blk fun b => { b with bflags := v &&& 0x7F#32 })
  ∧ wr 0x0A#8 (grp fun g => { g with sfm := v })
  ∧ wr 0x0B#8 (grp fun g => { g with dropcnt := v })
  ∧ wr 0x0C#8 (grp fun g => { g with chkmode := v &&& 3#32 })
  ∧ wr 0x0D#8 (blk fun b => { b with nantrap := v &&& 1#32 })
  ∧ wr 0x0E#8 (blk fun b => { b with seed := readSS i.g a.toNat })
  ∧ (i.g.frames ≠ [] → wr 0x10#8 ((blk fun b => { b with febudget := clamped }).setCtx i.w.c { i.s.ctx i.w.c with febudget := clamped }))
  ∧ (i.g.frames = [] → num = 0x10#8 → Issues s h false false { reads := regsOf true false a } i →
    exec (.wrsr h num a) s = .next (enterHandler i.s i.w.r (preciseEntry i.w 0x08#8 i.act [] false)))

/-- R300: TRAP raises its code, 0xF0 to 0xFF, precisely, with EMASK = G, TVAL0 the code and the other TVALs 0; `trap.kill` terminates
the block with the code and TVALs of 0, or, in handler mode with code 0, with the cause being handled and its TVALs. With G empty
neither has an effect. -/
def Obligations.TrapEffect : Prop := ∀ (h : Hdr) (code : BitVec 8) (s : State) (i : Iss),
  ((Instr.trap h code).wf = true → 0xF0#8 ≤ code)
  ∧ (foundBy s h false false {} = some i → i.act = 0#32 →
    exec (.trap h code) s = .next (passed h i i.s) ∧ exec (.trapKill h code) s = .next (passed h i i.s))
  ∧ (Issues s h false false {} i →
    exec (.trap h code) s = .next (enterHandler i.s i.w.r (preciseEntry i.w code i.act [code.setWidth 64, 0, 0, 0] false))
    ∧ (i.g.frames = [] ∨ code ≠ 0#8 → exec (.trapKill h code) s = .next (terminateWith i.s i.w.r.blk code [0, 0, 0, 0]))
    ∧ ∀ f rest, i.g.frames = f :: rest → code = 0#8 → exec (.trapKill h code) s = .next (terminate i.s i.w.r.blk f.cause f.tval))

/-- R138, R302, R353: BKPT enters the handler with 0xD0, or, where debugger stops are enabled, stops its group, with every result on
its way arrived; once resumed it only moves on. -/
def Claim.BkptResult : Prop := ∀ (h : Hdr) (n : BitVec 8) (s : State) (i : Iss), Issues s h false true {} i →
  (debugStops i.s i.w.c = false →
    exec (.bkpt h n) s = .next (enterHandler i.s i.w.r (preciseEntry i.w 0xD0#8 i.act [n.setWidth 64] false)))
  ∧ (debugStops i.s i.w.c = true → i.g.status ≠ .resumed → exec (.bkpt h n) s =
      .next (i.s.modGrp i.w.r fun g => { arriveIf (diagMode i.s i.w.c) (fun _ => true) g with status := .stopped }))
  ∧ (debugStops i.s i.w.c = true → i.g.status = .resumed → exec (.bkpt h n) s = .next (passed h i i.s))

/-- R288, R290, R291, R294: taking a cause below depth 2, with a bank free and a handler's region at its vector, commits the
pending writes and puts a new level on top: the frame of the level below is kept as it stands, CAUSE, EMASK and EPOS are the
cause's, every stated TVAL stands in its place, the bank reads zero, and the lanes of EMASK alone are live, at label 0.
A TVAL that no rule states is a free value (log 23). -/
def Claim.HandlerEntry : Prop := ∀ (s s' : State) (w : Who) (e : Entry) (rg : Region),
  let base := if 0x80#8 ≤ e.cause ∧ e.cause ≤ 0x84#8 then w.l.lrec.emuv else w.l.lrec.trapv
  who? s w.r = some w → w.g.frames.length < 2 → bankFree s w (w.g.frames.length + 1) = true → base ≠ 0#64 →
  readRegion s w.tlbs w.c base = (s', .ok (some rg)) → rg.n ≤ 255 →
  ∃ (f : HandlerFrame) (u : State), enterHandler s w.r e = u.modGrp w.r (fun g =>
      let g := commitAll (diagMode s' w.c) g; { g with status := .ready, told := [], frames := f :: g.frames })
    ∧ u = { s' with fresh := s'.fresh + 1 }
    ∧ f.cause = e.cause ∧ f.emask = e.emask ∧ f.epos = e.epos ∧ (∀ k x, e.tv[k]? = some x → k < 4 → f.tval[k]? = some x)
    ∧ f.h = [] ∧ f.hs = [] ∧ f.lvl.base = rg.base ∧ f.lvl.phase = .enter 0 false ∧ f.lvl.q = 0 ∧ f.lvl.p = Vector.replicate 7 0#32
    ∧ ∀ l, l < 32 → wlOf f.lvl l = (if has e.emask l then 0#16 else 0xFFFF#16) ∧ riOf f.lvl l = 0#12

/-- R35, R292, R293, R316: a cause at depth 2 is fatal with 0x83, its TVALs the cause, the extension word or zero, zero and zero; one
whose vector is 0 is fatal with 0xA1; with no bank free the group keeps the cause and does nothing else. That one whose descriptor
lies on an unmapped page records the page and waits for the fault service is the model's choice (log 41). -/
def Claim.FatalEntries : Prop := ∀ (s : State) (w : Who) (e : Entry), who? s w.r = some w →
  (2 ≤ w.g.frames.length → enterHandler s w.r e =
    terminateWith s w.r.blk 0x83#8 [e.cause.setWidth 64, if e.raw = 0#64 then extHere s w else e.ext, 0, 0])
  ∧ (w.g.frames.length < 2 → bankFree s w (w.g.frames.length + 1) = false →
    enterHandler s w.r e = s.modGrp w.r fun g => { g with status := .entering e })
  ∧ (w.g.frames.length < 2 → bankFree s w (w.g.frames.length + 1) = true →
    (if 0x80#8 ≤ e.cause ∧ e.cause ≤ 0x84#8 then w.l.lrec.emuv else w.l.lrec.trapv) = 0#64 →
    enterHandler s w.r e = terminateWith s w.r.blk 0xA1#8 [e.cause.setWidth 64])
  ∧ (w.g.frames.length < 2 → bankFree s w (w.g.frames.length + 1) = true → vectorOf w.l e.cause ≠ 0#64 → ∀ s1 va s2,
    readRegion s w.tlbs w.c (vectorOf w.l e.cause) = (s1, .error (.unmapped va)) → faultRecord s1 w.c va 4 false w.res w.b.core = .ok s2 →
    enterHandler s w.r e = s2.modGrp w.r fun g => { g with status := .entering { e with svc := true } })

/-- R288 to R294: handlers entered, and causes that are fatal. -/
def Obligations.TakingExceptions : Prop := Claim.HandlerEntry ∧ Claim.FatalEntries

/-- R303: ERET and ERETX return from a handler of a precise cause whose lower level's region can be read: pending writes
commit, the frame goes, and the level below is as it was, past the instruction after ERET and at it after ERETX. -/
def Obligations.HandlerReturns : Prop := ∀ (h : Hdr) (s s' : State) (i : Iss) (f : HandlerFrame) (rest : List HandlerFrame) (long : Bool) (rg : Region),
  let below := i.g.levelAt rest.length
  let back (e : Instr) (resume : Bool) : Prop := ∃ t g, exec e s = .next t ∧ t.grp? i.w.r = some g ∧ g.frames.length = rest.length
    ∧ g.cl.wl = below.wl ∧ g.cl.ri = below.ri ∧ g.cl.label = below.label ∧ g.cl.p = below.p ∧ g.cl.q = below.q ∧ g.cl.swc = below.swc
    ∧ g.cl.ord = (if resume then below.ord else below.ord + 1)
    ∧ g.cl.off = (if resume then below.off else below.off + (if long then 16 else 8)) ∧ g.pend = [] ∧ g.clock = i.g.clock + 1 + h.stall.toNat
  Issues s h false true {} i → i.g.frames = f :: rest → f.kind = .precise long → s'.grp? i.w.r = some i.g →
  readRegion i.s i.w.tlbs i.w.c below.base = (s', .ok (some rg)) → back (.eret h) false ∧ back (.eretx h) true

/-- R297, R301: EWRD by kind 1 or 2 reads a register of the faulting level into the bank, and EWWR writes one from the bank, on the
lanes it acts on; the handler's own level stays. -/
def Claim.WindowNumbers : Prop := ∀ (h : Hdr) (d a : BitVec 8) (s : State) (i : Iss) (f : HandlerFrame) (below : List HandlerFrame),
  let lvl := below.length
  let v : EwSel := { cls := .v, n := a.toNat, cnt := 1 }
  i.g.frames = f :: below → i.g.inflight = [] → (s.onTurn.map (·.g.frames)) = some i.g.frames →
  (224 ≤ d.toNat → ewBeyond i.w lvl v = false →
    (Issues s h false false { writes := [.v d.toNat], below := [.v a.toNat] } i →
      ∃ x, exec (.ewrd h 1 0 d a) s = .next (flown h i i.s [.v d.toNat i.act x] FlagSet.none) ∧ ∀ l, l < 32 → lget 0 x l = readVAt i.g lvl a.toNat l)
    ∧ (Issues s h false false { reads := [.v d.toNat], putsBelow := [.v a.toNat] } i → ∃ x, exec (.ewwr h 1 0 a d) s =
        .next (passed h i (i.s.modGrp i.w.r fun g => applyWrite lvl g (.v a.toNat i.act x))) ∧ ∀ l, l < 32 → lget 0 x l = readV i.g d.toNat l))
  ∧ (112 ≤ d.toNat → d.toNat < 128 → a.toNat < 128 →
    (Issues s h false false { writes := [.s d.toNat], below := [.s a.toNat] } i →
      exec (.ewrd h 2 0 d a) s = .next (flown h i i.s [.s d.toNat (readSAt i.g lvl a.toNat)] FlagSet.none))
    ∧ (Issues s h false false { reads := [.s d.toNat], putsBelow := [.s a.toNat] } i →
      exec (.ewwr h 2 0 a d) s = .next (passed h i (i.s.modGrp i.w.r fun g => applyWrite lvl g (.s a.toNat (readS i.g d.toNat))))))

/-- R301: EWRD by the other kinds reads predicates, WL and RI of the faulting level lane by lane into h, and a uniform predicate,
tile and wait descriptors, a block counter, the raw word, the region's base and the operand window, and by kind 0 an immediate or the
extension word, into hs. That a lane's number
fills one register of h is log 28's reading. -/
def Claim.WindowReads : Prop := ∀ (h : Hdr) (r a : BitVec 8) (s : State) (i : Iss) (f : HandlerFrame) (below : List HandlerFrame),
  let v := i.g.levelAt below.length
  let word (x k : Nat) : W32 := u32 (x / 2 ^ (32 * k))
  let lanesTo (kind : BitVec 4) (from_ : List Reg) (x : Nat → W32) : Prop := 224 ≤ r.toNat →
    Issues s h false false { writes := [.v r.toNat], below := from_ } i →
    ∃ y, exec (.ewrd h kind 0 r a) s = .next (flown h i i.s [.v r.toNat i.act y] FlagSet.none) ∧ ∀ l, l < 32 → lget 0 y l = x l
  let wordsTo (kind : BitVec 4) (from_ : List Reg) (xs : List W32) : Prop := 112 ≤ r.toNat → r.toNat + xs.length ≤ 128 →
    Issues s h false false { writes := (List.range xs.length).map fun k => .s (r.toNat + k), below := from_ } i →
    exec (.ewrd h kind 0 r a) s =
      .next (flown h i i.s ((List.range xs.length).map fun k => .s (r.toNat + k) (xs.getD k 0)) FlagSet.none)
  let inside : Prop := below.length = 1 → i.act &&& ~~~(liveMask v) = 0#32
  i.g.frames = f :: below → i.g.inflight = [] → (s.onTurn.map (·.g.frames)) = some i.g.frames →
  lanesTo 3 [.p a.toNat] (fun l => if has (pOf v a.toNat) l then 1 else 0)
  ∧ (inside → lanesTo 5 [] (fun l => (wlOf v l).setWidth 32) ∧ lanesTo 6 [] (fun l => (riOf v l).setWidth 32))
  ∧ wordsTo 4 [.q a.toNat] [if qOf v a.toNat then 1 else 0]
  ∧ (∀ n : Fin 16, a.toNat = n.val →
    wordsTo 7 [] ((List.range 4).map (word i.w.b.tiles[n].toNat)) ∧ (n.val < i.w.l.lrec.nbctrs → wordsTo 9 [] [i.w.b.nb[n]]))
  ∧ (∀ n : Fin 4, a.toNat = n.val → wordsTo 8 [] ((List.range 4).map (word i.g.w[n].toNat)))
  ∧ (∀ x, f.ew[a.toNat % 4]? = some x → (x.extractLsb' 28 4 = 9#4 → wordsTo 0 [] [(x.extractLsb' 0 16).setWidth 32])
      ∧ (x.extractLsb' 28 4 = 10#4 → wordsTo 0 [] [lo32 f.ext]))
  ∧ wordsTo 10 [] [lo32 f.raw, hi32 f.raw, lo32 f.ext, hi32 f.ext]
  ∧ wordsTo 11 [] [lo32 v.base, hi32 v.base] ∧ wordsTo 12 [] f.ew.toList

/-- R301, R316: EWWR by the other kinds writes a predicate, WL or RI of the lanes it acts on, a uniform predicate, and a tile or wait
descriptor, at once; WL and RI clear DEFM of those lanes, a WL that is no label of the region is cause 0x01, and the kinds that are
only read are 0x09. -/
def Claim.WindowWrites : Prop := ∀ (h : Hdr) (r a : BitVec 8) (s : State) (i : Iss) (f : HandlerFrame) (below : List HandlerFrame),
  let v := i.g.levelAt below.length
  let hs (k : Nat) : Nat := (readS i.g (r.toNat + k)).toNat
  let wide : W128 := BitVec.ofNat 128 (hs 0 + hs 1 * 2 ^ 32 + hs 2 * 2 ^ 64 + hs 3 * 2 ^ 96)
  let vec (l : Nat) : Nat := (readV i.g r.toNat l).toNat
  let use (n : Nat) (puts : List Reg) : Prop := Issues s h false false
    { reads := (List.range n).map fun k => if r.toNat ≥ 224 then Reg.v (r.toNat + k) else .s (r.toNat + k), putsBelow := puts } i
  let trap (kind : BitVec 4) (c : BitVec 8) : Prop := exec (.ewwr h kind 0 a r) s = .next (enterHandler i.s i.w.r (preciseEntry i.w c i.act [] false))
  let label (l : Nat) : Prop := vec l % 2 ^ 16 < v.n ∨ vec l % 2 ^ 16 = 0xFFFF ∨ (vec l % 2 ^ 16 = 0xFFFE ∧ below = [] ∧ i.g.calls ≠ [])
  let inside : Prop := below.length = 1 → i.act &&& ~~~(liveMask v) = 0#32
  let puts (kind : BitVec 4) (u : Level) : Prop :=
    exec (.ewwr h kind 0 a r) s = .next (passed h i (i.s.modGrp i.w.r fun g => g.modLevel below.length fun _ => u))
  i.g.frames = f :: below → i.g.inflight = [] → (s.onTurn.map (·.g.frames)) = some i.g.frames →
  (224 ≤ r.toNat →
    (use 1 [.p a.toNat] → ∃ m, exec (.ewwr h 3 0 a r) s = .next (passed h i (i.s.modGrp i.w.r fun g =>
      applyWrite below.length g (.p a.toNat i.act m))) ∧ ∀ l, l < 32 → has m l = (vec l).testBit 0)
    ∧ (use 1 [] → inside → (∀ l, l < 32 → has i.act l = true → label l) → ∃ wl, puts 5 { v with wl := wl, defm := v.defm &&& ~~~i.act }
      ∧ ∀ l, l < 32 → lget 0 wl l = if has i.act l then BitVec.ofNat 16 (vec l) else wlOf v l)
    ∧ (use 1 [] → inside → (∃ l, l < 32 ∧ has i.act l = true ∧ ¬ label l) → trap 5 0x01#8)
    ∧ (use 1 [] → inside → ∃ ri, puts 6 { v with ri := ri, defm := v.defm &&& ~~~i.act }
      ∧ ∀ l, l < 32 → lget 0 ri l = if has i.act l then BitVec.ofNat 12 (vec l) else riOf v l))
  ∧ (112 ≤ r.toNat → r.toNat < 128 →
    (use 1 [.q a.toNat] → exec (.ewwr h 4 0 a r) s =
      .next (passed h i (i.s.modGrp i.w.r fun g => applyWrite below.length g (.q a.toNat ((hs 0).testBit 0)))))
    ∧ (r.toNat + 4 ≤ 128 → use 4 [] →
      (∀ n : Fin 16, a.toNat = n.val → exec (.ewwr h 7 0 a r) s =
        .next (passed h i (i.s.modBlk i.w.r.blk fun b => { b with tiles := b.tiles.set n wide })))
      ∧ (∀ n : Fin 4, a.toNat = n.val → exec (.ewwr h 8 0 a r) s =
        .next (passed h i (i.s.modGrp i.w.r fun g => { g with w := g.w.set n wide }))))
    ∧ (use 1 [] → trap 9 0x09#8) ∧ (use 4 [] → trap 10 0x09#8 ∧ trap 12 0x09#8) ∧ (use 2 [] → trap 11 0x09#8))

/-- R297, R301: kind 0 moves what the operand's descriptor names, as the kind of its class does for that number. -/
def Claim.WindowDescriptors : Prop := ∀ (h : Hdr) (nw : BitVec 2) (r a : BitVec 8) (s : State) (w : Who) (f : HandlerFrame) (below : List HandlerFrame)
    (c : Nat) (kind : BitVec 4),
  let x := (f.ew[a.toNat % 4]?).getD 0#32
  s.onTurn = some w → w.g.frames = f :: below → (x.extractLsb' 28 4).toNat = c → (x.extractLsb' 0 16).toNat < 256 →
  (c, kind) ∈ [(1, 1#4), (2, 2#4), (3, 3#4), (4, 4#4), (5, 7#4), (7, 8#4), (8, 9#4)] →
  exec (.ewrd h 0 nw r a) s = exec (.ewrd h kind (x.extractLsb' 26 2) r (x.extractLsb' 0 8)) s
    ∧ exec (.ewwr h 0 nw a r) s = exec (.ewwr h kind (x.extractLsb' 26 2) (x.extractLsb' 0 8) r) s

/-- R297, R301, R316: what EWRD and EWWR move, by every kind. -/
def Obligations.WindowAccess : Prop := Claim.WindowNumbers ∧ Claim.WindowReads ∧ Claim.WindowWrites ∧ Claim.WindowDescriptors

/-- R354, R355: TRIG posts its trigger to this device, ahead of triggers of higher numbers that are still to arrive, and under scope 5
sends it to every other device of the pod, and moves on. -/
def Claim.TriggerPosts : Prop := ∀ (h : Hdr) (sc : BitVec 3) (n : BitVec 8) (s : State) (i : Iss), Issues s h false true {} i →
  let e : Instr := .triggerMessage n.toNat { flit := none, device := i.s.device } (u64 i.s.tick)
  let t : State := { i.s with agenda := insTrigger n.toNat (.event e) i.s.agenda }
  (sc = 4#3 → exec (.trig h sc n) s = .next (passed h i t))
  ∧ (sc = 5#3 → ∃ u, exec (.trig h sc n) s = .next (passed h i u) ∧ u.agenda = t.agenda
      ∧ u.outbox.length = s.outbox.length + (s.devices.filter (· ≠ s.device)).length ∧ s.outbox <+: u.outbox
      ∧ (∀ t, t ∈ u.agenda ↔ t = .event e ∨ t ∈ i.s.agenda)
      ∧ ∀ m ∈ u.outbox.drop s.outbox.length, m.body = .trigger n.toNat (u64 i.s.tick) ∧ m.dst ∈ s.devices ∧ m.dst ≠ s.device)

/-- R302, R353, R354: the instructions that the debugger and the pod see. -/
def Obligations.DebugInstructions : Prop := Claim.BkptResult ∧ Claim.TriggerPosts

/-- R38 to R40: GROW that fits in its partition with no other request waiting takes effect at once: the new registers read zero
and s[D] takes the new count; beyond 256 registers it is cause 0x07. SHRINK of less than the allocation gives its top granules up,
and s[D] takes the count that is left; the tags of the granules given up rise by 1 (R39). With no granule asked for either commits pending writes and reads the count (R21). A granule
given up with a result on its way to it is not free before that arrives (R38). That GROW and SHRINK read s[B] as it stands before
that commit is the model's choice (log 40). -/
def Obligations.Allocation : Prop := ∀ (h : Hdr) (imm : Bool) (d b : BitVec 8) (s : State) (i : Iss),
  let k := if imm then b.toNat else (readS i.g b.toNat).toNat
  let u : Uses := { reads := if imm then [] else [.s b.toNat], writes := [.s d.toNat] }
  let mine (st : State) : Nat := freeRegs st i.w.b.core (i.w.r.grp % 4)
  let count := flown h i (i.s.modGrp i.w.r fun g => commitAll (diagMode i.s i.w.c) g) [.s d.toNat (BitVec.ofNat 32 i.g.nv)] FlagSet.none
  Issues s h false true u i → i.s.growQ = [] →
  (k = 0 → exec (.grow h imm d b) s = .next count ∧ exec (.shrink h imm d b) s = .next count)
  ∧ (k ≠ 0 → (256 < i.g.nv + 8 * k → exec (.grow h imm d b) s = .next (enterHandler i.s i.w.r (preciseEntry i.w 0x07#8 i.act [] false)))
  ∧ (i.g.nv + 8 * k ≤ 256 → 8 * k ≤ mine (i.s.modGrp i.w.r fun g => { commitAll (diagMode i.s i.w.c) g with status := .growing }) →
    i.g.inflight = [] → ∃ t g, exec (.grow h imm d b) s = .next t ∧ t.grp? i.w.r = some g ∧ g.nv = i.g.nv + 8 * k ∧ t.growQ = []
      ∧ readS g d.toNat = BitVec.ofNat 32 (i.g.nv + 8 * k) ∧ g.clock = i.g.clock + 1 + h.stall.toNat ∧ g.status = .ready
      ∧ (∀ n l, l < 32 → i.g.nv ≤ n → n < i.g.nv + 8 * k → sget 0#32 g.v (n * 32 + l) = 0#32))
  ∧ (i.g.nv < 8 * k + 8 → exec (.shrink h imm d b) s = .next (enterHandler i.s i.w.r (preciseEntry i.w 0x07#8 i.act [] false)))
  ∧ (8 * k + 8 ≤ i.g.nv → ∃ t, exec (.shrink h imm d b) s = .next (flown h i t [.s d.toNat (BitVec.ofNat 32 (i.g.nv - 8 * k))] FlagSet.none)
      ∧ (∃ g, t.grp? i.w.r = some g ∧ g.nv = i.g.nv - 8 * k ∧ g.grans = i.g.grans.take (i.g.nv / 8 - k))
      ∧ ((i.g.grans.map (·.1)).Nodup → ∀ e ∈ i.g.grans.drop (i.g.nv / 8 - k), sget 0#4 t.granTags (granKey i.w.b.core (i.w.r.grp % 4) e.1) = e.2 + 1)))
  ∧ (i.w.b.st = .resident → i.g.status ≠ .retired → ∀ x ∈ i.g.inflight, ∀ t ∈ x.tags, tagHolds i.g t = false →
    mine i.s = 0 ∨ mine i.s + i.g.nv + 8 ≤ 1024)

/-! ### The sweep and what arrives by itself -/

/-- R23, R39: RESULT_ARRIVAL writes the registers of the result; one whose granule's tag no longer matches is left alone and
DROPCNT rises. An arrival is a turn of its own: log 1. -/
def Claim.ResultArrives : Prop := ∀ (s : State) (w : Who) (r : GRef) (k : Nat) (x : InFlight),
  let g := { w.g with inflight := w.g.inflight.eraseIdx k }
  let diag := diagMode s w.c
  who? s r = some w → w.b.st = .resident → w.g.inflight[k]? = some x →
  ((∀ t ∈ x.tags, tagHolds w.g t = true) →
    exec (.resultArrival r k) s = .next (s.modGrp r fun _ => raiseFlags diag x.flags (applyWrites x.depth x.writes g)))
  ∧ (∀ n m y t, x.writes = [.v n m y] → n < 224 → (n / 8, t) ∈ x.tags → tagHolds w.g (n / 8, t) = false → w.g.dropcnt < 0xFFFFFFFF#32 →
    exec (.resultArrival r k) s = .next (s.modGrp r fun _ => { raiseFlags diag x.flags g with dropcnt := w.g.dropcnt + 1 }))

/-- R70: at the end of a block lanes held beyond its length rejoin, lanes that finished it fall through where the next header
has FT, and the sweep goes on at the lowest label wanted above, or ends. -/
def Claim.CensusMoves : Prop := ∀ (s : State) (w : Who) (x : W64),
  let v := w.g.cl
  let m := v.label
  let more := m.toNat + 1 < v.n
  s.onTurn = some w → (more → codeWord s (.group w.r) (v.base + u64 v.off) = .ok x) →
  ∃ (v' : Level) (ft : Bool), exec .census s = .next (s.modGrp w.r fun g => g.modCl fun _ => v')
    ∧ (ft = true ↔ more ∧ ∃ st len, decodeHeader x = some (.blk st (m + 1) true len))
    ∧ (∀ l, l < 32 → riOf v' l = (if wlOf v l = m ∧ v.len < (riOf v l).toNat then 0#12 else riOf v l)
      ∧ wlOf v' l = (if ft = true ∧ wlOf v l = m ∧ m < 0xFFFE#16 ∧ riOf v' l = 0#12 then m + 1 else wlOf v l))
    ∧ (v'.phase = .sweepEnd ∧ (∀ l, l < 32 → wlOf v' l < 0xFFFE#16 → wlOf v' l ≤ m) ∨
      ∃ n, v'.phase = .enter n (n == m + 1) ∧ m < n ∧ n < 0xFFFE#16 ∧ (∃ l, l < 32 ∧ wlOf v' l = n)
        ∧ ∀ l, l < 32 → wlOf v' l < 0xFFFE#16 → m < wlOf v' l → n ≤ wlOf v' l)
    ∧ v'.defm = v.defm ∧ v'.p = v.p ∧ v'.q = v.q ∧ v'.swc = v.swc ∧ v'.base = v.base

/-- R70, R78, R39: at the end of a sweep a group with no live lane and no caller retires, its granules leaving the allocation, each with its tag risen by 1;
one whose live lanes are all deferred on a word in the wrong state parks on it; every other starts a new sweep. -/
def Claim.SweepEnds : Prop := ∀ (s s' : State) (w : Who) (l pa : Nat) (slot : Option Nat) (rp : Bool),
  let v := w.g.cl
  let addr := lget 0#64 v.dva l
  let q : Req := { cls := .fe, write := has v.dwr l, reads := false, size := 4, align := 4 }
  s.onTurn = some w →
  (liveMask v = 0#32 → w.g.frames = [] → w.g.calls = [] → w.l.lrec.equinox = false → w.l.lrec.barriers = 0 → w.g.delivered = [] →
    s.growQ = [] → (∃ j g, j ≠ w.r.grp ∧ w.b.groups[j]? = some g ∧ g.status ≠ .retired) →
    ∃ (g' : Group) (t : State), exec .sweepEnd s = .next (t.modGrp w.r fun _ => g') ∧ g'.status = .retired ∧ g'.pend = [] ∧ g'.grans = []
      ∧ t = { s with granTags := t.granTags }
      ∧ ((w.g.grans.map (·.1)).Nodup → ∀ e ∈ w.g.grans, sget 0#4 t.granTags (granKey w.b.core (w.r.grp % 4) e.1) = e.2 + 1))
  ∧ (liveMask v ≠ 0#32 → w.g.frames = [] → v.defm = liveMask v → l < 32 → has v.defm l = true →
    (∀ k, has v.defm k = true → l ≤ k) → field addr.toNat 60 4 ≠ 6 → resolve s w q addr = (s', .ok (.mem pa slot rp)) →
    isFull s' (pa / 4) ≠ has v.dneed l → parkRefused s' w addr.toNat = false → s'.grp? w.r = some w.g →
    ∃ t g, exec .sweepEnd s = .next t ∧ t.grp? w.r = some g ∧ g.status = .parked addr.toNat ∧ g.lvl.defm = v.defm
      ∧ feOf t (pa / 4) = feOf s' (pa / 4) ||| 2#2)
  ∧ (liveMask v ≠ 0#32 → w.g.frames ≠ [] ∨ v.defm ≠ liveMask v →
    ∃ v', exec .sweepEnd s = .next (s.modGrp w.r fun g => g.modCl fun _ => v') ∧ SweepsAgain v v')

/-- R153, R78: 1,000 ticks after it suspended on a word of another device, a group counts a wake and starts a new sweep. -/
def Claim.RemoteParkEnds : Prop := ∀ (s : State) (w : Who) (r : GRef) (since : Nat),
  who? s r = some w → w.g.status = .remotePark since → since + 1000 ≤ s.tick → w.g.wakes < w.b.febudget.toNat →
  liveMask w.g.lvl ≠ 0#32 →
  ∃ v', exec (.remoteParkDelay r) s = .next (s.modGrp r fun g => { g with wakes := w.g.wakes + 1, status := .ready, lvl := v' })
    ∧ SweepsAgain w.g.lvl v'

/-- R55, R296, R316: an encoding that does not execute enters the handler with its own cause, the instruction's words in TVAL0 and
TVAL1, and its operands in the window; with no lane to act on it only issues. -/
def Claim.EncodingTraps : Prop := ∀ (h : Hdr) (cause : BitVec 8) (raw ext : W64) (long uniform : Bool) (s : State) (i : Iss),
  let e := preciseEntry i.w cause i.act [raw, ext, 0, 0] long
  foundBy s h long uniform { chk := false } = some i →
  (i.act = 0#32 → exec (.emulatedEncoding h cause raw ext long uniform) s = .next (passed h i i.s))
  ∧ (i.act ≠ 0#32 → exec (.emulatedEncoding h cause raw ext long uniform) s =
      .next (enterHandler i.s i.w.r { e with raw := raw, ext := ext, ew := windowWords cause raw ext uniform }))

/-- R256, R292: a group at its own level takes its oldest delivered cause: the handler is entered for every live lane, at the
position of the next instruction. -/
def Claim.DeliveredEnters : Prop := ∀ (s : State) (w : Who) (r : GRef) (d : Delivered) (rest : List Delivered),
  who? s r = some w → w.g.delivered = d :: rest → w.g.frames = [] → w.b.st = .resident → w.g.status = .ready →
  liveMask w.g.lvl ≠ 0#32 → (∀ e ∈ s.parked, ∀ y ∈ e.2, y.1 ≠ w.r) →
  exec (.deliveredCauseEntry r) s = .next (enterHandler (s.modGrp r fun g => { g with delivered := rest }) r
    { cause := d.cause, emask := liveMask w.g.lvl, tv := d.tval.toList, kind := .delivered, epos := eposOf w.g.lvl 0 })

/-- What a group comes to between its instructions: results, blocks, sweeps, parking, and the causes that no instruction of
its own raises. -/
def Obligations.GroupEvents : Prop :=
  Claim.ResultArrives ∧ Claim.CensusMoves ∧ Claim.SweepEnds ∧ Claim.RemoteParkEnds ∧ Claim.EncodingTraps ∧ Claim.DeliveredEnters

/-- R309, R314, R360: CODE_LINE_FILL holds a line whose tag is right under the context's key, and terminates the block with 0xA0 at
one whose tag is not; the line, its tag and the descriptor are fetched, so a page of any of the three that is not executable
terminates it too. Lines are held as log 14 says. -/
def Claim.CodeLines : Prop := ∀ (s s1 s2 s3 : State) (w : Who) (r : GRef) (line : W64) (pa tpa dpa : Nat) (key : BitVec 128)
    (cause : BitVec 8) (tv : List W64),
  let v := w.g.cl
  let slot := v.tagTab + u64 (8 * ((line.toNat - v.base.toNat) / 128))
  let bytes := rdBytes s1 pa 128
  let fill := exec (.codeLineFill (.group r) line) s
  who? s r = some w →
  (xlatCode s w.tlbs w.c line = (s1, .error (.cause cause tv)) → fill = .next (terminateWith s1 r.blk cause tv))
  ∧ (xlatCode s w.tlbs w.c line = (s1, .ok pa) →
    (xlatCode s1 w.tlbs w.c slot = (s2, .error (.cause cause tv)) → fill = .next (terminateWith s2 r.blk cause tv))
    ∧ (xlatCode s1 w.tlbs w.c slot = (s2, .ok tpa) → xlatCode s2 w.tlbs w.c (v.base - 64#64) = (s3, .ok dpa) →
      (s3.ctx w.c).key = some key → poisoned s3 pa 128 = false → poisoned s3 tpa 8 = false → poisoned s3 dpa 64 = false →
      (lineTag key line (rdBytes s3 dpa 64) bytes = rdBytes s3 tpa 8 →
        fill = .next { s3 with icache := { who := .group r, ctx := w.c, line := line, bytes := bytes } :: s3.icache })
      ∧ (lineTag key line (rdBytes s3 dpa 64) bytes ≠ rdBytes s3 tpa 8 → fill = .next (terminateWith s3 r.blk 0xA0#8 [line]))))

/-- R183, R198: SIDE_LOG_REPLAY makes the oldest entry's store once its page is mapped, and the entry leaves the log; a copy behind it
has one entry fewer to wait for. The group's earlier writes there are performed before it: log 39. -/
def Claim.SideLogReplays : Prop := ∀ (s s' : State) (w : Who) (r : GRef) (e : SideEntry) (rest : List SideEntry) (l a pa : Nat) (data : W128)
    (slot : Option Nat) (rp : Bool),
  let n := entrySize e
  who? s r = some w → w.b.st = .resident → w.g.sideSvc = false → w.g.sideLog = e :: rest → e.kind = 0 → e.items = [(l, a, data)] → e.sent = [] →
  w.l.lrec.equinox = false → w.l.bars = [] → w.b.mons = [] → resolve s w (entryReq e) (u64 a) = (s', .ok (.mem pa slot rp)) →
  s'.grp? r = some w.g → s'.launches = s.launches → (s'.blocks[r.blk]?).map (·.mons) = some [] → apart slot pa n →
  ∃ t g, exec (.sideLogReplay r) s = .next t ∧ t.grp? r = some g
    ∧ g = { w.g with sideLog := rest, sideSvc := false, copies := w.g.copies.map fun k => { k with behind := k.behind - 1 },
                     notes := w.g.notes.filter fun m => !(unitsOf n (.mem pa slot rp)).contains m.at_ }
    ∧ (∀ k, k < n → byteOf t (pa + k) = (toBytes n data.toNat).getD k 0)
    ∧ ∀ a, ¬ inStore n (.mem pa slot rp) a → byteOf t a = byteOf s' a

/-- R312: once a context's service counter has changed, FAULT_SERVICE_REWALK lets every waiting agent of it go on: groups, side
logs, copies; groups of other contexts are left alone. -/
def Claim.FaultServices : Prop := ∀ (s : State) (c : Nat), serviceCounter s c ≠ (s.ctx c).served →
  ∃ t, exec (.faultServiceRewalk c) s = .next t ∧ (t.ctx c).served = serviceCounter s c ∧ t.mem = s.mem
    ∧ ∀ r w, who? s r = some w →
      (w.l.ctx ≠ c → t.grp? r = some w.g)
      ∧ (w.l.ctx = c → ∃ g, t.grp? r = some g ∧ g.sideSvc = false ∧ (∀ b, w.g.status = .service b → g.status = if b then .resumed else .ready)
          ∧ (∀ e, w.g.status = .entering e → g.status = .entering { e with svc := false })
          ∧ ((∀ b, w.g.status ≠ .service b) → (∀ e, w.g.status ≠ .entering e) → g.status = w.g.status) ∧ g.lvl = w.g.lvl ∧ g.frames = w.g.frames ∧ g.v = w.g.v ∧ g.s = w.g.s)

/-- R335: TILE_COMMIT puts the frontier's buffered store into memory, and the frontier moves on. Buffers stand by position: log 18. -/
def Claim.TileCommits : Prop := ∀ (s : State) (n pa : Nat) (l : Launch) (bs : List Byte),
  s.launches[n]? = some l → l.lrec.equinox = true → passes l l.frontier = true → l.bars = [] → (bufOf l l.frontier).ops = [.store pa bs none] →
  ∃ t l', exec (.tileCommit n) s = .next t ∧ t.launches[n]? = some l' ∧ l'.frontier = l.frontier + 1 ∧ l'.next = l.next ∧ l'.direct = false
    ∧ (∀ b, b ∈ l'.bufs ↔ b ∈ l.bufs ∧ b.tile ≠ l.frontier) ∧ t.blocks = s.blocks
    ∧ (∀ k, k < bs.length → byteOf t (pa + k) = bs.getD k 0) ∧ ∀ a, (a < pa ∨ pa + bs.length ≤ a) → byteOf t a = byteOf s a

/-- What memory gives and takes behind the instructions: code lines, logged stores, fault services, committed tiles. -/
def Obligations.MemoryEvents : Prop := Claim.CodeLines ∧ Claim.SideLogReplays ∧ Claim.FaultServices ∧ Claim.TileCommits

/-! ### The March core -/

/-- R321, R322: a packet that may start completes once its accesses are made: the queue moves on, the host is told, and memory
holds the bytes of COPY, WRITE, WSIG and TSTAMP and the sums of SIGNAL and WSIG, and is else as the translations left it. WSIG
writes its data (`u`), then translates its counter and adds. A sum of 2^64 or more leaves 2^64 - 1 and
stops the queue with 0x83. The paths a packet may name are those of log 26. -/
def Claim.PacketResults : Prop := ∀ (s s1 s2 : State) (q : Nat) (order : Bool) (a src dst ctr add : W64) (data : List Byte) (sc : BitVec 8)
    (n pa pb pc : Nat) (slot slotc : Option Nat) (rp rpc : Bool) (slotb : Option Nat) (rpb : Bool),
  let c := (s.queue q).ctx
  let old (u : State) : Nat := ofBytes (rdBytes u pc 8)
  let done (e : Instr) (R : State → Prop) : Prop := ∃ t, exec e s = .next t ∧ PacketDone s q t ∧ R t
  let holds (pa : Nat) (bs : List Byte) (t : State) : Prop := ∀ k, k < bs.length → byteOf t (pa + k) = bs.getD k 0
  let nop := Instr.nopPacket q order
  let wr := Instr.write q order a data
  let cp := Instr.copy q order src dst (u64 n) 0 add
  let sg := Instr.signal q order ctr add sc
  let ws := Instr.wsig q order a data ctr add
  let fe := Instr.fencePacket q order sc
  let ts := Instr.tstamp q order a
  let counter (u u' : State) : Prop := ctr.toNat % 8 = 0 ∧ packetPiece u c ctr 8 true true = (u', .ok (.mem pc slotc rpc)) ∧ apart slotc pc 8
  (Starts s q order nop → done nop fun t => t.mem = s.mem)
  ∧ (Starts s q order wr → packetRange (begun s q wr) c a data.length true = (s1, .ok (onePiece pa slot rp data.length)) →
      apart slot pa data.length →
      done wr fun t => holds pa data t ∧ ∀ x, ¬ inStore data.length (.mem pa slot rp) x → byteOf t x = byteOf s1 x)
  ∧ (Starts s q order cp → n < 2 ^ 64 → packetRange (begun s q cp) c src n false = (s1, .ok (onePiece pb slotb rpb n)) →
      packetRange s1 c dst n true = (s2, .ok (onePiece pa slot rp n)) → apart slot pa n → 0 < n →
      done cp fun t => holds pa (rdBytes s1 pb n) t ∧ ∀ x, ¬ inStore n (.mem pa slot rp) x → byteOf t x = byteOf s2 x)
  ∧ (Starts s q order sg → counter (begun s q sg) s1 → old s1 + add.toNat < 2 ^ 64 →
      done sg fun t => holds pc (toBytes 8 (old s1 + add.toNat)) t ∧ ∀ x, ¬ inStore 8 (.mem pc slotc rpc) x → byteOf t x = byteOf s1 x)
  ∧ (Starts s q order sg → counter (begun s q sg) s1 → 2 ^ 64 ≤ old s1 + add.toNat →
      ∃ t, exec sg s = .next t ∧ holds pc (List.replicate 8 0xFF#8) t
        ∧ (∀ x, ¬ inStore 8 (.mem pc slotc rpc) x → byteOf t x = byteOf s1 x) ∧ (t.queue q).stopped = true ∧ (t.queue q).code = 0x83#8
        ∧ (t.queue q).rd = (s.queue q).rd + 1)
  ∧ (Starts s q order ws → packetRange (begun s q ws) c a data.length true = (s1, .ok (onePiece pa slot rp data.length)) →
      apart slot pa data.length →
      let u := (writePieces s1 (onePiece pa slot rp data.length) data writeKey).1
      holds pa data u ∧ (∀ x, ¬ inStore data.length (.mem pa slot rp) x → byteOf u x = byteOf s1 x)
      ∧ (counter u s2 → old s2 + add.toNat < 2 ^ 64 →
        done ws fun t => holds pc (toBytes 8 (old s2 + add.toNat)) t ∧ ∀ x, ¬ inStore 8 (.mem pc slotc rpc) x → byteOf t x = byteOf s2 x))
  ∧ (Starts s q order fe → (s.queue q).started = [] → done fe fun t => t.mem = s.mem)
  ∧ (Starts s q order ts → a.toNat % 8 = 0 → packetRange (begun s q ts) c a 8 true = (s1, .ok (onePiece pa slot rp 8)) → apart slot pa 8 →
      done ts fun t => holds pa (toBytes 8 s.tick) t ∧ ∀ x, ¬ inStore 8 (.mem pa slot rp) x → byteOf t x = byteOf s1 x)

/-- R321, R322: WAITC completes at once where its counter has reached the value, and otherwise stays started; a WAITC whose
time runs out first stops its queue with code 5. -/
def Claim.CounterWaits : Prop := ∀ (s s1 : State) (q : Nat) (order : Bool) (ctr value timeout : W64) (pa due : Nat) (slot : Option Nat) (rp : Bool),
  let x := s.queue q
  let d := if timeout = 0#64 then none else some (s.tick + timeout.toNat)
  let k : Started := .waitc ctr value d false none
  let u := startNext s q k
  let reads (u : State) : Prop := ctr.toNat % 8 = 0 ∧ packetPiece u x.ctx ctr 8 false true = (s1, .ok (.mem pa slot rp))
  (canStart s q order = true → reads u →
    (value.toNat ≤ ofBytes (rdBytes s1 pa 8) → ∃ t, exec (.waitc q order ctr value timeout) s = .next t
      ∧ t.queue q = queueBegun s q ∧ t.msix = s.msix ++ [q] ∧ (∀ k, k ≠ q → t.queue k = s.queue k) ∧ t.launches = s.launches ∧ t.blocks = s.blocks)
    ∧ (ofBytes (rdBytes s1 pa 8) < value.toNat → ∃ t, exec (.waitc q order ctr value timeout) s = .next t
      ∧ t.queue q = { queueBegun s q with started := x.started ++ [k] } ∧ t.msix = s.msix))
  ∧ (x.started = [.waitc ctr value (some due) false none] → reads s → ofBytes (rdBytes s1 pa 8) < value.toNat →
    (due ≤ s.tick → ∃ t, exec (.waitcTimeout q) s = .next t ∧ t.queue q = { x with started := [], stopped := true, code := 5 }
      ∧ t.msix = s.msix ++ [q])
    ∧ (s.tick < due → ∃ t, exec (.waitcTimeout q) s = .next t ∧ t.queue q = x ∧ t.msix = s.msix))

/-- R321, R324: LAUNCH of a record that passes every check queues one launch with the record's fields; the first check that
fails stops the queue with 0x40 and its number. That the record is checked when it becomes the head is the reading of log 26. -/
def Claim.LaunchQueues : Prop := ∀ (s s1 : State) (q : Nat) (order : Bool) (record ctr add : W64) (bs : List Byte) (n : Nat)
    (slot : Option Nat) (rp : Bool),
  let e := Instr.launch q order record ctr add
  let x := s.queue q
  let t := pendLaunch s1 q x.ctx record ctr add bs
  Starts s q order e → packetRange s x.ctx record 256 false = (s1, .ok (onePiece n slot rp 256)) → bs = rdBytes s1 n 256 →
  (checkRecord record bs = none → (parseLaunch bs).gang = true ∨ (launchRelocs s1 x.ctx (parseLaunch bs)).any (fun e => e.2.kind == 1) = false →
    nextPlaced t ≠ none →
    ∃ u, exec e s = .next u ∧ u.launches = s.launches ++ [Launch.start q x.ctx record (parseLaunch bs) ctr add]
      ∧ u.queue q = x ∧ u.blocks = s.blocks ∧ u.msix = s.msix)
  ∧ (∀ k, checkRecord record bs = some k → ∃ u, exec e s = .next u ∧ u.launches = s.launches ∧ u.msix = s.msix ++ [q]
      ∧ u.queue q = { x with stopped := true, code := BitVec.ofNat 8 (0x40 + k) })

/-- R323, R326, R327, R352: PLACEMENT puts the launch to be placed next on the cores chosen for it: one block a core, in ordinal
order, one command to each block's leaf controller, and its packet has started; where a core's island is gated, or a leaf's permits
are used up, nothing happens yet. Which launch comes first is as log 26 reads R327. -/
def Claim.LaunchPlaces : Prop := ∀ (s : State) (n : Nat) (cores : List Nat) (l : Launch),
  nextPlaced s = some (n, cores) → s.launches[n]? = some l →
  ((∀ c ∈ cores, islandOf c ∉ s.gated) → leafRoom s cores = true →
    ∃ t l', exec (.placement n) s = .next t ∧ t.launches[n]? = some l' ∧ l'.st = .placed ∧ l'.nblocks = cores.length ∧ l'.lrec = l.lrec
      ∧ (t.queue l.queue).rd = (s.queue l.queue).rd + 1 ∧ (t.queue l.queue).started = (s.queue l.queue).started ++ [.launch n]
      ∧ t.leafLinks = (commandLeaves s cores).leafLinks ∧ t.blocks.take s.blocks.length = s.blocks ∧ t.blocks.length = s.blocks.length + cores.length
      ∧ ∀ k c, cores[k]? = some c → ∃ b, t.blocks[s.blocks.length + k]? = some b ∧ b.launch = n ∧ b.ordinal = k ∧ b.core = c
          ∧ b.st = .resident ∧ b.groups.length = l.lrec.groups)
  ∧ ((∃ c ∈ cores, islandOf c ∈ s.gated) ∨ leafRoom s cores = false → exec (.placement n) s = .next s)

/-- R322, R330, R332: TIME_SLICE_EXPIRY switches a queue whose slice has run out away once no packet of it but a LAUNCH or WAITC is
begun, with no launch pre-empted where no head of equal or higher priority waits for one; a queue whose slice does not run keeps what
it has. The next slice is shortened by the overrun. Which slices run, and that a queue whose launch stays on its cores, or that has no
other to switch to, begins its next slice at once, is the model's choice (log 26). BLOCK_RESTORE brings an evicted block back to a
free core. -/
def Claim.SlicesAndReturns : Prop := ∀ (s : State) (q n blk core : Nat) (l : Launch) (b : Block),
  let x := s.queue q
  let next : State := s.modQueue q fun x => { x with sliceAt := s.tick - x.overran, overran := 0 }
  let on : Prop := ∃ c ∈ s.blocks, c.st = .resident ∧ ∃ y, s.launches[c.launch]? = some y ∧ y.queue = q
  let t : State := { (if launchOn s q then next else s) with holder := if s.holder = some q then none else s.holder }
  (launchOn s q = true ↔ on)
  ∧ (x.slice ≠ 0 → s.holder = some q ∨ on → x.sliceAt + x.slice ≤ s.tick → (∀ i v ids, Started.held i v ids ∉ x.started) →
    (∀ h ∈ heads t, prioOf t h.2 < x.prio ∨ placement t h.1 [] ≠ none) →
    exec (.timeSliceExpiry q) s = .next (if t.holder ≠ none ∨ ∃ k, servedNext t = some k ∧ k ≠ q then t else { next with holder := some q }))
  ∧ (s.holder ≠ some q → ¬ on → (∀ i v ids, Started.held i v ids ∉ x.started) → exec (.timeSliceExpiry q) s = .next s)
  ∧ (s.launches[n]? = some l → l.lrec.gang = false → headFirst s l = false → waitingBlocks s n = [(blk, b)] →
    coresBack s n l [(blk, b)] 1 = some [core] → coresReady s [core] = true → l.lrec.barriers = 0 → s.blocks[blk]? = some b → b.launch = n →
    ∃ t b', exec (.blockRestore n) s = .next t ∧ t.blocks[blk]? = some b' ∧ b'.st = .resident ∧ b'.core = core ∧ b'.ordinal = b.ordinal
      ∧ b'.launch = n ∧ b'.groups.length = b.groups.length ∧ ∀ k, k ≠ blk → t.blocks[k]? = s.blocks[k]?)

/-- The packets of R321 and what the March core does of itself. -/
def Obligations.QueueEvents : Prop :=
  Claim.PacketResults ∧ Claim.CounterWaits ∧ Claim.LaunchQueues ∧ Claim.LaunchPlaces ∧ Claim.SlicesAndReturns

/-! ### The host, the security block, boot and power -/

/-- R339, R351: with the port in full service the host reads the bytes of device memory, all ones beyond it, and writes those that
exist; a write changes no full/empty state. In reduced service neither has an effect. -/
def Claim.HostMemory : Prop := ∀ (s : State) (pa n : Nat) (data : List Byte),
  let there (a : Nat) : Prop := a < 2 ^ 51 ∧ paValid s a = true
  (s.boot = 2#2 → ∃ bs, exec (.hostMemRead pa n) s = .next { s with replies := s.replies ++ [bs] } ∧ bs.length = n
    ∧ ∀ k, k < n → (there (pa + k) → bs.getD k 0 = byteOf s (pa + k)) ∧ (¬ there (pa + k) → bs.getD k 0 = 0xFF#8))
  ∧ (s.boot = 2#2 → ∃ m, exec (.hostMemWrite pa data) s = .next { s with mem := m }
    ∧ ∀ a, sget 0#8 m a = if pa ≤ a ∧ a < pa + data.length ∧ there a then data.getD (a - pa) 0 else byteOf s a)
  ∧ (s.boot ≠ 2#2 → exec (.hostMemRead pa n) s = .next s ∧ exec (.hostMemWrite pa data) s = .next s)

/-- R143, R144, R306, R311: an invalidation of whole pages leaves no leaf of its range in any TLB, and every other one: on path 0x6
leaves of the fabric root, by the address without its device number, on every other path leaves of the page tables, by the bits that
the path translates. A range that is
not of whole pages is refused with status 2. What the model remembers of fresh mappings (log 38) keeps the leaves that stand. -/
def Claim.Invalidations : Prop := ∀ (s : State) (c : Nat) (base len : W64),
  let path := field base.toNat 60 4
  let far := path = 6
  let k := if path = 7 then 16 else 1
  let a := k * field base.toNat 0 (if far then 48 else if path = 5 ∨ path = 7 then 56 else 60)
  (base.toNat % 4096 = 0 → len.toNat % 4096 = 0 → ∃ o l, exec (.invalidationRequest c base len) s =
      .next { s with operands := o, invalStatus := 1, tlb := l, leaves := s.leaves.filter (leafStands s) }
    ∧ ∀ t, t ∈ l ↔ t ∈ s.tlb ∧ ¬ (t.ctx = c ∧ (t.fabric = true ↔ far) ∧ t.base < a + k * len.toNat ∧ a < t.base + t.size))
  ∧ (base.toNat % 4096 ≠ 0 ∨ len.toNat % 4096 ≠ 0 → ∃ o, exec (.invalidationRequest c base len) s =
      .next { s with operands := o, invalStatus := 2 })

/-- R319, R331, R341, R342: the host's commands. Pre-empting a queue in its drain form stops the dispenser of each of its
launches that holds a core; a power limit from 1,000 to 3,200 W stands; a context that nothing uses is destroyed. That a command
which names queue 64 or above, or context 1,024 or above, is refused is the model's choice (log 26). -/
def Claim.HostCommands : Prop := ∀ (s : State) (q n w c : Nat) (l : Launch),
  (q < 64 → (s.queue q).drain = true → s.launches[n]? = some l → l.queue = q → l.draining = false →
    (∃ b ∈ s.blocks, b.launch = n ∧ b.st = .resident) → (∀ b ∈ s.blocks, b.leaving = false) → (∀ f ∈ s.leafLinks.toList, f.evicts = []) →
    (∀ k x, s.launches[k]? = some x → x.queue = q → k = n) →
    ∃ t l', exec (.preemptQueue q) s = .next t ∧ t.launches[n]? = some l' ∧ l' = { l with draining := true } ∧ t.blocks = s.blocks
      ∧ t.cmdStatus = 1)
  ∧ (64 ≤ q → ∃ o, exec (.preemptQueue q) s = .next { s with operands := o, cmdStatus := 2 })
  ∧ (1000 ≤ w → w ≤ 3200 → ∃ o, exec (.setPowerLimit w) s = .next { s with operands := o, power := w, cmdStatus := 1 })
  ∧ (w < 1000 ∨ 3200 < w → ∃ o, exec (.setPowerLimit w) s = .next { s with operands := o, cmdStatus := 2 })
  ∧ (c < 1024 → (∀ e ∈ s.queues, e.2.enable = true → e.2.ctx ≠ c) → (∀ b ∈ s.blocks, b.st = .ended ∨ ∀ l, s.launches[b.launch]? = some l → l.ctx ≠ c) →
    ∃ t, exec (.destroyContext c) s = .next t ∧ t.ctx c = { s.ctx c with st := 0, key := none } ∧ t.cmdStatus = 1
      ∧ (∀ k, k ≠ c → t.ctx k = s.ctx k) ∧ (∀ e, e ∈ t.tlb ↔ e ∈ s.tlb ∧ e.ctx ≠ c) ∧ (∀ e, e ∈ t.icache ↔ e ∈ s.icache ∧ e.ctx ≠ c))
  ∧ (1024 ≤ c ∨ (∃ b ∈ s.blocks, b.st ≠ .ended ∧ ∃ l, s.launches[b.launch]? = some l ∧ l.ctx = c) →
    ∃ o, exec (.destroyContext c) s = .next { s with operands := o, cmdStatus := 2 })

/-- R318, R320, R338, R340 to R342, R351: the host's registers. A queue descriptor or a context entry written whole holds what was written; the
write index, the enable bit and the stopped status are written alone; a command word starts its command, with the operands that are
written, or is refused; device status reads as the boot stands, and what is no register reads zero; a port trains at 32 or 64 GT/s.
That a command acts as the next event is the model's choice (log 26). -/
def Claim.HostRegisters : Prop := ∀ (s : State) (q c rate : Nat) (data : List Byte) (index : W64) (en clr : Bool),
  (q < 64 → data.length = 64 → ∃ t, exec (.registerWrite (64 * q) data) s = .next t ∧ t.queue q = queueOfBytes (s.queue q) data
    ∧ (∀ k, k ≠ q → t.queue k = s.queue k) ∧ t.ctxs = s.ctxs ∧ t.mem = s.mem ∧ t.blocks = s.blocks)
  ∧ (c < 1024 → data.length = 16 → fieldAt data 8 1 % 4 ≠ 1 ∨ (s.ctx c).st = 1#2 →
    ∃ t, exec (.registerWrite (0x4000 + 16 * c) data) s = .next t
      ∧ t.ctx c = { s.ctx c with desc := u64 (fieldAt data 0 8), st := BitVec.ofNat 2 (fieldAt data 8 1) }
      ∧ (∀ k, k ≠ c → t.ctx k = s.ctx k) ∧ t.queues = s.queues ∧ t.mem = s.mem)
  ∧ (q < 64 → exec (.queueWriteIndex q index) s = .next (s.modQueue q fun x => { x with wr := index }))
  ∧ (q < 64 → exec (.queueDescriptorWrite q en clr) s = .next (s.modQueue q fun x =>
    { x with enable := x.enable || en, stopped := x.stopped && !clr, code := if clr then 0 else x.code }))
  ∧ ((∀ k, k < 8 → barByte s (0x1000 + k) = (toBytes 8 (4 * s.boot.toNat + 16 * s.fst.toNat)).getD k 0) ∧ ∀ k, 0x8000 ≤ k → barByte s k = 0#8)
  ∧ (c < 2 ^ 32 → ∃ t, exec (.registerWrite 0x1080 (toBytes 4 c)) s = .next t ∧ (c ∉ [1, 2, 3] → t.cmdStatus = 2 ∧ t.agenda = s.agenda)
    ∧ (c = 1 → t.cmdStatus = 0 ∧ t.agenda = s.agenda ++ [.event (.preemptQueue (operand s 0x1088 8))])
    ∧ (c = 2 → t.cmdStatus = 0 ∧ t.agenda = s.agenda ++ [.event (.setPowerLimit (operand s 0x1088 8))])
    ∧ (c = 3 → t.cmdStatus = 0 ∧ t.agenda = s.agenda ++ [.event (.destroyContext (operand s 0x1088 8))]))
  ∧ (∃ t, exec (.registerWrite 0x1058 (toBytes 4 1)) s = .next t ∧ t.invalStatus = 0 ∧ t.agenda = s.agenda ++
      [.event (.invalidationRequest (operand s 0x1040 4) (u64 (operand s 0x1048 8)) (u64 (operand s 0x1050 8)))])
  ∧ (64 ≤ rate → exec (.hostPortLinkUp rate) s = .next { s with hostLink := 64 })
  ∧ (32 ≤ rate → rate < 64 → exec (.hostPortLinkUp rate) s = .next { s with hostLink := 32 })

/-- What the host does to the package. -/
def Obligations.HostEvents : Prop := Claim.HostMemory ∧ Claim.Invalidations ∧ Claim.HostCommands ∧ Claim.HostRegisters

/-- R314, R350: with boot in service KEYGEN gives a context a key, a free value; TAG writes the tag of every line under that key;
ATTEST writes its report, which holds the nonce it was given and TICK. Without a key TAG is refused. The mailbox holds each command's number and operands (`mailCommand`, log 26). The key is the free value of log 8. -/
def Claim.SecurityResults : Prop := ∀ (s s1 s2 s3 : State) (c count : Nat) (base desc table nonce report : W64) (key : BitVec 128)
    (d bs n : List Byte) (ps : List Nat),
  s.boot = 1#2 ∨ s.boot = 2#2 →
  let u1 := mailCommand s 1 [c]
  let u2 := mailCommand s 2 [c, base.toNat, count, desc.toNat, table.toNat]
  let u3 := mailCommand s 3 [nonce.toNat, report.toNat, c]
  (c < 1024 → exec (.keygen c) s = .next
    { u1.setCtx c { u1.ctx c with key := some (Config.freshKey s.fresh) } with fresh := s.fresh + 1, mailStatus := 1 })
  ∧ (1024 ≤ c → exec (.keygen c) s = .next { u1 with mailStatus := 2 })
  ∧ ((s.ctx c).key = none → exec (.tag c base count desc table) s = .next { u2 with mailStatus := 2 })
  ∧ ((s.ctx c).key = some key → wholeRead u2 c desc 64 = (s1, some d) → wholeRead s1 c base (128 * count) = (s2, some bs) →
    virtRange s2 [] c table (8 * count) true = (s3, .ok ps) → ps.Nodup →
    ∃ t, exec (.tag c base count desc table) s = .next t ∧ t.mailStatus = 1 ∧ ∀ i k, i < count → k < 8 →
      byteOf t (ps.getD (8 * i + k) 0) = (lineTag key (base + u64 (128 * i)) d ((bs.drop (128 * i)).take 128)).getD k 0)
  ∧ (wholeRead u3 c nonce 32 = (s1, some n) → s.measure.length = 3 → virtRange s1 [] c report 3892 true = (s2, .ok ps) → ps.Nodup →
    ∃ t, exec (.attest c nonce report) s = .next t ∧ t.mailStatus = 1
      ∧ (∀ k, k < 4 → byteOf t (ps.getD k 0) = (toBytes 4 1).getD k 0)
      ∧ (∀ k, k < 32 → byteOf t (ps.getD (120 + k) 0) = n.getD k 0)
      ∧ ∀ k, k < 8 → byteOf t (ps.getD (152 + k) 0) = (toBytes 8 s.tick).getD k 0)

/-- R349 to R351: RESET keeps no state but what is fused (memory of the host is the host's own, log 22), and measures three stages; with every signature right boot goes on in
reduced service, and the first stage that is missing or wrong halts it. HBM_TRAINING_COMPLETE brings full service: memory
reads zero with every word FULL, but for the first 96 MiB. Signatures are the free values of log 9; memory before training is the choice of log 4. -/
def Claim.BootResults : Prop := ∀ (s : State) (f1 f2 f3 : Firmware) (rest : List Firmware),
  let hash (f : Firmware) : BitVec 256 := BitVec.ofNat 256 (ofBytes (sha3_256 f.image))
  let good (k : Nat) (f : Firmware) : Prop := Config.firmwareSignatureOk k f.image f.sig = true
  let booted (fs : List Firmware) (m : List (BitVec 256)) (boot : BitVec 2) (fst : BitVec 4) : Prop := ∃ t, exec (.reset fs) s = .next t
    ∧ t = { State.reset with steps := s.steps, fresh := s.fresh, retiredCores := s.retiredCores, retiredMesh := s.retiredMesh, measure := m,
                             boot := boot, fst := fst, mem := t.mem, fe := t.fe, poison := t.poison }
    ∧ (∀ a, byteOf t a = if 2 ^ 51 ≤ a then byteOf s a else 0#8) ∧ (∀ k, feOf t k = if 2 ^ 51 ≤ 4 * k then feOf s k else 1#2)
    ∧ ∀ k, k ∈ t.poison ↔ k ∈ s.poison ∧ 2 ^ 51 ≤ 4 * k
  (good 1 f1 → good 2 f2 → good 3 f3 → booted (f1 :: f2 :: f3 :: rest) [hash f1, hash f2, hash f3] 1 0)
  ∧ (¬ good 1 f1 → booted (f1 :: rest) [hash f1] 3 1)
  ∧ (good 1 f1 → ¬ good 2 f2 → booted (f1 :: f2 :: rest) [hash f1, hash f2] 3 2)
  ∧ (good 1 f1 → good 2 f2 → ¬ good 3 f3 → booted (f1 :: f2 :: f3 :: rest) [hash f1, hash f2, hash f3] 3 3)
  ∧ booted [] [] 3 1
  ∧ (good 1 f1 → booted [f1] [hash f1] 3 2)
  ∧ (good 1 f1 → good 2 f2 → booted [f1, f2] [hash f1, hash f2] 3 3)
  ∧ (s.boot = 1#2 → ∃ t, exec .hbmTrainingComplete s = .next t ∧ t = { s with boot := 2, mem := t.mem, fe := t.fe, poison := t.poison }
    ∧ (∀ a, byteOf t a = if a < 96 * 2 ^ 20 ∨ 2 ^ 51 ≤ a then byteOf s a else 0#8)
    ∧ ∀ k, feOf t k = if 4 * k < 96 * 2 ^ 20 ∨ 2 ^ 51 ≤ 4 * k then feOf s k else 1#2)

/-- R348, R352: POWER_ADJUST lowers an island's clock or raises it again; a gated island powers up; a correctable error is
corrected in place and counted. R352 says only that an island with nothing reserved may be gated off: that lowering its
clock always does so, and that raising it ungates it, is the model's choice (log 26), as is the numbering of islands there; that a
corrected error shows in the count alone is the choice of log 22. -/
def Claim.PowerResults : Prop := ∀ (s : State) (i pa : Nat), i < 64 →
  (i < 56 → i % 14 < 9 → (∀ b ∈ s.blocks, b.st = .resident → islandOf b.core ≠ i) → ∃ t, exec (.powerAdjust i true) s = .next t
    ∧ t = { s with lowered := t.lowered, gated := t.gated } ∧ (∀ k, k ∈ t.lowered ↔ k = i ∨ k ∈ s.lowered) ∧ ∀ k, k ∈ t.gated ↔ k = i ∨ k ∈ s.gated)
  ∧ ((∃ b ∈ s.blocks, b.st = .resident ∧ islandOf b.core = i) → ∃ t, exec (.powerAdjust i true) s = .next t
    ∧ t = { s with lowered := t.lowered } ∧ ∀ k, k ∈ t.lowered ↔ k = i ∨ k ∈ s.lowered)
  ∧ (∃ t, exec (.powerAdjust i false) s = .next t ∧ t = { s with lowered := t.lowered, gated := t.gated }
    ∧ (∀ k, k ∈ t.lowered ↔ k ∈ s.lowered ∧ k ≠ i) ∧ ∀ k, k ∈ t.gated ↔ k ∈ s.gated ∧ k ≠ i)
  ∧ (∃ t, exec (.islandPoweredUp i) s = .next t ∧ t = { s with gated := t.gated } ∧ ∀ k, k ∈ t.gated ↔ k ∈ s.gated ∧ k ≠ i)
  ∧ (pa < 2 ^ 51 → paValid s pa = true → poisoned s pa 1 = false → exec (.hbmScrub pa) s = .next { s with scrubbed := s.scrubbed + 1 })

/-- Security, boot, service and power. -/
def Obligations.ServiceEvents : Prop := Claim.SecurityResults ∧ Claim.BootResults ∧ Claim.PowerResults

/-! ### Debug, triggers and the fabric -/

/-- R185, R353, R355 to R357: a step request is held for its group; a debugger's resumption lets a stopped group issue and sets
the focus; a scan changes nothing; a trigger records its arrival and applies its actions; the first marker starts this device's
part of a Harvest, and every marker marks its link. Harvest records no channel in a pod of one device: log 17. -/
def Claim.DebugResults : Prop := ∀ (s : State) (r : GRef) (g : Group) (focus : Option Nat) (n : Fin 16) (origin k x : Nat) (tick : W64),
  let a := s.trig[n].actions
  let marked (f : State → State) : Prop := exec (.marker { link := k, fails := x }) s =
    .next { f s with links := vmod s.links k fun l => { l with retries := x, marked := true } }
  (s.grp? r = some g → g.status ≠ .retired → r ∉ s.steps1 → exec (.stepRequest r) s = .next { s with steps1 := s.steps1 ++ [r] })
  ∧ (exec (.debuggerResume r focus) s = .next (({ s with focus := focus.map fun j => { r with grp := j } } : State).modGrp r fun g =>
      if g.status = .stopped then { g with status := .resumed } else g))
  ∧ exec .scanReadout s = .next s
  ∧ (a.getLsbD 2 = false → a.getLsbD 4 = false → exec (.triggerMessage n.val { flit := none, device := origin } tick) s = .next
      { s with trig := s.trig.set n { s.trig[n] with arrival := u64 s.tick },
               window := (s.window || a.getLsbD 0) && !a.getLsbD 1, frozen := s.frozen || a.getLsbD 3 })
  ∧ (k < 32 → x < 16 → s.harvest = false → (∃ b ∈ s.blocks, b.st = .resident ∧ atRest b = false) →
    marked fun s => { s with harvest := true, harvestTick := s.tick, harvestEnd := 0 })
  ∧ (k < 32 → x < 16 → s.harvest = true → s.harvestEnd ≠ 0 → (∃ j ∈ usedLinks s, j ≠ k ∧ (s.links[j]?).map (·.marked) = some false) → marked id)

/-- R138, R185, R274, R289, R353: a breakpoint that the debug port has set is there from the next step on; a group about to issue at a
safe point where one stands, or for which a step is requested under debugger stops, stops first, with the results on their way
arrived; without debugger stops the step is cause 0xD1 on the lanes that the instruction acts on, with the safe point's ordinal, and an
instruction that acts on none leaves the request. A resumed group is not held again, nor one whose requests are out at other
devices (R304). How the port's writes come in is log 37. -/
def Claim.DebugStops : Prop := ∀ (s : State) (w : Who) (x e : W64) (b : Breakpoint) (n : Fin 16) (y : W32) (a : W64),
  let v := w.g.cl
  let held (u : State) : State := u.modGrp w.r fun g => { arriveIf (diagMode s w.c) (fun _ => true) g with status := .stopped }
  let t : State := { s with steps1 := s.steps1.filter (· ≠ w.r) }
  (s.debugPort = [.setBreak b] → b ∈ (debugActs s).breaks ∧ (debugActs s).debugPort = [])
  ∧ (s.debugPort = [.clearBreak b] → b ∉ (debugActs s).breaks)
  ∧ (s.debugPort = [.triggerEntry n y] → (debugActs s).trig[n].actions = y)
  ∧ (s.debugPort = [.harvestAt a] → (debugActs s).harvestArea = a)
  ∧ (x.getLsbD 62 = false ∨ w.g.status = .resumed → debugHold s w x e = none)
  ∧ (w.g.sent ≠ [] → debugHold s w x e = none)
  ∧ (x.getLsbD 62 = true → w.g.status ≠ .resumed → v.callv = none → w.g.sent = [] →
    (w.r ∉ s.steps1 ∨ debugStops s w.c = false ∧ actsOn s w x e = 0#32 → activeMask v ≠ 0#32 → { ctx := w.c, base := v.base, label := v.label, ord := v.ord : Breakpoint } ∈ s.breaks →
      debugHold s w x e = some (held s))
    ∧ (w.r ∉ s.steps1 → s.breaks = [] → debugHold s w x e = none)
    ∧ (w.r ∈ s.steps1 → debugStops s w.c = true → debugHold s w x e = some (held t))
    ∧ (w.r ∈ s.steps1 → debugStops s w.c = false → actsOn s w x e = 0#32 → s.breaks = [] → debugHold s w x e = none)
    ∧ (w.r ∈ s.steps1 → debugStops s w.c = false → actsOn s w x e ≠ 0#32 → debugHold s w x e =
      some (enterHandler t w.r (preciseEntry w 0xD1#8 (actsOn s w x e) [u64 (safeOrdinal s w)] (x.getLsbD 63)))))

/-- R142, R145, R343 to R345: a request for this device that is next in its flow is served and answered on channel 2, after a
permit has gone back on its link for each of its flits; a poisoned read is answered so. A response leaves its sender's outbox, and
who waits finds it under the request's number. A message ahead of its flow waits its turn; one of which a flit has failed 16 times
in a row does not get through, and retires that flit's link. With no permit left a message stays in the outbox. The form of a message is that of log 17. -/
def Claim.FabricMessages : Prop := ∀ (s : State) (m : MsgHdr) (pa n d : Nat) (bs : List Byte) (o : OutMsg) (op : RemoteOp) (wait : Bool),
  let mine (x : OutMsg) : Bool := x.dst == m.src && x.seq == m.seq && (match x.body with
    | .request _ => true
    | _ => false)
  let next := sget 0 s.inFlows (flowOf m)
  let bare (l : List OutMsg) : List OutMsg := l.map fun x => { x with flits := [] }
  let answers (u : State) (b : OutBody) (t : State) : Prop := t.mem = u.mem ∧ t.blocks = u.blocks ∧ sget 0 t.inFlows (flowOf m) = (m.seq + 1) % 2 ^ 16
    ∧ ∃ (is : List Nat) (j seq : Nat), is.length = m.flits.length ∧ bare t.outbox = bare s.outbox ++
      (m.flits.zip is).map (fun x => { id := x.2, dst := m.src, vc := 0, seq := 0, body := .permits x.1 m.vc.toNat 1, flits := [], wait := false }) ++
      [{ id := j, dst := m.src, vc := 2, seq := seq, body := b, flits := [], wait := false }]
  let fine : Prop := ∀ x ∈ flitWays m, x.2 < 16
  (s.harvest = false → m.dst = s.device → fine → s.early = [] → m.seq = next →
    (poisoned s pa n = false → ∃ t, exec (.pellorRequest m (.load pa n)) s = .next t ∧ answers s (.response (0#8 :: rdBytes s pa n)) t)
    ∧ (poisoned s pa n = true → ∃ t, exec (.pellorRequest m (.load pa n)) s = .next t ∧ answers s (.response [0xE0#8]) t)
    ∧ (∃ t, exec (.pellorRequest m (.store pa bs)) s = .next t ∧ answers (wrBytes s pa bs) (.response [0#8]) t)
    ∧ (s.outbox.find? mine = some o → bs ≠ [] → ∃ t, exec (.pellorResponse m bs) s = .next t ∧ (o.wait = true → sget [] t.answers o.id = bs)
      ∧ ∀ x, (∀ a b c, x.body ≠ .permits a b c) → (x ∈ t.outbox ↔ x ∈ s.outbox ∧ x.id ≠ o.id)))
  ∧ (s.harvest = false → m.dst = s.device → fine → s.early = [] → m.seq ≠ next → (m.seq + 2 ^ 16 - next) % 2 ^ 16 < 2 ^ 15 →
    ∃ t, exec (.pellorRequest m op) s = .next t ∧ t.early = [{ hdr := m, body := .request op }] ∧ t.inFlows = s.inFlows ∧ t.mem = s.mem)
  ∧ (m.dst = s.device → ¬ fine → ∃ ls, exec (.pellorRequest m op) s = .next { s with links := ls }
    ∧ (∀ x ∈ flitWays m, 16 ≤ x.2 → x.1 < 32 → (ls[x.1]?).map (·.retired) = some true)
    ∧ ∀ k : Fin 32, (∀ x ∈ flitWays m, x.1 ≠ k.val) → ls[k] = s.links[k])
  ∧ (m.dst ≠ s.device → exec (.pellorRequest m op) s = .next s ∧ exec (.pellorResponse m bs) s = .next s)
  ∧ ((∀ l ∈ s.links.toList, l.retired = true ∨ l.permits = Vector.replicate 4 0) →
    ∃ seq, (sendTo s d op wait).1.outbox = s.outbox ++
      [{ id := s.fresh, dst := d, vc := 0, seq := seq, body := .request op, flits := [], wait := wait }])

/-- R343, R344, R346, R347: permits return, 32 at most; a control or marker flit that has failed its CRC 16 times in a row retires its
link and does nothing else; a chunk that the switch aborts is combined in rank order, this rank's own part from
its memory, and its group takes cause 0xC0; an abort that comes before this rank's part has been sent is kept for its CPYR; a pod
configuration sets the device numbers and brings TICK to within 50 ticks of device 0's (which of them is free: log 3). -/
def Claim.FabricResults : Prop := ∀ (s : State) (n id link x : Nat) (k : Fin 32) (vc : Fin 4) (dst : W64)
    (set : Nat) (r : GRef) (cp : CopyOp) (z : RedSet) (srcs : List (List Byte)) (devs : List Nat) (tick : W64),
  let c := { s with links := vmod s.links link fun l => { l with retries := x }, fresh := s.fresh + 1,
                    chunks := s.chunks.filter (· ≠ (dst, set)) }
  let out := s.outbox.filter fun x => match x.body with
    | .request (.contribute n' d' _) => !(n' == set && d' == dst)
    | _ => true
  (s.harvest = false → s.outbox = [] → x < 16 → ∃ t, exec (.permitReturn { link := k.val, fails := x } vc.val n) s = .next t
    ∧ t = { s with fresh := s.fresh + 1, links := t.links }
    ∧ t.links[k] = { s.links[k] with retries := x, permits := s.links[k].permits.set vc (min 32 (s.links[k].permits[vc] + n)) }
    ∧ ∀ j : Fin 32, j ≠ k → t.links[j] = s.links[j])
  ∧ (16 ≤ x → ∀ e : Instr, (e = .permitReturn { link := k.val, fails := x } vc.val n ∨ e = .marker { link := k.val, fails := x }
      ∨ e = .triggerMessage n { flit := some { link := k.val, fails := x }, device := id } tick
      ∨ e = .reductionAbort dst { flit := { link := k.val, fails := x }, num := set } srcs) →
    exec e s = .next { s with links := s.links.set k { s.links[k] with retired := true, retries := 16 } })
  ∧ ((dst, set) ∉ s.chunks → exec (.switchChunkTimeout dst set) s = .next { s with chunks := s.chunks ++ [(dst, set)] })
  ∧ (s.harvest = false → x < 16 → chunkOwner c dst = some (r, cp, id) → s.sets.find? (fun z => z.num == set) = some z →
    exec (.reductionAbort dst { flit := { link := link, fails := x }, num := set } srcs) s = .next (deliver
      { c with answers := sset [] s.answers id (0#8 :: combineRanks z s.device srcs (ownChunk c r cp)),
               outbox := s.outbox.filter fun x => x.id != id } r 0xC0#8 [dst, u64 set]))
  ∧ (s.harvest = false → x < 16 → chunkOwner c dst = none → s.sets.find? (fun z => z.num == set) = some z → s.device ∈ z.ranks →
    out = s.outbox → (∀ e ∈ s.lateChunks, e.1 ≠ (dst, set)) →
    exec (.reductionAbort dst { flit := { link := link, fails := x }, num := set } srcs) s = .next { c with lateChunks := s.lateChunks ++ [((dst, set), srcs)] })
  ∧ (0 ∈ devs → (∀ d ∈ devs, d < 1024) → devs.length ≤ 1024 → exec (.podConfiguration 0 devs tick) s =
    .next { s with device := 0, devices := devs, fresh := s.fresh + 1, tick := tick.toNat })
  ∧ (n ∈ devs → n ≠ 0 → (∀ d ∈ devs, d < 1024) → devs.length ≤ 1024 → ∃ x, exec (.podConfiguration n devs tick) s =
    .next { s with device := n, devices := devs, fresh := s.fresh + 1, tick := x } ∧ tick.toNat - 50 ≤ x ∧ x ≤ tick.toNat + 50)

/-- What the debug port and the other devices of the pod do. -/
def Obligations.PodEvents : Prop := Claim.DebugResults ∧ Claim.DebugStops ∧ Claim.FabricMessages ∧ Claim.FabricResults

/-! ### Rules over all instructions and states -/

/-- R19, R32, R34: a write to a vector register changes its masked lanes and nothing else, in handler mode 224 upward in the
bank alone; p7 and q7 discard; uniform registers and predicates take their value. A pending write commits once the issue distance
reaches its latency, and of two the one that commits last stands, the younger where both commit together. -/
def Obligations.RegisterWrites : Prop := ∀ (g : Group) (n k l j : Nat) (m : Mask) (x : Lanes W32) (y : W32) (b diag : Bool), l < 32 → j < 32 →
  let wr (w : RegWrite) : Group := applyWrite g.depth g w
  (readV (wr (.v n m x)) n l = if has m l then lget 0 x l else readV g n l)
  ∧ (k ≠ n → readV (wr (.v n m x)) k j = readV g k j)
  ∧ (g.frames ≠ [] → 224 ≤ n → ∀ k j, readVAt (wr (.v n m x)) 0 k j = readVAt g 0 k j)
  ∧ (readS (wr (.s n y)) n = y) ∧ (k ≠ n → readS (wr (.s n y)) k = readS g k)
  ∧ (g.frames ≠ [] → 112 ≤ n → ∀ k, readSAt (wr (.s n y)) 0 k = readSAt g 0 k)
  ∧ (n < 7 → readP (wr (.p n m y)) n = (readP g n &&& ~~~m) ||| (y &&& m) ∧ readQ (wr (.q n b)) n = b)
  ∧ (k ≠ n → readP (wr (.p n m y)) k = readP g k ∧ readQ (wr (.q n b)) k = readQ g k)
  ∧ (7 ≤ n → wr (.p n m y) = g ∧ wr (.q n b) = g ∧ readP g n = 0xFFFFFFFF#32 ∧ readQ g n = true)
  ∧ (∀ p, g.pend = [p] → commitDue diag g = if p.due ≤ g.clock then raiseFlags diag p.flags (applyWrites g.depth p.writes { g with pend := [] }) else g)
  ∧ (∀ p q, g.pend = [p, q] → p.due ≤ g.clock → q.due ≤ g.clock →
      let (a, z) := if q.due < p.due then (q, p) else (p, q)
      commitDue diag g = raiseFlags diag z.flags (applyWrites g.depth z.writes (raiseFlags diag a.flags (applyWrites g.depth a.writes { g with pend := [] }))))

/-- R22, R33: an instruction of a group (`issued`) that names a vector register at or above the allocation enters the handler with
0x06, and under CHKMODE bit 0 one that meets a hazard with 0x05; neither has any other effect. Hazards are those of log 19; that
0x06 comes first is the model's choice (log 40). -/
def Claim.IssueTraps : Prop := ∀ (e : Instr) (h : Hdr) (long uniform : Bool) (u : Uses) (s : State) (i : Iss),
  issued s e = some (h, long, uniform, u) → foundBy s h long uniform u = some i → barHeld i.g = false → i.act ≠ 0#32 →
  ((u.reads ++ u.writes).any (beyond i.g) = true → exec e s = .next (enterHandler i.s i.w.r (preciseEntry i.w 0x06#8 i.act [] long)))
  ∧ ((u.reads ++ u.writes).any (beyond i.g) = false → hazard i.g h uniform u = true →
    exec e s = .next (enterHandler i.s i.w.r (preciseEntry i.w 0x05#8 i.act [] long)))

/-- R129, R136, R139, R141, R145, R147, R307, R308: the checks of an address in their order, and where it leads: on a replicated page to
the issuing die's copy. The translation of a write sets D. That 0x1E stands before 0x12 is the model's choice (log 40). -/
def Claim.AddressChecks : Prop := ∀ (s s' : State) (w : Who) (q : Req) (a : W64) (t : Hit),
  let path := field a.toNat 60 4
  let off := field a.toNat 0 60
  let at_ := if q.retry then [] else if q.engine then engineTlbs w.b.core else w.tlbs
  (8 ≤ path → resolve s w q a = (s, .fail 1 0x14#8 []))
  ∧ (path = 2 → q.place = none → resolve s w q a = (s, .fail 1 0x14#8 []))
  ∧ (path ≤ 1 → q.place = none → pathCause q.cls path ≠ some 0x14#8 → a.toNat % q.align ≠ 0 → resolve s w q a = (s, .fail 3 0x13#8 []))
  ∧ (path = 1 → q.place = none → pathCause q.cls 1 = none → a.toNat % q.align = 0 → s.blocks[w.r.blk]? = some w.b →
      resolve s w q a = (s, if off + q.size ≤ w.l.lrec.scratch ∧ (q.reads = true → ∀ k ∈ wordsOf off q.size, sget false w.b.sinit k = true)
        then .ok (.scr w.r.blk off) else .scrFault))
  ∧ (path = 0 → q.place = none → pathCause q.cls 0 = none → a.toNat % q.align = 0 →
      (xlat s at_ w.c false off = (s', .unmapped) → resolve s w q a = (s', .unmapped))
      ∧ (∀ l e, xlat s at_ w.c false off = (s', .bad l e) → resolve s w q a = (s', .fail 4 0x1E#8 [u64 l, u64 e]))
      ∧ (xlat s at_ w.c false off = (s', .hit t) → q.write = true → pteW t.pte = false → resolve s w q a = (s', .fail 5 0x12#8 []))
      ∧ (xlat s at_ w.c false off = (s', .hit t) → (q.write = true → pteW t.pte = true) → pteRP t.pte = false →
        resolve s w q a = (if q.write = true then setPte s' t.slot 16 else s', .ok (.mem t.pa t.slot false)))
      ∧ (xlat s at_ w.c false off = (s', .hit t) → (q.write = true → pteW t.pte = true) → pteRP t.pte = true → pathCause q.cls 4 = none →
        resolve s w q a = (if q.write = true then setPte s' t.slot 16 else s', .ok (.mem (replica t.pa w.die) t.slot true))))

/-- R129, R136: a load whose addresses all lie on no path, or are all misaligned, enters the handler with 0x14 or 0x13, the lowest
lane's address, and the mask of the lanes; nothing is read. -/
def Claim.LoadTraps : Prop := ∀ (h : Hdr) (x : MemForm) (s : State) (i : Iss) (l : Nat),
  let n := wdSize x.wd.toNat
  let addr (l : Nat) : W64 := readVV i.g x.a.toNat l + extOff x.ext
  let all (p : W64 → Prop) : Prop := ∀ k, has i.act k = true → p (addr k)
  let traps (c : BitVec 8) : Prop := exec (.ld h x) s = .next (enterHandler i.s i.w.r
    (preciseEntry i.w c i.act [addr l, i.act.setWidth 64] (extLong x.ext)))
  Issues s h (extLong x.ext) false { reads := regsOf false true x.a, writes := regRun false x.d (wdRegs x.wd) } i →
  i.g.sent = [] → extPlace x.ext = none → has i.act l = true → (∀ k, has i.act k = true → l ≤ k) →
  (all (fun a => 8 ≤ field a.toNat 60 4) → traps 0x14#8)
  ∧ (all (fun a => field a.toNat 60 4 ≤ 1 ∧ a.toNat % n ≠ 0) → traps 0x13#8)

/-- Where an instruction traps before it has any effect. -/
def Obligations.PreciseTraps : Prop := Claim.IssueTraps ∧ Claim.AddressChecks ∧ Claim.LoadTraps

/-- R306, R307, R309, R310: with no leaf of the address in the TLBs that an access looks in, the walk goes down the levels 0 to 3
(`slot`, `entry`) while it meets tables: an entry with V = 0 finds the page unmapped, at whichever level; a malformed table entry or
leaf is reported with its level; and a leaf gives the physical address and has AC set. A leaf stands at level 2 or 3, a table entry
at level 0 to 2. Which leaves a TLB holds is as log 13 says. -/
def Obligations.PageWalks : Prop := ∀ (s : State) (at_ : List Tlb) (c va k x : Nat),
  let index (j : Nat) : Nat := field va (48 - 12 * j) 12
  let table (k : Nat) : Nat := (List.range k).foldl (fun t j => frameOf (rd s (t + 8 * index j) 8)) (cxd s c 0 8)
  let slot (k : Nat) : Nat := table k + 8 * index k
  let entry (k : Nat) : Nat := rd s (slot k) 8
  let valid (k : Nat) : Prop := (entry k).testBit 0 = true
  let isLeaf (k : Nat) : Prop := (entry k).testBit 7 = true
  let pa := frameOf (entry k) + va % 2 ^ pageLog (field (entry k) 58 4)
  (leafOk s k x = true → k = 2 ∨ k = 3) ∧ (tableOk s k x = true → k < 3) ∧
  ((∀ t ∈ s.tlb, ¬ (t.holder ∈ at_ ∧ t.ctx = c ∧ t.fabric = false ∧ t.base ≤ va ∧ va < t.base + t.size)) → k ≤ 3 →
  (∀ j, j < k → valid j ∧ ¬ isLeaf j ∧ tableOk s j (entry j) = true) →
  (¬ valid k → xlat s at_ c false va = (s, .unmapped))
  ∧ (valid k → ¬ isLeaf k → tableOk s k (entry k) = false → xlat s at_ c false va = (s, .bad k (entry k)))
  ∧ (valid k → isLeaf k → leafOk s k (entry k) = false → xlat s at_ c false va = (s, .bad k (entry k)))
  ∧ (valid k → isLeaf k → leafOk s k (entry k) = true →
    ∃ s', xlat s at_ c false va = (s', .hit { pa := pa, pte := entry k, slot := some (slot k) })
      ∧ (rd s' (slot k) 8).testBit 3 = true ∧ s'.blocks = s.blocks))

/-- R149, R151: an operation that leaves a word's FULL bit as it was changes nothing; one that changes it clears the waiters bit, takes
every record of the word out of the parking area, and wakes the groups that were parked on it. Entries stand compact: log 24. -/
def Obligations.WordsWake : Prop := ∀ (s : State) (k : Nat) (full : Bool),
  let t := setFull s none k full
  (isFull s k = full → t = s)
  ∧ (isFull s k ≠ full → feOf t k = (if full then 1#2 else 0#2) ∧ ∀ j, j ≠ k → feOf t j = feOf s j)
  ∧ (isFull s k ≠ full → (feOf s k).getLsbD 1 = false → t.blocks = s.blocks ∧ t.mem = s.mem)
  ∧ (isFull s k ≠ full → (feOf s k).getLsbD 1 = true → sget [] t.parked k = [] ∧ (∀ j, j ≠ k → sget [] t.parked j = sget [] s.parked j)
    ∧ ∀ r g, s.grp? r = some g →
      ((∃ va, (r, va) ∈ sget [] s.parked k) → (∃ a, g.status = .parked a) → t.grp? r = some { g with status := .woken })
      ∧ ((∀ va, (r, va) ∉ sget [] s.parked k) → t.grp? r = some g))

/-- R14: bytes written at an address are read back, a number in little-endian order; every other byte stays, and memory keeps its
canonical form. -/
def Obligations.MemoryReadsBack : Prop := ∀ (s : State) (pa n x : Nat) (bs : List Byte),
  rdBytes (wrBytes s pa bs) pa bs.length = bs
  ∧ (∀ a, (a < pa ∨ pa + bs.length ≤ a) → byteOf (wrBytes s pa bs) a = byteOf s a)
  ∧ rd (wr s pa n x) pa n = x % 256 ^ n
  ∧ (∀ k, k < n → (byteOf (wr s pa n x) (pa + k)).toNat = x / 256 ^ k % 256)
  ∧ (s.Inv → (wrBytes s pa bs).Inv)

/-- R106, R205, R206: every finite value and infinity of a format rounds to its own pattern, without a flag, in every mode; a NaN
becomes the canonical one of its format. -/
def Obligations.NumbersKeep : Prop := ∀ (t : Ty) (rm : Rm) (sat sig : Bool) (x : Nat),
  t ∈ [Ty.f16, .bf16, .f32, .f64, .e4m3, .e5m2] →
  (∀ n m e, decodeF t x = .num n m e → x < 2 ^ t.width → roundTo t rm sat (decodeF t x) = { bits := x, flags := 0 })
  ∧ (∀ n, decodeF t x = .inf n → x < 2 ^ t.width → roundTo t rm sat (decodeF t x) = { bits := x, flags := 0 })
  ∧ (roundTo t rm sat (.nan sig)).bits = canonNaN t
  ∧ canonNaN .f32 = 0x7FC00000 ∧ canonNaN .f64 = 0x7FF8000000000000 ∧ canonNaN .f16 = 0x7E00 ∧ canonNaN .bf16 = 0x7FC0

/-- R278 to R280, R287: a running monitor in sum mode counts a write of one i32 field of its window: the value as written, on the monitor's
grid, joins the current phase's sum. In delta mode the value before is taken off. A write counted for a later phase joins the next
sum; one issued before the monitor was last configured or cleared (another epoch) counts only in the partial of that time, while it
is kept, and takes 0x71 where that overflows. -/
def Obligations.MonitorCounts : Prop := ∀ (s : State) (t : CountTag) (b : Block) (m : Monitor) (i e : Nat) (k : W32) (old new : List Byte),
  let v (bs : List Byte) : Int := signedOf 32 (ofBytes bs) * (2 ^ field m.cfg[5].toNat 0 7 : Nat)
  let x := if m.cfg[4].getLsbD 20 then v new - v old else v new
  s.blocks[t.who.blk]? = some b → b.mons[i]? = some m → m.st = .run → monFF m = 0 → old.length = 4 → new.length = 4 →
  monFields m t.addr.toNat 4 = [t.addr.toNat] → t.phases = [{ mon := i, phase := k, epoch := e }] →
  (e ≠ m.epoch → (∀ z ∈ m.past, z.epoch ≠ e) → countWrite s t old new = s)
  ∧ (∀ z, e ≠ m.epoch → m.past = [z] → z.epoch = e → z.cfg = m.cfg → k = z.phase →
    (in256 (z.cur + x) = true → countWrite s t old new = s.modBlk t.who.blk fun b =>
      { b with mons := b.mons.modify i fun _ => { m with past := [{ z with cur := z.cur + x }] } })
    ∧ (in256 (z.cur + x) = false → countWrite s t old new = deliver s t.who 0x71#8 [u64 i, t.whole])) ∧
  (e = m.epoch →
  (k = m.phase → in256 (m.cur + x) = true → ∃ m', countWrite s t old new = s.modBlk t.who.blk (fun b => { b with mons := b.mons.modify i fun _ => m' })
    ∧ m' = { m with cur := m.cur + x })
  ∧ (k ≠ m.phase → in256 (m.nxt + x) = true → ∃ m', countWrite s t old new = s.modBlk t.who.blk (fun b => { b with mons := b.mons.modify i fun _ => m' })
    ∧ m' = { m with nxt := m.nxt + x }))

/-- R293, R329: a fatal cause ends its block: every group has retired, with its side log and its frames gone and its copies still
to run, engine work is abandoned, and the block holds the cause with the TVALs stated and status 1.
A TVAL that no rule states is a free value (log 23). -/
def Obligations.BlocksTerminate : Prop := ∀ (s : State) (n : Nat) (b : Block) (cause : BitVec 8) (tv : List W64),
  s.blocks[n]? = some b → b.st ≠ .ended → (∃ l, s.launches[b.launch]? = some l) →
  ∃ c : Block, (terminateWith s n cause tv).blocks[n]? = some c ∧ c.st = .ended ∧ c.cause = cause ∧ c.status = 1
    ∧ (∀ k x, tv[k]? = some x → k < 4 → c.tval[k]? = some x) ∧ c.seq.busy = false ∧ c.seq.st ≠ .running ∧ c.seq.st ≠ .waiting
    ∧ c.groups.length = b.groups.length
    ∧ ∀ (j : Nat) (g : Group), b.groups[j]? = some g → ∃ h : Group, c.groups[j]? = some h ∧ h.status = .retired ∧ h.sideLog = [] ∧ h.frames = [] ∧ h.delivered = []
      ∧ h.copies = g.copies

/-- R16, R19, R53, R54, R70, R235, R321 and the model's turns (logs 1, 3): a step takes the turn at the head of the agenda. A group
whose words decode to an instruction executes it, its due writes committed and its waiting lanes resumed (and, with the sample window
open, a record of it left or not, log 37); words that do not execute take the first cause of R54's order; a header, a stream word,
a packet and an event are executed likewise. -/
def Obligations.StepRunsDecoded : Prop := ∀ (s : State) (rest : List Turn) (r : GRef) (w : Who) (x e : W64) (i : Instr) (n : Nat),
  let u := dueTurn s rest
  let takes (t : Turn) : Prop := s.frozen = false ∧ (upkeep s).agenda = t :: rest ∧ (upkeep s).frozen = false
  let v := w.g.cl
  (takes (.group r) → who? u r = some w → Unhindered u w →
    (v.phase = .body → v.ord ≤ v.len → nextWords u w = .ok (x, e) → decodeWord (decodeEnv u w) x e = .ok i →
      step s = exec i (atInstruction u w x))
    ∧ (v.phase = .body → v.ord ≤ v.len → nextWords u w = .ok (x, e) → (∀ i, decodeWord (decodeEnv u w) x e ≠ .ok i) →
      ∃ h uf, let opc := (x.extractLsb' 45 8).toNat
        let disabled := (BitVec.ofNat 256 (cxd u w.c 0x40 32)).getLsbD opc && !([0x00, 0x01, 0xE0, 0xE1, 0xE2, 0xE3, 0xE4, 0xE5, 0xE8].contains opc)
        step s = exec (.emulatedEncoding h (if opc ≥ 0xF0 then 0x82 else if assigned opc = false then 0x80 else if disabled then 0x81 else 0x84)
          x (rawOf x e).ext (x.getLsbD 63) uf) (atInstruction u w x))
    ∧ (∀ m st ft len, v.phase = .enter m true → v.off < v.codeLen → codeWord u (.group r) (v.base + u64 v.off) = .ok x →
      decodeHeader x = some (.blk st m ft len) →
      step s = exec (.blk st m ft len) ({ u with cur := some r }.modGrp r fun g => (commitDue (diagMode u w.c) g).modCl fun v => { v with off := v.off + 8 }))
    ∧ (v.phase = .body → v.len < v.ord →
      step s = exec .census ({ u with cur := some r }.modGrp r fun g => (commitDue (diagMode u w.c) g)))
    ∧ (v.phase = .sweepEnd → step s = exec .sweepEnd ({ u with cur := some r }.modGrp r fun g => (commitDue (diagMode u w.c) g))))
  ∧ (takes (.sequencer n) → u.harvest = false → ∀ b l d len, u.blocks[n]? = some b → u.launches[b.launch]? = some l → b.st = .resident →
    b.leaving = false → b.seq.svc = false → b.seq.st = .running → b.seq.busy = false → b.seq.desc = some (d, len) →
    (b.seq.next - b.seq.base).toNat < len → streamWords u n b.seq.next (len - (b.seq.next - b.seq.base).toNat) = .ok (x, e, true) →
    decodeStream x e = some i →
    ∃ q, step s = exec i ({ u with cur := some { blk := n, grp := b.seq.owner } }.modBlk n fun b => { b with seq := q })
      ∧ q.word = x ∧ q.ext = e ∧ q.next = b.seq.next ∧ q.base = b.seq.base ∧ q.st = .running ∧ q.owner = b.seq.owner)
  ∧ (takes (.march n) → let y := u.queue n
    y.started = [] → y.enable = true → y.stopped = false → y.rd ≠ y.wr → (u.ctx y.ctx).st = 1#2 → marchRuns u = true → ∀ bs, packetBytes u y = some bs →
    parsePacket n bs = some i → step s = exec i u)
  ∧ (takes (.event i) → step s = exec i u)

/-- R13: every instruction and event goes on whenever a group is on turn; none ends in a fault or a refusal. A group on turn, and the
fault `noGroupOnTurn` without one, are the model's own (log 34). -/
def Obligations.NothingStops : Prop := ∀ (i : Instr) (s : State), s.onTurn ≠ none → ∃ t, exec i s = .next t

/-- R349, R351: right after reset the device is booting, no stage has failed, nothing is placed, no queue is enabled and no context is
active. Queues and contexts start at the values of log 6. -/
def Obligations.ResetState : Prop :=
  State.reset.boot = 0#2 ∧ State.reset.fst = 0#4 ∧ State.reset.launches = [] ∧ State.reset.blocks = [] ∧ State.reset.frozen = false
    ∧ (∀ q, (State.reset.queue q).enable = false) ∧ ∀ c, (State.reset.ctx c).st = 0#2 ∧ (State.reset.ctx c).key = none

/-- At reset memory and the full/empty states are in their one form (log 4). -/
def Obligations.ResetInv : Prop := State.reset.Inv

/-- Every step keeps memory and the full/empty states in their one form (log 4). -/
def Obligations.StepKeepsInv : Prop := ∀ s t, State.Inv s → step s = .next t → State.Inv t

/-- R15, R26 to R31, R61, R235: an instruction that its encoding admits is read back from its words, with every operand. -/
def Obligations.DecodeEncode : Prop := ∀ (i : Instr) (x : W64) (e : Option W64), i.wf = true → encode i = some (x, e) →
  readsAs i x (e.getD 0#64) ∧ x.getLsbD 63 = e.isSome

/-- R15, R26, R30, R61, R69, R87: words of the spec's own examples, and what they decode to. -/
def Obligations.DecodeWords : Prop :=
  let g7 : Hdr := { sp := false, stall := 0, hold := 0, gn := false, gp := 7 }
  decodeWord .plain 0#64 0#64 = .ok (.nop { g7 with gp := 0 })
  ∧ decodeWord .plain 0x00E2814040608040#64 0#64 = .ok (.imad g7 { u := false, ty := .i32, rm := .rn, os := 0, d := 10, a := 2, b := .reg 3, c := 4 })
  ∧ decodeWord .plain 0x002800C040612220#64 0#64 =
      .ok (.fadd { g7 with gp := 1 } { u := false, ty := .f32, rm := .rs, os := 0, d := 6, a := 2, b := .reg 3, c := 9 })
  ∧ decodeWord .plain 0x004E006080A00210#64 0#64 =
      .ok (.setp { g7 with gp := 2 } { u := false, ty := .f32, cmp := 2, cb := 0, d := 3, a := 4, b := .reg 5, c := 0 })
  ∧ decodeWord .plain 0x80F0028100002245#64 0x40#64 = .ok (.ld g7 { sid := 1, sc := 1, cp := 0, wd := 5, ord := 1, op := 0, ext := .off 0x40, d := 20, a := 8, b := 0 })
  ∧ decodeWord .plain 0x00FD00C000000405#64 0#64 = .ok (.rdsr g7 true 5 6)

/-- R15 to R17, R31, R51, R54, R61, R235: what decodes is admitted by its encoding, and its words are the ones its encoding gives: no
second word means the same, and no bit of a word is ignored. -/
def Obligations.WordsMeanOne : Prop := ∀ (i : Instr) (x e : W64) (env : DecodeEnv),
  let words : W64 × Option W64 := (x, if x.getLsbD 63 then some e else none)
  (decodeWord env x e = .ok i → i.wf = true ∧ encode i = some words)
  ∧ (decodeStream x e = some i → i.wf = true ∧ encode i = some words)
  ∧ (decodeHeader x = some i → i.wf = true ∧ encode i = some (x, none))
end

