-- ==== Sys2Proof/Laws/Sparse.lean ====
section
/-! SUPPORT. The laws of sparse maps: read after write, and that a write keeps the canonical form. -/
namespace Sys2Proof.Machine

variable {α : Type}

theorem sget_sins_same (d : α) (k : Nat) (x : α) (m : SMap α) (h : ∀ e ∈ m, e.1 ≠ k) : sget d (sins k x m) k = x := by
  induction m with
  | nil => simp [sins, sget]
  | cons e t ih =>
    obtain ⟨k', y⟩ := e
    have hk : k' ≠ k := h (k', y) (by simp)
    simp only [sins]
    split
    · simp [sget]
    · simp only [sget, hk, if_false]
      exact ih fun e he => h e (by simp [he])

theorem sget_sins_ne (d : α) {k j : Nat} (x : α) (m : SMap α) (h : j ≠ k) : sget d (sins k x m) j = sget d m j := by
  induction m with
  | nil => simp [sins, sget, Ne.symm h]
  | cons e t ih =>
    obtain ⟨k', y⟩ := e
    simp only [sins]
    split
    · simp [sget, Ne.symm h]
    · simp only [sget, ih]

theorem sdel_no_key (m : SMap α) (k : Nat) : ∀ e ∈ sdel m k, e.1 ≠ k := by
  intro e he
  simp only [sdel, List.mem_filter] at he
  simpa using he.2

theorem sget_no_key (d : α) (m : SMap α) (k : Nat) (h : ∀ e ∈ m, e.1 ≠ k) : sget d m k = d := by
  induction m with
  | nil => rfl
  | cons e t ih =>
    have hk : e.1 ≠ k := h e (by simp)
    simp only [sget, hk, if_false]
    exact ih fun e he => h e (by simp [he])

theorem sget_sdel_ne (d : α) (m : SMap α) {k j : Nat} (h : j ≠ k) : sget d (sdel m k) j = sget d m j := by
  induction m with
  | nil => rfl
  | cons e t ih =>
    obtain ⟨k', y⟩ := e
    by_cases hk : k' = k
    · subst hk
      have ht : sdel ((k', y) :: t) k' = sdel t k' := by simp [sdel]
      rw [ht, ih]
      simp [sget, Ne.symm h]
    · have : sdel ((k', y) :: t) k = (k', y) :: sdel t k := by simp [sdel, hk]
      rw [this]
      simp only [sget, ih]

@[simp] theorem sget_sset_same [DecidableEq α] (d : α) (m : SMap α) (k : Nat) (x : α) : sget d (sset d m k x) k = x := by
  unfold sset
  split
  · rename_i h
    rw [sget_no_key d _ k (sdel_no_key m k), h]
  · exact sget_sins_same d k x _ (sdel_no_key m k)

theorem sget_sset_ne [DecidableEq α] (d : α) (m : SMap α) {k j : Nat} (x : α) (h : j ≠ k) :
    sget d (sset d m k x) j = sget d m j := by
  unfold sset
  split
  · exact sget_sdel_ne d m h
  · rw [sget_sins_ne d x _ h, sget_sdel_ne d m h]

theorem sget_sset [DecidableEq α] (d : α) (m : SMap α) (k j : Nat) (x : α) :
    sget d (sset d m k x) j = if j = k then x else sget d m j := by
  by_cases h : j = k
  · subst h; simp
  · rw [sget_sset_ne d m x h, if_neg h]

/-- Keys of a canonical map rise strictly from the head. -/
theorem swf_lt [DecidableEq α] {d : α} {k : Nat} {x : α} {t : SMap α} (h : swf d ((k, x) :: t) = true) :
    ∀ e ∈ t, k < e.1 := by
  induction t generalizing k x with
  | nil => simp
  | cons e t ih =>
    obtain ⟨k', y⟩ := e
    simp only [swf, Bool.and_eq_true, decide_eq_true_eq] at h
    have hk : k < k' := h.1.2
    intro e he
    rcases List.mem_cons.1 he with rfl | he
    · exact hk
    · have : swf d ((k', y) :: t) = true := by
        simp only [swf, Bool.and_eq_true, decide_eq_true_eq]; exact h.2
      exact Nat.lt_trans hk (ih this e he)

theorem swf_cons [DecidableEq α] {d : α} {k : Nat} {x : α} {t : SMap α} :
    swf d ((k, x) :: t) = true ↔ x ≠ d ∧ (∀ e ∈ t, k < e.1) ∧ swf d t = true := by
  constructor
  · intro h
    refine ⟨?_, swf_lt h, ?_⟩ <;>
    · simp only [swf, Bool.and_eq_true, decide_eq_true_eq] at h
      first | exact h.1.1 | exact h.2
  · rintro ⟨hx, hk, ht⟩
    cases t with
    | nil => simp [swf, hx]
    | cons e t =>
      simp only [swf, Bool.and_eq_true, decide_eq_true_eq]
      refine ⟨⟨hx, hk e (by simp)⟩, ?_⟩
      simpa only [swf, Bool.and_eq_true, decide_eq_true_eq] using ht

theorem swf_sdel [DecidableEq α] {d : α} {m : SMap α} (h : swf d m = true) (k : Nat) : swf d (sdel m k) = true := by
  induction m with
  | nil => rfl
  | cons e t ih =>
    obtain ⟨k', y⟩ := e
    obtain ⟨hy, hk, ht⟩ := swf_cons.1 h
    by_cases he : k' = k
    · have : sdel ((k', y) :: t) k = sdel t k := by simp [sdel, he]
      rw [this]; exact ih ht
    · have : sdel ((k', y) :: t) k = (k', y) :: sdel t k := by simp [sdel, he]
      rw [this]
      exact swf_cons.2 ⟨hy, fun e he => hk e ((List.mem_filter.1 he).1), ih ht⟩

theorem mem_sins {k : Nat} {x : α} {m : SMap α} {e : Nat × α} (h : e ∈ sins k x m) : e = (k, x) ∨ e ∈ m := by
  induction m with
  | nil => simpa [sins] using h
  | cons a t ih =>
    simp only [sins] at h
    split at h
    · simpa using h
    · rcases List.mem_cons.1 h with rfl | h
      · right; simp
      · rcases ih h with rfl | h
        · left; rfl
        · right; simp [h]

theorem swf_sins [DecidableEq α] {d : α} {m : SMap α} (h : swf d m = true) {k : Nat} {x : α} (hx : x ≠ d)
    (hk : ∀ e ∈ m, e.1 ≠ k) : swf d (sins k x m) = true := by
  induction m with
  | nil => simp [sins, swf, hx]
  | cons e t ih =>
    obtain ⟨k', y⟩ := e
    obtain ⟨hy, hlt, ht⟩ := swf_cons.1 h
    simp only [sins]
    split
    · rename_i hlt'
      refine swf_cons.2 ⟨hx, ?_, h⟩
      intro e he
      rcases List.mem_cons.1 he with rfl | he
      · exact hlt'
      · exact Nat.lt_trans hlt' (hlt e he)
    · rename_i hge
      have hne : k' ≠ k := hk (k', y) (by simp)
      refine swf_cons.2 ⟨hy, ?_, ih ht fun e he => hk e (by simp [he])⟩
      intro e he
      rcases mem_sins he with rfl | he
      · exact Nat.lt_of_le_of_ne (Nat.le_of_not_lt hge) hne
      · exact hlt e he

/-- Every write keeps the canonical form. -/
theorem swf_sset [DecidableEq α] {d : α} {m : SMap α} (h : swf d m = true) (k : Nat) (x : α) :
    swf d (sset d m k x) = true := by
  unfold sset
  split
  · exact swf_sdel h k
  · rename_i hx
    exact swf_sins (swf_sdel h k) hx (sdel_no_key m k)

theorem swf_ssetAll [DecidableEq α] {d : α} {m : SMap α} (h : swf d m = true) (l : List (Nat × α)) :
    swf d (ssetAll d m l) = true := by
  induction l generalizing m with
  | nil => exact h
  | cons e t ih => exact ih (swf_sset h e.1 e.2)

end Sys2Proof.Machine
end

