-- ==== Sys2Proof/Laws/State.lean ====
section
/-! SUPPORT. One lemma per field and update: what an update of the state, a block, a group or a level leaves as it was, and
what it changes. -/
namespace Sys2Proof.Machine

@[simp] theorem modBlk_agenda (s : State) (b : Nat) (f : Block → Block) : (s.modBlk b f).agenda = s.agenda := rfl
@[simp] theorem modBlk_cur (s : State) (b : Nat) (f : Block → Block) : (s.modBlk b f).cur = s.cur := rfl
@[simp] theorem modBlk_steps (s : State) (b : Nat) (f : Block → Block) : (s.modBlk b f).steps = s.steps := rfl
@[simp] theorem modBlk_fresh (s : State) (b : Nat) (f : Block → Block) : (s.modBlk b f).fresh = s.fresh := rfl
@[simp] theorem modBlk_mem (s : State) (b : Nat) (f : Block → Block) : (s.modBlk b f).mem = s.mem := rfl
@[simp] theorem modBlk_fe (s : State) (b : Nat) (f : Block → Block) : (s.modBlk b f).fe = s.fe := rfl
@[simp] theorem modBlk_poison (s : State) (b : Nat) (f : Block → Block) : (s.modBlk b f).poison = s.poison := rfl
@[simp] theorem modBlk_scrubbed (s : State) (b : Nat) (f : Block → Block) : (s.modBlk b f).scrubbed = s.scrubbed := rfl
@[simp] theorem modBlk_tlb (s : State) (b : Nat) (f : Block → Block) : (s.modBlk b f).tlb = s.tlb := rfl
@[simp] theorem modBlk_leaves (s : State) (b : Nat) (f : Block → Block) : (s.modBlk b f).leaves = s.leaves := rfl
@[simp] theorem modBlk_farPages (s : State) (b : Nat) (f : Block → Block) : (s.modBlk b f).farPages = s.farPages := rfl
@[simp] theorem modBlk_icache (s : State) (b : Nat) (f : Block → Block) : (s.modBlk b f).icache = s.icache := rfl
@[simp] theorem modBlk_arbiter (s : State) (b : Nat) (f : Block → Block) : (s.modBlk b f).arbiter = s.arbiter := rfl
@[simp] theorem modBlk_lookups (s : State) (b : Nat) (f : Block → Block) : (s.modBlk b f).lookups = s.lookups := rfl
@[simp] theorem modBlk_tick (s : State) (b : Nat) (f : Block → Block) : (s.modBlk b f).tick = s.tick := rfl
@[simp] theorem modBlk_boot (s : State) (b : Nat) (f : Block → Block) : (s.modBlk b f).boot = s.boot := rfl
@[simp] theorem modBlk_fst (s : State) (b : Nat) (f : Block → Block) : (s.modBlk b f).fst = s.fst := rfl
@[simp] theorem modBlk_frozen (s : State) (b : Nat) (f : Block → Block) : (s.modBlk b f).frozen = s.frozen := rfl
@[simp] theorem modBlk_power (s : State) (b : Nat) (f : Block → Block) : (s.modBlk b f).power = s.power := rfl
@[simp] theorem modBlk_lowered (s : State) (b : Nat) (f : Block → Block) : (s.modBlk b f).lowered = s.lowered := rfl
@[simp] theorem modBlk_gated (s : State) (b : Nat) (f : Block → Block) : (s.modBlk b f).gated = s.gated := rfl
@[simp] theorem modBlk_retiredCores (s : State) (b : Nat) (f : Block → Block) : (s.modBlk b f).retiredCores = s.retiredCores := rfl
@[simp] theorem modBlk_retiredMesh (s : State) (b : Nat) (f : Block → Block) : (s.modBlk b f).retiredMesh = s.retiredMesh := rfl
@[simp] theorem modBlk_launches (s : State) (b : Nat) (f : Block → Block) : (s.modBlk b f).launches = s.launches := rfl
@[simp] theorem modBlk_blocks (s : State) (b : Nat) (f : Block → Block) : (s.modBlk b f).blocks = s.blocks.modify b f := rfl
@[simp] theorem modBlk_growQ (s : State) (b : Nat) (f : Block → Block) : (s.modBlk b f).growQ = s.growQ := rfl
@[simp] theorem modBlk_granTags (s : State) (b : Nat) (f : Block → Block) : (s.modBlk b f).granTags = s.granTags := rfl
@[simp] theorem modBlk_parked (s : State) (b : Nat) (f : Block → Block) : (s.modBlk b f).parked = s.parked := rfl
@[simp] theorem modBlk_ctxs (s : State) (b : Nat) (f : Block → Block) : (s.modBlk b f).ctxs = s.ctxs := rfl
@[simp] theorem modBlk_queues (s : State) (b : Nat) (f : Block → Block) : (s.modBlk b f).queues = s.queues := rfl
@[simp] theorem modBlk_served (s : State) (b : Nat) (f : Block → Block) : (s.modBlk b f).served = s.served := rfl
@[simp] theorem modBlk_holder (s : State) (b : Nat) (f : Block → Block) : (s.modBlk b f).holder = s.holder := rfl
@[simp] theorem modBlk_leafLinks (s : State) (b : Nat) (f : Block → Block) : (s.modBlk b f).leafLinks = s.leafLinks := rfl
@[simp] theorem modBlk_operands (s : State) (b : Nat) (f : Block → Block) : (s.modBlk b f).operands = s.operands := rfl
@[simp] theorem modBlk_invalStatus (s : State) (b : Nat) (f : Block → Block) : (s.modBlk b f).invalStatus = s.invalStatus := rfl
@[simp] theorem modBlk_cmdStatus (s : State) (b : Nat) (f : Block → Block) : (s.modBlk b f).cmdStatus = s.cmdStatus := rfl
@[simp] theorem modBlk_cmdQueue (s : State) (b : Nat) (f : Block → Block) : (s.modBlk b f).cmdQueue = s.cmdQueue := rfl
@[simp] theorem modBlk_mailStatus (s : State) (b : Nat) (f : Block → Block) : (s.modBlk b f).mailStatus = s.mailStatus := rfl
@[simp] theorem modBlk_msix (s : State) (b : Nat) (f : Block → Block) : (s.modBlk b f).msix = s.msix := rfl
@[simp] theorem modBlk_replies (s : State) (b : Nat) (f : Block → Block) : (s.modBlk b f).replies = s.replies := rfl
@[simp] theorem modBlk_barReads (s : State) (b : Nat) (f : Block → Block) : (s.modBlk b f).barReads = s.barReads := rfl
@[simp] theorem modBlk_hostLink (s : State) (b : Nat) (f : Block → Block) : (s.modBlk b f).hostLink = s.hostLink := rfl
@[simp] theorem modBlk_measure (s : State) (b : Nat) (f : Block → Block) : (s.modBlk b f).measure = s.measure := rfl
@[simp] theorem modBlk_breaks (s : State) (b : Nat) (f : Block → Block) : (s.modBlk b f).breaks = s.breaks := rfl
@[simp] theorem modBlk_steps1 (s : State) (b : Nat) (f : Block → Block) : (s.modBlk b f).steps1 = s.steps1 := rfl
@[simp] theorem modBlk_focus (s : State) (b : Nat) (f : Block → Block) : (s.modBlk b f).focus = s.focus := rfl
@[simp] theorem modBlk_trig (s : State) (b : Nat) (f : Block → Block) : (s.modBlk b f).trig = s.trig := rfl
@[simp] theorem modBlk_window (s : State) (b : Nat) (f : Block → Block) : (s.modBlk b f).window = s.window := rfl
@[simp] theorem modBlk_samples (s : State) (b : Nat) (f : Block → Block) : (s.modBlk b f).samples = s.samples := rfl
@[simp] theorem modBlk_dropped (s : State) (b : Nat) (f : Block → Block) : (s.modBlk b f).dropped = s.dropped := rfl
@[simp] theorem modBlk_debugPort (s : State) (b : Nat) (f : Block → Block) : (s.modBlk b f).debugPort = s.debugPort := rfl
@[simp] theorem modBlk_harvest (s : State) (b : Nat) (f : Block → Block) : (s.modBlk b f).harvest = s.harvest := rfl
@[simp] theorem modBlk_harvestArea (s : State) (b : Nat) (f : Block → Block) : (s.modBlk b f).harvestArea = s.harvestArea := rfl
@[simp] theorem modBlk_harvestTick (s : State) (b : Nat) (f : Block → Block) : (s.modBlk b f).harvestTick = s.harvestTick := rfl
@[simp] theorem modBlk_harvestEnd (s : State) (b : Nat) (f : Block → Block) : (s.modBlk b f).harvestEnd = s.harvestEnd := rfl
@[simp] theorem modBlk_device (s : State) (b : Nat) (f : Block → Block) : (s.modBlk b f).device = s.device := rfl
@[simp] theorem modBlk_devices (s : State) (b : Nat) (f : Block → Block) : (s.modBlk b f).devices = s.devices := rfl
@[simp] theorem modBlk_links (s : State) (b : Nat) (f : Block → Block) : (s.modBlk b f).links = s.links := rfl
@[simp] theorem modBlk_outbox (s : State) (b : Nat) (f : Block → Block) : (s.modBlk b f).outbox = s.outbox := rfl
@[simp] theorem modBlk_answers (s : State) (b : Nat) (f : Block → Block) : (s.modBlk b f).answers = s.answers := rfl
@[simp] theorem modBlk_flows (s : State) (b : Nat) (f : Block → Block) : (s.modBlk b f).flows = s.flows := rfl
@[simp] theorem modBlk_inFlows (s : State) (b : Nat) (f : Block → Block) : (s.modBlk b f).inFlows = s.inFlows := rfl
@[simp] theorem modBlk_early (s : State) (b : Nat) (f : Block → Block) : (s.modBlk b f).early = s.early := rfl
@[simp] theorem modBlk_chunks (s : State) (b : Nat) (f : Block → Block) : (s.modBlk b f).chunks = s.chunks := rfl
@[simp] theorem modBlk_lateChunks (s : State) (b : Nat) (f : Block → Block) : (s.modBlk b f).lateChunks = s.lateChunks := rfl
@[simp] theorem modBlk_sets (s : State) (b : Nat) (f : Block → Block) : (s.modBlk b f).sets = s.sets := rfl

@[simp] theorem modGrp_agenda (s : State) (r : GRef) (f : Group → Group) : (s.modGrp r f).agenda = s.agenda := rfl
@[simp] theorem modGrp_cur (s : State) (r : GRef) (f : Group → Group) : (s.modGrp r f).cur = s.cur := rfl
@[simp] theorem modGrp_steps (s : State) (r : GRef) (f : Group → Group) : (s.modGrp r f).steps = s.steps := rfl
@[simp] theorem modGrp_fresh (s : State) (r : GRef) (f : Group → Group) : (s.modGrp r f).fresh = s.fresh := rfl
@[simp] theorem modGrp_mem (s : State) (r : GRef) (f : Group → Group) : (s.modGrp r f).mem = s.mem := rfl
@[simp] theorem modGrp_fe (s : State) (r : GRef) (f : Group → Group) : (s.modGrp r f).fe = s.fe := rfl
@[simp] theorem modGrp_poison (s : State) (r : GRef) (f : Group → Group) : (s.modGrp r f).poison = s.poison := rfl
@[simp] theorem modGrp_scrubbed (s : State) (r : GRef) (f : Group → Group) : (s.modGrp r f).scrubbed = s.scrubbed := rfl
@[simp] theorem modGrp_tlb (s : State) (r : GRef) (f : Group → Group) : (s.modGrp r f).tlb = s.tlb := rfl
@[simp] theorem modGrp_leaves (s : State) (r : GRef) (f : Group → Group) : (s.modGrp r f).leaves = s.leaves := rfl
@[simp] theorem modGrp_farPages (s : State) (r : GRef) (f : Group → Group) : (s.modGrp r f).farPages = s.farPages := rfl
@[simp] theorem modGrp_icache (s : State) (r : GRef) (f : Group → Group) : (s.modGrp r f).icache = s.icache := rfl
@[simp] theorem modGrp_arbiter (s : State) (r : GRef) (f : Group → Group) : (s.modGrp r f).arbiter = s.arbiter := rfl
@[simp] theorem modGrp_lookups (s : State) (r : GRef) (f : Group → Group) : (s.modGrp r f).lookups = s.lookups := rfl
@[simp] theorem modGrp_tick (s : State) (r : GRef) (f : Group → Group) : (s.modGrp r f).tick = s.tick := rfl
@[simp] theorem modGrp_boot (s : State) (r : GRef) (f : Group → Group) : (s.modGrp r f).boot = s.boot := rfl
@[simp] theorem modGrp_fst (s : State) (r : GRef) (f : Group → Group) : (s.modGrp r f).fst = s.fst := rfl
@[simp] theorem modGrp_frozen (s : State) (r : GRef) (f : Group → Group) : (s.modGrp r f).frozen = s.frozen := rfl
@[simp] theorem modGrp_power (s : State) (r : GRef) (f : Group → Group) : (s.modGrp r f).power = s.power := rfl
@[simp] theorem modGrp_lowered (s : State) (r : GRef) (f : Group → Group) : (s.modGrp r f).lowered = s.lowered := rfl
@[simp] theorem modGrp_gated (s : State) (r : GRef) (f : Group → Group) : (s.modGrp r f).gated = s.gated := rfl
@[simp] theorem modGrp_retiredCores (s : State) (r : GRef) (f : Group → Group) : (s.modGrp r f).retiredCores = s.retiredCores := rfl
@[simp] theorem modGrp_retiredMesh (s : State) (r : GRef) (f : Group → Group) : (s.modGrp r f).retiredMesh = s.retiredMesh := rfl
@[simp] theorem modGrp_launches (s : State) (r : GRef) (f : Group → Group) : (s.modGrp r f).launches = s.launches := rfl
@[simp] theorem modGrp_blocks (s : State) (r : GRef) (f : Group → Group) : (s.modGrp r f).blocks = s.blocks.modify r.blk fun b => b.modGrp r.grp f := rfl
@[simp] theorem modGrp_growQ (s : State) (r : GRef) (f : Group → Group) : (s.modGrp r f).growQ = s.growQ := rfl
@[simp] theorem modGrp_granTags (s : State) (r : GRef) (f : Group → Group) : (s.modGrp r f).granTags = s.granTags := rfl
@[simp] theorem modGrp_parked (s : State) (r : GRef) (f : Group → Group) : (s.modGrp r f).parked = s.parked := rfl
@[simp] theorem modGrp_ctxs (s : State) (r : GRef) (f : Group → Group) : (s.modGrp r f).ctxs = s.ctxs := rfl
@[simp] theorem modGrp_queues (s : State) (r : GRef) (f : Group → Group) : (s.modGrp r f).queues = s.queues := rfl
@[simp] theorem modGrp_served (s : State) (r : GRef) (f : Group → Group) : (s.modGrp r f).served = s.served := rfl
@[simp] theorem modGrp_holder (s : State) (r : GRef) (f : Group → Group) : (s.modGrp r f).holder = s.holder := rfl
@[simp] theorem modGrp_leafLinks (s : State) (r : GRef) (f : Group → Group) : (s.modGrp r f).leafLinks = s.leafLinks := rfl
@[simp] theorem modGrp_operands (s : State) (r : GRef) (f : Group → Group) : (s.modGrp r f).operands = s.operands := rfl
@[simp] theorem modGrp_invalStatus (s : State) (r : GRef) (f : Group → Group) : (s.modGrp r f).invalStatus = s.invalStatus := rfl
@[simp] theorem modGrp_cmdStatus (s : State) (r : GRef) (f : Group → Group) : (s.modGrp r f).cmdStatus = s.cmdStatus := rfl
@[simp] theorem modGrp_cmdQueue (s : State) (r : GRef) (f : Group → Group) : (s.modGrp r f).cmdQueue = s.cmdQueue := rfl
@[simp] theorem modGrp_mailStatus (s : State) (r : GRef) (f : Group → Group) : (s.modGrp r f).mailStatus = s.mailStatus := rfl
@[simp] theorem modGrp_msix (s : State) (r : GRef) (f : Group → Group) : (s.modGrp r f).msix = s.msix := rfl
@[simp] theorem modGrp_replies (s : State) (r : GRef) (f : Group → Group) : (s.modGrp r f).replies = s.replies := rfl
@[simp] theorem modGrp_barReads (s : State) (r : GRef) (f : Group → Group) : (s.modGrp r f).barReads = s.barReads := rfl
@[simp] theorem modGrp_hostLink (s : State) (r : GRef) (f : Group → Group) : (s.modGrp r f).hostLink = s.hostLink := rfl
@[simp] theorem modGrp_measure (s : State) (r : GRef) (f : Group → Group) : (s.modGrp r f).measure = s.measure := rfl
@[simp] theorem modGrp_breaks (s : State) (r : GRef) (f : Group → Group) : (s.modGrp r f).breaks = s.breaks := rfl
@[simp] theorem modGrp_steps1 (s : State) (r : GRef) (f : Group → Group) : (s.modGrp r f).steps1 = s.steps1 := rfl
@[simp] theorem modGrp_focus (s : State) (r : GRef) (f : Group → Group) : (s.modGrp r f).focus = s.focus := rfl
@[simp] theorem modGrp_trig (s : State) (r : GRef) (f : Group → Group) : (s.modGrp r f).trig = s.trig := rfl
@[simp] theorem modGrp_window (s : State) (r : GRef) (f : Group → Group) : (s.modGrp r f).window = s.window := rfl
@[simp] theorem modGrp_samples (s : State) (r : GRef) (f : Group → Group) : (s.modGrp r f).samples = s.samples := rfl
@[simp] theorem modGrp_dropped (s : State) (r : GRef) (f : Group → Group) : (s.modGrp r f).dropped = s.dropped := rfl
@[simp] theorem modGrp_debugPort (s : State) (r : GRef) (f : Group → Group) : (s.modGrp r f).debugPort = s.debugPort := rfl
@[simp] theorem modGrp_harvest (s : State) (r : GRef) (f : Group → Group) : (s.modGrp r f).harvest = s.harvest := rfl
@[simp] theorem modGrp_harvestArea (s : State) (r : GRef) (f : Group → Group) : (s.modGrp r f).harvestArea = s.harvestArea := rfl
@[simp] theorem modGrp_harvestTick (s : State) (r : GRef) (f : Group → Group) : (s.modGrp r f).harvestTick = s.harvestTick := rfl
@[simp] theorem modGrp_harvestEnd (s : State) (r : GRef) (f : Group → Group) : (s.modGrp r f).harvestEnd = s.harvestEnd := rfl
@[simp] theorem modGrp_device (s : State) (r : GRef) (f : Group → Group) : (s.modGrp r f).device = s.device := rfl
@[simp] theorem modGrp_devices (s : State) (r : GRef) (f : Group → Group) : (s.modGrp r f).devices = s.devices := rfl
@[simp] theorem modGrp_links (s : State) (r : GRef) (f : Group → Group) : (s.modGrp r f).links = s.links := rfl
@[simp] theorem modGrp_outbox (s : State) (r : GRef) (f : Group → Group) : (s.modGrp r f).outbox = s.outbox := rfl
@[simp] theorem modGrp_answers (s : State) (r : GRef) (f : Group → Group) : (s.modGrp r f).answers = s.answers := rfl
@[simp] theorem modGrp_flows (s : State) (r : GRef) (f : Group → Group) : (s.modGrp r f).flows = s.flows := rfl
@[simp] theorem modGrp_inFlows (s : State) (r : GRef) (f : Group → Group) : (s.modGrp r f).inFlows = s.inFlows := rfl
@[simp] theorem modGrp_early (s : State) (r : GRef) (f : Group → Group) : (s.modGrp r f).early = s.early := rfl
@[simp] theorem modGrp_chunks (s : State) (r : GRef) (f : Group → Group) : (s.modGrp r f).chunks = s.chunks := rfl
@[simp] theorem modGrp_lateChunks (s : State) (r : GRef) (f : Group → Group) : (s.modGrp r f).lateChunks = s.lateChunks := rfl
@[simp] theorem modGrp_sets (s : State) (r : GRef) (f : Group → Group) : (s.modGrp r f).sets = s.sets := rfl

@[simp] theorem modLaunch_agenda (s : State) (n : Nat) (f : Launch → Launch) : (s.modLaunch n f).agenda = s.agenda := rfl
@[simp] theorem modLaunch_cur (s : State) (n : Nat) (f : Launch → Launch) : (s.modLaunch n f).cur = s.cur := rfl
@[simp] theorem modLaunch_steps (s : State) (n : Nat) (f : Launch → Launch) : (s.modLaunch n f).steps = s.steps := rfl
@[simp] theorem modLaunch_fresh (s : State) (n : Nat) (f : Launch → Launch) : (s.modLaunch n f).fresh = s.fresh := rfl
@[simp] theorem modLaunch_mem (s : State) (n : Nat) (f : Launch → Launch) : (s.modLaunch n f).mem = s.mem := rfl
@[simp] theorem modLaunch_fe (s : State) (n : Nat) (f : Launch → Launch) : (s.modLaunch n f).fe = s.fe := rfl
@[simp] theorem modLaunch_poison (s : State) (n : Nat) (f : Launch → Launch) : (s.modLaunch n f).poison = s.poison := rfl
@[simp] theorem modLaunch_scrubbed (s : State) (n : Nat) (f : Launch → Launch) : (s.modLaunch n f).scrubbed = s.scrubbed := rfl
@[simp] theorem modLaunch_tlb (s : State) (n : Nat) (f : Launch → Launch) : (s.modLaunch n f).tlb = s.tlb := rfl
@[simp] theorem modLaunch_leaves (s : State) (n : Nat) (f : Launch → Launch) : (s.modLaunch n f).leaves = s.leaves := rfl
@[simp] theorem modLaunch_farPages (s : State) (n : Nat) (f : Launch → Launch) : (s.modLaunch n f).farPages = s.farPages := rfl
@[simp] theorem modLaunch_icache (s : State) (n : Nat) (f : Launch → Launch) : (s.modLaunch n f).icache = s.icache := rfl
@[simp] theorem modLaunch_arbiter (s : State) (n : Nat) (f : Launch → Launch) : (s.modLaunch n f).arbiter = s.arbiter := rfl
@[simp] theorem modLaunch_lookups (s : State) (n : Nat) (f : Launch → Launch) : (s.modLaunch n f).lookups = s.lookups := rfl
@[simp] theorem modLaunch_tick (s : State) (n : Nat) (f : Launch → Launch) : (s.modLaunch n f).tick = s.tick := rfl
@[simp] theorem modLaunch_boot (s : State) (n : Nat) (f : Launch → Launch) : (s.modLaunch n f).boot = s.boot := rfl
@[simp] theorem modLaunch_fst (s : State) (n : Nat) (f : Launch → Launch) : (s.modLaunch n f).fst = s.fst := rfl
@[simp] theorem modLaunch_frozen (s : State) (n : Nat) (f : Launch → Launch) : (s.modLaunch n f).frozen = s.frozen := rfl
@[simp] theorem modLaunch_power (s : State) (n : Nat) (f : Launch → Launch) : (s.modLaunch n f).power = s.power := rfl
@[simp] theorem modLaunch_lowered (s : State) (n : Nat) (f : Launch → Launch) : (s.modLaunch n f).lowered = s.lowered := rfl
@[simp] theorem modLaunch_gated (s : State) (n : Nat) (f : Launch → Launch) : (s.modLaunch n f).gated = s.gated := rfl
@[simp] theorem modLaunch_retiredCores (s : State) (n : Nat) (f : Launch → Launch) : (s.modLaunch n f).retiredCores = s.retiredCores := rfl
@[simp] theorem modLaunch_retiredMesh (s : State) (n : Nat) (f : Launch → Launch) : (s.modLaunch n f).retiredMesh = s.retiredMesh := rfl
@[simp] theorem modLaunch_launches (s : State) (n : Nat) (f : Launch → Launch) : (s.modLaunch n f).launches = s.launches.modify n f := rfl
@[simp] theorem modLaunch_blocks (s : State) (n : Nat) (f : Launch → Launch) : (s.modLaunch n f).blocks = s.blocks := rfl
@[simp] theorem modLaunch_growQ (s : State) (n : Nat) (f : Launch → Launch) : (s.modLaunch n f).growQ = s.growQ := rfl
@[simp] theorem modLaunch_granTags (s : State) (n : Nat) (f : Launch → Launch) : (s.modLaunch n f).granTags = s.granTags := rfl
@[simp] theorem modLaunch_parked (s : State) (n : Nat) (f : Launch → Launch) : (s.modLaunch n f).parked = s.parked := rfl
@[simp] theorem modLaunch_ctxs (s : State) (n : Nat) (f : Launch → Launch) : (s.modLaunch n f).ctxs = s.ctxs := rfl
@[simp] theorem modLaunch_queues (s : State) (n : Nat) (f : Launch → Launch) : (s.modLaunch n f).queues = s.queues := rfl
@[simp] theorem modLaunch_served (s : State) (n : Nat) (f : Launch → Launch) : (s.modLaunch n f).served = s.served := rfl
@[simp] theorem modLaunch_holder (s : State) (n : Nat) (f : Launch → Launch) : (s.modLaunch n f).holder = s.holder := rfl
@[simp] theorem modLaunch_leafLinks (s : State) (n : Nat) (f : Launch → Launch) : (s.modLaunch n f).leafLinks = s.leafLinks := rfl
@[simp] theorem modLaunch_operands (s : State) (n : Nat) (f : Launch → Launch) : (s.modLaunch n f).operands = s.operands := rfl
@[simp] theorem modLaunch_invalStatus (s : State) (n : Nat) (f : Launch → Launch) : (s.modLaunch n f).invalStatus = s.invalStatus := rfl
@[simp] theorem modLaunch_cmdStatus (s : State) (n : Nat) (f : Launch → Launch) : (s.modLaunch n f).cmdStatus = s.cmdStatus := rfl
@[simp] theorem modLaunch_cmdQueue (s : State) (n : Nat) (f : Launch → Launch) : (s.modLaunch n f).cmdQueue = s.cmdQueue := rfl
@[simp] theorem modLaunch_mailStatus (s : State) (n : Nat) (f : Launch → Launch) : (s.modLaunch n f).mailStatus = s.mailStatus := rfl
@[simp] theorem modLaunch_msix (s : State) (n : Nat) (f : Launch → Launch) : (s.modLaunch n f).msix = s.msix := rfl
@[simp] theorem modLaunch_replies (s : State) (n : Nat) (f : Launch → Launch) : (s.modLaunch n f).replies = s.replies := rfl
@[simp] theorem modLaunch_barReads (s : State) (n : Nat) (f : Launch → Launch) : (s.modLaunch n f).barReads = s.barReads := rfl
@[simp] theorem modLaunch_hostLink (s : State) (n : Nat) (f : Launch → Launch) : (s.modLaunch n f).hostLink = s.hostLink := rfl
@[simp] theorem modLaunch_measure (s : State) (n : Nat) (f : Launch → Launch) : (s.modLaunch n f).measure = s.measure := rfl
@[simp] theorem modLaunch_breaks (s : State) (n : Nat) (f : Launch → Launch) : (s.modLaunch n f).breaks = s.breaks := rfl
@[simp] theorem modLaunch_steps1 (s : State) (n : Nat) (f : Launch → Launch) : (s.modLaunch n f).steps1 = s.steps1 := rfl
@[simp] theorem modLaunch_focus (s : State) (n : Nat) (f : Launch → Launch) : (s.modLaunch n f).focus = s.focus := rfl
@[simp] theorem modLaunch_trig (s : State) (n : Nat) (f : Launch → Launch) : (s.modLaunch n f).trig = s.trig := rfl
@[simp] theorem modLaunch_window (s : State) (n : Nat) (f : Launch → Launch) : (s.modLaunch n f).window = s.window := rfl
@[simp] theorem modLaunch_samples (s : State) (n : Nat) (f : Launch → Launch) : (s.modLaunch n f).samples = s.samples := rfl
@[simp] theorem modLaunch_dropped (s : State) (n : Nat) (f : Launch → Launch) : (s.modLaunch n f).dropped = s.dropped := rfl
@[simp] theorem modLaunch_debugPort (s : State) (n : Nat) (f : Launch → Launch) : (s.modLaunch n f).debugPort = s.debugPort := rfl
@[simp] theorem modLaunch_harvest (s : State) (n : Nat) (f : Launch → Launch) : (s.modLaunch n f).harvest = s.harvest := rfl
@[simp] theorem modLaunch_harvestArea (s : State) (n : Nat) (f : Launch → Launch) : (s.modLaunch n f).harvestArea = s.harvestArea := rfl
@[simp] theorem modLaunch_harvestTick (s : State) (n : Nat) (f : Launch → Launch) : (s.modLaunch n f).harvestTick = s.harvestTick := rfl
@[simp] theorem modLaunch_harvestEnd (s : State) (n : Nat) (f : Launch → Launch) : (s.modLaunch n f).harvestEnd = s.harvestEnd := rfl
@[simp] theorem modLaunch_device (s : State) (n : Nat) (f : Launch → Launch) : (s.modLaunch n f).device = s.device := rfl
@[simp] theorem modLaunch_devices (s : State) (n : Nat) (f : Launch → Launch) : (s.modLaunch n f).devices = s.devices := rfl
@[simp] theorem modLaunch_links (s : State) (n : Nat) (f : Launch → Launch) : (s.modLaunch n f).links = s.links := rfl
@[simp] theorem modLaunch_outbox (s : State) (n : Nat) (f : Launch → Launch) : (s.modLaunch n f).outbox = s.outbox := rfl
@[simp] theorem modLaunch_answers (s : State) (n : Nat) (f : Launch → Launch) : (s.modLaunch n f).answers = s.answers := rfl
@[simp] theorem modLaunch_flows (s : State) (n : Nat) (f : Launch → Launch) : (s.modLaunch n f).flows = s.flows := rfl
@[simp] theorem modLaunch_inFlows (s : State) (n : Nat) (f : Launch → Launch) : (s.modLaunch n f).inFlows = s.inFlows := rfl
@[simp] theorem modLaunch_early (s : State) (n : Nat) (f : Launch → Launch) : (s.modLaunch n f).early = s.early := rfl
@[simp] theorem modLaunch_chunks (s : State) (n : Nat) (f : Launch → Launch) : (s.modLaunch n f).chunks = s.chunks := rfl
@[simp] theorem modLaunch_lateChunks (s : State) (n : Nat) (f : Launch → Launch) : (s.modLaunch n f).lateChunks = s.lateChunks := rfl
@[simp] theorem modLaunch_sets (s : State) (n : Nat) (f : Launch → Launch) : (s.modLaunch n f).sets = s.sets := rfl

@[simp] theorem modLeaf_agenda (s : State) (n : Nat) (f : LeafLink → LeafLink) : (s.modLeaf n f).agenda = s.agenda := by dsimp only [State.modLeaf]
@[simp] theorem modLeaf_cur (s : State) (n : Nat) (f : LeafLink → LeafLink) : (s.modLeaf n f).cur = s.cur := by dsimp only [State.modLeaf]
@[simp] theorem modLeaf_steps (s : State) (n : Nat) (f : LeafLink → LeafLink) : (s.modLeaf n f).steps = s.steps := by dsimp only [State.modLeaf]
@[simp] theorem modLeaf_fresh (s : State) (n : Nat) (f : LeafLink → LeafLink) : (s.modLeaf n f).fresh = s.fresh := by dsimp only [State.modLeaf]
@[simp] theorem modLeaf_mem (s : State) (n : Nat) (f : LeafLink → LeafLink) : (s.modLeaf n f).mem = s.mem := by dsimp only [State.modLeaf]
@[simp] theorem modLeaf_fe (s : State) (n : Nat) (f : LeafLink → LeafLink) : (s.modLeaf n f).fe = s.fe := by dsimp only [State.modLeaf]
@[simp] theorem modLeaf_poison (s : State) (n : Nat) (f : LeafLink → LeafLink) : (s.modLeaf n f).poison = s.poison := by dsimp only [State.modLeaf]
@[simp] theorem modLeaf_scrubbed (s : State) (n : Nat) (f : LeafLink → LeafLink) : (s.modLeaf n f).scrubbed = s.scrubbed := by dsimp only [State.modLeaf]
@[simp] theorem modLeaf_tlb (s : State) (n : Nat) (f : LeafLink → LeafLink) : (s.modLeaf n f).tlb = s.tlb := by dsimp only [State.modLeaf]
@[simp] theorem modLeaf_leaves (s : State) (n : Nat) (f : LeafLink → LeafLink) : (s.modLeaf n f).leaves = s.leaves := by dsimp only [State.modLeaf]
@[simp] theorem modLeaf_farPages (s : State) (n : Nat) (f : LeafLink → LeafLink) : (s.modLeaf n f).farPages = s.farPages := by dsimp only [State.modLeaf]
@[simp] theorem modLeaf_icache (s : State) (n : Nat) (f : LeafLink → LeafLink) : (s.modLeaf n f).icache = s.icache := by dsimp only [State.modLeaf]
@[simp] theorem modLeaf_arbiter (s : State) (n : Nat) (f : LeafLink → LeafLink) : (s.modLeaf n f).arbiter = s.arbiter := by dsimp only [State.modLeaf]
@[simp] theorem modLeaf_lookups (s : State) (n : Nat) (f : LeafLink → LeafLink) : (s.modLeaf n f).lookups = s.lookups := by dsimp only [State.modLeaf]
@[simp] theorem modLeaf_tick (s : State) (n : Nat) (f : LeafLink → LeafLink) : (s.modLeaf n f).tick = s.tick := by dsimp only [State.modLeaf]
@[simp] theorem modLeaf_boot (s : State) (n : Nat) (f : LeafLink → LeafLink) : (s.modLeaf n f).boot = s.boot := by dsimp only [State.modLeaf]
@[simp] theorem modLeaf_fst (s : State) (n : Nat) (f : LeafLink → LeafLink) : (s.modLeaf n f).fst = s.fst := by dsimp only [State.modLeaf]
@[simp] theorem modLeaf_frozen (s : State) (n : Nat) (f : LeafLink → LeafLink) : (s.modLeaf n f).frozen = s.frozen := by dsimp only [State.modLeaf]
@[simp] theorem modLeaf_power (s : State) (n : Nat) (f : LeafLink → LeafLink) : (s.modLeaf n f).power = s.power := by dsimp only [State.modLeaf]
@[simp] theorem modLeaf_lowered (s : State) (n : Nat) (f : LeafLink → LeafLink) : (s.modLeaf n f).lowered = s.lowered := by dsimp only [State.modLeaf]
@[simp] theorem modLeaf_gated (s : State) (n : Nat) (f : LeafLink → LeafLink) : (s.modLeaf n f).gated = s.gated := by dsimp only [State.modLeaf]
@[simp] theorem modLeaf_retiredCores (s : State) (n : Nat) (f : LeafLink → LeafLink) : (s.modLeaf n f).retiredCores = s.retiredCores := by dsimp only [State.modLeaf]
@[simp] theorem modLeaf_retiredMesh (s : State) (n : Nat) (f : LeafLink → LeafLink) : (s.modLeaf n f).retiredMesh = s.retiredMesh := by dsimp only [State.modLeaf]
@[simp] theorem modLeaf_launches (s : State) (n : Nat) (f : LeafLink → LeafLink) : (s.modLeaf n f).launches = s.launches := by dsimp only [State.modLeaf]
@[simp] theorem modLeaf_blocks (s : State) (n : Nat) (f : LeafLink → LeafLink) : (s.modLeaf n f).blocks = s.blocks := by dsimp only [State.modLeaf]
@[simp] theorem modLeaf_growQ (s : State) (n : Nat) (f : LeafLink → LeafLink) : (s.modLeaf n f).growQ = s.growQ := by dsimp only [State.modLeaf]
@[simp] theorem modLeaf_granTags (s : State) (n : Nat) (f : LeafLink → LeafLink) : (s.modLeaf n f).granTags = s.granTags := by dsimp only [State.modLeaf]
@[simp] theorem modLeaf_parked (s : State) (n : Nat) (f : LeafLink → LeafLink) : (s.modLeaf n f).parked = s.parked := by dsimp only [State.modLeaf]
@[simp] theorem modLeaf_ctxs (s : State) (n : Nat) (f : LeafLink → LeafLink) : (s.modLeaf n f).ctxs = s.ctxs := by dsimp only [State.modLeaf]
@[simp] theorem modLeaf_queues (s : State) (n : Nat) (f : LeafLink → LeafLink) : (s.modLeaf n f).queues = s.queues := by dsimp only [State.modLeaf]
@[simp] theorem modLeaf_served (s : State) (n : Nat) (f : LeafLink → LeafLink) : (s.modLeaf n f).served = s.served := by dsimp only [State.modLeaf]
@[simp] theorem modLeaf_holder (s : State) (n : Nat) (f : LeafLink → LeafLink) : (s.modLeaf n f).holder = s.holder := by dsimp only [State.modLeaf]
@[simp] theorem modLeaf_leafLinks (s : State) (n : Nat) (f : LeafLink → LeafLink) : (s.modLeaf n f).leafLinks = vmod s.leafLinks n f := by dsimp only [State.modLeaf]
@[simp] theorem modLeaf_operands (s : State) (n : Nat) (f : LeafLink → LeafLink) : (s.modLeaf n f).operands = s.operands := by dsimp only [State.modLeaf]
@[simp] theorem modLeaf_invalStatus (s : State) (n : Nat) (f : LeafLink → LeafLink) : (s.modLeaf n f).invalStatus = s.invalStatus := by dsimp only [State.modLeaf]
@[simp] theorem modLeaf_cmdStatus (s : State) (n : Nat) (f : LeafLink → LeafLink) : (s.modLeaf n f).cmdStatus = s.cmdStatus := by dsimp only [State.modLeaf]
@[simp] theorem modLeaf_cmdQueue (s : State) (n : Nat) (f : LeafLink → LeafLink) : (s.modLeaf n f).cmdQueue = s.cmdQueue := by dsimp only [State.modLeaf]
@[simp] theorem modLeaf_mailStatus (s : State) (n : Nat) (f : LeafLink → LeafLink) : (s.modLeaf n f).mailStatus = s.mailStatus := by dsimp only [State.modLeaf]
@[simp] theorem modLeaf_msix (s : State) (n : Nat) (f : LeafLink → LeafLink) : (s.modLeaf n f).msix = s.msix := by dsimp only [State.modLeaf]
@[simp] theorem modLeaf_replies (s : State) (n : Nat) (f : LeafLink → LeafLink) : (s.modLeaf n f).replies = s.replies := by dsimp only [State.modLeaf]
@[simp] theorem modLeaf_barReads (s : State) (n : Nat) (f : LeafLink → LeafLink) : (s.modLeaf n f).barReads = s.barReads := by dsimp only [State.modLeaf]
@[simp] theorem modLeaf_hostLink (s : State) (n : Nat) (f : LeafLink → LeafLink) : (s.modLeaf n f).hostLink = s.hostLink := by dsimp only [State.modLeaf]
@[simp] theorem modLeaf_measure (s : State) (n : Nat) (f : LeafLink → LeafLink) : (s.modLeaf n f).measure = s.measure := by dsimp only [State.modLeaf]
@[simp] theorem modLeaf_breaks (s : State) (n : Nat) (f : LeafLink → LeafLink) : (s.modLeaf n f).breaks = s.breaks := by dsimp only [State.modLeaf]
@[simp] theorem modLeaf_steps1 (s : State) (n : Nat) (f : LeafLink → LeafLink) : (s.modLeaf n f).steps1 = s.steps1 := by dsimp only [State.modLeaf]
@[simp] theorem modLeaf_focus (s : State) (n : Nat) (f : LeafLink → LeafLink) : (s.modLeaf n f).focus = s.focus := by dsimp only [State.modLeaf]
@[simp] theorem modLeaf_trig (s : State) (n : Nat) (f : LeafLink → LeafLink) : (s.modLeaf n f).trig = s.trig := by dsimp only [State.modLeaf]
@[simp] theorem modLeaf_window (s : State) (n : Nat) (f : LeafLink → LeafLink) : (s.modLeaf n f).window = s.window := by dsimp only [State.modLeaf]
@[simp] theorem modLeaf_samples (s : State) (n : Nat) (f : LeafLink → LeafLink) : (s.modLeaf n f).samples = s.samples := by dsimp only [State.modLeaf]
@[simp] theorem modLeaf_dropped (s : State) (n : Nat) (f : LeafLink → LeafLink) : (s.modLeaf n f).dropped = s.dropped := by dsimp only [State.modLeaf]
@[simp] theorem modLeaf_debugPort (s : State) (n : Nat) (f : LeafLink → LeafLink) : (s.modLeaf n f).debugPort = s.debugPort := by dsimp only [State.modLeaf]
@[simp] theorem modLeaf_harvest (s : State) (n : Nat) (f : LeafLink → LeafLink) : (s.modLeaf n f).harvest = s.harvest := by dsimp only [State.modLeaf]
@[simp] theorem modLeaf_harvestArea (s : State) (n : Nat) (f : LeafLink → LeafLink) : (s.modLeaf n f).harvestArea = s.harvestArea := by dsimp only [State.modLeaf]
@[simp] theorem modLeaf_harvestTick (s : State) (n : Nat) (f : LeafLink → LeafLink) : (s.modLeaf n f).harvestTick = s.harvestTick := by dsimp only [State.modLeaf]
@[simp] theorem modLeaf_harvestEnd (s : State) (n : Nat) (f : LeafLink → LeafLink) : (s.modLeaf n f).harvestEnd = s.harvestEnd := by dsimp only [State.modLeaf]
@[simp] theorem modLeaf_device (s : State) (n : Nat) (f : LeafLink → LeafLink) : (s.modLeaf n f).device = s.device := by dsimp only [State.modLeaf]
@[simp] theorem modLeaf_devices (s : State) (n : Nat) (f : LeafLink → LeafLink) : (s.modLeaf n f).devices = s.devices := by dsimp only [State.modLeaf]
@[simp] theorem modLeaf_links (s : State) (n : Nat) (f : LeafLink → LeafLink) : (s.modLeaf n f).links = s.links := by dsimp only [State.modLeaf]
@[simp] theorem modLeaf_outbox (s : State) (n : Nat) (f : LeafLink → LeafLink) : (s.modLeaf n f).outbox = s.outbox := by dsimp only [State.modLeaf]
@[simp] theorem modLeaf_answers (s : State) (n : Nat) (f : LeafLink → LeafLink) : (s.modLeaf n f).answers = s.answers := by dsimp only [State.modLeaf]
@[simp] theorem modLeaf_flows (s : State) (n : Nat) (f : LeafLink → LeafLink) : (s.modLeaf n f).flows = s.flows := by dsimp only [State.modLeaf]
@[simp] theorem modLeaf_inFlows (s : State) (n : Nat) (f : LeafLink → LeafLink) : (s.modLeaf n f).inFlows = s.inFlows := by dsimp only [State.modLeaf]
@[simp] theorem modLeaf_early (s : State) (n : Nat) (f : LeafLink → LeafLink) : (s.modLeaf n f).early = s.early := by dsimp only [State.modLeaf]
@[simp] theorem modLeaf_chunks (s : State) (n : Nat) (f : LeafLink → LeafLink) : (s.modLeaf n f).chunks = s.chunks := by dsimp only [State.modLeaf]
@[simp] theorem modLeaf_lateChunks (s : State) (n : Nat) (f : LeafLink → LeafLink) : (s.modLeaf n f).lateChunks = s.lateChunks := by dsimp only [State.modLeaf]
@[simp] theorem modLeaf_sets (s : State) (n : Nat) (f : LeafLink → LeafLink) : (s.modLeaf n f).sets = s.sets := by dsimp only [State.modLeaf]

@[simp] theorem setCtx_agenda (s : State) (c : Nat) (x : Ctx) : (s.setCtx c x).agenda = s.agenda := rfl
@[simp] theorem setCtx_cur (s : State) (c : Nat) (x : Ctx) : (s.setCtx c x).cur = s.cur := rfl
@[simp] theorem setCtx_steps (s : State) (c : Nat) (x : Ctx) : (s.setCtx c x).steps = s.steps := rfl
@[simp] theorem setCtx_fresh (s : State) (c : Nat) (x : Ctx) : (s.setCtx c x).fresh = s.fresh := rfl
@[simp] theorem setCtx_mem (s : State) (c : Nat) (x : Ctx) : (s.setCtx c x).mem = s.mem := rfl
@[simp] theorem setCtx_fe (s : State) (c : Nat) (x : Ctx) : (s.setCtx c x).fe = s.fe := rfl
@[simp] theorem setCtx_poison (s : State) (c : Nat) (x : Ctx) : (s.setCtx c x).poison = s.poison := rfl
@[simp] theorem setCtx_scrubbed (s : State) (c : Nat) (x : Ctx) : (s.setCtx c x).scrubbed = s.scrubbed := rfl
@[simp] theorem setCtx_tlb (s : State) (c : Nat) (x : Ctx) : (s.setCtx c x).tlb = s.tlb := rfl
@[simp] theorem setCtx_leaves (s : State) (c : Nat) (x : Ctx) : (s.setCtx c x).leaves = s.leaves := rfl
@[simp] theorem setCtx_farPages (s : State) (c : Nat) (x : Ctx) : (s.setCtx c x).farPages = s.farPages := rfl
@[simp] theorem setCtx_icache (s : State) (c : Nat) (x : Ctx) : (s.setCtx c x).icache = s.icache := rfl
@[simp] theorem setCtx_arbiter (s : State) (c : Nat) (x : Ctx) : (s.setCtx c x).arbiter = s.arbiter := rfl
@[simp] theorem setCtx_lookups (s : State) (c : Nat) (x : Ctx) : (s.setCtx c x).lookups = s.lookups := rfl
@[simp] theorem setCtx_tick (s : State) (c : Nat) (x : Ctx) : (s.setCtx c x).tick = s.tick := rfl
@[simp] theorem setCtx_boot (s : State) (c : Nat) (x : Ctx) : (s.setCtx c x).boot = s.boot := rfl
@[simp] theorem setCtx_fst (s : State) (c : Nat) (x : Ctx) : (s.setCtx c x).fst = s.fst := rfl
@[simp] theorem setCtx_frozen (s : State) (c : Nat) (x : Ctx) : (s.setCtx c x).frozen = s.frozen := rfl
@[simp] theorem setCtx_power (s : State) (c : Nat) (x : Ctx) : (s.setCtx c x).power = s.power := rfl
@[simp] theorem setCtx_lowered (s : State) (c : Nat) (x : Ctx) : (s.setCtx c x).lowered = s.lowered := rfl
@[simp] theorem setCtx_gated (s : State) (c : Nat) (x : Ctx) : (s.setCtx c x).gated = s.gated := rfl
@[simp] theorem setCtx_retiredCores (s : State) (c : Nat) (x : Ctx) : (s.setCtx c x).retiredCores = s.retiredCores := rfl
@[simp] theorem setCtx_retiredMesh (s : State) (c : Nat) (x : Ctx) : (s.setCtx c x).retiredMesh = s.retiredMesh := rfl
@[simp] theorem setCtx_launches (s : State) (c : Nat) (x : Ctx) : (s.setCtx c x).launches = s.launches := rfl
@[simp] theorem setCtx_blocks (s : State) (c : Nat) (x : Ctx) : (s.setCtx c x).blocks = s.blocks := rfl
@[simp] theorem setCtx_growQ (s : State) (c : Nat) (x : Ctx) : (s.setCtx c x).growQ = s.growQ := rfl
@[simp] theorem setCtx_granTags (s : State) (c : Nat) (x : Ctx) : (s.setCtx c x).granTags = s.granTags := rfl
@[simp] theorem setCtx_parked (s : State) (c : Nat) (x : Ctx) : (s.setCtx c x).parked = s.parked := rfl
@[simp] theorem setCtx_ctxs (s : State) (c : Nat) (x : Ctx) : (s.setCtx c x).ctxs = sset Ctx.absent s.ctxs c x := rfl
@[simp] theorem setCtx_queues (s : State) (c : Nat) (x : Ctx) : (s.setCtx c x).queues = s.queues := rfl
@[simp] theorem setCtx_served (s : State) (c : Nat) (x : Ctx) : (s.setCtx c x).served = s.served := rfl
@[simp] theorem setCtx_holder (s : State) (c : Nat) (x : Ctx) : (s.setCtx c x).holder = s.holder := rfl
@[simp] theorem setCtx_leafLinks (s : State) (c : Nat) (x : Ctx) : (s.setCtx c x).leafLinks = s.leafLinks := rfl
@[simp] theorem setCtx_operands (s : State) (c : Nat) (x : Ctx) : (s.setCtx c x).operands = s.operands := rfl
@[simp] theorem setCtx_invalStatus (s : State) (c : Nat) (x : Ctx) : (s.setCtx c x).invalStatus = s.invalStatus := rfl
@[simp] theorem setCtx_cmdStatus (s : State) (c : Nat) (x : Ctx) : (s.setCtx c x).cmdStatus = s.cmdStatus := rfl
@[simp] theorem setCtx_cmdQueue (s : State) (c : Nat) (x : Ctx) : (s.setCtx c x).cmdQueue = s.cmdQueue := rfl
@[simp] theorem setCtx_mailStatus (s : State) (c : Nat) (x : Ctx) : (s.setCtx c x).mailStatus = s.mailStatus := rfl
@[simp] theorem setCtx_msix (s : State) (c : Nat) (x : Ctx) : (s.setCtx c x).msix = s.msix := rfl
@[simp] theorem setCtx_replies (s : State) (c : Nat) (x : Ctx) : (s.setCtx c x).replies = s.replies := rfl
@[simp] theorem setCtx_barReads (s : State) (c : Nat) (x : Ctx) : (s.setCtx c x).barReads = s.barReads := rfl
@[simp] theorem setCtx_hostLink (s : State) (c : Nat) (x : Ctx) : (s.setCtx c x).hostLink = s.hostLink := rfl
@[simp] theorem setCtx_measure (s : State) (c : Nat) (x : Ctx) : (s.setCtx c x).measure = s.measure := rfl
@[simp] theorem setCtx_breaks (s : State) (c : Nat) (x : Ctx) : (s.setCtx c x).breaks = s.breaks := rfl
@[simp] theorem setCtx_steps1 (s : State) (c : Nat) (x : Ctx) : (s.setCtx c x).steps1 = s.steps1 := rfl
@[simp] theorem setCtx_focus (s : State) (c : Nat) (x : Ctx) : (s.setCtx c x).focus = s.focus := rfl
@[simp] theorem setCtx_trig (s : State) (c : Nat) (x : Ctx) : (s.setCtx c x).trig = s.trig := rfl
@[simp] theorem setCtx_window (s : State) (c : Nat) (x : Ctx) : (s.setCtx c x).window = s.window := rfl
@[simp] theorem setCtx_samples (s : State) (c : Nat) (x : Ctx) : (s.setCtx c x).samples = s.samples := rfl
@[simp] theorem setCtx_dropped (s : State) (c : Nat) (x : Ctx) : (s.setCtx c x).dropped = s.dropped := rfl
@[simp] theorem setCtx_debugPort (s : State) (c : Nat) (x : Ctx) : (s.setCtx c x).debugPort = s.debugPort := rfl
@[simp] theorem setCtx_harvest (s : State) (c : Nat) (x : Ctx) : (s.setCtx c x).harvest = s.harvest := rfl
@[simp] theorem setCtx_harvestArea (s : State) (c : Nat) (x : Ctx) : (s.setCtx c x).harvestArea = s.harvestArea := rfl
@[simp] theorem setCtx_harvestTick (s : State) (c : Nat) (x : Ctx) : (s.setCtx c x).harvestTick = s.harvestTick := rfl
@[simp] theorem setCtx_harvestEnd (s : State) (c : Nat) (x : Ctx) : (s.setCtx c x).harvestEnd = s.harvestEnd := rfl
@[simp] theorem setCtx_device (s : State) (c : Nat) (x : Ctx) : (s.setCtx c x).device = s.device := rfl
@[simp] theorem setCtx_devices (s : State) (c : Nat) (x : Ctx) : (s.setCtx c x).devices = s.devices := rfl
@[simp] theorem setCtx_links (s : State) (c : Nat) (x : Ctx) : (s.setCtx c x).links = s.links := rfl
@[simp] theorem setCtx_outbox (s : State) (c : Nat) (x : Ctx) : (s.setCtx c x).outbox = s.outbox := rfl
@[simp] theorem setCtx_answers (s : State) (c : Nat) (x : Ctx) : (s.setCtx c x).answers = s.answers := rfl
@[simp] theorem setCtx_flows (s : State) (c : Nat) (x : Ctx) : (s.setCtx c x).flows = s.flows := rfl
@[simp] theorem setCtx_inFlows (s : State) (c : Nat) (x : Ctx) : (s.setCtx c x).inFlows = s.inFlows := rfl
@[simp] theorem setCtx_early (s : State) (c : Nat) (x : Ctx) : (s.setCtx c x).early = s.early := rfl
@[simp] theorem setCtx_chunks (s : State) (c : Nat) (x : Ctx) : (s.setCtx c x).chunks = s.chunks := rfl
@[simp] theorem setCtx_lateChunks (s : State) (c : Nat) (x : Ctx) : (s.setCtx c x).lateChunks = s.lateChunks := rfl
@[simp] theorem setCtx_sets (s : State) (c : Nat) (x : Ctx) : (s.setCtx c x).sets = s.sets := rfl

@[simp] theorem setQueue_agenda (s : State) (q : Nat) (x : Queue) : (s.setQueue q x).agenda = s.agenda := rfl
@[simp] theorem setQueue_cur (s : State) (q : Nat) (x : Queue) : (s.setQueue q x).cur = s.cur := rfl
@[simp] theorem setQueue_steps (s : State) (q : Nat) (x : Queue) : (s.setQueue q x).steps = s.steps := rfl
@[simp] theorem setQueue_fresh (s : State) (q : Nat) (x : Queue) : (s.setQueue q x).fresh = s.fresh := rfl
@[simp] theorem setQueue_mem (s : State) (q : Nat) (x : Queue) : (s.setQueue q x).mem = s.mem := rfl
@[simp] theorem setQueue_fe (s : State) (q : Nat) (x : Queue) : (s.setQueue q x).fe = s.fe := rfl
@[simp] theorem setQueue_poison (s : State) (q : Nat) (x : Queue) : (s.setQueue q x).poison = s.poison := rfl
@[simp] theorem setQueue_scrubbed (s : State) (q : Nat) (x : Queue) : (s.setQueue q x).scrubbed = s.scrubbed := rfl
@[simp] theorem setQueue_tlb (s : State) (q : Nat) (x : Queue) : (s.setQueue q x).tlb = s.tlb := rfl
@[simp] theorem setQueue_leaves (s : State) (q : Nat) (x : Queue) : (s.setQueue q x).leaves = s.leaves := rfl
@[simp] theorem setQueue_farPages (s : State) (q : Nat) (x : Queue) : (s.setQueue q x).farPages = s.farPages := rfl
@[simp] theorem setQueue_icache (s : State) (q : Nat) (x : Queue) : (s.setQueue q x).icache = s.icache := rfl
@[simp] theorem setQueue_arbiter (s : State) (q : Nat) (x : Queue) : (s.setQueue q x).arbiter = s.arbiter := rfl
@[simp] theorem setQueue_lookups (s : State) (q : Nat) (x : Queue) : (s.setQueue q x).lookups = s.lookups := rfl
@[simp] theorem setQueue_tick (s : State) (q : Nat) (x : Queue) : (s.setQueue q x).tick = s.tick := rfl
@[simp] theorem setQueue_boot (s : State) (q : Nat) (x : Queue) : (s.setQueue q x).boot = s.boot := rfl
@[simp] theorem setQueue_fst (s : State) (q : Nat) (x : Queue) : (s.setQueue q x).fst = s.fst := rfl
@[simp] theorem setQueue_frozen (s : State) (q : Nat) (x : Queue) : (s.setQueue q x).frozen = s.frozen := rfl
@[simp] theorem setQueue_power (s : State) (q : Nat) (x : Queue) : (s.setQueue q x).power = s.power := rfl
@[simp] theorem setQueue_lowered (s : State) (q : Nat) (x : Queue) : (s.setQueue q x).lowered = s.lowered := rfl
@[simp] theorem setQueue_gated (s : State) (q : Nat) (x : Queue) : (s.setQueue q x).gated = s.gated := rfl
@[simp] theorem setQueue_retiredCores (s : State) (q : Nat) (x : Queue) : (s.setQueue q x).retiredCores = s.retiredCores := rfl
@[simp] theorem setQueue_retiredMesh (s : State) (q : Nat) (x : Queue) : (s.setQueue q x).retiredMesh = s.retiredMesh := rfl
@[simp] theorem setQueue_launches (s : State) (q : Nat) (x : Queue) : (s.setQueue q x).launches = s.launches := rfl
@[simp] theorem setQueue_blocks (s : State) (q : Nat) (x : Queue) : (s.setQueue q x).blocks = s.blocks := rfl
@[simp] theorem setQueue_growQ (s : State) (q : Nat) (x : Queue) : (s.setQueue q x).growQ = s.growQ := rfl
@[simp] theorem setQueue_granTags (s : State) (q : Nat) (x : Queue) : (s.setQueue q x).granTags = s.granTags := rfl
@[simp] theorem setQueue_parked (s : State) (q : Nat) (x : Queue) : (s.setQueue q x).parked = s.parked := rfl
@[simp] theorem setQueue_ctxs (s : State) (q : Nat) (x : Queue) : (s.setQueue q x).ctxs = s.ctxs := rfl
@[simp] theorem setQueue_queues (s : State) (q : Nat) (x : Queue) : (s.setQueue q x).queues = sset Queue.absent s.queues q x := rfl
@[simp] theorem setQueue_served (s : State) (q : Nat) (x : Queue) : (s.setQueue q x).served = s.served := rfl
@[simp] theorem setQueue_holder (s : State) (q : Nat) (x : Queue) : (s.setQueue q x).holder = s.holder := rfl
@[simp] theorem setQueue_leafLinks (s : State) (q : Nat) (x : Queue) : (s.setQueue q x).leafLinks = s.leafLinks := rfl
@[simp] theorem setQueue_operands (s : State) (q : Nat) (x : Queue) : (s.setQueue q x).operands = s.operands := rfl
@[simp] theorem setQueue_invalStatus (s : State) (q : Nat) (x : Queue) : (s.setQueue q x).invalStatus = s.invalStatus := rfl
@[simp] theorem setQueue_cmdStatus (s : State) (q : Nat) (x : Queue) : (s.setQueue q x).cmdStatus = s.cmdStatus := rfl
@[simp] theorem setQueue_cmdQueue (s : State) (q : Nat) (x : Queue) : (s.setQueue q x).cmdQueue = s.cmdQueue := rfl
@[simp] theorem setQueue_mailStatus (s : State) (q : Nat) (x : Queue) : (s.setQueue q x).mailStatus = s.mailStatus := rfl
@[simp] theorem setQueue_msix (s : State) (q : Nat) (x : Queue) : (s.setQueue q x).msix = s.msix := rfl
@[simp] theorem setQueue_replies (s : State) (q : Nat) (x : Queue) : (s.setQueue q x).replies = s.replies := rfl
@[simp] theorem setQueue_barReads (s : State) (q : Nat) (x : Queue) : (s.setQueue q x).barReads = s.barReads := rfl
@[simp] theorem setQueue_hostLink (s : State) (q : Nat) (x : Queue) : (s.setQueue q x).hostLink = s.hostLink := rfl
@[simp] theorem setQueue_measure (s : State) (q : Nat) (x : Queue) : (s.setQueue q x).measure = s.measure := rfl
@[simp] theorem setQueue_breaks (s : State) (q : Nat) (x : Queue) : (s.setQueue q x).breaks = s.breaks := rfl
@[simp] theorem setQueue_steps1 (s : State) (q : Nat) (x : Queue) : (s.setQueue q x).steps1 = s.steps1 := rfl
@[simp] theorem setQueue_focus (s : State) (q : Nat) (x : Queue) : (s.setQueue q x).focus = s.focus := rfl
@[simp] theorem setQueue_trig (s : State) (q : Nat) (x : Queue) : (s.setQueue q x).trig = s.trig := rfl
@[simp] theorem setQueue_window (s : State) (q : Nat) (x : Queue) : (s.setQueue q x).window = s.window := rfl
@[simp] theorem setQueue_samples (s : State) (q : Nat) (x : Queue) : (s.setQueue q x).samples = s.samples := rfl
@[simp] theorem setQueue_dropped (s : State) (q : Nat) (x : Queue) : (s.setQueue q x).dropped = s.dropped := rfl
@[simp] theorem setQueue_debugPort (s : State) (q : Nat) (x : Queue) : (s.setQueue q x).debugPort = s.debugPort := rfl
@[simp] theorem setQueue_harvest (s : State) (q : Nat) (x : Queue) : (s.setQueue q x).harvest = s.harvest := rfl
@[simp] theorem setQueue_harvestArea (s : State) (q : Nat) (x : Queue) : (s.setQueue q x).harvestArea = s.harvestArea := rfl
@[simp] theorem setQueue_harvestTick (s : State) (q : Nat) (x : Queue) : (s.setQueue q x).harvestTick = s.harvestTick := rfl
@[simp] theorem setQueue_harvestEnd (s : State) (q : Nat) (x : Queue) : (s.setQueue q x).harvestEnd = s.harvestEnd := rfl
@[simp] theorem setQueue_device (s : State) (q : Nat) (x : Queue) : (s.setQueue q x).device = s.device := rfl
@[simp] theorem setQueue_devices (s : State) (q : Nat) (x : Queue) : (s.setQueue q x).devices = s.devices := rfl
@[simp] theorem setQueue_links (s : State) (q : Nat) (x : Queue) : (s.setQueue q x).links = s.links := rfl
@[simp] theorem setQueue_outbox (s : State) (q : Nat) (x : Queue) : (s.setQueue q x).outbox = s.outbox := rfl
@[simp] theorem setQueue_answers (s : State) (q : Nat) (x : Queue) : (s.setQueue q x).answers = s.answers := rfl
@[simp] theorem setQueue_flows (s : State) (q : Nat) (x : Queue) : (s.setQueue q x).flows = s.flows := rfl
@[simp] theorem setQueue_inFlows (s : State) (q : Nat) (x : Queue) : (s.setQueue q x).inFlows = s.inFlows := rfl
@[simp] theorem setQueue_early (s : State) (q : Nat) (x : Queue) : (s.setQueue q x).early = s.early := rfl
@[simp] theorem setQueue_chunks (s : State) (q : Nat) (x : Queue) : (s.setQueue q x).chunks = s.chunks := rfl
@[simp] theorem setQueue_lateChunks (s : State) (q : Nat) (x : Queue) : (s.setQueue q x).lateChunks = s.lateChunks := rfl
@[simp] theorem setQueue_sets (s : State) (q : Nat) (x : Queue) : (s.setQueue q x).sets = s.sets := rfl

@[simp] theorem modQueue_agenda (s : State) (q : Nat) (f : Queue → Queue) : (s.modQueue q f).agenda = s.agenda := rfl
@[simp] theorem modQueue_cur (s : State) (q : Nat) (f : Queue → Queue) : (s.modQueue q f).cur = s.cur := rfl
@[simp] theorem modQueue_steps (s : State) (q : Nat) (f : Queue → Queue) : (s.modQueue q f).steps = s.steps := rfl
@[simp] theorem modQueue_fresh (s : State) (q : Nat) (f : Queue → Queue) : (s.modQueue q f).fresh = s.fresh := rfl
@[simp] theorem modQueue_mem (s : State) (q : Nat) (f : Queue → Queue) : (s.modQueue q f).mem = s.mem := rfl
@[simp] theorem modQueue_fe (s : State) (q : Nat) (f : Queue → Queue) : (s.modQueue q f).fe = s.fe := rfl
@[simp] theorem modQueue_poison (s : State) (q : Nat) (f : Queue → Queue) : (s.modQueue q f).poison = s.poison := rfl
@[simp] theorem modQueue_scrubbed (s : State) (q : Nat) (f : Queue → Queue) : (s.modQueue q f).scrubbed = s.scrubbed := rfl
@[simp] theorem modQueue_tlb (s : State) (q : Nat) (f : Queue → Queue) : (s.modQueue q f).tlb = s.tlb := rfl
@[simp] theorem modQueue_leaves (s : State) (q : Nat) (f : Queue → Queue) : (s.modQueue q f).leaves = s.leaves := rfl
@[simp] theorem modQueue_farPages (s : State) (q : Nat) (f : Queue → Queue) : (s.modQueue q f).farPages = s.farPages := rfl
@[simp] theorem modQueue_icache (s : State) (q : Nat) (f : Queue → Queue) : (s.modQueue q f).icache = s.icache := rfl
@[simp] theorem modQueue_arbiter (s : State) (q : Nat) (f : Queue → Queue) : (s.modQueue q f).arbiter = s.arbiter := rfl
@[simp] theorem modQueue_lookups (s : State) (q : Nat) (f : Queue → Queue) : (s.modQueue q f).lookups = s.lookups := rfl
@[simp] theorem modQueue_tick (s : State) (q : Nat) (f : Queue → Queue) : (s.modQueue q f).tick = s.tick := rfl
@[simp] theorem modQueue_boot (s : State) (q : Nat) (f : Queue → Queue) : (s.modQueue q f).boot = s.boot := rfl
@[simp] theorem modQueue_fst (s : State) (q : Nat) (f : Queue → Queue) : (s.modQueue q f).fst = s.fst := rfl
@[simp] theorem modQueue_frozen (s : State) (q : Nat) (f : Queue → Queue) : (s.modQueue q f).frozen = s.frozen := rfl
@[simp] theorem modQueue_power (s : State) (q : Nat) (f : Queue → Queue) : (s.modQueue q f).power = s.power := rfl
@[simp] theorem modQueue_lowered (s : State) (q : Nat) (f : Queue → Queue) : (s.modQueue q f).lowered = s.lowered := rfl
@[simp] theorem modQueue_gated (s : State) (q : Nat) (f : Queue → Queue) : (s.modQueue q f).gated = s.gated := rfl
@[simp] theorem modQueue_retiredCores (s : State) (q : Nat) (f : Queue → Queue) : (s.modQueue q f).retiredCores = s.retiredCores := rfl
@[simp] theorem modQueue_retiredMesh (s : State) (q : Nat) (f : Queue → Queue) : (s.modQueue q f).retiredMesh = s.retiredMesh := rfl
@[simp] theorem modQueue_launches (s : State) (q : Nat) (f : Queue → Queue) : (s.modQueue q f).launches = s.launches := rfl
@[simp] theorem modQueue_blocks (s : State) (q : Nat) (f : Queue → Queue) : (s.modQueue q f).blocks = s.blocks := rfl
@[simp] theorem modQueue_growQ (s : State) (q : Nat) (f : Queue → Queue) : (s.modQueue q f).growQ = s.growQ := rfl
@[simp] theorem modQueue_granTags (s : State) (q : Nat) (f : Queue → Queue) : (s.modQueue q f).granTags = s.granTags := rfl
@[simp] theorem modQueue_parked (s : State) (q : Nat) (f : Queue → Queue) : (s.modQueue q f).parked = s.parked := rfl
@[simp] theorem modQueue_ctxs (s : State) (q : Nat) (f : Queue → Queue) : (s.modQueue q f).ctxs = s.ctxs := rfl
@[simp] theorem modQueue_queues (s : State) (q : Nat) (f : Queue → Queue) : (s.modQueue q f).queues = sset Queue.absent s.queues q (f (s.queue q)) := rfl
@[simp] theorem modQueue_served (s : State) (q : Nat) (f : Queue → Queue) : (s.modQueue q f).served = s.served := rfl
@[simp] theorem modQueue_holder (s : State) (q : Nat) (f : Queue → Queue) : (s.modQueue q f).holder = s.holder := rfl
@[simp] theorem modQueue_leafLinks (s : State) (q : Nat) (f : Queue → Queue) : (s.modQueue q f).leafLinks = s.leafLinks := rfl
@[simp] theorem modQueue_operands (s : State) (q : Nat) (f : Queue → Queue) : (s.modQueue q f).operands = s.operands := rfl
@[simp] theorem modQueue_invalStatus (s : State) (q : Nat) (f : Queue → Queue) : (s.modQueue q f).invalStatus = s.invalStatus := rfl
@[simp] theorem modQueue_cmdStatus (s : State) (q : Nat) (f : Queue → Queue) : (s.modQueue q f).cmdStatus = s.cmdStatus := rfl
@[simp] theorem modQueue_cmdQueue (s : State) (q : Nat) (f : Queue → Queue) : (s.modQueue q f).cmdQueue = s.cmdQueue := rfl
@[simp] theorem modQueue_mailStatus (s : State) (q : Nat) (f : Queue → Queue) : (s.modQueue q f).mailStatus = s.mailStatus := rfl
@[simp] theorem modQueue_msix (s : State) (q : Nat) (f : Queue → Queue) : (s.modQueue q f).msix = s.msix := rfl
@[simp] theorem modQueue_replies (s : State) (q : Nat) (f : Queue → Queue) : (s.modQueue q f).replies = s.replies := rfl
@[simp] theorem modQueue_barReads (s : State) (q : Nat) (f : Queue → Queue) : (s.modQueue q f).barReads = s.barReads := rfl
@[simp] theorem modQueue_hostLink (s : State) (q : Nat) (f : Queue → Queue) : (s.modQueue q f).hostLink = s.hostLink := rfl
@[simp] theorem modQueue_measure (s : State) (q : Nat) (f : Queue → Queue) : (s.modQueue q f).measure = s.measure := rfl
@[simp] theorem modQueue_breaks (s : State) (q : Nat) (f : Queue → Queue) : (s.modQueue q f).breaks = s.breaks := rfl
@[simp] theorem modQueue_steps1 (s : State) (q : Nat) (f : Queue → Queue) : (s.modQueue q f).steps1 = s.steps1 := rfl
@[simp] theorem modQueue_focus (s : State) (q : Nat) (f : Queue → Queue) : (s.modQueue q f).focus = s.focus := rfl
@[simp] theorem modQueue_trig (s : State) (q : Nat) (f : Queue → Queue) : (s.modQueue q f).trig = s.trig := rfl
@[simp] theorem modQueue_window (s : State) (q : Nat) (f : Queue → Queue) : (s.modQueue q f).window = s.window := rfl
@[simp] theorem modQueue_samples (s : State) (q : Nat) (f : Queue → Queue) : (s.modQueue q f).samples = s.samples := rfl
@[simp] theorem modQueue_dropped (s : State) (q : Nat) (f : Queue → Queue) : (s.modQueue q f).dropped = s.dropped := rfl
@[simp] theorem modQueue_debugPort (s : State) (q : Nat) (f : Queue → Queue) : (s.modQueue q f).debugPort = s.debugPort := rfl
@[simp] theorem modQueue_harvest (s : State) (q : Nat) (f : Queue → Queue) : (s.modQueue q f).harvest = s.harvest := rfl
@[simp] theorem modQueue_harvestArea (s : State) (q : Nat) (f : Queue → Queue) : (s.modQueue q f).harvestArea = s.harvestArea := rfl
@[simp] theorem modQueue_harvestTick (s : State) (q : Nat) (f : Queue → Queue) : (s.modQueue q f).harvestTick = s.harvestTick := rfl
@[simp] theorem modQueue_harvestEnd (s : State) (q : Nat) (f : Queue → Queue) : (s.modQueue q f).harvestEnd = s.harvestEnd := rfl
@[simp] theorem modQueue_device (s : State) (q : Nat) (f : Queue → Queue) : (s.modQueue q f).device = s.device := rfl
@[simp] theorem modQueue_devices (s : State) (q : Nat) (f : Queue → Queue) : (s.modQueue q f).devices = s.devices := rfl
@[simp] theorem modQueue_links (s : State) (q : Nat) (f : Queue → Queue) : (s.modQueue q f).links = s.links := rfl
@[simp] theorem modQueue_outbox (s : State) (q : Nat) (f : Queue → Queue) : (s.modQueue q f).outbox = s.outbox := rfl
@[simp] theorem modQueue_answers (s : State) (q : Nat) (f : Queue → Queue) : (s.modQueue q f).answers = s.answers := rfl
@[simp] theorem modQueue_flows (s : State) (q : Nat) (f : Queue → Queue) : (s.modQueue q f).flows = s.flows := rfl
@[simp] theorem modQueue_inFlows (s : State) (q : Nat) (f : Queue → Queue) : (s.modQueue q f).inFlows = s.inFlows := rfl
@[simp] theorem modQueue_early (s : State) (q : Nat) (f : Queue → Queue) : (s.modQueue q f).early = s.early := rfl
@[simp] theorem modQueue_chunks (s : State) (q : Nat) (f : Queue → Queue) : (s.modQueue q f).chunks = s.chunks := rfl
@[simp] theorem modQueue_lateChunks (s : State) (q : Nat) (f : Queue → Queue) : (s.modQueue q f).lateChunks = s.lateChunks := rfl
@[simp] theorem modQueue_sets (s : State) (q : Nat) (f : Queue → Queue) : (s.modQueue q f).sets = s.sets := rfl

@[simp] theorem signalHost_agenda (s : State) (q : Nat) : (signalHost s q).agenda = s.agenda := rfl
@[simp] theorem signalHost_cur (s : State) (q : Nat) : (signalHost s q).cur = s.cur := rfl
@[simp] theorem signalHost_steps (s : State) (q : Nat) : (signalHost s q).steps = s.steps := rfl
@[simp] theorem signalHost_fresh (s : State) (q : Nat) : (signalHost s q).fresh = s.fresh := rfl
@[simp] theorem signalHost_mem (s : State) (q : Nat) : (signalHost s q).mem = s.mem := rfl
@[simp] theorem signalHost_fe (s : State) (q : Nat) : (signalHost s q).fe = s.fe := rfl
@[simp] theorem signalHost_poison (s : State) (q : Nat) : (signalHost s q).poison = s.poison := rfl
@[simp] theorem signalHost_scrubbed (s : State) (q : Nat) : (signalHost s q).scrubbed = s.scrubbed := rfl
@[simp] theorem signalHost_tlb (s : State) (q : Nat) : (signalHost s q).tlb = s.tlb := rfl
@[simp] theorem signalHost_leaves (s : State) (q : Nat) : (signalHost s q).leaves = s.leaves := rfl
@[simp] theorem signalHost_farPages (s : State) (q : Nat) : (signalHost s q).farPages = s.farPages := rfl
@[simp] theorem signalHost_icache (s : State) (q : Nat) : (signalHost s q).icache = s.icache := rfl
@[simp] theorem signalHost_arbiter (s : State) (q : Nat) : (signalHost s q).arbiter = s.arbiter := rfl
@[simp] theorem signalHost_lookups (s : State) (q : Nat) : (signalHost s q).lookups = s.lookups := rfl
@[simp] theorem signalHost_tick (s : State) (q : Nat) : (signalHost s q).tick = s.tick := rfl
@[simp] theorem signalHost_boot (s : State) (q : Nat) : (signalHost s q).boot = s.boot := rfl
@[simp] theorem signalHost_fst (s : State) (q : Nat) : (signalHost s q).fst = s.fst := rfl
@[simp] theorem signalHost_frozen (s : State) (q : Nat) : (signalHost s q).frozen = s.frozen := rfl
@[simp] theorem signalHost_power (s : State) (q : Nat) : (signalHost s q).power = s.power := rfl
@[simp] theorem signalHost_lowered (s : State) (q : Nat) : (signalHost s q).lowered = s.lowered := rfl
@[simp] theorem signalHost_gated (s : State) (q : Nat) : (signalHost s q).gated = s.gated := rfl
@[simp] theorem signalHost_retiredCores (s : State) (q : Nat) : (signalHost s q).retiredCores = s.retiredCores := rfl
@[simp] theorem signalHost_retiredMesh (s : State) (q : Nat) : (signalHost s q).retiredMesh = s.retiredMesh := rfl
@[simp] theorem signalHost_launches (s : State) (q : Nat) : (signalHost s q).launches = s.launches := rfl
@[simp] theorem signalHost_blocks (s : State) (q : Nat) : (signalHost s q).blocks = s.blocks := rfl
@[simp] theorem signalHost_growQ (s : State) (q : Nat) : (signalHost s q).growQ = s.growQ := rfl
@[simp] theorem signalHost_granTags (s : State) (q : Nat) : (signalHost s q).granTags = s.granTags := rfl
@[simp] theorem signalHost_parked (s : State) (q : Nat) : (signalHost s q).parked = s.parked := rfl
@[simp] theorem signalHost_ctxs (s : State) (q : Nat) : (signalHost s q).ctxs = s.ctxs := rfl
@[simp] theorem signalHost_queues (s : State) (q : Nat) : (signalHost s q).queues = s.queues := rfl
@[simp] theorem signalHost_served (s : State) (q : Nat) : (signalHost s q).served = s.served := rfl
@[simp] theorem signalHost_holder (s : State) (q : Nat) : (signalHost s q).holder = s.holder := rfl
@[simp] theorem signalHost_leafLinks (s : State) (q : Nat) : (signalHost s q).leafLinks = s.leafLinks := rfl
@[simp] theorem signalHost_operands (s : State) (q : Nat) : (signalHost s q).operands = s.operands := rfl
@[simp] theorem signalHost_invalStatus (s : State) (q : Nat) : (signalHost s q).invalStatus = s.invalStatus := rfl
@[simp] theorem signalHost_cmdStatus (s : State) (q : Nat) : (signalHost s q).cmdStatus = s.cmdStatus := rfl
@[simp] theorem signalHost_cmdQueue (s : State) (q : Nat) : (signalHost s q).cmdQueue = s.cmdQueue := rfl
@[simp] theorem signalHost_mailStatus (s : State) (q : Nat) : (signalHost s q).mailStatus = s.mailStatus := rfl
@[simp] theorem signalHost_msix (s : State) (q : Nat) : (signalHost s q).msix = s.msix ++ [q] := rfl
@[simp] theorem signalHost_replies (s : State) (q : Nat) : (signalHost s q).replies = s.replies := rfl
@[simp] theorem signalHost_barReads (s : State) (q : Nat) : (signalHost s q).barReads = s.barReads := rfl
@[simp] theorem signalHost_hostLink (s : State) (q : Nat) : (signalHost s q).hostLink = s.hostLink := rfl
@[simp] theorem signalHost_measure (s : State) (q : Nat) : (signalHost s q).measure = s.measure := rfl
@[simp] theorem signalHost_breaks (s : State) (q : Nat) : (signalHost s q).breaks = s.breaks := rfl
@[simp] theorem signalHost_steps1 (s : State) (q : Nat) : (signalHost s q).steps1 = s.steps1 := rfl
@[simp] theorem signalHost_focus (s : State) (q : Nat) : (signalHost s q).focus = s.focus := rfl
@[simp] theorem signalHost_trig (s : State) (q : Nat) : (signalHost s q).trig = s.trig := rfl
@[simp] theorem signalHost_window (s : State) (q : Nat) : (signalHost s q).window = s.window := rfl
@[simp] theorem signalHost_samples (s : State) (q : Nat) : (signalHost s q).samples = s.samples := rfl
@[simp] theorem signalHost_dropped (s : State) (q : Nat) : (signalHost s q).dropped = s.dropped := rfl
@[simp] theorem signalHost_debugPort (s : State) (q : Nat) : (signalHost s q).debugPort = s.debugPort := rfl
@[simp] theorem signalHost_harvest (s : State) (q : Nat) : (signalHost s q).harvest = s.harvest := rfl
@[simp] theorem signalHost_harvestArea (s : State) (q : Nat) : (signalHost s q).harvestArea = s.harvestArea := rfl
@[simp] theorem signalHost_harvestTick (s : State) (q : Nat) : (signalHost s q).harvestTick = s.harvestTick := rfl
@[simp] theorem signalHost_harvestEnd (s : State) (q : Nat) : (signalHost s q).harvestEnd = s.harvestEnd := rfl
@[simp] theorem signalHost_device (s : State) (q : Nat) : (signalHost s q).device = s.device := rfl
@[simp] theorem signalHost_devices (s : State) (q : Nat) : (signalHost s q).devices = s.devices := rfl
@[simp] theorem signalHost_links (s : State) (q : Nat) : (signalHost s q).links = s.links := rfl
@[simp] theorem signalHost_outbox (s : State) (q : Nat) : (signalHost s q).outbox = s.outbox := rfl
@[simp] theorem signalHost_answers (s : State) (q : Nat) : (signalHost s q).answers = s.answers := rfl
@[simp] theorem signalHost_flows (s : State) (q : Nat) : (signalHost s q).flows = s.flows := rfl
@[simp] theorem signalHost_inFlows (s : State) (q : Nat) : (signalHost s q).inFlows = s.inFlows := rfl
@[simp] theorem signalHost_early (s : State) (q : Nat) : (signalHost s q).early = s.early := rfl
@[simp] theorem signalHost_chunks (s : State) (q : Nat) : (signalHost s q).chunks = s.chunks := rfl
@[simp] theorem signalHost_lateChunks (s : State) (q : Nat) : (signalHost s q).lateChunks = s.lateChunks := rfl
@[simp] theorem signalHost_sets (s : State) (q : Nat) : (signalHost s q).sets = s.sets := rfl

@[simp] theorem wrBytes_agenda (s : State) (pa : Nat) (bs : List Byte) : (wrBytes s pa bs).agenda = s.agenda := rfl
@[simp] theorem wrBytes_cur (s : State) (pa : Nat) (bs : List Byte) : (wrBytes s pa bs).cur = s.cur := rfl
@[simp] theorem wrBytes_steps (s : State) (pa : Nat) (bs : List Byte) : (wrBytes s pa bs).steps = s.steps := rfl
@[simp] theorem wrBytes_fresh (s : State) (pa : Nat) (bs : List Byte) : (wrBytes s pa bs).fresh = s.fresh := rfl
@[simp] theorem wrBytes_mem (s : State) (pa : Nat) (bs : List Byte) : (wrBytes s pa bs).mem = sfill 0#8 s.mem pa bs := rfl
@[simp] theorem wrBytes_fe (s : State) (pa : Nat) (bs : List Byte) : (wrBytes s pa bs).fe = s.fe := rfl
@[simp] theorem wrBytes_poison (s : State) (pa : Nat) (bs : List Byte) : (wrBytes s pa bs).poison = s.poison := rfl
@[simp] theorem wrBytes_scrubbed (s : State) (pa : Nat) (bs : List Byte) : (wrBytes s pa bs).scrubbed = s.scrubbed := rfl
@[simp] theorem wrBytes_tlb (s : State) (pa : Nat) (bs : List Byte) : (wrBytes s pa bs).tlb = s.tlb := rfl
@[simp] theorem wrBytes_leaves (s : State) (pa : Nat) (bs : List Byte) : (wrBytes s pa bs).leaves = s.leaves := rfl
@[simp] theorem wrBytes_farPages (s : State) (pa : Nat) (bs : List Byte) : (wrBytes s pa bs).farPages = s.farPages := rfl
@[simp] theorem wrBytes_icache (s : State) (pa : Nat) (bs : List Byte) : (wrBytes s pa bs).icache = s.icache := rfl
@[simp] theorem wrBytes_arbiter (s : State) (pa : Nat) (bs : List Byte) : (wrBytes s pa bs).arbiter = s.arbiter := rfl
@[simp] theorem wrBytes_lookups (s : State) (pa : Nat) (bs : List Byte) : (wrBytes s pa bs).lookups = s.lookups := rfl
@[simp] theorem wrBytes_tick (s : State) (pa : Nat) (bs : List Byte) : (wrBytes s pa bs).tick = s.tick := rfl
@[simp] theorem wrBytes_boot (s : State) (pa : Nat) (bs : List Byte) : (wrBytes s pa bs).boot = s.boot := rfl
@[simp] theorem wrBytes_fst (s : State) (pa : Nat) (bs : List Byte) : (wrBytes s pa bs).fst = s.fst := rfl
@[simp] theorem wrBytes_frozen (s : State) (pa : Nat) (bs : List Byte) : (wrBytes s pa bs).frozen = s.frozen := rfl
@[simp] theorem wrBytes_power (s : State) (pa : Nat) (bs : List Byte) : (wrBytes s pa bs).power = s.power := rfl
@[simp] theorem wrBytes_lowered (s : State) (pa : Nat) (bs : List Byte) : (wrBytes s pa bs).lowered = s.lowered := rfl
@[simp] theorem wrBytes_gated (s : State) (pa : Nat) (bs : List Byte) : (wrBytes s pa bs).gated = s.gated := rfl
@[simp] theorem wrBytes_retiredCores (s : State) (pa : Nat) (bs : List Byte) : (wrBytes s pa bs).retiredCores = s.retiredCores := rfl
@[simp] theorem wrBytes_retiredMesh (s : State) (pa : Nat) (bs : List Byte) : (wrBytes s pa bs).retiredMesh = s.retiredMesh := rfl
@[simp] theorem wrBytes_launches (s : State) (pa : Nat) (bs : List Byte) : (wrBytes s pa bs).launches = s.launches := rfl
@[simp] theorem wrBytes_blocks (s : State) (pa : Nat) (bs : List Byte) : (wrBytes s pa bs).blocks = s.blocks := rfl
@[simp] theorem wrBytes_growQ (s : State) (pa : Nat) (bs : List Byte) : (wrBytes s pa bs).growQ = s.growQ := rfl
@[simp] theorem wrBytes_granTags (s : State) (pa : Nat) (bs : List Byte) : (wrBytes s pa bs).granTags = s.granTags := rfl
@[simp] theorem wrBytes_parked (s : State) (pa : Nat) (bs : List Byte) : (wrBytes s pa bs).parked = s.parked := rfl
@[simp] theorem wrBytes_ctxs (s : State) (pa : Nat) (bs : List Byte) : (wrBytes s pa bs).ctxs = s.ctxs := rfl
@[simp] theorem wrBytes_queues (s : State) (pa : Nat) (bs : List Byte) : (wrBytes s pa bs).queues = s.queues := rfl
@[simp] theorem wrBytes_served (s : State) (pa : Nat) (bs : List Byte) : (wrBytes s pa bs).served = s.served := rfl
@[simp] theorem wrBytes_holder (s : State) (pa : Nat) (bs : List Byte) : (wrBytes s pa bs).holder = s.holder := rfl
@[simp] theorem wrBytes_leafLinks (s : State) (pa : Nat) (bs : List Byte) : (wrBytes s pa bs).leafLinks = s.leafLinks := rfl
@[simp] theorem wrBytes_operands (s : State) (pa : Nat) (bs : List Byte) : (wrBytes s pa bs).operands = s.operands := rfl
@[simp] theorem wrBytes_invalStatus (s : State) (pa : Nat) (bs : List Byte) : (wrBytes s pa bs).invalStatus = s.invalStatus := rfl
@[simp] theorem wrBytes_cmdStatus (s : State) (pa : Nat) (bs : List Byte) : (wrBytes s pa bs).cmdStatus = s.cmdStatus := rfl
@[simp] theorem wrBytes_cmdQueue (s : State) (pa : Nat) (bs : List Byte) : (wrBytes s pa bs).cmdQueue = s.cmdQueue := rfl
@[simp] theorem wrBytes_mailStatus (s : State) (pa : Nat) (bs : List Byte) : (wrBytes s pa bs).mailStatus = s.mailStatus := rfl
@[simp] theorem wrBytes_msix (s : State) (pa : Nat) (bs : List Byte) : (wrBytes s pa bs).msix = s.msix := rfl
@[simp] theorem wrBytes_replies (s : State) (pa : Nat) (bs : List Byte) : (wrBytes s pa bs).replies = s.replies := rfl
@[simp] theorem wrBytes_barReads (s : State) (pa : Nat) (bs : List Byte) : (wrBytes s pa bs).barReads = s.barReads := rfl
@[simp] theorem wrBytes_hostLink (s : State) (pa : Nat) (bs : List Byte) : (wrBytes s pa bs).hostLink = s.hostLink := rfl
@[simp] theorem wrBytes_measure (s : State) (pa : Nat) (bs : List Byte) : (wrBytes s pa bs).measure = s.measure := rfl
@[simp] theorem wrBytes_breaks (s : State) (pa : Nat) (bs : List Byte) : (wrBytes s pa bs).breaks = s.breaks := rfl
@[simp] theorem wrBytes_steps1 (s : State) (pa : Nat) (bs : List Byte) : (wrBytes s pa bs).steps1 = s.steps1 := rfl
@[simp] theorem wrBytes_focus (s : State) (pa : Nat) (bs : List Byte) : (wrBytes s pa bs).focus = s.focus := rfl
@[simp] theorem wrBytes_trig (s : State) (pa : Nat) (bs : List Byte) : (wrBytes s pa bs).trig = s.trig := rfl
@[simp] theorem wrBytes_window (s : State) (pa : Nat) (bs : List Byte) : (wrBytes s pa bs).window = s.window := rfl
@[simp] theorem wrBytes_samples (s : State) (pa : Nat) (bs : List Byte) : (wrBytes s pa bs).samples = s.samples := rfl
@[simp] theorem wrBytes_dropped (s : State) (pa : Nat) (bs : List Byte) : (wrBytes s pa bs).dropped = s.dropped := rfl
@[simp] theorem wrBytes_debugPort (s : State) (pa : Nat) (bs : List Byte) : (wrBytes s pa bs).debugPort = s.debugPort := rfl
@[simp] theorem wrBytes_harvest (s : State) (pa : Nat) (bs : List Byte) : (wrBytes s pa bs).harvest = s.harvest := rfl
@[simp] theorem wrBytes_harvestArea (s : State) (pa : Nat) (bs : List Byte) : (wrBytes s pa bs).harvestArea = s.harvestArea := rfl
@[simp] theorem wrBytes_harvestTick (s : State) (pa : Nat) (bs : List Byte) : (wrBytes s pa bs).harvestTick = s.harvestTick := rfl
@[simp] theorem wrBytes_harvestEnd (s : State) (pa : Nat) (bs : List Byte) : (wrBytes s pa bs).harvestEnd = s.harvestEnd := rfl
@[simp] theorem wrBytes_device (s : State) (pa : Nat) (bs : List Byte) : (wrBytes s pa bs).device = s.device := rfl
@[simp] theorem wrBytes_devices (s : State) (pa : Nat) (bs : List Byte) : (wrBytes s pa bs).devices = s.devices := rfl
@[simp] theorem wrBytes_links (s : State) (pa : Nat) (bs : List Byte) : (wrBytes s pa bs).links = s.links := rfl
@[simp] theorem wrBytes_outbox (s : State) (pa : Nat) (bs : List Byte) : (wrBytes s pa bs).outbox = s.outbox := rfl
@[simp] theorem wrBytes_answers (s : State) (pa : Nat) (bs : List Byte) : (wrBytes s pa bs).answers = s.answers := rfl
@[simp] theorem wrBytes_flows (s : State) (pa : Nat) (bs : List Byte) : (wrBytes s pa bs).flows = s.flows := rfl
@[simp] theorem wrBytes_inFlows (s : State) (pa : Nat) (bs : List Byte) : (wrBytes s pa bs).inFlows = s.inFlows := rfl
@[simp] theorem wrBytes_early (s : State) (pa : Nat) (bs : List Byte) : (wrBytes s pa bs).early = s.early := rfl
@[simp] theorem wrBytes_chunks (s : State) (pa : Nat) (bs : List Byte) : (wrBytes s pa bs).chunks = s.chunks := rfl
@[simp] theorem wrBytes_lateChunks (s : State) (pa : Nat) (bs : List Byte) : (wrBytes s pa bs).lateChunks = s.lateChunks := rfl
@[simp] theorem wrBytes_sets (s : State) (pa : Nat) (bs : List Byte) : (wrBytes s pa bs).sets = s.sets := rfl

@[simp] theorem wr_agenda (s : State) (pa n x : Nat) : (wr s pa n x).agenda = s.agenda := rfl
@[simp] theorem wr_cur (s : State) (pa n x : Nat) : (wr s pa n x).cur = s.cur := rfl
@[simp] theorem wr_steps (s : State) (pa n x : Nat) : (wr s pa n x).steps = s.steps := rfl
@[simp] theorem wr_fresh (s : State) (pa n x : Nat) : (wr s pa n x).fresh = s.fresh := rfl
@[simp] theorem wr_mem (s : State) (pa n x : Nat) : (wr s pa n x).mem = sfill 0#8 s.mem pa (toBytes n x) := rfl
@[simp] theorem wr_fe (s : State) (pa n x : Nat) : (wr s pa n x).fe = s.fe := rfl
@[simp] theorem wr_poison (s : State) (pa n x : Nat) : (wr s pa n x).poison = s.poison := rfl
@[simp] theorem wr_scrubbed (s : State) (pa n x : Nat) : (wr s pa n x).scrubbed = s.scrubbed := rfl
@[simp] theorem wr_tlb (s : State) (pa n x : Nat) : (wr s pa n x).tlb = s.tlb := rfl
@[simp] theorem wr_leaves (s : State) (pa n x : Nat) : (wr s pa n x).leaves = s.leaves := rfl
@[simp] theorem wr_farPages (s : State) (pa n x : Nat) : (wr s pa n x).farPages = s.farPages := rfl
@[simp] theorem wr_icache (s : State) (pa n x : Nat) : (wr s pa n x).icache = s.icache := rfl
@[simp] theorem wr_arbiter (s : State) (pa n x : Nat) : (wr s pa n x).arbiter = s.arbiter := rfl
@[simp] theorem wr_lookups (s : State) (pa n x : Nat) : (wr s pa n x).lookups = s.lookups := rfl
@[simp] theorem wr_tick (s : State) (pa n x : Nat) : (wr s pa n x).tick = s.tick := rfl
@[simp] theorem wr_boot (s : State) (pa n x : Nat) : (wr s pa n x).boot = s.boot := rfl
@[simp] theorem wr_fst (s : State) (pa n x : Nat) : (wr s pa n x).fst = s.fst := rfl
@[simp] theorem wr_frozen (s : State) (pa n x : Nat) : (wr s pa n x).frozen = s.frozen := rfl
@[simp] theorem wr_power (s : State) (pa n x : Nat) : (wr s pa n x).power = s.power := rfl
@[simp] theorem wr_lowered (s : State) (pa n x : Nat) : (wr s pa n x).lowered = s.lowered := rfl
@[simp] theorem wr_gated (s : State) (pa n x : Nat) : (wr s pa n x).gated = s.gated := rfl
@[simp] theorem wr_retiredCores (s : State) (pa n x : Nat) : (wr s pa n x).retiredCores = s.retiredCores := rfl
@[simp] theorem wr_retiredMesh (s : State) (pa n x : Nat) : (wr s pa n x).retiredMesh = s.retiredMesh := rfl
@[simp] theorem wr_launches (s : State) (pa n x : Nat) : (wr s pa n x).launches = s.launches := rfl
@[simp] theorem wr_blocks (s : State) (pa n x : Nat) : (wr s pa n x).blocks = s.blocks := rfl
@[simp] theorem wr_growQ (s : State) (pa n x : Nat) : (wr s pa n x).growQ = s.growQ := rfl
@[simp] theorem wr_granTags (s : State) (pa n x : Nat) : (wr s pa n x).granTags = s.granTags := rfl
@[simp] theorem wr_parked (s : State) (pa n x : Nat) : (wr s pa n x).parked = s.parked := rfl
@[simp] theorem wr_ctxs (s : State) (pa n x : Nat) : (wr s pa n x).ctxs = s.ctxs := rfl
@[simp] theorem wr_queues (s : State) (pa n x : Nat) : (wr s pa n x).queues = s.queues := rfl
@[simp] theorem wr_served (s : State) (pa n x : Nat) : (wr s pa n x).served = s.served := rfl
@[simp] theorem wr_holder (s : State) (pa n x : Nat) : (wr s pa n x).holder = s.holder := rfl
@[simp] theorem wr_leafLinks (s : State) (pa n x : Nat) : (wr s pa n x).leafLinks = s.leafLinks := rfl
@[simp] theorem wr_operands (s : State) (pa n x : Nat) : (wr s pa n x).operands = s.operands := rfl
@[simp] theorem wr_invalStatus (s : State) (pa n x : Nat) : (wr s pa n x).invalStatus = s.invalStatus := rfl
@[simp] theorem wr_cmdStatus (s : State) (pa n x : Nat) : (wr s pa n x).cmdStatus = s.cmdStatus := rfl
@[simp] theorem wr_cmdQueue (s : State) (pa n x : Nat) : (wr s pa n x).cmdQueue = s.cmdQueue := rfl
@[simp] theorem wr_mailStatus (s : State) (pa n x : Nat) : (wr s pa n x).mailStatus = s.mailStatus := rfl
@[simp] theorem wr_msix (s : State) (pa n x : Nat) : (wr s pa n x).msix = s.msix := rfl
@[simp] theorem wr_replies (s : State) (pa n x : Nat) : (wr s pa n x).replies = s.replies := rfl
@[simp] theorem wr_barReads (s : State) (pa n x : Nat) : (wr s pa n x).barReads = s.barReads := rfl
@[simp] theorem wr_hostLink (s : State) (pa n x : Nat) : (wr s pa n x).hostLink = s.hostLink := rfl
@[simp] theorem wr_measure (s : State) (pa n x : Nat) : (wr s pa n x).measure = s.measure := rfl
@[simp] theorem wr_breaks (s : State) (pa n x : Nat) : (wr s pa n x).breaks = s.breaks := rfl
@[simp] theorem wr_steps1 (s : State) (pa n x : Nat) : (wr s pa n x).steps1 = s.steps1 := rfl
@[simp] theorem wr_focus (s : State) (pa n x : Nat) : (wr s pa n x).focus = s.focus := rfl
@[simp] theorem wr_trig (s : State) (pa n x : Nat) : (wr s pa n x).trig = s.trig := rfl
@[simp] theorem wr_window (s : State) (pa n x : Nat) : (wr s pa n x).window = s.window := rfl
@[simp] theorem wr_samples (s : State) (pa n x : Nat) : (wr s pa n x).samples = s.samples := rfl
@[simp] theorem wr_dropped (s : State) (pa n x : Nat) : (wr s pa n x).dropped = s.dropped := rfl
@[simp] theorem wr_debugPort (s : State) (pa n x : Nat) : (wr s pa n x).debugPort = s.debugPort := rfl
@[simp] theorem wr_harvest (s : State) (pa n x : Nat) : (wr s pa n x).harvest = s.harvest := rfl
@[simp] theorem wr_harvestArea (s : State) (pa n x : Nat) : (wr s pa n x).harvestArea = s.harvestArea := rfl
@[simp] theorem wr_harvestTick (s : State) (pa n x : Nat) : (wr s pa n x).harvestTick = s.harvestTick := rfl
@[simp] theorem wr_harvestEnd (s : State) (pa n x : Nat) : (wr s pa n x).harvestEnd = s.harvestEnd := rfl
@[simp] theorem wr_device (s : State) (pa n x : Nat) : (wr s pa n x).device = s.device := rfl
@[simp] theorem wr_devices (s : State) (pa n x : Nat) : (wr s pa n x).devices = s.devices := rfl
@[simp] theorem wr_links (s : State) (pa n x : Nat) : (wr s pa n x).links = s.links := rfl
@[simp] theorem wr_outbox (s : State) (pa n x : Nat) : (wr s pa n x).outbox = s.outbox := rfl
@[simp] theorem wr_answers (s : State) (pa n x : Nat) : (wr s pa n x).answers = s.answers := rfl
@[simp] theorem wr_flows (s : State) (pa n x : Nat) : (wr s pa n x).flows = s.flows := rfl
@[simp] theorem wr_inFlows (s : State) (pa n x : Nat) : (wr s pa n x).inFlows = s.inFlows := rfl
@[simp] theorem wr_early (s : State) (pa n x : Nat) : (wr s pa n x).early = s.early := rfl
@[simp] theorem wr_chunks (s : State) (pa n x : Nat) : (wr s pa n x).chunks = s.chunks := rfl
@[simp] theorem wr_lateChunks (s : State) (pa n x : Nat) : (wr s pa n x).lateChunks = s.lateChunks := rfl
@[simp] theorem wr_sets (s : State) (pa n x : Nat) : (wr s pa n x).sets = s.sets := rfl

@[simp] theorem setFe_agenda (s : State) (k : Nat) (x : BitVec 2) : (setFe s k x).agenda = s.agenda := rfl
@[simp] theorem setFe_cur (s : State) (k : Nat) (x : BitVec 2) : (setFe s k x).cur = s.cur := rfl
@[simp] theorem setFe_steps (s : State) (k : Nat) (x : BitVec 2) : (setFe s k x).steps = s.steps := rfl
@[simp] theorem setFe_fresh (s : State) (k : Nat) (x : BitVec 2) : (setFe s k x).fresh = s.fresh := rfl
@[simp] theorem setFe_mem (s : State) (k : Nat) (x : BitVec 2) : (setFe s k x).mem = s.mem := rfl
@[simp] theorem setFe_fe (s : State) (k : Nat) (x : BitVec 2) : (setFe s k x).fe = sset 1#2 s.fe k x := rfl
@[simp] theorem setFe_poison (s : State) (k : Nat) (x : BitVec 2) : (setFe s k x).poison = s.poison := rfl
@[simp] theorem setFe_scrubbed (s : State) (k : Nat) (x : BitVec 2) : (setFe s k x).scrubbed = s.scrubbed := rfl
@[simp] theorem setFe_tlb (s : State) (k : Nat) (x : BitVec 2) : (setFe s k x).tlb = s.tlb := rfl
@[simp] theorem setFe_leaves (s : State) (k : Nat) (x : BitVec 2) : (setFe s k x).leaves = s.leaves := rfl
@[simp] theorem setFe_farPages (s : State) (k : Nat) (x : BitVec 2) : (setFe s k x).farPages = s.farPages := rfl
@[simp] theorem setFe_icache (s : State) (k : Nat) (x : BitVec 2) : (setFe s k x).icache = s.icache := rfl
@[simp] theorem setFe_arbiter (s : State) (k : Nat) (x : BitVec 2) : (setFe s k x).arbiter = s.arbiter := rfl
@[simp] theorem setFe_lookups (s : State) (k : Nat) (x : BitVec 2) : (setFe s k x).lookups = s.lookups := rfl
@[simp] theorem setFe_tick (s : State) (k : Nat) (x : BitVec 2) : (setFe s k x).tick = s.tick := rfl
@[simp] theorem setFe_boot (s : State) (k : Nat) (x : BitVec 2) : (setFe s k x).boot = s.boot := rfl
@[simp] theorem setFe_fst (s : State) (k : Nat) (x : BitVec 2) : (setFe s k x).fst = s.fst := rfl
@[simp] theorem setFe_frozen (s : State) (k : Nat) (x : BitVec 2) : (setFe s k x).frozen = s.frozen := rfl
@[simp] theorem setFe_power (s : State) (k : Nat) (x : BitVec 2) : (setFe s k x).power = s.power := rfl
@[simp] theorem setFe_lowered (s : State) (k : Nat) (x : BitVec 2) : (setFe s k x).lowered = s.lowered := rfl
@[simp] theorem setFe_gated (s : State) (k : Nat) (x : BitVec 2) : (setFe s k x).gated = s.gated := rfl
@[simp] theorem setFe_retiredCores (s : State) (k : Nat) (x : BitVec 2) : (setFe s k x).retiredCores = s.retiredCores := rfl
@[simp] theorem setFe_retiredMesh (s : State) (k : Nat) (x : BitVec 2) : (setFe s k x).retiredMesh = s.retiredMesh := rfl
@[simp] theorem setFe_launches (s : State) (k : Nat) (x : BitVec 2) : (setFe s k x).launches = s.launches := rfl
@[simp] theorem setFe_blocks (s : State) (k : Nat) (x : BitVec 2) : (setFe s k x).blocks = s.blocks := rfl
@[simp] theorem setFe_growQ (s : State) (k : Nat) (x : BitVec 2) : (setFe s k x).growQ = s.growQ := rfl
@[simp] theorem setFe_granTags (s : State) (k : Nat) (x : BitVec 2) : (setFe s k x).granTags = s.granTags := rfl
@[simp] theorem setFe_parked (s : State) (k : Nat) (x : BitVec 2) : (setFe s k x).parked = s.parked := rfl
@[simp] theorem setFe_ctxs (s : State) (k : Nat) (x : BitVec 2) : (setFe s k x).ctxs = s.ctxs := rfl
@[simp] theorem setFe_queues (s : State) (k : Nat) (x : BitVec 2) : (setFe s k x).queues = s.queues := rfl
@[simp] theorem setFe_served (s : State) (k : Nat) (x : BitVec 2) : (setFe s k x).served = s.served := rfl
@[simp] theorem setFe_holder (s : State) (k : Nat) (x : BitVec 2) : (setFe s k x).holder = s.holder := rfl
@[simp] theorem setFe_leafLinks (s : State) (k : Nat) (x : BitVec 2) : (setFe s k x).leafLinks = s.leafLinks := rfl
@[simp] theorem setFe_operands (s : State) (k : Nat) (x : BitVec 2) : (setFe s k x).operands = s.operands := rfl
@[simp] theorem setFe_invalStatus (s : State) (k : Nat) (x : BitVec 2) : (setFe s k x).invalStatus = s.invalStatus := rfl
@[simp] theorem setFe_cmdStatus (s : State) (k : Nat) (x : BitVec 2) : (setFe s k x).cmdStatus = s.cmdStatus := rfl
@[simp] theorem setFe_cmdQueue (s : State) (k : Nat) (x : BitVec 2) : (setFe s k x).cmdQueue = s.cmdQueue := rfl
@[simp] theorem setFe_mailStatus (s : State) (k : Nat) (x : BitVec 2) : (setFe s k x).mailStatus = s.mailStatus := rfl
@[simp] theorem setFe_msix (s : State) (k : Nat) (x : BitVec 2) : (setFe s k x).msix = s.msix := rfl
@[simp] theorem setFe_replies (s : State) (k : Nat) (x : BitVec 2) : (setFe s k x).replies = s.replies := rfl
@[simp] theorem setFe_barReads (s : State) (k : Nat) (x : BitVec 2) : (setFe s k x).barReads = s.barReads := rfl
@[simp] theorem setFe_hostLink (s : State) (k : Nat) (x : BitVec 2) : (setFe s k x).hostLink = s.hostLink := rfl
@[simp] theorem setFe_measure (s : State) (k : Nat) (x : BitVec 2) : (setFe s k x).measure = s.measure := rfl
@[simp] theorem setFe_breaks (s : State) (k : Nat) (x : BitVec 2) : (setFe s k x).breaks = s.breaks := rfl
@[simp] theorem setFe_steps1 (s : State) (k : Nat) (x : BitVec 2) : (setFe s k x).steps1 = s.steps1 := rfl
@[simp] theorem setFe_focus (s : State) (k : Nat) (x : BitVec 2) : (setFe s k x).focus = s.focus := rfl
@[simp] theorem setFe_trig (s : State) (k : Nat) (x : BitVec 2) : (setFe s k x).trig = s.trig := rfl
@[simp] theorem setFe_window (s : State) (k : Nat) (x : BitVec 2) : (setFe s k x).window = s.window := rfl
@[simp] theorem setFe_samples (s : State) (k : Nat) (x : BitVec 2) : (setFe s k x).samples = s.samples := rfl
@[simp] theorem setFe_dropped (s : State) (k : Nat) (x : BitVec 2) : (setFe s k x).dropped = s.dropped := rfl
@[simp] theorem setFe_debugPort (s : State) (k : Nat) (x : BitVec 2) : (setFe s k x).debugPort = s.debugPort := rfl
@[simp] theorem setFe_harvest (s : State) (k : Nat) (x : BitVec 2) : (setFe s k x).harvest = s.harvest := rfl
@[simp] theorem setFe_harvestArea (s : State) (k : Nat) (x : BitVec 2) : (setFe s k x).harvestArea = s.harvestArea := rfl
@[simp] theorem setFe_harvestTick (s : State) (k : Nat) (x : BitVec 2) : (setFe s k x).harvestTick = s.harvestTick := rfl
@[simp] theorem setFe_harvestEnd (s : State) (k : Nat) (x : BitVec 2) : (setFe s k x).harvestEnd = s.harvestEnd := rfl
@[simp] theorem setFe_device (s : State) (k : Nat) (x : BitVec 2) : (setFe s k x).device = s.device := rfl
@[simp] theorem setFe_devices (s : State) (k : Nat) (x : BitVec 2) : (setFe s k x).devices = s.devices := rfl
@[simp] theorem setFe_links (s : State) (k : Nat) (x : BitVec 2) : (setFe s k x).links = s.links := rfl
@[simp] theorem setFe_outbox (s : State) (k : Nat) (x : BitVec 2) : (setFe s k x).outbox = s.outbox := rfl
@[simp] theorem setFe_answers (s : State) (k : Nat) (x : BitVec 2) : (setFe s k x).answers = s.answers := rfl
@[simp] theorem setFe_flows (s : State) (k : Nat) (x : BitVec 2) : (setFe s k x).flows = s.flows := rfl
@[simp] theorem setFe_inFlows (s : State) (k : Nat) (x : BitVec 2) : (setFe s k x).inFlows = s.inFlows := rfl
@[simp] theorem setFe_early (s : State) (k : Nat) (x : BitVec 2) : (setFe s k x).early = s.early := rfl
@[simp] theorem setFe_chunks (s : State) (k : Nat) (x : BitVec 2) : (setFe s k x).chunks = s.chunks := rfl
@[simp] theorem setFe_lateChunks (s : State) (k : Nat) (x : BitVec 2) : (setFe s k x).lateChunks = s.lateChunks := rfl
@[simp] theorem setFe_sets (s : State) (k : Nat) (x : BitVec 2) : (setFe s k x).sets = s.sets := rfl

@[simp] theorem Block.modGrp_launch (b : Block) (j : Nat) (f : Group → Group) : (b.modGrp j f).launch = b.launch := rfl
@[simp] theorem Block.modGrp_ordinal (b : Block) (j : Nat) (f : Group → Group) : (b.modGrp j f).ordinal = b.ordinal := rfl
@[simp] theorem Block.modGrp_st (b : Block) (j : Nat) (f : Group → Group) : (b.modGrp j f).st = b.st := rfl
@[simp] theorem Block.modGrp_core (b : Block) (j : Nat) (f : Group → Group) : (b.modGrp j f).core = b.core := rfl
@[simp] theorem Block.modGrp_groups (b : Block) (j : Nat) (f : Group → Group) : (b.modGrp j f).groups = b.groups.modify j f := rfl
@[simp] theorem Block.modGrp_bflags (b : Block) (j : Nat) (f : Group → Group) : (b.modGrp j f).bflags = b.bflags := rfl
@[simp] theorem Block.modGrp_nantrap (b : Block) (j : Nat) (f : Group → Group) : (b.modGrp j f).nantrap = b.nantrap := rfl
@[simp] theorem Block.modGrp_seed (b : Block) (j : Nat) (f : Group → Group) : (b.modGrp j f).seed = b.seed := rfl
@[simp] theorem Block.modGrp_rpr (b : Block) (j : Nat) (f : Group → Group) : (b.modGrp j f).rpr = b.rpr := rfl
@[simp] theorem Block.modGrp_febudget (b : Block) (j : Nat) (f : Group → Group) : (b.modGrp j f).febudget = b.febudget := rfl
@[simp] theorem Block.modGrp_nb (b : Block) (j : Nat) (f : Group → Group) : (b.modGrp j f).nb = b.nb := rfl
@[simp] theorem Block.modGrp_tiles (b : Block) (j : Nat) (f : Group → Group) : (b.modGrp j f).tiles = b.tiles := rfl
@[simp] theorem Block.modGrp_acc (b : Block) (j : Nat) (f : Group → Group) : (b.modGrp j f).acc = b.acc := rfl
@[simp] theorem Block.modGrp_scratch (b : Block) (j : Nat) (f : Group → Group) : (b.modGrp j f).scratch = b.scratch := rfl
@[simp] theorem Block.modGrp_sinit (b : Block) (j : Nat) (f : Group → Group) : (b.modGrp j f).sinit = b.sinit := rfl
@[simp] theorem Block.modGrp_mons (b : Block) (j : Nat) (f : Group → Group) : (b.modGrp j f).mons = b.mons := rfl
@[simp] theorem Block.modGrp_seq (b : Block) (j : Nat) (f : Group → Group) : (b.modGrp j f).seq = b.seq := rfl
@[simp] theorem Block.modGrp_cause (b : Block) (j : Nat) (f : Group → Group) : (b.modGrp j f).cause = b.cause := rfl
@[simp] theorem Block.modGrp_tval (b : Block) (j : Nat) (f : Group → Group) : (b.modGrp j f).tval = b.tval := rfl
@[simp] theorem Block.modGrp_status (b : Block) (j : Nat) (f : Group → Group) : (b.modGrp j f).status = b.status := rfl
@[simp] theorem Block.modGrp_doneAt (b : Block) (j : Nat) (f : Group → Group) : (b.modGrp j f).doneAt = b.doneAt := rfl
@[simp] theorem Block.modGrp_savedMons (b : Block) (j : Nat) (f : Group → Group) : (b.modGrp j f).savedMons = b.savedMons := rfl
@[simp] theorem Block.modGrp_leaving (b : Block) (j : Nat) (f : Group → Group) : (b.modGrp j f).leaving = b.leaving := rfl

@[simp] theorem Group.tickIssue_slot (g : Group) (h : Hdr) : (g.tickIssue h).slot = g.slot := rfl
@[simp] theorem Group.tickIssue_lvl (g : Group) (h : Hdr) : (g.tickIssue h).lvl = g.lvl := rfl
@[simp] theorem Group.tickIssue_calls (g : Group) (h : Hdr) : (g.tickIssue h).calls = g.calls := rfl
@[simp] theorem Group.tickIssue_frames (g : Group) (h : Hdr) : (g.tickIssue h).frames = g.frames := rfl
@[simp] theorem Group.tickIssue_nv (g : Group) (h : Hdr) : (g.tickIssue h).nv = g.nv := rfl
@[simp] theorem Group.tickIssue_v (g : Group) (h : Hdr) : (g.tickIssue h).v = g.v := rfl
@[simp] theorem Group.tickIssue_s (g : Group) (h : Hdr) : (g.tickIssue h).s = g.s := rfl
@[simp] theorem Group.tickIssue_w (g : Group) (h : Hdr) : (g.tickIssue h).w = g.w := rfl
@[simp] theorem Group.tickIssue_flags (g : Group) (h : Hdr) : (g.tickIssue h).flags = g.flags := rfl
@[simp] theorem Group.tickIssue_laneFlags (g : Group) (h : Hdr) : (g.tickIssue h).laneFlags = g.laneFlags := rfl
@[simp] theorem Group.tickIssue_sfm (g : Group) (h : Hdr) : (g.tickIssue h).sfm = g.sfm := rfl
@[simp] theorem Group.tickIssue_dropcnt (g : Group) (h : Hdr) : (g.tickIssue h).dropcnt = g.dropcnt := rfl
@[simp] theorem Group.tickIssue_chkmode (g : Group) (h : Hdr) : (g.tickIssue h).chkmode = g.chkmode := rfl
@[simp] theorem Group.tickIssue_clock (g : Group) (h : Hdr) : (g.tickIssue h).clock = g.clock + 1 + h.stall.toNat := rfl
@[simp] theorem Group.tickIssue_pend (g : Group) (h : Hdr) : (g.tickIssue h).pend = g.pend := rfl
@[simp] theorem Group.tickIssue_inflight (g : Group) (h : Hdr) : (g.tickIssue h).inflight = g.inflight := rfl
@[simp] theorem Group.tickIssue_grans (g : Group) (h : Hdr) : (g.tickIssue h).grans = g.grans := rfl
@[simp] theorem Group.tickIssue_copies (g : Group) (h : Hdr) : (g.tickIssue h).copies = g.copies := rfl
@[simp] theorem Group.tickIssue_sideLog (g : Group) (h : Hdr) : (g.tickIssue h).sideLog = g.sideLog := rfl
@[simp] theorem Group.tickIssue_sideSvc (g : Group) (h : Hdr) : (g.tickIssue h).sideSvc = g.sideSvc := rfl
@[simp] theorem Group.tickIssue_delivered (g : Group) (h : Hdr) : (g.tickIssue h).delivered = g.delivered := rfl
@[simp] theorem Group.tickIssue_status (g : Group) (h : Hdr) : (g.tickIssue h).status = if g.status = .resumed then .ready else g.status := rfl
@[simp] theorem Group.tickIssue_wakes (g : Group) (h : Hdr) : (g.tickIssue h).wakes = g.wakes := rfl
@[simp] theorem Group.tickIssue_tile (g : Group) (h : Hdr) : (g.tickIssue h).tile = g.tile := rfl
@[simp] theorem Group.tickIssue_lacks (g : Group) (h : Hdr) : (g.tickIssue h).lacks = g.lacks := rfl
@[simp] theorem Group.tickIssue_sent (g : Group) (h : Hdr) : (g.tickIssue h).sent = g.sent := rfl
@[simp] theorem Group.tickIssue_seed (g : Group) (h : Hdr) : (g.tickIssue h).seed = g.seed := rfl
@[simp] theorem Group.tickIssue_reached (g : Group) (h : Hdr) : (g.tickIssue h).reached = g.reached := rfl
@[simp] theorem Group.tickIssue_told (g : Group) (h : Hdr) : (g.tickIssue h).told = g.told := rfl
@[simp] theorem Group.tickIssue_notes (g : Group) (h : Hdr) : (g.tickIssue h).notes = g.notes := rfl
@[simp] theorem Group.tickIssue_own (g : Group) (h : Hdr) : (g.tickIssue h).own = g.own := rfl

@[simp] theorem Group.addPend_slot (g : Group) (lat : Nat) (ws : List RegWrite) (fs : FlagSet) : (g.addPend lat ws fs).slot = g.slot := rfl
@[simp] theorem Group.addPend_lvl (g : Group) (lat : Nat) (ws : List RegWrite) (fs : FlagSet) : (g.addPend lat ws fs).lvl = g.lvl := rfl
@[simp] theorem Group.addPend_calls (g : Group) (lat : Nat) (ws : List RegWrite) (fs : FlagSet) : (g.addPend lat ws fs).calls = g.calls := rfl
@[simp] theorem Group.addPend_frames (g : Group) (lat : Nat) (ws : List RegWrite) (fs : FlagSet) : (g.addPend lat ws fs).frames = g.frames := rfl
@[simp] theorem Group.addPend_nv (g : Group) (lat : Nat) (ws : List RegWrite) (fs : FlagSet) : (g.addPend lat ws fs).nv = g.nv := rfl
@[simp] theorem Group.addPend_v (g : Group) (lat : Nat) (ws : List RegWrite) (fs : FlagSet) : (g.addPend lat ws fs).v = g.v := rfl
@[simp] theorem Group.addPend_s (g : Group) (lat : Nat) (ws : List RegWrite) (fs : FlagSet) : (g.addPend lat ws fs).s = g.s := rfl
@[simp] theorem Group.addPend_w (g : Group) (lat : Nat) (ws : List RegWrite) (fs : FlagSet) : (g.addPend lat ws fs).w = g.w := rfl
@[simp] theorem Group.addPend_flags (g : Group) (lat : Nat) (ws : List RegWrite) (fs : FlagSet) : (g.addPend lat ws fs).flags = g.flags := rfl
@[simp] theorem Group.addPend_laneFlags (g : Group) (lat : Nat) (ws : List RegWrite) (fs : FlagSet) : (g.addPend lat ws fs).laneFlags = g.laneFlags := rfl
@[simp] theorem Group.addPend_sfm (g : Group) (lat : Nat) (ws : List RegWrite) (fs : FlagSet) : (g.addPend lat ws fs).sfm = g.sfm := rfl
@[simp] theorem Group.addPend_dropcnt (g : Group) (lat : Nat) (ws : List RegWrite) (fs : FlagSet) : (g.addPend lat ws fs).dropcnt = g.dropcnt := rfl
@[simp] theorem Group.addPend_chkmode (g : Group) (lat : Nat) (ws : List RegWrite) (fs : FlagSet) : (g.addPend lat ws fs).chkmode = g.chkmode := rfl
@[simp] theorem Group.addPend_clock (g : Group) (lat : Nat) (ws : List RegWrite) (fs : FlagSet) : (g.addPend lat ws fs).clock = g.clock := rfl
@[simp] theorem Group.addPend_pend (g : Group) (lat : Nat) (ws : List RegWrite) (fs : FlagSet) : (g.addPend lat ws fs).pend = g.pend ++ [{ due := g.clock + lat, writes := ws, flags := fs }] := rfl
@[simp] theorem Group.addPend_inflight (g : Group) (lat : Nat) (ws : List RegWrite) (fs : FlagSet) : (g.addPend lat ws fs).inflight = g.inflight := rfl
@[simp] theorem Group.addPend_grans (g : Group) (lat : Nat) (ws : List RegWrite) (fs : FlagSet) : (g.addPend lat ws fs).grans = g.grans := rfl
@[simp] theorem Group.addPend_copies (g : Group) (lat : Nat) (ws : List RegWrite) (fs : FlagSet) : (g.addPend lat ws fs).copies = g.copies := rfl
@[simp] theorem Group.addPend_sideLog (g : Group) (lat : Nat) (ws : List RegWrite) (fs : FlagSet) : (g.addPend lat ws fs).sideLog = g.sideLog := rfl
@[simp] theorem Group.addPend_sideSvc (g : Group) (lat : Nat) (ws : List RegWrite) (fs : FlagSet) : (g.addPend lat ws fs).sideSvc = g.sideSvc := rfl
@[simp] theorem Group.addPend_delivered (g : Group) (lat : Nat) (ws : List RegWrite) (fs : FlagSet) : (g.addPend lat ws fs).delivered = g.delivered := rfl
@[simp] theorem Group.addPend_status (g : Group) (lat : Nat) (ws : List RegWrite) (fs : FlagSet) : (g.addPend lat ws fs).status = g.status := rfl
@[simp] theorem Group.addPend_wakes (g : Group) (lat : Nat) (ws : List RegWrite) (fs : FlagSet) : (g.addPend lat ws fs).wakes = g.wakes := rfl
@[simp] theorem Group.addPend_tile (g : Group) (lat : Nat) (ws : List RegWrite) (fs : FlagSet) : (g.addPend lat ws fs).tile = g.tile := rfl
@[simp] theorem Group.addPend_lacks (g : Group) (lat : Nat) (ws : List RegWrite) (fs : FlagSet) : (g.addPend lat ws fs).lacks = g.lacks := rfl
@[simp] theorem Group.addPend_sent (g : Group) (lat : Nat) (ws : List RegWrite) (fs : FlagSet) : (g.addPend lat ws fs).sent = g.sent := rfl
@[simp] theorem Group.addPend_seed (g : Group) (lat : Nat) (ws : List RegWrite) (fs : FlagSet) : (g.addPend lat ws fs).seed = g.seed := rfl
@[simp] theorem Group.addPend_reached (g : Group) (lat : Nat) (ws : List RegWrite) (fs : FlagSet) : (g.addPend lat ws fs).reached = g.reached := rfl
@[simp] theorem Group.addPend_told (g : Group) (lat : Nat) (ws : List RegWrite) (fs : FlagSet) : (g.addPend lat ws fs).told = g.told := rfl
@[simp] theorem Group.addPend_notes (g : Group) (lat : Nat) (ws : List RegWrite) (fs : FlagSet) : (g.addPend lat ws fs).notes = g.notes := rfl
@[simp] theorem Group.addPend_own (g : Group) (lat : Nat) (ws : List RegWrite) (fs : FlagSet) : (g.addPend lat ws fs).own = g.own := rfl

@[simp] theorem Group.addFlight_slot (g : Group) (ws : List RegWrite) (fs : FlagSet) : (g.addFlight ws fs).slot = g.slot := rfl
@[simp] theorem Group.addFlight_lvl (g : Group) (ws : List RegWrite) (fs : FlagSet) : (g.addFlight ws fs).lvl = g.lvl := rfl
@[simp] theorem Group.addFlight_calls (g : Group) (ws : List RegWrite) (fs : FlagSet) : (g.addFlight ws fs).calls = g.calls := rfl
@[simp] theorem Group.addFlight_frames (g : Group) (ws : List RegWrite) (fs : FlagSet) : (g.addFlight ws fs).frames = g.frames := rfl
@[simp] theorem Group.addFlight_nv (g : Group) (ws : List RegWrite) (fs : FlagSet) : (g.addFlight ws fs).nv = g.nv := rfl
@[simp] theorem Group.addFlight_v (g : Group) (ws : List RegWrite) (fs : FlagSet) : (g.addFlight ws fs).v = g.v := rfl
@[simp] theorem Group.addFlight_s (g : Group) (ws : List RegWrite) (fs : FlagSet) : (g.addFlight ws fs).s = g.s := rfl
@[simp] theorem Group.addFlight_w (g : Group) (ws : List RegWrite) (fs : FlagSet) : (g.addFlight ws fs).w = g.w := rfl
@[simp] theorem Group.addFlight_flags (g : Group) (ws : List RegWrite) (fs : FlagSet) : (g.addFlight ws fs).flags = g.flags := rfl
@[simp] theorem Group.addFlight_laneFlags (g : Group) (ws : List RegWrite) (fs : FlagSet) : (g.addFlight ws fs).laneFlags = g.laneFlags := rfl
@[simp] theorem Group.addFlight_sfm (g : Group) (ws : List RegWrite) (fs : FlagSet) : (g.addFlight ws fs).sfm = g.sfm := rfl
@[simp] theorem Group.addFlight_dropcnt (g : Group) (ws : List RegWrite) (fs : FlagSet) : (g.addFlight ws fs).dropcnt = g.dropcnt := rfl
@[simp] theorem Group.addFlight_chkmode (g : Group) (ws : List RegWrite) (fs : FlagSet) : (g.addFlight ws fs).chkmode = g.chkmode := rfl
@[simp] theorem Group.addFlight_clock (g : Group) (ws : List RegWrite) (fs : FlagSet) : (g.addFlight ws fs).clock = g.clock := rfl
@[simp] theorem Group.addFlight_pend (g : Group) (ws : List RegWrite) (fs : FlagSet) : (g.addFlight ws fs).pend = g.pend := rfl
@[simp] theorem Group.addFlight_inflight (g : Group) (ws : List RegWrite) (fs : FlagSet) : (g.addFlight ws fs).inflight = g.inflight ++ [{ depth := g.depth, writes := ws, flags := fs, tags := tagsFor g g.depth ws }] := rfl
@[simp] theorem Group.addFlight_grans (g : Group) (ws : List RegWrite) (fs : FlagSet) : (g.addFlight ws fs).grans = g.grans := rfl
@[simp] theorem Group.addFlight_copies (g : Group) (ws : List RegWrite) (fs : FlagSet) : (g.addFlight ws fs).copies = g.copies := rfl
@[simp] theorem Group.addFlight_sideLog (g : Group) (ws : List RegWrite) (fs : FlagSet) : (g.addFlight ws fs).sideLog = g.sideLog := rfl
@[simp] theorem Group.addFlight_sideSvc (g : Group) (ws : List RegWrite) (fs : FlagSet) : (g.addFlight ws fs).sideSvc = g.sideSvc := rfl
@[simp] theorem Group.addFlight_delivered (g : Group) (ws : List RegWrite) (fs : FlagSet) : (g.addFlight ws fs).delivered = g.delivered := rfl
@[simp] theorem Group.addFlight_status (g : Group) (ws : List RegWrite) (fs : FlagSet) : (g.addFlight ws fs).status = g.status := rfl
@[simp] theorem Group.addFlight_wakes (g : Group) (ws : List RegWrite) (fs : FlagSet) : (g.addFlight ws fs).wakes = g.wakes := rfl
@[simp] theorem Group.addFlight_tile (g : Group) (ws : List RegWrite) (fs : FlagSet) : (g.addFlight ws fs).tile = g.tile := rfl
@[simp] theorem Group.addFlight_lacks (g : Group) (ws : List RegWrite) (fs : FlagSet) : (g.addFlight ws fs).lacks = g.lacks := rfl
@[simp] theorem Group.addFlight_sent (g : Group) (ws : List RegWrite) (fs : FlagSet) : (g.addFlight ws fs).sent = g.sent := rfl
@[simp] theorem Group.addFlight_seed (g : Group) (ws : List RegWrite) (fs : FlagSet) : (g.addFlight ws fs).seed = g.seed := rfl
@[simp] theorem Group.addFlight_reached (g : Group) (ws : List RegWrite) (fs : FlagSet) : (g.addFlight ws fs).reached = g.reached := rfl
@[simp] theorem Group.addFlight_told (g : Group) (ws : List RegWrite) (fs : FlagSet) : (g.addFlight ws fs).told = g.told := rfl
@[simp] theorem Group.addFlight_notes (g : Group) (ws : List RegWrite) (fs : FlagSet) : (g.addFlight ws fs).notes = g.notes := rfl
@[simp] theorem Group.addFlight_own (g : Group) (ws : List RegWrite) (fs : FlagSet) : (g.addFlight ws fs).own = g.own := rfl

@[simp] theorem Level.advance_base (v : Level) (long : Bool) : (v.advance long).base = v.base := rfl
@[simp] theorem Level.advance_n (v : Level) (long : Bool) : (v.advance long).n = v.n := rfl
@[simp] theorem Level.advance_codeLen (v : Level) (long : Bool) : (v.advance long).codeLen = v.codeLen := rfl
@[simp] theorem Level.advance_tab (v : Level) (long : Bool) : (v.advance long).tab = v.tab := rfl
@[simp] theorem Level.advance_tagTab (v : Level) (long : Bool) : (v.advance long).tagTab = v.tagTab := rfl
@[simp] theorem Level.advance_wl (v : Level) (long : Bool) : (v.advance long).wl = v.wl := rfl
@[simp] theorem Level.advance_ri (v : Level) (long : Bool) : (v.advance long).ri = v.ri := rfl
@[simp] theorem Level.advance_defm (v : Level) (long : Bool) : (v.advance long).defm = v.defm := rfl
@[simp] theorem Level.advance_dva (v : Level) (long : Bool) : (v.advance long).dva = v.dva := rfl
@[simp] theorem Level.advance_dneed (v : Level) (long : Bool) : (v.advance long).dneed = v.dneed := rfl
@[simp] theorem Level.advance_dwr (v : Level) (long : Bool) : (v.advance long).dwr = v.dwr := rfl
@[simp] theorem Level.advance_swc (v : Level) (long : Bool) : (v.advance long).swc = v.swc := rfl
@[simp] theorem Level.advance_label (v : Level) (long : Bool) : (v.advance long).label = v.label := rfl
@[simp] theorem Level.advance_ord (v : Level) (long : Bool) : (v.advance long).ord = v.ord + 1 := rfl
@[simp] theorem Level.advance_off (v : Level) (long : Bool) : (v.advance long).off = v.off + (if long then 16 else 8) := rfl
@[simp] theorem Level.advance_len (v : Level) (long : Bool) : (v.advance long).len = v.len := rfl
@[simp] theorem Level.advance_phase (v : Level) (long : Bool) : (v.advance long).phase = v.phase := rfl
@[simp] theorem Level.advance_callv (v : Level) (long : Bool) : (v.advance long).callv = none := rfl
@[simp] theorem Level.advance_unread (v : Level) (long : Bool) : (v.advance long).unread = v.unread := rfl
@[simp] theorem Level.advance_p (v : Level) (long : Bool) : (v.advance long).p = v.p := rfl
@[simp] theorem Level.advance_q (v : Level) (long : Bool) : (v.advance long).q = v.q := rfl

@[simp] theorem Group.modCl_slot (g : Group) (k : Level → Level) : (g.modCl k).slot = g.slot := by unfold Group.modCl; split <;> rfl
@[simp] theorem Group.modCl_calls (g : Group) (k : Level → Level) : (g.modCl k).calls = g.calls := by unfold Group.modCl; split <;> rfl
@[simp] theorem Group.modCl_nv (g : Group) (k : Level → Level) : (g.modCl k).nv = g.nv := by unfold Group.modCl; split <;> rfl
@[simp] theorem Group.modCl_v (g : Group) (k : Level → Level) : (g.modCl k).v = g.v := by unfold Group.modCl; split <;> rfl
@[simp] theorem Group.modCl_s (g : Group) (k : Level → Level) : (g.modCl k).s = g.s := by unfold Group.modCl; split <;> rfl
@[simp] theorem Group.modCl_w (g : Group) (k : Level → Level) : (g.modCl k).w = g.w := by unfold Group.modCl; split <;> rfl
@[simp] theorem Group.modCl_flags (g : Group) (k : Level → Level) : (g.modCl k).flags = g.flags := by unfold Group.modCl; split <;> rfl
@[simp] theorem Group.modCl_laneFlags (g : Group) (k : Level → Level) : (g.modCl k).laneFlags = g.laneFlags := by unfold Group.modCl; split <;> rfl
@[simp] theorem Group.modCl_sfm (g : Group) (k : Level → Level) : (g.modCl k).sfm = g.sfm := by unfold Group.modCl; split <;> rfl
@[simp] theorem Group.modCl_dropcnt (g : Group) (k : Level → Level) : (g.modCl k).dropcnt = g.dropcnt := by unfold Group.modCl; split <;> rfl
@[simp] theorem Group.modCl_chkmode (g : Group) (k : Level → Level) : (g.modCl k).chkmode = g.chkmode := by unfold Group.modCl; split <;> rfl
@[simp] theorem Group.modCl_clock (g : Group) (k : Level → Level) : (g.modCl k).clock = g.clock := by unfold Group.modCl; split <;> rfl
@[simp] theorem Group.modCl_pend (g : Group) (k : Level → Level) : (g.modCl k).pend = g.pend := by unfold Group.modCl; split <;> rfl
@[simp] theorem Group.modCl_inflight (g : Group) (k : Level → Level) : (g.modCl k).inflight = g.inflight := by unfold Group.modCl; split <;> rfl
@[simp] theorem Group.modCl_grans (g : Group) (k : Level → Level) : (g.modCl k).grans = g.grans := by unfold Group.modCl; split <;> rfl
@[simp] theorem Group.modCl_copies (g : Group) (k : Level → Level) : (g.modCl k).copies = g.copies := by unfold Group.modCl; split <;> rfl
@[simp] theorem Group.modCl_sideLog (g : Group) (k : Level → Level) : (g.modCl k).sideLog = g.sideLog := by unfold Group.modCl; split <;> rfl
@[simp] theorem Group.modCl_sideSvc (g : Group) (k : Level → Level) : (g.modCl k).sideSvc = g.sideSvc := by unfold Group.modCl; split <;> rfl
@[simp] theorem Group.modCl_delivered (g : Group) (k : Level → Level) : (g.modCl k).delivered = g.delivered := by unfold Group.modCl; split <;> rfl
@[simp] theorem Group.modCl_status (g : Group) (k : Level → Level) : (g.modCl k).status = g.status := by unfold Group.modCl; split <;> rfl
@[simp] theorem Group.modCl_wakes (g : Group) (k : Level → Level) : (g.modCl k).wakes = g.wakes := by unfold Group.modCl; split <;> rfl
@[simp] theorem Group.modCl_tile (g : Group) (k : Level → Level) : (g.modCl k).tile = g.tile := by unfold Group.modCl; split <;> rfl
@[simp] theorem Group.modCl_lacks (g : Group) (k : Level → Level) : (g.modCl k).lacks = g.lacks := by unfold Group.modCl; split <;> rfl
@[simp] theorem Group.modCl_sent (g : Group) (k : Level → Level) : (g.modCl k).sent = g.sent := by unfold Group.modCl; split <;> rfl
@[simp] theorem Group.modCl_seed (g : Group) (k : Level → Level) : (g.modCl k).seed = g.seed := by unfold Group.modCl; split <;> rfl
@[simp] theorem Group.modCl_reached (g : Group) (k : Level → Level) : (g.modCl k).reached = g.reached := by unfold Group.modCl; split <;> rfl
@[simp] theorem Group.modCl_told (g : Group) (k : Level → Level) : (g.modCl k).told = g.told := by unfold Group.modCl; split <;> rfl
@[simp] theorem Group.modCl_notes (g : Group) (k : Level → Level) : (g.modCl k).notes = g.notes := by unfold Group.modCl; split <;> rfl
@[simp] theorem Group.modCl_own (g : Group) (k : Level → Level) : (g.modCl k).own = g.own := by unfold Group.modCl; split <;> rfl
@[simp] theorem Group.modCl_cl (g : Group) (k : Level → Level) : (g.modCl k).cl = k g.cl := by
  match g with
  | { frames := [], .. } => rfl
  | { frames := _ :: _, .. } => rfl
@[simp] theorem Group.modCl_depth (g : Group) (k : Level → Level) : (g.modCl k).depth = g.depth := by
  match g with
  | { frames := [], .. } => rfl
  | { frames := _ :: _, .. } => rfl

@[simp] theorem Group.past_slot (g : Group) (h : Hdr) (long : Bool) : (g.past h long).slot = g.slot := by simp [Group.past]
@[simp] theorem Group.past_calls (g : Group) (h : Hdr) (long : Bool) : (g.past h long).calls = g.calls := by simp [Group.past]
@[simp] theorem Group.past_nv (g : Group) (h : Hdr) (long : Bool) : (g.past h long).nv = g.nv := by simp [Group.past]
@[simp] theorem Group.past_v (g : Group) (h : Hdr) (long : Bool) : (g.past h long).v = g.v := by simp [Group.past]
@[simp] theorem Group.past_s (g : Group) (h : Hdr) (long : Bool) : (g.past h long).s = g.s := by simp [Group.past]
@[simp] theorem Group.past_w (g : Group) (h : Hdr) (long : Bool) : (g.past h long).w = g.w := by simp [Group.past]
@[simp] theorem Group.past_flags (g : Group) (h : Hdr) (long : Bool) : (g.past h long).flags = g.flags := by simp [Group.past]
@[simp] theorem Group.past_laneFlags (g : Group) (h : Hdr) (long : Bool) : (g.past h long).laneFlags = g.laneFlags := by simp [Group.past]
@[simp] theorem Group.past_sfm (g : Group) (h : Hdr) (long : Bool) : (g.past h long).sfm = g.sfm := by simp [Group.past]
@[simp] theorem Group.past_dropcnt (g : Group) (h : Hdr) (long : Bool) : (g.past h long).dropcnt = g.dropcnt := by simp [Group.past]
@[simp] theorem Group.past_chkmode (g : Group) (h : Hdr) (long : Bool) : (g.past h long).chkmode = g.chkmode := by simp [Group.past]
@[simp] theorem Group.past_pend (g : Group) (h : Hdr) (long : Bool) : (g.past h long).pend = g.pend := by simp [Group.past]
@[simp] theorem Group.past_inflight (g : Group) (h : Hdr) (long : Bool) : (g.past h long).inflight = g.inflight := by simp [Group.past]
@[simp] theorem Group.past_grans (g : Group) (h : Hdr) (long : Bool) : (g.past h long).grans = g.grans := by simp [Group.past]
@[simp] theorem Group.past_copies (g : Group) (h : Hdr) (long : Bool) : (g.past h long).copies = g.copies := by simp [Group.past]
@[simp] theorem Group.past_sideLog (g : Group) (h : Hdr) (long : Bool) : (g.past h long).sideLog = g.sideLog := by simp [Group.past]
@[simp] theorem Group.past_sideSvc (g : Group) (h : Hdr) (long : Bool) : (g.past h long).sideSvc = g.sideSvc := by simp [Group.past]
@[simp] theorem Group.past_delivered (g : Group) (h : Hdr) (long : Bool) : (g.past h long).delivered = g.delivered := by simp [Group.past]
@[simp] theorem Group.past_wakes (g : Group) (h : Hdr) (long : Bool) : (g.past h long).wakes = g.wakes := by simp [Group.past]
@[simp] theorem Group.past_tile (g : Group) (h : Hdr) (long : Bool) : (g.past h long).tile = g.tile := by simp [Group.past]
@[simp] theorem Group.past_lacks (g : Group) (h : Hdr) (long : Bool) : (g.past h long).lacks = g.lacks := by simp [Group.past]
@[simp] theorem Group.past_sent (g : Group) (h : Hdr) (long : Bool) : (g.past h long).sent = g.sent := by simp [Group.past]
@[simp] theorem Group.past_seed (g : Group) (h : Hdr) (long : Bool) : (g.past h long).seed = g.seed := by simp [Group.past]
@[simp] theorem Group.past_reached (g : Group) (h : Hdr) (long : Bool) : (g.past h long).reached = g.reached := by simp [Group.past]
@[simp] theorem Group.past_told (g : Group) (h : Hdr) (long : Bool) : (g.past h long).told = [] := by simp [Group.past]
@[simp] theorem Group.past_notes (g : Group) (h : Hdr) (long : Bool) : (g.past h long).notes = g.notes := by simp [Group.past]
@[simp] theorem Group.past_own (g : Group) (h : Hdr) (long : Bool) : (g.past h long).own = g.own := by simp [Group.past]
@[simp] theorem Group.past_clock (g : Group) (h : Hdr) (long : Bool) : (g.past h long).clock = g.clock + 1 + h.stall.toNat := by
  simp [Group.past]
@[simp] theorem Group.past_status (g : Group) (h : Hdr) (long : Bool) :
    (g.past h long).status = if g.status = .resumed then .ready else g.status := by
  simp [Group.past]
@[simp] theorem Group.past_cl (g : Group) (h : Hdr) (long : Bool) : (g.past h long).cl = g.cl.advance long := by
  have t (x : Group) : Group.cl { x.tickIssue h with told := [] } = x.cl := rfl
  rw [Group.past, t, Group.modCl_cl]
@[simp] theorem Group.past_depth (g : Group) (h : Hdr) (long : Bool) : (g.past h long).depth = g.depth := by
  have t (x : Group) : Group.depth { x.tickIssue h with told := [] } = x.depth := rfl
  rw [Group.past, t, Group.modCl_depth]

end Sys2Proof.Machine
end

