-- ==== Sys2Proof/Laws/Memory.lean ====
section
/-! SUPPORT. The laws of memory: what a run of bytes reads as after a write, numbers as bytes, and that every operation over
memory keeps it, and the full/empty states, in their one canonical form (log 4). -/
namespace Sys2Proof.Machine

/-! ### Runs of keys -/

theorem sget_append {α : Type} (d : α) (a b : SMap α) (k : Nat) :
    sget d (a ++ b) k = if ∃ e ∈ a, e.1 = k then sget d a k else sget d b k := by
  induction a with
  | nil => simp
  | cons e t ih =>
    obtain ⟨k', x⟩ := e
    by_cases h : k' = k
    · simp [sget, h]
    · have : (∃ e ∈ (k', x) :: t, e.1 = k) ↔ ∃ e ∈ t, e.1 = k := by
        constructor
        · rintro ⟨e, he, rfl⟩
          rcases List.mem_cons.1 he with rfl | he
          · exact absurd rfl h
          · exact ⟨e, he, rfl⟩
        · rintro ⟨e, he, rfl⟩
          exact ⟨e, by simp [he], rfl⟩
      simp only [List.cons_append, sget, h, if_false, ih, this]

theorem sget_filter {α : Type} (d : α) (m : SMap α) (p : Nat → Bool) (k : Nat) :
    sget d (m.filter fun e => p e.1) k = if p k then sget d m k else d := by
  induction m with
  | nil => simp [sget]
  | cons e t ih =>
    obtain ⟨k', x⟩ := e
    by_cases hp : p k' = true
    · simp only [List.filter_cons, hp, if_true, sget]
      by_cases h : k' = k
      · subst h; simp [hp]
      · simp only [h, if_false, ih]
    · simp only [List.filter_cons, hp, if_false, ih, sget, Bool.false_eq_true]
      by_cases h : k' = k
      · subst h; simp [hp]
      · simp [h]

/-- The pairs of a run whose values are no default. -/
def runOf {α : Type} [DecidableEq α] (d : α) (xs : List α) (lo : Nat) : SMap α :=
  (xs.zipIdx lo).filterMap fun e => if e.1 = d then none else some (e.2, e.1)

theorem runOf_cons {α : Type} [DecidableEq α] (d x : α) (xs : List α) (lo : Nat) :
    runOf d (x :: xs) lo = (if x = d then [] else [(lo, x)]) ++ runOf d xs (lo + 1) := by
  unfold runOf
  rw [List.zipIdx_cons, List.filterMap_cons]
  split
  next h => split at h <;> simp_all
  next h => split at h <;> simp_all

theorem key_runOf {α : Type} [DecidableEq α] {d : α} {xs : List α} {lo : Nat} {e : Nat × α} (h : e ∈ runOf d xs lo) :
    lo ≤ e.1 ∧ e.1 < lo + xs.length ∧ e.2 ≠ d := by
  induction xs generalizing lo with
  | nil => simp [runOf] at h
  | cons x xs ih =>
    rw [runOf_cons] at h
    rcases List.mem_append.1 h with h | h
    · split at h
      · cases h
      · simp only [List.mem_singleton] at h
        subst h
        exact ⟨Nat.le_refl _, by simp, by assumption⟩
    · obtain ⟨h1, h2, h3⟩ := ih h
      exact ⟨by omega, by simp only [List.length_cons]; omega, h3⟩

theorem sget_runOf {α : Type} [DecidableEq α] (d : α) (xs : List α) (lo k : Nat) :
    sget d (runOf d xs lo) k = if lo ≤ k then xs.getD (k - lo) d else d := by
  induction xs generalizing lo with
  | nil => simp [runOf, sget]
  | cons x xs ih =>
    rw [runOf_cons, sget_append, ih]
    by_cases hk : k = lo
    · subst hk
      by_cases hx : x = d
      · rw [if_pos hx, if_neg (by simp)]
        rw [if_neg (by omega), if_pos (Nat.le_refl _), Nat.sub_self]
        simp [hx]
      · simp [hx, sget]
    · have h0 : ¬ ∃ e ∈ (if x = d then [] else [(lo, x)] : SMap α), e.1 = k := by
        rintro ⟨e, he, rfl⟩
        split at he
        · cases he
        · simp only [List.mem_singleton] at he
          exact hk (by rw [he])
      rw [if_neg h0]
      by_cases hl : lo ≤ k
      · have e : k - lo = (k - (lo + 1)) + 1 := by omega
        rw [if_pos hl, if_pos (by omega), e, List.getD_cons_succ]
      · rw [if_neg hl, if_neg (by omega)]

/-- What a run of keys reads as after it is filled; every other key reads as before. -/
theorem sget_sfill {α : Type} [DecidableEq α] (d : α) (m : SMap α) (lo : Nat) (xs : List α) (k : Nat) :
    sget d (sfill d m lo xs) k = if lo ≤ k ∧ k < lo + xs.length then xs.getD (k - lo) d else sget d m k := by
  have e : sfill d m lo xs = (m.filter fun e => (fun k => decide (k < lo)) e.1) ++ (runOf d xs lo
      ++ m.filter fun e => (fun k => decide (lo + xs.length ≤ k)) e.1) := by
    simp [sfill, runOf]
  rw [e, sget_append, sget_append, sget_filter d m (fun k => decide (k < lo)), sget_filter d m (fun k => decide (lo + xs.length ≤ k)), sget_runOf]
  by_cases h1 : k < lo
  · rw [if_neg (c := lo ≤ k ∧ k < lo + xs.length) (by omega)]
    split
    · simp [h1]
    next h =>
      rw [if_neg (by rintro ⟨e, he, rfl⟩; have := (key_runOf he).1; omega)]
      simp only [decide_eq_true_eq]
      rw [if_neg (by omega)]
      symm
      refine sget_no_key d m k fun e he hk => h ⟨e, ?_, hk⟩
      exact List.mem_filter.2 ⟨he, by simpa [hk] using h1⟩
  · rw [if_neg (by
      rintro ⟨e, he, rfl⟩
      have := (List.mem_filter.1 he).2
      simp only [decide_eq_true_eq] at this
      exact h1 this)]
    by_cases h2 : k < lo + xs.length
    · rw [if_pos (c := lo ≤ k ∧ k < lo + xs.length) ⟨by omega, h2⟩, if_pos (c := lo ≤ k) (by omega)]
      split
      · rfl
      next h =>
        simp only [decide_eq_true_eq]
        rw [if_neg (by omega)]
        have h3 : sget d (runOf d xs lo) k = d := sget_no_key d _ k fun e he hk => h ⟨e, he, hk⟩
        rw [sget_runOf, if_pos (by omega)] at h3
        exact h3.symm
    · rw [if_neg (c := lo ≤ k ∧ k < lo + xs.length) (by omega), if_neg (by rintro ⟨e, he, rfl⟩; have := (key_runOf he).2.1; omega)]
      simp only [decide_eq_true_eq]
      rw [if_pos (by omega)]

theorem srun_eq {α : Type} (d : α) (m : SMap α) (lo n : Nat) : srun d m lo n = (List.range n).map fun i => sget d m (lo + i) := by
  unfold srun
  apply List.map_congr_left
  intro i hi
  rw [List.mem_range] at hi
  have e : (m.filter fun e => decide (lo ≤ e.1) && decide (e.1 < lo + n)) = m.filter fun e => (fun k => decide (lo ≤ k) && decide (k < lo + n)) e.1 := rfl
  rw [e, sget_filter d m (fun k => decide (lo ≤ k) && decide (k < lo + n))]
  simp [hi]

/-! ### The canonical form -/

theorem swf_iff {α : Type} [DecidableEq α] {d : α} {m : SMap α} : swf d m = true ↔ (∀ e ∈ m, e.2 ≠ d) ∧ m.Pairwise fun a b => a.1 < b.1 := by
  induction m with
  | nil => simp [swf]
  | cons e t ih =>
    obtain ⟨k, x⟩ := e
    rw [swf_cons, ih, List.pairwise_cons]
    constructor
    · rintro ⟨h1, h2, h3, h4⟩
      exact ⟨by simpa [h1] using h3, h2, h4⟩
    · rintro ⟨h1, h2, h3⟩
      exact ⟨h1 (k, x) (by simp), h2, fun e he => h1 e (by simp [he]), h3⟩

theorem swf_filter {α : Type} [DecidableEq α] {d : α} {m : SMap α} (h : swf d m = true) (p : Nat × α → Bool) : swf d (m.filter p) = true := by
  rw [swf_iff] at h ⊢
  exact ⟨fun e he => h.1 e (List.mem_filter.1 he).1, h.2.filter p⟩

theorem swf_runOf {α : Type} [DecidableEq α] (d : α) (xs : List α) (lo : Nat) : swf d (runOf d xs lo) = true := by
  induction xs generalizing lo with
  | nil => rfl
  | cons x xs ih =>
    rw [runOf_cons]
    split
    · exact ih _
    next h => exact swf_cons.2 ⟨h, fun e he => by have := (key_runOf he).1; omega, ih _⟩

/-- Filling a run of keys keeps the canonical form. -/
theorem swf_sfill {α : Type} [DecidableEq α] {d : α} {m : SMap α} (h : swf d m = true) (lo : Nat) (xs : List α) :
    swf d (sfill d m lo xs) = true := by
  have e : sfill d m lo xs = (m.filter fun e => decide (e.1 < lo)) ++ runOf d xs lo ++ m.filter fun e => decide (lo + xs.length ≤ e.1) := rfl
  have h1 := swf_iff.1 (swf_filter h fun e => decide (e.1 < lo))
  have h2 := swf_iff.1 (swf_runOf d xs lo)
  have h3 := swf_iff.1 (swf_filter h fun e => decide (lo + xs.length ≤ e.1))
  rw [e, swf_iff]
  refine ⟨fun e he => ?_, List.pairwise_append.2 ⟨List.pairwise_append.2 ⟨h1.2, h2.2, fun a ha b hb => ?_⟩, h3.2, fun a ha b hb => ?_⟩⟩
  · rcases List.mem_append.1 he with he | he
    · rcases List.mem_append.1 he with he | he
      · exact h1.1 e he
      · exact h2.1 e he
    · exact h3.1 e he
  · have := (List.mem_filter.1 ha).2
    have := (key_runOf hb).1
    simp_all
    omega
  · have hb := (List.mem_filter.1 hb).2
    simp only [decide_eq_true_eq] at hb
    rcases List.mem_append.1 ha with ha | ha
    · have := (List.mem_filter.1 ha).2
      simp only [decide_eq_true_eq] at this
      omega
    · have := (key_runOf ha).2.1
      omega

/-! ### Numbers as bytes (R14) -/

@[simp] theorem toBytes_length (n x : Nat) : (toBytes n x).length = n := by simp [toBytes]

theorem toBytes_succ (n x : Nat) : toBytes (n + 1) x = BitVec.ofNat 8 x :: toBytes n (x / 256) := by
  unfold toBytes
  rw [List.range_succ_eq_map, List.map_cons, List.map_map]
  simp only [Nat.pow_zero, Nat.div_one, List.cons.injEq, true_and]
  apply List.map_congr_left
  intro i _
  simp only [Function.comp, Nat.div_div_eq_div_mul, Nat.pow_succ, Nat.mul_comm]

theorem ofBytes_toBytes (n x : Nat) : ofBytes (toBytes n x) = x % 256 ^ n := by
  induction n generalizing x with
  | zero => simp [toBytes, ofBytes, Nat.mod_one]
  | succ n ih =>
    have h : x % 256 ^ (n + 1) = x % 256 + 256 * (x / 256 % 256 ^ n) := by rw [Nat.pow_succ, Nat.mul_comm (256 ^ n) 256, Nat.mod_mul]
    rw [toBytes_succ, ofBytes, ih, BitVec.toNat_ofNat, h]

/-! ### Memory -/

/-- Reading after a write. -/
theorem get_wrBytes (s : State) (pa : Nat) (bs : List Byte) (a : Nat) :
    sget 0#8 (wrBytes s pa bs).mem a = if pa ≤ a ∧ a < pa + bs.length then bs.getD (a - pa) 0 else sget 0#8 s.mem a := sget_sfill ..

theorem rdBytes_eq (s : State) (pa n : Nat) : rdBytes s pa n = (List.range n).map fun i => sget 0#8 s.mem (pa + i) := srun_eq ..

@[simp] theorem rdBytes_length (s : State) (pa n : Nat) : (rdBytes s pa n).length = n := by simp [rdBytes_eq]

/-- A read that no written byte meets. -/
theorem rdBytes_wrBytes_apart (s : State) (pa qa n : Nat) (bs : List Byte) (h : qa + n ≤ pa ∨ pa + bs.length ≤ qa) :
    rdBytes (wrBytes s pa bs) qa n = rdBytes s qa n := by
  rw [rdBytes_eq, rdBytes_eq]
  apply List.map_congr_left
  intro i hi
  rw [List.mem_range] at hi
  rw [get_wrBytes, if_neg (by omega)]

theorem feOf_setFe (s : State) (k j : Nat) (x : BitVec 2) : feOf (setFe s k x) j = if j = k then x else feOf s j := by
  unfold feOf setFe
  rw [sget_sset]

/-! ### Every operation over memory keeps the canonical form -/

/-- An operation that leaves memory and the full/empty states as they are. -/
theorem inv_of_same {s t : State} (hm : t.mem = s.mem) (hf : t.fe = s.fe) (h : s.Inv) : t.Inv := by
  unfold State.Inv
  rw [hm, hf]
  exact h

theorem inv_mem {s : State} (h : s.Inv) {m : Memory} (hm : Memory.wf m = true) : ({ s with mem := m } : State).Inv := ⟨hm, h.2⟩
theorem inv_setFe {s : State} (h : s.Inv) (k : Nat) (x : BitVec 2) : (setFe s k x).Inv := ⟨h.1, swf_sset h.2 k x⟩
theorem inv_store {s : State} (h : s.Inv) (pa : Nat) (bs : List Byte) : (wrBytes s pa bs).Inv := ⟨swf_sfill h.1 pa bs, h.2⟩
theorem inv_wr {s : State} (h : s.Inv) (pa n x : Nat) : (wr s pa n x).Inv := inv_store h pa _
theorem inv_ssetAll {s : State} (h : s.Inv) (l : List (Nat × Byte)) : ({ s with mem := ssetAll 0#8 s.mem l } : State).Inv := inv_mem h (swf_ssetAll h.1 l)
theorem inv_modBlk {s : State} (h : s.Inv) (b : Nat) (f : Block → Block) : (s.modBlk b f).Inv := h
theorem inv_modGrp {s : State} (h : s.Inv) (r : GRef) (f : Group → Group) : (s.modGrp r f).Inv := h
theorem inv_modLaunch {s : State} (h : s.Inv) (n : Nat) (f : Launch → Launch) : (s.modLaunch n f).Inv := h
theorem inv_modQueue {s : State} (h : s.Inv) (q : Nat) (f : Queue → Queue) : (s.modQueue q f).Inv := h

/-- A fold whose every step keeps it keeps it. -/
theorem inv_foldl {β : Type} {f : State → β → State} (hf : ∀ s x, s.Inv → (f s x).Inv) (l : List β) {s : State} (h : s.Inv) : (l.foldl f s).Inv := by
  induction l generalizing s with
  | nil => exact h
  | cons x t ih => exact ih (hf s x h)

theorem inv_setPte {s : State} (h : s.Inv) (slot : Option Nat) (mask : Nat) : (setPte s slot mask).Inv := by
  unfold setPte
  split
  · dsimp only
    split
    · exact inv_wr h ..
    · exact h
  · exact h

theorem inv_mapFresh {s : State} (h : s.Inv) (slot pte : Nat) : (mapFresh s slot pte).Inv := by
  unfold mapFresh
  split
  · exact h
  · dsimp only
    split
    · exact inv_of_same (s := s) rfl rfl h
    · exact ⟨h.1, swf_filter h.2 _⟩

theorem inv_tlbInsert {s : State} (h : s.Inv) (e : TlbEntry) : (tlbInsert s e).Inv := by
  unfold tlbInsert
  split
  · exact h
  · dsimp only
    split
    · exact inv_of_same (s := s) rfl rfl h
    · exact inv_of_same (s := s) rfl rfl h

theorem inv_refill {s : State} (h : s.Inv) (at_ : List Tlb) (c : Nat) (fabric : Bool) (va : Nat) (x : WalkRes) (far : Bool) :
    (refill s at_ c fabric va x far).1.Inv := by
  unfold refill
  split
  · refine inv_foldl (fun _ _ h => inv_tlbInsert h _) _ (inv_setPte ?_ _ _)
    split
    · exact h
    · exact inv_mapFresh h ..
  · exact h
  · exact h

/-- A translation changes memory only by the entry's AC bit, and full/empty states only to those of a fresh mapping: it
keeps the form (R148, R307). -/
theorem inv_xlat {s : State} (h : s.Inv) (at_ : List Tlb) (c : Nat) (fabric : Bool) (va : Nat) (far : Bool) :
    (xlat s at_ c fabric va far).1.Inv := by
  unfold xlat
  dsimp only
  split
  · exact inv_refill h ..
  · split
    · exact h
    · exact inv_refill h ..

theorem inv_bucketAdd {s : State} (h : s.Inv) (c va num : Nat) : (bucketAdd s c va num).Inv := by
  unfold bucketAdd
  exact inv_wr (inv_wr h ..) ..

theorem inv_bucketDel {s : State} (h : s.Inv) (c va num : Nat) : (bucketDel s c va num).Inv := by
  unfold bucketDel
  dsimp only
  split
  · exact h
  · exact inv_store (inv_wr h ..) ..

theorem inv_park {s : State} (h : s.Inv) (w : Who) (word va : Nat) : (park s w word va).Inv := by
  unfold park
  exact inv_setFe (inv_of_same (s := bucketAdd s w.c va w.res) rfl rfl (inv_bucketAdd h ..)) ..

theorem inv_unparkAll {s : State} (h : s.Inv) (w : Who) : (unparkAll s w).Inv := by
  unfold unparkAll
  refine inv_foldl (fun s e h => ?_) _ h
  exact inv_of_same (s := bucketDel s w.c e.2 w.res) rfl rfl (inv_bucketDel h ..)

theorem inv_wakeWord {s : State} (h : s.Inv) (word : Nat) : (wakeWord s word).Inv := by
  unfold wakeWord
  refine inv_foldl (fun s e h => ?_) _ (inv_of_same (s := s) rfl rfl h)
  dsimp only
  refine inv_modGrp ?_ _ _
  split
  · exact inv_bucketDel h ..
  · exact h

theorem inv_setFull {s : State} (h : s.Inv) (slot : Option Nat) (word : Nat) (full : Bool) : (setFull s slot word full).Inv := by
  unfold setFull
  dsimp only
  split
  · exact h
  · have h1 : (if full then setFe s word (if full then 1#2 else 0#2) else setPte (setFe s word (if full then 1#2 else 0#2)) slot (2 ^ 63)).Inv := by
      split
      · exact inv_setFe h ..
      · exact inv_setPte (inv_setFe h ..) ..
    split
    · exact inv_wakeWord h1 _
    · exact h1

theorem inv_modLeaf {s : State} (h : s.Inv) (n : Nat) (f : LeafLink → LeafLink) : (s.modLeaf n f).Inv :=
  inv_of_same (by dsimp only [State.modLeaf]) (by dsimp only [State.modLeaf]) h

theorem inv_leafFault {s : State} (h : s.Inv) (core : Nat) : (leafFault s core).Inv := by
  unfold leafFault
  split
  · exact h
  · exact inv_modLeaf h ..

theorem inv_faultRecord {s t : State} (h : s.Inv) {c : Nat} {va : W64} {agent num core : Nat} {write : Bool}
    (e : faultRecord s c va agent write num core = .ok t) : t.Inv := by
  unfold faultRecord at e
  dsimp only at e
  split at e
  · cases e
  · split at e
    · cases e
    · cases e
      exact inv_leafFault (inv_wr (inv_store h ..) ..) _

theorem inv_lookup {s : State} (h : s.Inv) (c core type : Nat) (va : W64) : (lookup s c core type va).Inv := by
  unfold lookup
  dsimp only
  split
  · exact h
  · split
    · exact inv_wr h ..
    · exact inv_wr (inv_store h ..) ..

end Sys2Proof.Machine
end

