-- ==== Sys2Proof/Laws/Inv.lean ====
section
/-! SUPPORT. Every shared operation keeps the canonical form of memory and of the full/empty states (log 4): one
lemma inv_<operation> for each, in the order in which they call each other, so that a proof about a step that keeps the
form cites them and unfolds none. -/

namespace Sys2Proof.Machine

/-- The form holds in the state an instruction answers. -/
def outcomeInv : Outcome → Prop
  | .next s => s.Inv
  | .fault _ => True
  | .refused _ => True

/-! The form of the state that a result carries, for every kind of result a shared operation answers, with one lemma
to make it and one to use it per constructor. -/

def EqFate.Inv : EqFate → Prop
  | .go s => s.Inv
  | .wait => True
  | .trap s _ _ _ => s.Inv
  | .full s => s.Inv

def Layout.Inv : Layout → Prop
  | .go s _ => s.Inv
  | .ask s => s.Inv
  | .snag s _ => s.Inv

def Spill.Inv : Spill → Prop
  | .ok s _ => s.Inv
  | .fail s _ => s.Inv
  | .beyond s => s.Inv

def Waits.Inv : Waits → Prop
  | .recorded s => s.Inv
  | .noRoom => True
  | .stopped s => s.Inv

def PktRes.Inv : PktRes → Prop
  | .done s _ => s.Inv
  | .stop s _ => s.Inv
  | .wait s _ _ _ => s.Inv

def PktRead.Inv : PktRead → Prop
  | .ok s _ => s.Inv
  | .ask s _ => s.Inv
  | .fail s _ => s.Inv

def Fetched.Inv : Fetched → Prop
  | .asked s => s.Inv
  | .bad _ => True
  | .here => True

def FQ.Inv : FQ → Prop
  | .ok s => s.Inv
  | .full => True
  | .bad _ _ => True

def Eng.Inv {α : Type} : Eng α → Prop
  | .go s _ => s.Inv
  | .stop s _ _ _ => s.Inv
  | .rest s => s.Inv

def Act.Inv : Act → Prop
  | .done s => s.Inv
  | .fixed s _ _ _ => s.Inv
  | .later s _ _ => s.Inv
  | .trap s _ _ _ => s.Inv
  | .again s => s.Inv
  | .at s => s.Inv

def Next.Inv : Next → Prop
  | .run _ s => s.Inv
  | .moved s => s.Inv

theorem EqFate.mk_go {s} (h : State.Inv s) : EqFate.Inv (EqFate.go s) := h
theorem EqFate.mk_wait : EqFate.Inv (EqFate.wait) := True.intro
theorem EqFate.mk_trap {s y1 y2 y3} (h : State.Inv s) : EqFate.Inv (EqFate.trap s y1 y2 y3) := h
theorem EqFate.mk_full {s} (h : State.Inv s) : EqFate.Inv (EqFate.full s) := h
theorem Layout.mk_go {s y1} (h : State.Inv s) : Layout.Inv (Layout.go s y1) := h
theorem Layout.mk_ask {s} (h : State.Inv s) : Layout.Inv (Layout.ask s) := h
theorem Layout.mk_snag {s y1} (h : State.Inv s) : Layout.Inv (Layout.snag s y1) := h
theorem Spill.mk_ok {s y1} (h : State.Inv s) : Spill.Inv (Spill.ok s y1) := h
theorem Spill.mk_fail {s y1} (h : State.Inv s) : Spill.Inv (Spill.fail s y1) := h
theorem Spill.mk_beyond {s} (h : State.Inv s) : Spill.Inv (Spill.beyond s) := h
theorem Waits.mk_recorded {s} (h : State.Inv s) : Waits.Inv (Waits.recorded s) := h
theorem Waits.mk_noRoom : Waits.Inv (Waits.noRoom) := True.intro
theorem Waits.mk_stopped {s} (h : State.Inv s) : Waits.Inv (Waits.stopped s) := h
theorem PktRes.mk_done {s y1} (h : State.Inv s) : PktRes.Inv (PktRes.done s y1) := h
theorem PktRes.mk_stop {s y1} (h : State.Inv s) : PktRes.Inv (PktRes.stop s y1) := h
theorem PktRes.mk_wait {s y1 y2 y3} (h : State.Inv s) : PktRes.Inv (PktRes.wait s y1 y2 y3) := h
theorem PktRead.mk_ok {s y1} (h : State.Inv s) : PktRead.Inv (PktRead.ok s y1) := h
theorem PktRead.mk_ask {s y1} (h : State.Inv s) : PktRead.Inv (PktRead.ask s y1) := h
theorem PktRead.mk_fail {s y1} (h : State.Inv s) : PktRead.Inv (PktRead.fail s y1) := h
theorem Fetched.mk_asked {s} (h : State.Inv s) : Fetched.Inv (Fetched.asked s) := h
theorem Fetched.mk_bad {y0} : Fetched.Inv (Fetched.bad y0) := True.intro
theorem Fetched.mk_here : Fetched.Inv (Fetched.here) := True.intro
theorem FQ.mk_ok {s} (h : State.Inv s) : FQ.Inv (FQ.ok s) := h
theorem FQ.mk_full : FQ.Inv (FQ.full) := True.intro
theorem FQ.mk_bad {y0} {y1} : FQ.Inv (FQ.bad y0 y1) := True.intro
theorem Eng.mk_go {α : Type} {s} {y1 : α} (h : State.Inv s) : Eng.Inv (Eng.go s y1 : Eng α) := h
theorem Eng.mk_stop {α : Type} {s y1 y2 y3} (h : State.Inv s) : Eng.Inv (Eng.stop s y1 y2 y3 : Eng α) := h
theorem Eng.mk_rest {α : Type} {s} (h : State.Inv s) : Eng.Inv (Eng.rest s : Eng α) := h
theorem Act.mk_done {s} (h : State.Inv s) : Act.Inv (Act.done s) := h
theorem Act.mk_fixed {s y1 y2 y3} (h : State.Inv s) : Act.Inv (Act.fixed s y1 y2 y3) := h
theorem Act.mk_later {s y1 y2} (h : State.Inv s) : Act.Inv (Act.later s y1 y2) := h
theorem Act.mk_trap {s y1 y2 y3} (h : State.Inv s) : Act.Inv (Act.trap s y1 y2 y3) := h
theorem Act.mk_again {s} (h : State.Inv s) : Act.Inv (Act.again s) := h
theorem Act.mk_at {s} (h : State.Inv s) : Act.Inv (Act.at s) := h
theorem Next.mk_run {y0} {s} (h : State.Inv s) : Next.Inv (Next.run y0 s) := h
theorem Next.mk_moved {s} (h : State.Inv s) : Next.Inv (Next.moved s) := h
theorem outcome_next {s : State} (h : s.Inv) : outcomeInv (.next s) := h
theorem outcome_fault {x : Fault} : outcomeInv (.fault x) := True.intro
theorem outcome_refused {x : Refusal} : outcomeInv (.refused x) := True.intro
theorem EqFate.inv_go {x : EqFate} {s} (e : x = .go s) (h : x.Inv) : s.Inv := by rw [e] at h; exact h
theorem EqFate.inv_trap {x : EqFate} {s a b c} (e : x = .trap s a b c) (h : x.Inv) : s.Inv := by rw [e] at h; exact h
theorem EqFate.inv_full {x : EqFate} {s} (e : x = .full s) (h : x.Inv) : s.Inv := by rw [e] at h; exact h
theorem Layout.inv_go {x : Layout} {s a} (e : x = .go s a) (h : x.Inv) : s.Inv := by rw [e] at h; exact h
theorem Layout.inv_ask {x : Layout} {s} (e : x = .ask s) (h : x.Inv) : s.Inv := by rw [e] at h; exact h
theorem Layout.inv_snag {x : Layout} {s a} (e : x = .snag s a) (h : x.Inv) : s.Inv := by rw [e] at h; exact h
theorem Spill.inv_ok {x : Spill} {s a} (e : x = .ok s a) (h : x.Inv) : s.Inv := by rw [e] at h; exact h
theorem Spill.inv_fail {x : Spill} {s a} (e : x = .fail s a) (h : x.Inv) : s.Inv := by rw [e] at h; exact h
theorem Spill.inv_beyond {x : Spill} {s} (e : x = .beyond s) (h : x.Inv) : s.Inv := by rw [e] at h; exact h
theorem Waits.inv_recorded {x : Waits} {s} (e : x = .recorded s) (h : x.Inv) : s.Inv := by rw [e] at h; exact h
theorem Waits.inv_stopped {x : Waits} {s} (e : x = .stopped s) (h : x.Inv) : s.Inv := by rw [e] at h; exact h
theorem PktRes.inv_done {x : PktRes} {s a} (e : x = .done s a) (h : x.Inv) : s.Inv := by rw [e] at h; exact h
theorem PktRes.inv_stop {x : PktRes} {s a} (e : x = .stop s a) (h : x.Inv) : s.Inv := by rw [e] at h; exact h
theorem PktRes.inv_wait {x : PktRes} {s a b c} (e : x = .wait s a b c) (h : x.Inv) : s.Inv := by rw [e] at h; exact h
theorem PktRead.inv_ok {x : PktRead} {s a} (e : x = .ok s a) (h : x.Inv) : s.Inv := by rw [e] at h; exact h
theorem PktRead.inv_ask {x : PktRead} {s a} (e : x = .ask s a) (h : x.Inv) : s.Inv := by rw [e] at h; exact h
theorem PktRead.inv_fail {x : PktRead} {s a} (e : x = .fail s a) (h : x.Inv) : s.Inv := by rw [e] at h; exact h
theorem Fetched.inv_asked {x : Fetched} {s} (e : x = .asked s) (h : x.Inv) : s.Inv := by rw [e] at h; exact h
theorem FQ.inv_ok {x : FQ} {s} (e : x = .ok s) (h : x.Inv) : s.Inv := by rw [e] at h; exact h
theorem Eng.inv_go {α : Type} {x : Eng α} {s a} (e : x = .go s a) (h : x.Inv) : s.Inv := by rw [e] at h; exact h
theorem Eng.inv_stop {α : Type} {x : Eng α} {s a b c} (e : x = .stop s a b c) (h : x.Inv) : s.Inv := by rw [e] at h; exact h
theorem Eng.inv_rest {α : Type} {x : Eng α} {s} (e : x = .rest s) (h : x.Inv) : s.Inv := by rw [e] at h; exact h

/-! ### Reading it off a result, and through a choice or a fold -/

theorem pair_inv {β : Type} {t : State} {b : β} {p : State × β} (e : p = (t, b)) (h : p.1.Inv) : t.Inv := by
  rw [e] at h
  exact h
theorem inv_ite {c : Prop} [Decidable c] {a b : State} (ha : a.Inv) (hb : b.Inv) : (if c then a else b).Inv := by
  split <;> assumption
theorem inv_pite {c : Prop} [Decidable c] {β : Type} {a b : State × β} (ha : a.1.Inv) (hb : b.1.Inv) : (if c then a else
    b).1.Inv := by
  split <;> assumption
theorem if_keeps {α : Type} {P : α → Prop} {c : Prop} [Decidable c] {a b : α} (ha : P a) (hb : P b) : P (if c then a else
    b) := by
  split <;> assumption
theorem inv_intro {s : State} (h : s.Inv) : Memory.wf s.mem = true ∧ swf 1#2 s.fe = true := h
/-- An update of fields other than memory and the full/empty states. -/
theorem inv_mk {f_agenda f_cur f_steps f_fresh f_mem f_fe f_poison f_scrubbed f_tlb f_leaves f_farPages f_icache f_arbiter
    f_lookups f_tick f_boot f_fst f_frozen f_power f_lowered f_gated f_retiredCores f_retiredMesh f_launches f_blocks
    f_growQ f_granTags f_parked f_ctxs f_queues f_served f_holder f_leafLinks f_operands f_invalStatus f_cmdStatus
    f_cmdQueue f_mailStatus f_msix f_replies f_barReads f_hostLink f_measure f_breaks f_steps1 f_focus f_trig f_window
    f_samples f_dropped f_debugPort f_harvest f_harvestArea f_harvestTick f_harvestEnd f_device f_devices f_links f_outbox
    f_answers f_flows f_inFlows f_early f_chunks f_lateChunks f_sets} : State.Inv (State.mk f_agenda f_cur f_steps f_fresh
    f_mem f_fe f_poison f_scrubbed f_tlb f_leaves f_farPages f_icache f_arbiter f_lookups f_tick f_boot f_fst f_frozen
    f_power f_lowered f_gated f_retiredCores f_retiredMesh f_launches f_blocks f_growQ f_granTags f_parked f_ctxs f_queues
    f_served f_holder f_leafLinks f_operands f_invalStatus f_cmdStatus f_cmdQueue f_mailStatus f_msix f_replies f_barReads
    f_hostLink f_measure f_breaks f_steps1 f_focus f_trig f_window f_samples f_dropped f_debugPort f_harvest f_harvestArea
    f_harvestTick f_harvestEnd f_device f_devices f_links f_outbox f_answers f_flows f_inFlows f_early f_chunks
    f_lateChunks f_sets) ↔ Memory.wf f_mem = true ∧ swf 1#2 f_fe = true := Iff.rfl
theorem inv_foldl_pair {β γ : Type} {f : State × γ → β → State × γ} (hf : ∀ s c x, State.Inv s → (f (s, c) x).1.Inv) (l :
    List β) {p : State × γ} (h : p.1.Inv) : (l.foldl f p).1.Inv := by
  induction l generalizing p with
  | nil => exact h
  | cons x l ih => exact ih (hf p.1 p.2 _ h)
/-- What every step of a fold keeps holds of its result. -/
theorem foldl_keeps {α β : Type} {P : α → Prop} {f : α → β → α} (hf : ∀ a b, P a → P (f a b)) (l : List β) {a : α} (h : P
    a) : P (l.foldl f a) := by
  induction l generalizing a with
  | nil => exact h
  | cons x l ih => exact ih (hf a x h)

/-! ### Sys2Proof.Machine.Memory -/

theorem inv_setCtx {s : State} (h : s.Inv) (c : Nat) (x : Ctx) : (State.setCtx s c x).Inv := by
  unfold State.setCtx
  repeat' first | (with_reducible assumption) | (simp only [inv_mk]; with_reducible refine inv_intro ?_)

/-! ### Sys2Proof.Machine.Ops -/

theorem inv_dropGrans {s : State} (h : s.Inv) (core : Nat) (part : Nat) (gs : List (Nat × BitVec 4)) : (State.dropGrans s
    core part gs).Inv := by
  unfold State.dropGrans
  repeat' first | (with_reducible assumption) | (simp only [inv_mk]; with_reducible refine inv_intro ?_)

theorem inv_releaseGrans {s : State} (h : s.Inv) (r : GRef) : (releaseGrans s r).Inv := by
  unfold releaseGrans
  repeat' first
    | (with_reducible assumption)
    | (with_reducible refine inv_modGrp ?_ ..)
    | (with_reducible refine inv_dropGrans ?_ ..)
    | (split)

theorem inv_tvalsOf {s : State} (h : s.Inv) (tv : List W64) : (tvalsOf s tv).1.Inv := by
  unfold tvalsOf
  repeat' first | (with_reducible assumption) | (simp only [inv_mk]; with_reducible refine inv_intro ?_)

theorem inv_grantOne {s : State} (h : s.Inv) (r : GRef) : (grantOne s r).Inv := by
  unfold grantOne
  repeat' first
    | (with_reducible assumption)
    | (with_reducible refine inv_modGrp ?_ ..)
    | (simp only [inv_mk]; with_reducible refine inv_intro ?_)
    | (split)

theorem inv_grantGrans {s : State} (h : s.Inv) (r : GRef) : (grantGrans s r).Inv := by
  unfold grantGrans
  repeat' first
    | (with_reducible assumption)
    | (intro _; try dsimp only)
    | (with_reducible refine inv_grantOne ?_ ..)
    | (with_reducible refine inv_foldl ?_ _ ?_)
    | (split)

theorem inv_xlatCode {s : State} (h : s.Inv) (at_ : List Tlb) (c : Nat) (va : W64) : (xlatCode s at_ c va).1.Inv := by
  unfold xlatCode
  try dsimp only
  repeat' first
    | (with_reducible assumption)
    | (with_reducible refine inv_xlat ?_ ..)
    | (with_reducible refine pair_inv (by with_reducible assumption) ?_)
    | (split)

theorem inv_readCode {s : State} (h : s.Inv) (at_ : List Tlb) (c : Nat) (va : W64) (n : Nat) : (readCode s at_ c va
    n).1.Inv := by
  unfold readCode
  repeat' first
    | (with_reducible assumption)
    | (with_reducible refine inv_xlatCode ?_ ..)
    | (with_reducible refine pair_inv (by with_reducible assumption) ?_)
    | (split)

theorem inv_dropTiles {s : State} (h : s.Inv) (blk : Nat) : (dropTiles s blk).Inv := by
  unfold dropTiles
  repeat' first | (with_reducible assumption) | (with_reducible refine inv_modLaunch ?_ ..) | (split)

theorem inv_breakMonitors {s : State} (h : s.Inv) (li : Nat) (n : Nat) (u : Nat) : (breakMonitors s li n u).Inv := by
  unfold breakMonitors
  repeat' first | (with_reducible assumption) | (simp only [inv_mk]; with_reducible refine inv_intro ?_)

theorem inv_breakBarriers {s : State} (h : s.Inv) (blk : Nat) : (breakBarriers s blk).Inv := by
  unfold breakBarriers
  repeat' first
    | (with_reducible assumption)
    | (intro _; try dsimp only)
    | (with_reducible refine inv_breakMonitors ?_ ..)
    | (with_reducible refine inv_modLaunch ?_ ..)
    | (with_reducible refine inv_foldl ?_ _ ?_)
    | (split)

theorem inv_writeVirtual {s : State} (h : s.Inv) (c : Nat) (va : W64) (bs : List Byte) : (writeVirtual s c va bs).Inv := by
  unfold writeVirtual
  repeat' first
    | (with_reducible assumption)
    | (intro _; try dsimp only)
    | (with_reducible refine inv_xlat ?_ ..)
    | (with_reducible refine inv_setPte ?_ ..)
    | (with_reducible refine inv_store ?_ ..)
    | (with_reducible refine inv_foldl ?_ _ ?_)
    | (with_reducible refine pair_inv (by with_reducible assumption) ?_)
    | (split)

theorem inv_writeCompletion {s : State} (h : s.Inv) (blk : Nat) (status : Nat) : (writeCompletion s blk status).Inv := by
  unfold writeCompletion
  repeat' first
    | (with_reducible assumption)
    | (with_reducible refine inv_modBlk ?_ ..)
    | (with_reducible refine inv_writeVirtual ?_ ..)
    | (split)

theorem inv_recordCause {s : State} (h : s.Inv) (blk : Nat) (cause : BitVec 8) (tv : Vector W64 4) : (recordCause s blk
    cause tv).Inv := by
  unfold recordCause
  try dsimp only
  repeat' first
    | (with_reducible assumption)
    | (with_reducible refine inv_modBlk ?_ ..)
    | (with_reducible refine inv_writeCompletion ?_ ..)
    | (split)

theorem inv_leafTells {s : State} (h : s.Inv) (blk : Nat) : (leafTells s blk).Inv := by
  unfold leafTells
  repeat' first | (with_reducible assumption) | (with_reducible refine inv_modLeaf ?_ ..) | (split)

theorem inv_terminate {s : State} (h : s.Inv) (blk : Nat) (cause : BitVec 8) (tv : Vector W64 4) : (terminate s blk cause
    tv).Inv := by
  unfold terminate
  repeat' first
    | (with_reducible assumption)
    | (intro _; try dsimp only)
    | (with_reducible refine inv_releaseGrans ?_ ..)
    | (with_reducible refine inv_unparkAll ?_ ..)
    | (with_reducible refine inv_dropTiles ?_ ..)
    | (with_reducible refine inv_breakBarriers ?_ ..)
    | (with_reducible refine inv_recordCause ?_ ..)
    | (with_reducible refine inv_leafTells ?_ ..)
    | (with_reducible refine inv_writeCompletion ?_ ..)
    | (with_reducible refine inv_modBlk ?_ ..)
    | (with_reducible refine inv_foldl ?_ _ ?_)
    | (simp only [inv_mk]; with_reducible refine inv_intro ?_)
    | (split)

theorem inv_readRegion {s : State} (h : s.Inv) (at_ : List Tlb) (c : Nat) (base : W64) : (readRegion s at_ c base).1.Inv
    := by
  unfold readRegion
  repeat' first
    | (with_reducible assumption)
    | (with_reducible refine inv_readCode ?_ ..)
    | (with_reducible refine pair_inv (by with_reducible assumption) ?_)
    | (split)

theorem inv_terminateWith {s : State} (h : s.Inv) (blk : Nat) (cause : BitVec 8) (tv : List W64) : (terminateWith s blk
    cause tv).Inv := by
  unfold terminateWith
  repeat' first
    | (with_reducible assumption)
    | (with_reducible refine inv_tvalsOf ?_ ..)
    | (with_reducible refine inv_terminate ?_ ..)

theorem inv_enterHandler {s : State} (h : s.Inv) (r : GRef) (e : Entry) : (enterHandler s r e).Inv := by
  unfold enterHandler
  try dsimp only
  repeat' first
    | (with_reducible assumption)
    | (with_reducible refine inv_terminateWith ?_ ..)
    | (with_reducible refine inv_modGrp ?_ ..)
    | (with_reducible refine inv_readRegion ?_ ..)
    | (with_reducible refine inv_tvalsOf ?_ ..)
    | (with_reducible refine inv_faultRecord ?_ (by assumption))
    | (with_reducible refine pair_inv (by with_reducible assumption) ?_)
    | (split)

/-! ### Sys2Proof.Machine.Issue -/

theorem inv_finish {a : Act} (h : a.Inv) (hd : Hdr) (i : Iss) : (finish hd i a).Inv := by
  unfold finish
  split
  · exact inv_modGrp h ..
  · exact inv_modGrp h ..
  · exact inv_modGrp h ..
  · exact inv_ite (inv_modGrp h ..) (inv_enterHandler h ..)
  · exact h
  · exact inv_modGrp h ..

theorem inv_issue {s : State} {body : Iss → Act} (h : s.Inv) (h1 : ∀ body0, body0.s.Inv → (body body0).Inv) (h : Hdr)
    (long : Bool) (uniform : Bool) (u : Uses) : outcomeInv (issue h long uniform u s body) := by
  unfold issue
  try dsimp only
  repeat' first
    | (with_reducible assumption)
    | (with_reducible refine h1 _ ?_ )
    | (with_reducible refine inv_modGrp ?_ ..)
    | (with_reducible refine inv_finish ?_ ?_ ..)
    | (with_reducible refine Act.mk_done ?_)
    | (with_reducible refine Act.mk_trap ?_)
    | (with_reducible refine outcome_next ?_)
    | (with_reducible exact outcome_fault)
    | (split)

theorem inv_laneOp {s : State} (h : s.Inv) (h : Hdr) (long : Bool) (lat : Nat) (reads : List Reg) (writes : List Reg) (f :
    Iss → List RegWrite × FlagSet) : outcomeInv (laneOp h long lat reads writes s f) := by
  unfold laneOp
  repeat' first
    | (with_reducible assumption)
    | (intro _; try dsimp only)
    | (with_reducible refine inv_issue ?_ ?_ ..)
    | (with_reducible refine Act.mk_fixed ?_)

/-! ### Sys2Proof.Machine.Access -/

theorem inv_deliver {s : State} (h : s.Inv) (r : GRef) (cause : BitVec 8) (tv : List W64) : (deliver s r cause tv).Inv := by
  unfold deliver
  try dsimp only
  repeat' first
    | (with_reducible assumption)
    | (with_reducible refine inv_tvalsOf ?_ ..)
    | (with_reducible refine inv_recordCause ?_ ..)
    | (with_reducible refine inv_modGrp ?_ ..)
    | (split)

theorem inv_countField {s : State} (h : s.Inv) (t : CountTag) (i : Nat) (p : Tally) (v : Option (Int × Bool)) (u : Option
    (Int × Bool)) : (countField s t i p v u).Inv := by
  unfold countField
  try dsimp only
  repeat' first
    | (with_reducible assumption)
    | (with_reducible refine inv_modBlk ?_ ..)
    | (with_reducible refine inv_deliver ?_ ..)
    | (split)

theorem inv_countWrite {s : State} (h : s.Inv) (t : CountTag) (old : List Byte) (new : List Byte) : (countWrite s t old
    new).Inv := by
  unfold countWrite
  repeat' first
    | (with_reducible assumption)
    | (intro _; try dsimp only)
    | (with_reducible refine inv_countField ?_ ..)
    | (with_reducible refine inv_foldl ?_ _ ?_)
    | (split)

theorem inv_applyCommit {s : State} (h : s.Inv) (x1 : CommitOp) : (applyCommit s x1).Inv := by
  unfold applyCommit
  repeat' first
    | (with_reducible assumption)
    | (with_reducible refine inv_countWrite ?_ ..)
    | (with_reducible refine inv_wr ?_ ..)
    | (with_reducible refine inv_setFull ?_ ..)
    | (with_reducible refine inv_store ?_ ..)
    | (split)

theorem inv_applyBuf {s : State} (h : s.Inv) (li : Nat) (pos : Nat) : (applyBuf s li pos).Inv := by
  unfold applyBuf
  try dsimp only
  repeat' first
    | (with_reducible assumption)
    | (intro _; try dsimp only)
    | (with_reducible refine inv_modLaunch ?_ ..)
    | (with_reducible refine inv_applyCommit ?_ ..)
    | (with_reducible refine inv_foldl ?_ _ ?_)
    | (split)

theorem inv_setScr {s : State} (h : s.Inv) (blk : Nat) (off : Nat) (bs : List Byte) : (setScr s blk off bs).Inv := by
  unfold setScr
  repeat' first | (with_reducible assumption) | (with_reducible refine inv_modBlk ?_ ..)

theorem inv_transmit {s : State} (h : s.Inv) : (transmit s).Inv := by
  unfold transmit
  repeat' first | (with_reducible assumption) | (simp only [inv_mk]; with_reducible refine inv_intro ?_)

theorem inv_sendOn {s : State} (h : s.Inv) (dev : Nat) (vc : BitVec 2) (body : OutBody) (wait : Bool) : (sendOn s dev vc
    body wait).1.Inv := by
  unfold sendOn
  repeat' first
    | (with_reducible assumption)
    | (with_reducible refine inv_transmit ?_ ..)
    | (simp only [inv_mk]; with_reducible refine inv_intro ?_)
    | (split)

theorem inv_sendTo {s : State} (h : s.Inv) (dev : Nat) (op : RemoteOp) (wait : Bool) : (sendTo s dev op wait).1.Inv := by
  unfold sendTo
  repeat' first | (with_reducible assumption) | (with_reducible refine inv_sendOn ?_ ..)

theorem inv_locWrite {s : State} (h : s.Inv) (loc : Loc) (bs : List Byte) : (locWrite s loc bs).Inv := by
  unfold locWrite
  repeat' first
    | (with_reducible assumption)
    | (intro _; try dsimp only)
    | (with_reducible refine inv_setPte ?_ ..)
    | (with_reducible refine inv_setScr ?_ ..)
    | (with_reducible refine inv_setFull ?_ ..)
    | (with_reducible refine inv_sendTo ?_ ..)
    | (with_reducible refine inv_store ?_ ..)
    | (with_reducible refine inv_foldl ?_ _ ?_)
    | (split)

theorem inv_tellPages_both {s : State} (h : s.Inv) (w : Who) (agent : Nat) (write : Bool) (told : List Nat) (addrs : List W64) :
    (tellPages s w agent write told addrs).1.Inv ∧ (tellPages s w agent write told addrs).2.2.Inv := by
  unfold tellPages
  refine foldl_keeps (P := fun p : State × List Nat × FQ => p.1.Inv ∧ p.2.2.Inv) (fun p a hp => ?_) _ ⟨h, h⟩
  dsimp only
  split
  · split
    · exact hp
    · split
      · next e => exact ⟨inv_faultRecord hp.1 e, inv_faultRecord hp.1 e⟩
      · next x hx =>
        cases e2 : faultRecord p.1 w.c a agent write w.res w.b.core with
        | ok t => exact absurd e2 (hx t)
        | full => exact ⟨hp.1, True.intro⟩
        | bad _ _ => exact ⟨hp.1, True.intro⟩
  · exact hp
theorem inv_tellPages {s : State} (h : s.Inv) (w : Who) (agent : Nat) (write : Bool) (told : List Nat) (addrs : List W64) :
    (tellPages s w agent write told addrs).1.Inv :=
  (inv_tellPages_both h ..).1

theorem inv_recordBoth_both {s : State} (h : s.Inv) (w : Who) (agent : Nat) (reads writes : List W64) :
    (recordBoth s w agent reads writes).1.Inv ∧ (recordBoth s w agent reads writes).2.Inv := by
  have p := inv_tellPages_both h w agent false w.g.told reads
  unfold recordBoth
  dsimp only
  generalize tellPages s w agent false w.g.told reads = x at p ⊢
  obtain ⟨s1, told, f⟩ := x
  cases f with
  | ok =>
    have q := inv_tellPages_both p.1 w agent true told writes
    dsimp only at q ⊢
    generalize tellPages s1 w agent true told writes = y at q ⊢
    obtain ⟨s2, told2, f2⟩ := y
    cases f2 with
    | ok => exact ⟨inv_modGrp q.1 .., inv_modGrp q.1 ..⟩
    | full => exact ⟨inv_modGrp q.1 .., q.2⟩
    | bad => exact ⟨inv_modGrp q.1 .., q.2⟩
  | full => exact ⟨inv_modGrp p.1 .., p.2⟩
  | bad => exact ⟨inv_modGrp p.1 .., p.2⟩
theorem inv_recordBoth {s : State} (h : s.Inv) (w : Who) (agent : Nat) (reads writes : List W64) : (recordBoth s w agent reads writes).1.Inv :=
  (inv_recordBoth_both h ..).1
theorem inv_recordBoth_ok {s t u : State} {w : Who} {agent : Nat} {reads writes : List W64}
    (e : recordBoth s w agent reads writes = (t, .ok u)) (h : s.Inv) : u.Inv := by
  have := (inv_recordBoth_both h w agent reads writes).2
  rw [e] at this
  exact this

theorem inv_forget {s : State} (h : s.Inv) (ids : List Nat) : (forget s ids).Inv := by
  unfold forget
  repeat' first
    | (with_reducible assumption)
    | (with_reducible refine inv_ite ?_ ?_)
    | (simp only [inv_mk]; with_reducible refine inv_intro ?_)

theorem inv_bufferOp {s : State} (h : s.Inv) (li : Nat) (pos : Option Nat) (op : CommitOp) : (bufferOp s li pos op).Inv := by
  unfold bufferOp
  repeat' first | (with_reducible assumption) | (with_reducible refine inv_modLaunch ?_ ..)

theorem inv_storeLane {s : State} (h : s.Inv) (w : Who) (pos : Option Nat) (addr : W64) (loc : Loc) (bs : List Byte) (tag
    : Option CountTag) : (storeLane s w pos addr loc bs tag).Inv := by
  unfold storeLane
  repeat' first
    | (with_reducible assumption)
    | (with_reducible refine inv_locWrite ?_ ..)
    | (with_reducible refine inv_countWrite ?_ ..)
    | (with_reducible refine inv_bufferOp ?_ ..)
    | (with_reducible refine inv_setPte ?_ ..)
    | (split)

theorem inv_areaInsert {s : State} (h : s.Inv) (c : Nat) (l : Launch) (addr : W64) (owner : Nat) : (areaInsert s c l addr
    owner).Inv := by
  unfold areaInsert
  try dsimp only
  repeat' first | (with_reducible assumption) | (with_reducible refine inv_writeVirtual ?_ ..) | (split)

theorem inv_ownLine {s : State} (h : s.Inv) (w : Who) (li : Nat) (addr : W64) (me : Nat) : (ownLine s w li addr me).Inv := by
  unfold ownLine
  try dsimp only
  repeat' first
    | (with_reducible assumption)
    | (with_reducible refine inv_areaInsert ?_ ..)
    | (with_reducible refine inv_modLaunch ?_ ..)
    | (with_reducible refine EqFate.mk_go ?_)
    | (with_reducible refine EqFate.mk_full ?_)
    | (split)

theorem inv_equinoxGate {s : State} (h : s.Inv) (w : Who) (pos : Option Nat) (addrs : List W64) (reads stop : Bool) : (equinoxGate s w pos addrs reads stop).Inv := by
  have step (bi : Nat) (f : EqFate) (a : W64) : f.Inv →
      EqFate.Inv (match f with | .go s => ownLine s w w.b.launch a bi | x => x) := by
    intro hf
    split
    · exact inv_ownLine (EqFate.inv_go rfl hf) ..
    · exact hf
  unfold equinoxGate
  dsimp only
  repeat' first
    | (with_reducible assumption)
    | (with_reducible refine foldl_keeps (P := EqFate.Inv) (fun f a hf => ?_) _ ?_)
    | (refine step _ _ _ ?_; assumption)
    | (with_reducible refine EqFate.mk_go ?_)
    | (with_reducible exact EqFate.mk_wait)
    | (with_reducible refine EqFate.mk_trap ?_)
    | (with_reducible refine EqFate.mk_full ?_)
    | (with_reducible refine EqFate.inv_go (by with_reducible assumption) ?_)
    | (with_reducible refine EqFate.inv_trap (by with_reducible assumption) ?_)
    | (with_reducible refine EqFate.inv_full (by with_reducible assumption) ?_)
    | (with_reducible refine inv_applyBuf ?_ ..)
    | (with_reducible refine inv_modLaunch ?_ ..)
    | split

theorem inv_resolve {s : State} (h : s.Inv) (w : Who) (q : Req) (addr : W64) : (resolve s w q addr).1.Inv := by
  unfold resolve
  try dsimp only
  repeat' first
    | (with_reducible assumption)
    | (with_reducible refine inv_xlat ?_ ..)
    | (with_reducible refine inv_setPte ?_ ..)
    | (with_reducible refine pair_inv (by with_reducible assumption) ?_)
    | (split)

theorem inv_deliverToBlock {s : State} (h : s.Inv) (blk : Nat) (owner : Option Nat) (cause : BitVec 8) (tv : List W64) :
    (deliverToBlock s blk owner cause tv).Inv := by
  unfold deliverToBlock
  try dsimp only
  repeat' first
    | (with_reducible assumption)
    | (with_reducible refine inv_deliver ?_ ..)
    | (with_reducible refine inv_tvalsOf ?_ ..)
    | (with_reducible refine inv_recordCause ?_ ..)
    | (split)

theorem inv_gateBoth {s : State} (h : s.Inv) (w : Who) (pos : Option Nat) (reads : List W64) (writes : List W64) (stopR :
    Bool) (stopW : Bool) : (gateBoth s w pos reads writes stopR stopW).Inv := by
  unfold gateBoth
  repeat' first
    | (with_reducible assumption)
    | (with_reducible refine inv_equinoxGate ?_ ..)
    | (with_reducible refine EqFate.inv_go (by with_reducible assumption) ?_)
    | (with_reducible refine EqFate.mk_trap ?_)
    | (split)

theorem inv_countLookups {s : State} (h : s.Inv) (w : Who) (type : Nat) (addrs : List W64) : (countLookups s w type
    addrs).Inv := by
  unfold countLookups
  repeat' first
    | (with_reducible assumption)
    | (intro _; try dsimp only)
    | (with_reducible refine inv_lookup ?_ ..)
    | (with_reducible refine inv_foldl ?_ _ ?_)

theorem inv_recordFaults_both {s : State} (h : s.Inv) (w : Who) (agent : Nat) (write : Bool) (addrs : List W64) :
    (recordFaults s w agent write addrs).1.Inv ∧ (recordFaults s w agent write addrs).2.Inv := by
  unfold recordFaults
  split
  · exact inv_recordBoth_both h ..
  · exact inv_recordBoth_both h ..
theorem inv_recordFaults {s : State} (h : s.Inv) (w : Who) (agent : Nat) (write : Bool) (addrs : List W64) : (recordFaults s w agent write addrs).1.Inv :=
  (inv_recordFaults_both h ..).1
theorem inv_recordFaults_ok {s t u : State} {w : Who} {agent : Nat} {write : Bool} {addrs : List W64}
    (e : recordFaults s w agent write addrs = (t, .ok u)) (h : s.Inv) : u.Inv := by
  have := (inv_recordFaults_both h w agent write addrs).2
  rw [e] at this
  exact this

theorem inv_checkLanes {s : State} (h : s.Inv) (w : Who) (q : Req) (log : Bool) (mon : Bool) (acts : List (Nat × W64)) :
    (checkLanes s w q log mon acts).1.Inv := by
  unfold checkLanes
  repeat' first
    | (with_reducible assumption)
    | (intro _; try dsimp only)
    | (with_reducible refine inv_resolve ?_ ..)
    | (with_reducible refine inv_countLookups ?_ ..)
    | (with_reducible refine inv_recordFaults ?_ ..)
    | (with_reducible refine inv_foldl_pair ?_ _ ?_)
    | (with_reducible refine inv_recordFaults_ok (by with_reducible assumption) ?_)
    | (with_reducible refine inv_pite ?_ ?_)
    | (with_reducible refine pair_inv (by with_reducible assumption) ?_)
    | (split)

/-! ### Sys2Proof.Machine.Order -/

theorem inv_storeUnit {s : State} (h : s.Inv) (w : Who) (x : Nat) (l : Nat) (b : OwnEv) (spots : List StoreSpot) (tag :
    Option CountTag) (p : Unit8 × Nat × Loc × W64 × List Byte) : (storeUnit s w x l b spots tag p).1.Inv := by
  unfold storeUnit
  repeat' first
    | (with_reducible assumption)
    | (with_reducible refine inv_storeLane ?_ ..)
    | (with_reducible refine inv_locWrite ?_ ..)
    | (with_reducible refine inv_countWrite ?_ ..)
    | (with_reducible refine inv_modGrp ?_ ..)
    | (split)

theorem inv_settleAt {s : State} (h : s.Inv) (r : GRef) (loc : Loc) (n : Nat) : (settleAt s r loc n).Inv := by
  unfold settleAt
  repeat' first | (with_reducible assumption) | (with_reducible refine inv_modGrp ?_ ..)

theorem inv_groupStore {s : State} (h : s.Inv) (w : Who) (x : Nat) (l : Nat) (b : OwnEv) (spots : List StoreSpot) (addr :
    W64) (loc : Loc) (bs : List Byte) (tag : Option CountTag) : (groupStore s w x l b spots addr loc bs tag).1.Inv := by
  unfold groupStore
  repeat' first
    | (with_reducible assumption)
    | (intro _; try dsimp only)
    | (with_reducible refine inv_storeLane ?_ ..)
    | (with_reducible refine inv_storeUnit ?_ ..)
    | (with_reducible refine inv_foldl_pair ?_ _ ?_)
    | (split)

theorem inv_logOwn {s : State} (h : s.Inv) (r : GRef) (kind : OwnKind) (sids : BitVec 16) (covers : List Cover) (bars :
    List (Nat × Nat)) : (logOwn s r kind sids covers bars).Inv := by
  unfold logOwn
  repeat' first
    | (with_reducible assumption)
    | (with_reducible refine inv_modGrp ?_ ..)
    | (simp only [inv_mk]; with_reducible refine inv_intro ?_)
    | (split)

theorem inv_noteSolid {before : State} {s : State} (_h : before.Inv) (h1 : s.Inv) (r : GRef) (l : Nat) (sid : Nat) (addr :
    W64) (loc : Loc) (n : Nat) : (noteSolid before s r l sid addr loc n).Inv := by
  unfold noteSolid
  repeat' first | (with_reducible assumption) | (with_reducible refine inv_modGrp ?_ ..)

/-! ### Sys2Proof.Machine.Operands -/

theorem inv_regOp {s : State} (h : s.Inv) (h : Hdr) (long : Bool) (u : Bool) (lat : Option Nat) (reads : List Reg) (wide :
    Bool) (d : BitVec 8) (f : Iss → Nat → FRes) : outcomeInv (regOp h long u lat reads wide d s f) := by
  unfold regOp
  repeat' first
    | (with_reducible assumption)
    | (intro _; try dsimp only)
    | (with_reducible refine inv_issue ?_ ?_ ..)
    | (with_reducible refine Act.mk_fixed ?_)
    | (with_reducible refine Act.mk_later ?_)
    | (split)

theorem inv_aluOp {s : State} (h : s.Inv) (h : Hdr) (x : Alu) (lat : Option Nat) (k : Slots) (f : Nat → Nat → Nat → FRes)
    : outcomeInv (aluOp h x lat k s f) := by
  unfold aluOp
  repeat' first | (with_reducible assumption) | (with_reducible refine inv_regOp ?_ ..)

/-! ### Sys2Proof.Machine.Memops -/

theorem inv_caddAt {s : State} (h : s.Inv) (loc : Loc) (x : Nat) (tag : Option CountTag) : (caddAt s loc x tag).1.Inv := by
  unfold caddAt
  try dsimp only
  repeat' first
    | (with_reducible assumption)
    | (with_reducible refine inv_locWrite ?_ ..)
    | (with_reducible refine inv_countWrite ?_ ..)
    | (split)

theorem inv_atomAt {s : State} (h : s.Inv) (loc : Loc) (op : BitVec 4) (wd : BitVec 4) (x : Nat) (tag : Option CountTag) :
    (atomAt s loc op wd x tag).1.Inv := by
  unfold atomAt
  repeat' first
    | (with_reducible assumption)
    | (with_reducible refine inv_locWrite ?_ ..)
    | (with_reducible refine inv_countWrite ?_ ..)
    | (split)

theorem inv_casAt {s : State} (h : s.Inv) (loc : Loc) (n : Nat) (cmp : Nat) (new : Nat) (tag : Option CountTag) : (casAt s
    loc n cmp new tag).1.Inv := by
  unfold casAt
  try dsimp only
  repeat' first
    | (with_reducible assumption)
    | (with_reducible refine inv_locWrite ?_ ..)
    | (with_reducible refine inv_countWrite ?_ ..)
    | (split)

theorem inv_sendReqs {s : State} (h : s.Inv) (reqs : List FarReq) : (sendReqs s reqs).1.Inv := by
  unfold sendReqs
  repeat' first
    | (with_reducible assumption)
    | (intro _; try dsimp only)
    | (with_reducible refine inv_sendTo ?_ ..)
    | (with_reducible refine inv_setPte ?_ ..)
    | (with_reducible refine inv_foldl_pair ?_ _ ?_)
    | (split)

theorem inv_withAnswers {i : Iss} {s : State} {k : State → Checked → (Nat → List Byte) → Act} (_h : i.s.Inv) (h1 : s.Inv)
    (h2 : ∀ k0 k1 k2, k0.Inv → (k k0 k1 k2).Inv) (c : Checked) (ask : Ask) : (withAnswers i s c ask k).Inv := by
  unfold withAnswers
  try dsimp only
  repeat' first
    | (with_reducible assumption)
    | (with_reducible refine h2 _ _ _ ?_ )
    | (with_reducible refine inv_sendReqs ?_ ..)
    | (with_reducible refine inv_modGrp ?_ ..)
    | (with_reducible refine Act.mk_again ?_)
    | (split)

theorem inv_fullEmptyAt {s : State} (h : s.Inv) (slot : Option Nat) (pa : Nat) (size : Nat) (need : Option Bool) (data :
    Option (List Byte)) (fill : Option Bool) : (fullEmptyAt s slot pa size need data fill).s.Inv := by
  unfold fullEmptyAt
  try dsimp only
  repeat' first
    | (with_reducible assumption)
    | (intro _; try dsimp only)
    | (with_reducible refine inv_setPte ?_ ..)
    | (with_reducible refine inv_setFull ?_ ..)
    | (with_reducible refine inv_store ?_ ..)
    | (with_reducible refine inv_foldl ?_ _ ?_)
    | (split)

theorem inv_answered {i : Iss} {k : State → Checked → (Nat → List Byte) → Act} (h : i.s.Inv) (h1 : ∀ k0 k1 k2, k0.Inv → (k
    k0 k1 k2).Inv) (lanes : Bool) : (answered i lanes k).Inv := by
  unfold answered
  try dsimp only
  repeat' first
    | (with_reducible assumption)
    | (with_reducible refine h1 _ _ _ ?_ )
    | (with_reducible refine inv_modGrp ?_ ..)
    | (with_reducible refine Act.mk_trap ?_)
    | (with_reducible refine Act.mk_again ?_)
    | (simp only [inv_mk]; with_reducible refine inv_intro ?_)
    | (split)

theorem inv_accessing {i : Iss} {k : State → Checked → (Nat → List Byte) → Act} (h : i.s.Inv) (h1 : ∀ k0 k1 k2, k0.Inv →
    (k k0 k1 k2).Inv) (p : Plan) (acts : List (Nat × W64)) (ask : Ask) : (accessing i p acts ask k).Inv := by
  unfold accessing
  try dsimp only
  repeat' first
    | (with_reducible assumption)
    | (intro _; try dsimp only)
    | (with_reducible refine h1 _ _ _ ?_ )
    | (with_reducible refine inv_modGrp ?_ ..)
    | (with_reducible refine inv_answered ?_ ?_ ..)
    | (with_reducible refine inv_withAnswers ?_ ?_ ?_ ..)
    | (with_reducible refine inv_checkLanes ?_ ..)
    | (with_reducible refine inv_terminateWith ?_ ..)
    | (with_reducible refine inv_equinoxGate ?_ ..)
    | (with_reducible refine pair_inv (by with_reducible assumption) ?_)
    | (with_reducible refine EqFate.inv_go (by with_reducible assumption) ?_)
    | (with_reducible refine EqFate.inv_trap (by with_reducible assumption) ?_)
    | (with_reducible refine EqFate.inv_full (by with_reducible assumption) ?_)
    | (with_reducible refine Act.mk_trap ?_)
    | (with_reducible refine Act.mk_again ?_)
    | (with_reducible refine Act.mk_at ?_)
    | (split)

theorem inv_logAccess {s : State} (h : s.Inv) (r : GRef) (kind : OwnKind) (sid : BitVec 4) (covers : List Cover) :
    (logAccess s r kind sid covers).Inv := by
  unfold logAccess
  repeat' first | (with_reducible assumption) | (with_reducible refine inv_logOwn ?_ ..)

theorem inv_logLanes {i : Iss} {s : State} {done : State → Act} (h : i.s.Inv) (h1 : s.Inv) (h2 : ∀ done0, done0.Inv →
    (done done0).Inv) (c : Checked) (kind : Nat) (x : MemForm) (data : Nat → Nat) : (logLanes i s c kind x data done).Inv
    := by
  unfold logLanes
  repeat' first
    | (with_reducible assumption)
    | (with_reducible refine h2 _ ?_ )
    | (with_reducible refine inv_recordFaults ?_ ..)
    | (with_reducible refine inv_terminateWith ?_ ..)
    | (with_reducible refine inv_modGrp ?_ ..)
    | (with_reducible refine inv_recordFaults_ok (by with_reducible assumption) ?_)
    | (with_reducible refine Act.mk_again ?_)
    | (with_reducible refine Act.mk_at ?_)
    | (split)

/-! ### Sys2Proof.Machine.Atomics -/

theorem inv_noteAtom {i : Iss} {before : State} {s : State} (_h : i.s.Inv) (h1 : before.Inv) (h2 : s.Inv) (x : MemForm) (l
    : Nat) (addr : W64) (loc : Loc) : (noteAtom i x l addr loc before s).Inv := by
  unfold noteAtom
  repeat' first | (with_reducible assumption) | (with_reducible refine inv_noteSolid ?_ ?_ ..)

theorem inv_logLanesOf {i : Iss} {s : State} (_h : i.s.Inv) (h1 : s.Inv) (x : MemForm) (kind : OwnKind) (ws : List (Nat ×
    W64 × Loc)) : (logLanesOf i x kind s ws).Inv := by
  unfold logLanesOf
  repeat' first
    | (with_reducible assumption)
    | (with_reducible refine inv_logAccess ?_ ..)
    | (with_reducible refine inv_ite ?_ ?_)

theorem inv_eachLane {s : State} {f : State → Nat → W64 → Loc → State × Option Nat} (h : s.Inv) (h1 : ∀ f0 f1 f2 f3,
    f0.Inv → (f f0 f1 f2 f3).1.Inv) (c : Checked) : (eachLane s c f).1.Inv := by
  unfold eachLane
  repeat' first
    | (with_reducible assumption)
    | (intro _; try dsimp only)
    | (with_reducible refine h1 _ _ _ _ ?_ )
    | (with_reducible refine inv_foldl_pair ?_ _ ?_)

/-! ### Sys2Proof.Machine.Sweep -/

theorem inv_authLine {s : State} (h : s.Inv) (at_ : List Tlb) (c : Nat) (base : W64) (tagTab : W64) (line : W64) (pa :
    Nat) : (authLine s at_ c base tagTab line pa).1.Inv := by
  unfold authLine
  try dsimp only
  repeat' first
    | (with_reducible assumption)
    | (with_reducible refine inv_xlatCode ?_ ..)
    | (with_reducible refine pair_inv (by with_reducible assumption) ?_)
    | (split)

theorem inv_loadLine {s : State} (h : s.Inv) (at_ : List Tlb) (f : Fetcher) (c : Nat) (base : W64) (tagTab : W64) (line :
    W64) : (loadLine s at_ f c base tagTab line).1.Inv := by
  unfold loadLine
  repeat' first
    | (with_reducible assumption)
    | (with_reducible refine inv_xlatCode ?_ ..)
    | (with_reducible refine inv_authLine ?_ ..)
    | (with_reducible refine pair_inv (by with_reducible assumption) ?_)
    | (simp only [inv_mk]; with_reducible refine inv_intro ?_)
    | (split)

theorem inv_awaitService {s : State} (h : s.Inv) (w : Who) (va : W64) (agent : Nat) (write : Bool) : (awaitService s w va
    agent write).Inv := by
  unfold awaitService
  repeat' first
    | (with_reducible assumption)
    | (with_reducible refine inv_modGrp ?_ ..)
    | (with_reducible refine inv_terminateWith ?_ ..)
    | (with_reducible refine inv_faultRecord ?_ (by assumption))
    | (split)

theorem inv_fetchFail {s : State} (h : s.Inv) (w : Who) (e : ReadFail) : (fetchFail s w e).Inv := by
  unfold fetchFail
  repeat' first
    | (with_reducible assumption)
    | (with_reducible refine inv_awaitService ?_ ..)
    | (with_reducible refine inv_terminateWith ?_ ..)
    | (split)

theorem inv_fillAt {s : State} (h : s.Inv) (w : Who) (v : Level) (line : W64) : (fillAt s w v line).Inv := by
  unfold fillAt
  repeat' first
    | (with_reducible assumption)
    | (with_reducible refine inv_loadLine ?_ ..)
    | (with_reducible refine inv_fetchFail ?_ ..)
    | (with_reducible refine pair_inv (by with_reducible assumption) ?_)
    | (split)

theorem inv_labelEntry {s : State} (h : s.Inv) (w : Who) (v : Level) (m : W16) : (labelEntry s w v m).1.Inv := by
  unfold labelEntry
  repeat' first | (with_reducible assumption) | (with_reducible refine inv_readCode ?_ ..)

theorem inv_headerInfo_error {s t : State} {w : Who} {v : Level} {m : W16} (e : headerInfo s w v m = .error t) (h : s.Inv) : t.Inv := by
  unfold headerInfo at e
  split at e
  · next e2 => cases e; exact inv_fetchFail (pair_inv e2 (inv_labelEntry h ..)) ..
  · next e2 =>
    split at e
    · cases e; exact inv_fillAt (pair_inv e2 (inv_labelEntry h ..)) ..
    · cases e
theorem inv_headerInfo_ok {s t : State} {w : Who} {v : Level} {m : W16} {p : Nat × Bool} (e : headerInfo s w v m = .ok (t, p)) (h : s.Inv) : t.Inv := by
  unfold headerInfo at e
  split at e
  · cases e
  · next e2 =>
    split at e
    · cases e
    · cases e; exact pair_inv e2 (inv_labelEntry h ..)

theorem inv_waitEnd_error {s t : State} {w : Who} {v : Level} {m : W16} {k : Nat} (e : waitEnd s w v m k = .error t) (h : s.Inv) : t.Inv := by
  unfold waitEnd at e
  split at e
  · next e2 => cases e; exact inv_headerInfo_error e2 h
  · next e2 =>
    have h2 := inv_headerInfo_ok e2 h
    split at e
    · cases e
    · split at e
      · next e3 => cases e; exact inv_headerInfo_error e3 h2
      · cases e
theorem inv_waitEnd_ok {s t : State} {w : Who} {v : Level} {m : W16} {k : Nat} {p : Nat × Bool} (e : waitEnd s w v m k = .ok (t, p)) (h : s.Inv) : t.Inv := by
  unfold waitEnd at e
  split at e
  · cases e
  · next e2 =>
    have h2 := inv_headerInfo_ok e2 h
    split at e
    · cases e; exact h2
    · split at e
      · cases e
      · next e3 => cases e; exact inv_headerInfo_ok e3 h2

theorem inv_returnFromHandler {s : State} (h : s.Inv) (w : Who) (resume : Bool) : (returnFromHandler s w resume).Inv := by
  unfold returnFromHandler
  split
  · exact h
  · dsimp only
    split
    · next e => exact inv_fetchFail (pair_inv e (inv_readRegion h ..)) ..
    · next e => exact inv_terminateWith (pair_inv e (inv_readRegion h ..)) ..
    · next e =>
      have h1 := pair_inv e (inv_readRegion h ..)
      split
      · next e2 =>
        split at e2
        · exact inv_waitEnd_error e2 h1
        · cases e2
      · next s2 _ _ e2 =>
        have h2 : s2.Inv := by
          split at e2
          · exact inv_waitEnd_ok e2 h1
          · cases e2; exact h1
        split
        · split
          · exact inv_enterHandler (inv_modGrp (inv_modGrp h2 ..) ..) ..
          · exact inv_modGrp h2 ..
        · exact inv_modGrp h2 ..

theorem inv_fillCode {s : State} (h : s.Inv) (w : Who) (line : W64) : (fillCode s w line).Inv := by
  unfold fillCode
  repeat' first | (with_reducible assumption) | (with_reducible refine inv_fillAt ?_ ..)

theorem inv_census {s : State} (h : s.Inv) (w : Who) : (census s w).Inv := by
  unfold census
  try dsimp only
  repeat' first
    | (with_reducible assumption)
    | (with_reducible refine inv_fillCode ?_ ..)
    | (with_reducible refine inv_modGrp ?_ ..)
    | (split)

theorem inv_checkBlockEnd {s : State} (h : s.Inv) (blk : Nat) : (checkBlockEnd s blk).Inv := by
  unfold checkBlockEnd
  repeat' first
    | (with_reducible assumption)
    | (with_reducible refine inv_tvalsOf ?_ ..)
    | (with_reducible refine inv_modBlk ?_ ..)
    | (with_reducible refine inv_recordCause ?_ ..)
    | (with_reducible refine inv_leafTells ?_ ..)
    | (with_reducible refine inv_writeCompletion ?_ ..)
    | (split)

theorem inv_countWake {s : State} (h : s.Inv) (w : Who) (va : W64) : (countWake s w va).Inv := by
  unfold countWake
  repeat' first
    | (with_reducible assumption)
    | (with_reducible refine inv_enterHandler ?_ ..)
    | (with_reducible refine inv_modGrp ?_ ..)
    | (with_reducible refine inv_ite ?_ ?_)

theorem inv_parkGroup {s : State} (h : s.Inv) (w : Who) : (parkGroup s w).Inv := by
  unfold parkGroup
  try dsimp only
  repeat' first
    | (with_reducible assumption)
    | (with_reducible refine inv_modGrp ?_ ..)
    | (with_reducible refine inv_resolve ?_ ..)
    | (with_reducible refine inv_countWake ?_ ..)
    | (with_reducible refine inv_enterHandler ?_ ..)
    | (with_reducible refine inv_park ?_ ..)
    | (with_reducible refine pair_inv (by with_reducible assumption) ?_)
    | (split)

theorem inv_virtRange {s : State} (h : s.Inv) (at_ : List Tlb) (c : Nat) (va : W64) (n : Nat) (write : Bool) : (virtRange
    s at_ c va n write).1.Inv := by
  unfold virtRange
  repeat' first
    | (with_reducible assumption)
    | (intro _; try dsimp only)
    | (with_reducible refine inv_xlat ?_ ..)
    | (with_reducible refine inv_setPte ?_ ..)
    | (with_reducible refine inv_foldl_pair ?_ _ ?_)
    | (with_reducible refine pair_inv (by with_reducible assumption) ?_)
    | (split)

theorem inv_writeAt {s : State} (h : s.Inv) (ps : List Nat) (bs : List Byte) : (writeAt s ps bs).Inv := by
  unfold writeAt
  repeat' first | (with_reducible assumption) | (with_reducible refine inv_ssetAll ?_ ..)

theorem inv_sendBlock {s : State} (h : s.Inv) (li : Nat) (n : Nat) (u : Nat) (i : Nat) : (sendBlock s li n u i).Inv := by
  unfold sendBlock
  repeat' first
    | (with_reducible assumption)
    | (with_reducible refine inv_modBlk ?_ ..)
    | (with_reducible refine inv_modLaunch ?_ ..)
    | (split)

theorem inv_sendPartials {s : State} (h : s.Inv) (li : Nat) (n : Nat) (u : Nat) : (sendPartials s li n u).Inv := by
  unfold sendPartials
  repeat' first
    | (with_reducible assumption)
    | (intro _; try dsimp only)
    | (with_reducible refine inv_sendBlock ?_ ..)
    | (with_reducible refine inv_foldl ?_ _ ?_)
    | (split)

theorem inv_spillCount {s : State} (h : s.Inv) (w : Who) : (spillCount s w).1.Inv := by
  unfold spillCount
  repeat' first
    | (with_reducible assumption)
    | (with_reducible refine inv_virtRange ?_ ..)
    | (with_reducible refine pair_inv (by with_reducible assumption) ?_)
    | (split)

theorem inv_spillOldest {s : State} (h : s.Inv) (w : Who) : (spillOldest s w).Inv := by
  unfold spillOldest
  repeat' first
    | (with_reducible assumption)
    | (with_reducible refine inv_spillCount ?_ ..)
    | (with_reducible refine inv_virtRange ?_ ..)
    | (with_reducible refine inv_writeAt ?_ ..)
    | (with_reducible refine pair_inv (by with_reducible assumption) ?_)
    | (with_reducible refine Spill.mk_ok ?_)
    | (with_reducible refine Spill.mk_fail ?_)
    | (with_reducible refine Spill.mk_beyond ?_)
    | (split)

theorem inv_popCall {s : State} (h : s.Inv) (w : Who) : (popCall s w).Inv := by
  unfold popCall
  repeat' first
    | (with_reducible assumption)
    | (with_reducible refine inv_spillCount ?_ ..)
    | (with_reducible refine inv_virtRange ?_ ..)
    | (with_reducible refine inv_writeAt ?_ ..)
    | (with_reducible refine pair_inv (by with_reducible assumption) ?_)
    | (with_reducible refine Spill.mk_ok ?_)
    | (with_reducible refine Spill.mk_fail ?_)
    | (split)

theorem inv_streamStop {s : State} (h : s.Inv) (blk : Nat) (cause : BitVec 8) (tv : List W64) : (streamStop s blk cause
    tv).Inv := by
  unfold streamStop
  repeat' first
    | (with_reducible assumption)
    | (with_reducible refine inv_modBlk ?_ ..)
    | (with_reducible refine inv_forget ?_ ..)
    | (with_reducible refine inv_checkBlockEnd ?_ ..)
    | (with_reducible refine inv_deliverToBlock ?_ ..)
    | (split)

theorem inv_streamFail {s : State} (h : s.Inv) (c : Nat) (blk : Nat) (b : Block) (e : ReadFail) : (streamFail s c blk b
    e).Inv := by
  unfold streamFail
  repeat' first
    | (with_reducible assumption)
    | (with_reducible refine inv_modBlk ?_ ..)
    | (with_reducible refine inv_terminateWith ?_ ..)
    | (with_reducible refine inv_streamStop ?_ ..)
    | (with_reducible refine inv_faultRecord ?_ (by assumption))
    | (split)

theorem inv_mergeOne {s : State} (h : s.Inv) (i : Nat) (mi : Nat) (n : Nat) (k : W32) (m : Monitor) (t : Int) (nf : Bool)
    (ov : Bool) : (mergeOne s i mi n k m t nf ov).Inv := by
  unfold mergeOne
  repeat' first
    | (with_reducible assumption)
    | (with_reducible refine inv_deliverToBlock ?_ ..)
    | (with_reducible refine inv_modBlk ?_ ..)
    | (with_reducible refine inv_ite ?_ ?_)

theorem inv_mergeMonitors {s : State} (h : s.Inv) (li : Nat) (n : Nat) (u : Nat) (k : W32) (parts : List (Nat × Nat × Int
    × Bool × Bool)) : (mergeMonitors s li n u k parts).Inv := by
  unfold mergeMonitors
  repeat' first
    | (with_reducible assumption)
    | (intro _; try dsimp only)
    | (with_reducible refine inv_mergeOne ?_ ..)
    | (with_reducible refine inv_foldl ?_ _ ?_)
    | (split)

theorem inv_tryComplete {s : State} (h : s.Inv) (li : Nat) (n : Nat) (u : Nat) (now : Option GRef) : (tryComplete s li n u
    now).Inv := by
  unfold tryComplete
  try dsimp only
  repeat' first
    | (with_reducible assumption)
    | (with_reducible refine inv_sendPartials ?_ ..)
    | (with_reducible refine inv_modLaunch ?_ ..)
    | (with_reducible refine inv_mergeMonitors ?_ ..)
    | (split)

theorem inv_tryBarriers {s : State} (h : s.Inv) (r : GRef) : (tryBarriers s r).Inv := by
  unfold tryBarriers
  repeat' first
    | (with_reducible assumption)
    | (intro _; try dsimp only)
    | (with_reducible refine inv_tryComplete ?_ ..)
    | (with_reducible refine inv_foldl ?_ _ ?_)
    | (split)

theorem inv_grantFrom {s : State} (h : s.Inv) (core part fuel : Nat) : (grantFrom core part fuel s).Inv := by
  induction fuel generalizing s with
  | zero => exact h
  | succ k ih =>
    unfold grantFrom
    split
    · exact h
    · split
      · exact h
      · split
        · exact ih (inv_grantGrans (inv_modGrp (s := { s with growQ := s.growQ.erase _ }) h ..) ..)
        · exact h

theorem inv_retire {s : State} (h : s.Inv) (w : Who) : (retire s w).Inv := by
  unfold retire
  repeat' first
    | (with_reducible assumption)
    | (intro _; try dsimp only)
    | (with_reducible refine inv_modGrp ?_ ..)
    | (with_reducible refine inv_releaseGrans ?_ ..)
    | (with_reducible refine inv_modLaunch ?_ ..)
    | (with_reducible refine inv_tryBarriers ?_ ..)
    | (with_reducible refine inv_deliverToBlock ?_ ..)
    | (with_reducible refine inv_grantFrom ?_ ..)
    | (with_reducible refine inv_checkBlockEnd ?_ ..)
    | (with_reducible refine inv_foldl ?_ _ ?_)
    | (with_reducible refine inv_ite ?_ ?_)

theorem inv_callerResume {s : State} (h : s.Inv) (w : Who) : (callerResume s w).Inv := by
  unfold callerResume
  repeat' first
    | (with_reducible assumption)
    | (with_reducible refine inv_readRegion ?_ ..)
    | (with_reducible refine inv_fetchFail ?_ ..)
    | (with_reducible refine inv_terminateWith ?_ ..)
    | (with_reducible refine inv_popCall ?_ ..)
    | (with_reducible refine inv_awaitService ?_ ..)
    | (with_reducible refine inv_modGrp ?_ ..)
    | (with_reducible refine pair_inv (by with_reducible assumption) ?_)
    | (with_reducible refine Spill.inv_ok (by with_reducible assumption) ?_)
    | (with_reducible refine Spill.inv_fail (by with_reducible assumption) ?_)
    | (with_reducible refine Spill.inv_beyond (by with_reducible assumption) ?_)
    | (split)

theorem inv_sweepEnd {s : State} (h : s.Inv) (w : Who) : (sweepEnd s w).Inv := by
  unfold sweepEnd
  repeat' first
    | (with_reducible assumption)
    | (with_reducible refine inv_returnFromHandler ?_ ..)
    | (with_reducible refine inv_callerResume ?_ ..)
    | (with_reducible refine inv_retire ?_ ..)
    | (with_reducible refine inv_parkGroup ?_ ..)
    | (with_reducible refine inv_modGrp ?_ ..)
    | (with_reducible refine inv_ite ?_ ?_)

/-! ### Sys2Proof.Machine.Control -/

theorem inv_callTo {i : Iss} (h : i.s.Inv) (base : W64) (entry : W16) (c : Mask) : (callTo i base entry c).Inv := by
  unfold callTo
  repeat' first
    | (with_reducible assumption)
    | (with_reducible refine inv_readRegion ?_ ..)
    | (with_reducible refine inv_terminateWith ?_ ..)
    | (with_reducible refine inv_spillOldest ?_ ..)
    | (with_reducible refine inv_awaitService ?_ ..)
    | (with_reducible refine inv_modGrp ?_ ..)
    | (with_reducible refine inv_faultRecord ?_ (by assumption))
    | (with_reducible refine pair_inv (by with_reducible assumption) ?_)
    | (with_reducible refine Spill.inv_ok (by with_reducible assumption) ?_)
    | (with_reducible refine Spill.inv_fail (by with_reducible assumption) ?_)
    | (with_reducible refine Spill.inv_beyond (by with_reducible assumption) ?_)
    | (with_reducible refine Act.mk_trap ?_)
    | (with_reducible refine Act.mk_again ?_)
    | (with_reducible refine Act.mk_at ?_)
    | (split)

/-! ### Sys2Proof.Machine.Copies -/

theorem inv_keepScratch {before : State} {s : State} (_h : before.Inv) (h1 : s.Inv) (blk : Nat) : (keepScratch before s
    blk).Inv := by
  unfold keepScratch
  repeat' first | (with_reducible assumption) | (with_reducible refine inv_writeVirtual ?_ ..) | (split)

theorem inv_putCopy {s : State} (h : s.Inv) (r : GRef) (k : CopyOp) : (putCopy s r k).Inv := by
  unfold putCopy
  repeat' first | (with_reducible assumption) | (with_reducible refine inv_modGrp ?_ ..)

theorem inv_endLoc {s : State} (h : s.Inv) (w : Who) (k : CopyOp) (write : Bool) (look : Bool) (a : W64) (n : Nat) :
    (endLoc s w k write look a n).1.Inv := by
  unfold endLoc
  try dsimp only
  repeat' first
    | (with_reducible assumption)
    | (with_reducible refine inv_resolve ?_ ..)
    | (with_reducible refine inv_lookup ?_ ..)
    | (with_reducible refine pair_inv (by with_reducible assumption) ?_)
    | (split)

theorem inv_planPieces {s : State} (h : s.Inv) (w : Who) (k : CopyOp) (ps : List Piece) : (planPieces s w k ps).1.Inv := by
  induction ps generalizing s with
  | nil => exact h
  | cons p ps ih =>
    unfold planPieces
    repeat' first
      | (with_reducible assumption)
      | (with_reducible refine pair_inv (by with_reducible assumption) ?_)
      | (with_reducible refine inv_endLoc ?_ ..)
      | (with_reducible refine ih ?_)
      | (dsimp only)
      | split

theorem inv_copyWaits {s : State} (h : s.Inv) (w : Who) (k : CopyOp) (a : W64) (write : Bool) : (copyWaits s w k a
    write).Inv := by
  unfold copyWaits
  repeat' first
    | (with_reducible assumption)
    | (with_reducible refine inv_putCopy ?_ ..)
    | (with_reducible refine inv_terminateWith ?_ ..)
    | (with_reducible refine inv_modGrp ?_ ..)
    | (with_reducible refine inv_faultRecord ?_ (by assumption))
    | (split)

theorem inv_copyFails {s : State} (h : s.Inv) (r : GRef) (k : CopyOp) (a : W64) (cause : BitVec 8) : (copyFails s r k a
    cause).Inv := by
  unfold copyFails
  repeat' first | (with_reducible assumption) | (with_reducible refine inv_putCopy ?_ ..)

theorem inv_copyGate {s : State} (h : s.Inv) (w : Who) (k : CopyOp) (reads : List (W64 × Nat)) (writes : List (W64 × Nat))
    (remote : Bool) : (copyGate s w k reads writes remote).Inv := by
  unfold copyGate
  repeat' first | (with_reducible assumption) | (with_reducible refine inv_gateBoth ?_ ..)

theorem inv_movesGate {s : State} (h : s.Inv) (w : Who) (k : CopyOp) (ms : List Move) : (movesGate s w k ms).Inv := by
  unfold movesGate
  repeat' first | (with_reducible assumption) | (with_reducible refine inv_copyGate ?_ ..)

theorem inv_fetchRemote {s : State} (h : s.Inv) (r : GRef) (k : CopyOp) (asks : List (Nat × W64 × Nat × RemoteOp)) :
    (fetchRemote s r k asks).Inv := by
  unfold fetchRemote
  try dsimp only
  repeat' first
    | (with_reducible assumption)
    | (intro _; try dsimp only)
    | (with_reducible refine inv_putCopy ?_ ..)
    | (with_reducible refine inv_sendTo ?_ ..)
    | (with_reducible refine inv_foldl_pair ?_ _ ?_)
    | (with_reducible refine Fetched.mk_asked ?_)
    | (with_reducible exact Fetched.mk_bad)
    | (with_reducible exact Fetched.mk_here)
    | (split)

theorem inv_landElement {s : State} (h : s.Inv) (w : Who) (k : CopyOp) (ms : List Move) (x : Nat) : (landElement s w k ms
    x).1.Inv := by
  unfold landElement
  repeat' first
    | (with_reducible assumption)
    | (intro _; try dsimp only)
    | (with_reducible refine inv_sendTo ?_ ..)
    | (with_reducible refine inv_setPte ?_ ..)
    | (with_reducible refine inv_bufferOp ?_ ..)
    | (with_reducible refine inv_locWrite ?_ ..)
    | (with_reducible refine inv_foldl ?_ _ ?_)
    | (split)

theorem inv_landPiece {s : State} (h : s.Inv) (w : Who) (k : CopyOp) (m : Move) (j : Nat) (n : Nat) (src : List Byte ×
    List Bool) : (landPiece s w k m j n src).1.Inv := by
  unfold landPiece
  try dsimp only
  repeat' first
    | (with_reducible assumption)
    | (intro _; try dsimp only)
    | (with_reducible refine inv_setPte ?_ ..)
    | (with_reducible refine inv_sendTo ?_ ..)
    | (with_reducible refine inv_storeLane ?_ ..)
    | (with_reducible refine inv_bufferOp ?_ ..)
    | (with_reducible refine inv_setFull ?_ ..)
    | (with_reducible refine inv_foldl ?_ _ ?_)
    | (with_reducible refine inv_foldl_pair ?_ _ ?_)
    | (split)

theorem inv_moveParts {s : State} (h : s.Inv) (w : Who) (k : CopyOp) (ms : List Move) : (moveParts s w k ms).1.Inv := by
  unfold moveParts
  repeat' first
    | (with_reducible assumption)
    | (intro _; try dsimp only)
    | (with_reducible refine inv_landElement ?_ ..)
    | (with_reducible refine inv_landPiece ?_ ..)
    | (with_reducible refine inv_foldl_pair ?_ _ ?_)
    | (with_reducible refine inv_pite ?_ ?_)

theorem inv_retireCopy {s : State} (h : s.Inv) (r : GRef) (k : CopyOp) (add : Bool) : (retireCopy s r k add).Inv := by
  unfold retireCopy
  repeat' first
    | (with_reducible assumption)
    | (with_reducible refine inv_forget ?_ ..)
    | (with_reducible refine inv_modGrp ?_ ..)

theorem inv_finishCopy {s : State} (h : s.Inv) (r : GRef) (k : CopyOp) : (finishCopy s r k).Inv := by
  unfold finishCopy
  repeat' first
    | (with_reducible assumption)
    | (with_reducible refine inv_retireCopy ?_ ..)
    | (with_reducible refine inv_putCopy ?_ ..)
    | (with_reducible refine inv_forget ?_ ..)
    | (split)

theorem inv_movedOn {s : State} (h : s.Inv) (w : Who) (k : CopyOp) (acks : List (Nat × Nat × Nat)) : (movedOn s w k
    acks).Inv := by
  unfold movedOn
  repeat' first
    | (with_reducible assumption)
    | (with_reducible refine inv_forget ?_ ..)
    | (with_reducible refine inv_finishCopy ?_ ..)
    | (with_reducible refine inv_putCopy ?_ ..)
    | (with_reducible refine inv_ite ?_ ?_)

theorem inv_landChunk {s : State} (h : s.Inv) (w : Who) (k : CopyOp) (ms : List Move) (out : List Byte) : (landChunk s w k
    ms out).Inv := by
  unfold landChunk
  repeat' first
    | (with_reducible assumption)
    | (intro _; try dsimp only)
    | (with_reducible refine inv_storeLane ?_ ..)
    | (with_reducible refine inv_foldl_pair ?_ _ ?_)

theorem inv_chunkResult_asked {s t : State} {w : Who} {k : CopyOp} {ms : List Move} {z : RedSet} {bs : List Byte} (e : chunkResult s w k ms z = (.asked t, bs)) (h : s.Inv) : t.Inv := by
  unfold chunkResult at e
  exact Fetched.inv_asked (congrArg Prod.fst e) (inv_fetchRemote h ..)

theorem inv_moveCurrent {s : State} (h : s.Inv) (w : Who) (k : CopyOp) : (moveCurrent s w k).Inv := by
  unfold moveCurrent
  try dsimp only
  repeat' first
    | (with_reducible assumption)
    | (with_reducible refine inv_putCopy ?_ ..)
    | (with_reducible refine inv_planPieces ?_ ..)
    | (with_reducible refine inv_copyWaits ?_ ..)
    | (with_reducible refine inv_copyFails ?_ ..)
    | (with_reducible refine inv_movesGate ?_ ..)
    | (with_reducible refine inv_terminateWith ?_ ..)
    | (with_reducible refine inv_fetchRemote ?_ ..)
    | (with_reducible refine inv_moveParts ?_ ..)
    | (with_reducible refine inv_movedOn ?_ ..)
    | (with_reducible refine inv_landChunk ?_ ..)
    | (with_reducible refine inv_deliver ?_ ..)
    | (with_reducible refine inv_chunkResult_asked (by with_reducible assumption) ?_)
    | (with_reducible refine pair_inv (by with_reducible assumption) ?_)
    | (with_reducible refine EqFate.inv_go (by with_reducible assumption) ?_)
    | (with_reducible refine EqFate.inv_trap (by with_reducible assumption) ?_)
    | (with_reducible refine EqFate.inv_full (by with_reducible assumption) ?_)
    | (with_reducible refine Fetched.inv_asked (by with_reducible assumption) ?_)
    | (simp only [inv_mk]; with_reducible refine inv_intro ?_)
    | (split)

theorem inv_listEnds {s : State} (h : s.Inv) (w : Who) (k : CopyOp) (a : W64) (n : Nat) : (listEnds s w k a n).1.Inv := by
  unfold listEnds
  repeat' first
    | (with_reducible assumption)
    | (intro _; try dsimp only)
    | (with_reducible refine inv_endLoc ?_ ..)
    | (with_reducible refine inv_foldl_pair ?_ _ ?_)
    | (with_reducible refine pair_inv (by with_reducible assumption) ?_)
    | (split)

theorem inv_layoutPast {s : State} {f : EqFate} {k : State → Layout} (h : s.Inv) (h1 : f.Inv) (h2 : ∀ k0, k0.Inv → (k k0).Inv) (w : Who) : (layoutPast s w f k).Inv := by
  unfold layoutPast
  split
  · exact Layout.mk_ask h
  · exact Layout.mk_snag (EqFate.inv_trap rfl h1)
  · exact Layout.mk_ask (inv_terminateWith (EqFate.inv_full rfl h1) ..)
  · exact h2 _ (EqFate.inv_go rfl h1)

theorem inv_gatherLayout {s : State} (h : s.Inv) (w : Who) (k : CopyOp) : (gatherLayout s w k).Inv := by
  unfold gatherLayout
  repeat' first
    | (with_reducible assumption)
    | (intro _; try dsimp only)
    | (with_reducible refine inv_lookup ?_ ..)
    | (with_reducible refine inv_listEnds ?_ ..)
    | (with_reducible refine inv_layoutPast ?_ ?_ ?_ ..)
    | (with_reducible refine inv_copyGate ?_ ..)
    | (with_reducible refine inv_fetchRemote ?_ ..)
    | (with_reducible refine inv_foldl ?_ _ ?_)
    | (with_reducible refine pair_inv (by with_reducible assumption) ?_)
    | (with_reducible refine Fetched.inv_asked (by with_reducible assumption) ?_)
    | (with_reducible refine Layout.mk_go ?_)
    | (with_reducible refine Layout.mk_ask ?_)
    | (with_reducible refine Layout.mk_snag ?_)
    | (split)

theorem inv_layoutOf {s : State} (h : s.Inv) (w : Who) (k : CopyOp) : (layoutOf s w k).Inv := by
  unfold layoutOf
  repeat' first
    | (with_reducible assumption)
    | (with_reducible refine inv_gatherLayout ?_ ..)
    | (with_reducible refine Layout.inv_go (by with_reducible assumption) ?_)
    | (with_reducible refine Layout.mk_go ?_)
    | (with_reducible refine Layout.mk_snag ?_)
    | (split)

theorem inv_makeCopy {s : State} (h : s.Inv) (w : Who) (k : CopyOp) : (makeCopy s w k).Inv := by
  unfold makeCopy
  try dsimp only
  repeat' first
    | (with_reducible assumption)
    | (with_reducible refine inv_moveCurrent ?_ ..)
    | (with_reducible refine inv_layoutOf ?_ ..)
    | (with_reducible refine inv_copyWaits ?_ ..)
    | (with_reducible refine inv_copyFails ?_ ..)
    | (with_reducible refine inv_putCopy ?_ ..)
    | (with_reducible refine inv_finishCopy ?_ ..)
    | (with_reducible refine Layout.inv_go (by with_reducible assumption) ?_)
    | (with_reducible refine Layout.inv_ask (by with_reducible assumption) ?_)
    | (with_reducible refine Layout.inv_snag (by with_reducible assumption) ?_)
    | (simp only [inv_mk]; with_reducible refine inv_intro ?_)
    | (split)

theorem inv_reportCopy {s : State} (h : s.Inv) (r : GRef) (k : CopyOp) (addr : Nat) (written : Nat) (cause : BitVec 8) :
    (reportCopy s r k addr written cause).Inv := by
  unfold reportCopy
  repeat' first | (with_reducible assumption) | (with_reducible refine inv_deliver ?_ ..)

theorem inv_copyAdd {s : State} (h : s.Inv) (w : Who) (k : CopyOp) (a : W64) : (copyAdd s w k a).Inv := by
  unfold copyAdd
  try dsimp only
  repeat' first
    | (with_reducible assumption)
    | (with_reducible refine inv_modGrp ?_ ..)
    | (with_reducible refine inv_forget ?_ ..)
    | (with_reducible refine inv_reportCopy ?_ ..)
    | (with_reducible refine inv_deliver ?_ ..)
    | (with_reducible refine inv_resolve ?_ ..)
    | (with_reducible refine inv_terminateWith ?_ ..)
    | (with_reducible refine inv_equinoxGate ?_ ..)
    | (with_reducible refine inv_sendTo ?_ ..)
    | (with_reducible refine inv_setPte ?_ ..)
    | (with_reducible refine inv_caddAt ?_ ..)
    | (with_reducible refine inv_locWrite ?_ ..)
    | (with_reducible refine inv_faultRecord ?_ (by assumption))
    | (with_reducible refine pair_inv (by with_reducible assumption) ?_)
    | (with_reducible refine EqFate.inv_go (by with_reducible assumption) ?_)
    | (with_reducible refine EqFate.inv_trap (by with_reducible assumption) ?_)
    | (with_reducible refine EqFate.inv_full (by with_reducible assumption) ?_)
    | (split)

theorem inv_copyStep {s : State} (h : s.Inv) (w : Who) (c : CopyClass) : (copyStep s w c).Inv := by
  unfold copyStep
  try dsimp only
  repeat' first
    | (with_reducible assumption)
    | (with_reducible refine inv_makeCopy ?_ ..)
    | (with_reducible refine inv_retireCopy ?_ ..)
    | (with_reducible refine inv_copyAdd ?_ ..)
    | (simp only [inv_mk]; with_reducible refine inv_intro ?_)
    | (split)

theorem inv_enqueue {i : Iss} (h : i.s.Inv) (k : CopyOp) (reads : List (W64 × Nat)) (writes : List (W64 × Nat)) : (enqueue
    i k reads writes).Inv := by
  unfold enqueue
  try dsimp only
  repeat' first
    | (with_reducible assumption)
    | (with_reducible refine inv_gateBoth ?_ ..)
    | (with_reducible refine inv_modGrp ?_ ..)
    | (with_reducible refine inv_terminateWith ?_ ..)
    | (with_reducible refine EqFate.inv_go (by with_reducible assumption) ?_)
    | (with_reducible refine EqFate.inv_trap (by with_reducible assumption) ?_)
    | (with_reducible refine EqFate.inv_full (by with_reducible assumption) ?_)
    | (with_reducible refine Act.mk_done ?_)
    | (with_reducible refine Act.mk_trap ?_)
    | (with_reducible refine Act.mk_again ?_)
    | (with_reducible refine Act.mk_at ?_)
    | (split)

theorem inv_abortParts {s : State} (h : s.Inv) (w : Who) (k : CopyOp) (x : Nat) (ps : List Piece) : (abortParts s w k x ps).1.Inv := by
  unfold abortParts
  dsimp only
  refine foldl_keeps (P := fun r : (State × List (Bool × List Move)) × List Piece => r.1.1.Inv) (fun a b h => ?_) _ h
  have p := inv_planPieces h w k (if k.cls == .coll then takeBytes (atomSize k.wd.toNat) a.2 else (a.2.take 1, a.2.drop 1)).1
  split
  · rename_i u ms e
    rw [e] at p
    have g (b : Bool) (t : State) : (if b = true then (if (ms.isEmpty || ms.any fun m => match m.src with
          | .dev .. => true
          | _ => false) = true then none else match movesGate u w k ms with
        | .go s => some s
        | _ => none) else none) = some t → t.Inv := by
      intro e
      cases b with
      | false => cases e
      | true =>
        rw [if_pos rfl] at e
        split at e
        · cases e
        · split at e
          · next e2 => cases e; exact EqFate.inv_go e2 (inv_movesGate p ..)
          · cases e
    split
    · next e =>
      exact inv_forget (inv_moveParts (g _ _ e) ..) ..
    · exact p
  · exact h

theorem inv_copyIssue {i : Iss} (h : i.s.Inv) (x : CopyForm) (cls : CopyClass) (aligned : W64 → W64 → Nat → Bool) :
    (copyIssue i x cls aligned).Inv := by
  unfold copyIssue
  try dsimp only
  repeat' first
    | (with_reducible assumption)
    | (with_reducible refine inv_enqueue ?_ ..)
    | (with_reducible refine Act.mk_trap ?_)
    | (split)

theorem inv_abortCopy {s : State} (h : s.Inv) (w : Who) (k : CopyOp) (addr : Nat) (written : Nat) (cause : BitVec 8) :
    (abortCopy s w k addr written cause).Inv := by
  unfold abortCopy
  repeat' first
    | (with_reducible assumption)
    | (with_reducible refine inv_abortParts ?_ ..)
    | (with_reducible refine inv_reportCopy ?_ ..)
    | (with_reducible refine inv_retireCopy ?_ ..)
    | (simp only [inv_mk]; with_reducible refine inv_intro ?_)
    | (split)

/-! ### Sys2Proof.Machine.Float -/

theorem inv_float2 {s : State} (h : s.Inv) (h : Hdr) (x : Alu) (f : FV → FV → FV × Bool) : outcomeInv (float2 h x s f) := by
  unfold float2
  repeat' first | (with_reducible assumption) | (with_reducible refine inv_aluOp ?_ ..)

theorem inv_cvtOp {s : State} (h : s.Inv) (h : Hdr) (x : CvtForm) (useB : Bool) (f : Nat → Nat → FRes) : outcomeInv (cvtOp
    h x useB s f) := by
  unfold cvtOp
  repeat' first | (with_reducible assumption) | (with_reducible refine inv_regOp ?_ ..)

theorem inv_double2 {s : State} (h : s.Inv) (h : Hdr) (x : Alu) (f : FV → FV → FV × Bool) : outcomeInv (double2 h x s f)
    := by
  unfold double2
  repeat' first | (with_reducible assumption) | (with_reducible refine inv_aluOp ?_ ..)

/-! ### Sys2Proof.Machine.Sync -/

theorem inv_failWait {s : State} (h : s.Inv) (w : Who) (cause : BitVec 8) (tv : List W64) : (failWait s w cause tv).Inv := by
  unfold failWait
  repeat' first
    | (with_reducible assumption)
    | (with_reducible refine inv_enterHandler ?_ ..)
    | (with_reducible refine inv_modGrp ?_ ..)
    | (with_reducible refine inv_forget ?_ ..)
    | (with_reducible refine inv_unparkAll ?_ ..)

theorem inv_waitAnswers {s t : State} {g : Group} {far : Nat → Far} (e : waitAnswers s g = some (t, far)) (h : s.Inv) : t.Inv := by
  unfold waitAnswers at e
  split at e
  · cases e; exact h
  · cases e

theorem inv_endWait {s : State} (h : s.Inv) (w : Who) (h : Hdr) (x : WaitForm) (ok : Bool) (fired : BitVec 4) : (endWait s
    w h x ok fired).Inv := by
  unfold endWait
  repeat' first
    | (with_reducible assumption)
    | (with_reducible refine inv_logOwn ?_ ..)
    | (with_reducible refine inv_modGrp ?_ ..)
    | (with_reducible refine inv_forget ?_ ..)
    | (with_reducible refine inv_unparkAll ?_ ..)

theorem inv_recordWait {s t : State} {recs new : List Nat} {w : Who} {x : WaitForm} (e : recordWait s w x recs = .ok (t, new)) (h : s.Inv) : t.Inv := by
  let P : Except W64 (State × List Nat) → Prop := fun p => ∀ q, p = .ok q → q.1.Inv
  have : P (recordWait s w x recs) := by
    unfold recordWait
    refine foldl_keeps (P := P) (fun p k hp => ?_) _ (fun q e => by cases e; exact h)
    split
    · intro q e
      cases e
    · have h1 := hp _ rfl
      dsimp only
      split
      · exact hp
      · split
        · next e2 =>
          have h2 := pair_inv e2 (inv_resolve h1 ..)
          split
          · intro q e; cases e; exact h2
          · split
            · intro q e; cases e
            · intro q e; cases e; exact inv_park h2 ..
        · next e2 => intro q e; cases e; exact pair_inv e2 (inv_resolve h1 ..)
  exact this _ e

theorem inv_testWord {s : State} (h : s.Inv) (w : Who) (x : W128) (far : Far) : (testWord s w x far).1.Inv := by
  unfold testWord
  try dsimp only
  repeat' first
    | (with_reducible assumption)
    | (with_reducible refine inv_resolve ?_ ..)
    | (with_reducible refine inv_equinoxGate ?_ ..)
    | (with_reducible refine inv_countLookups ?_ ..)
    | (with_reducible refine pair_inv (by with_reducible assumption) ?_)
    | (with_reducible refine EqFate.inv_go (by with_reducible assumption) ?_)
    | (with_reducible refine EqFate.inv_trap (by with_reducible assumption) ?_)
    | (with_reducible refine EqFate.inv_full (by with_reducible assumption) ?_)
    | (split)

theorem inv_testCond {s : State} (h : s.Inv) (w : Who) (x : W128) (far : Far) : (testCond s w x far).1.Inv := by
  unfold testCond
  repeat' first | (with_reducible assumption) | (with_reducible refine inv_testWord ?_ ..) | (split)

theorem inv_testAll {s : State} (h : s.Inv) (w : Who) (x : WaitForm) (far : Nat → Far) : (testAll s w x far).s.Inv := by
  unfold testAll
  refine foldl_keeps (P := fun t : Tests => t.s.Inv) (fun t k ht => ?_) _ h
  have hc := inv_testCond ht w (wOf w.g k) (far k)
  repeat' first
    | (with_reducible assumption)
    | (with_reducible refine pair_inv (by with_reducible assumption) ?_)
    | (dsimp only)
    | split
theorem inv_waitLoop {s : State} (h : s.Inv) (w : Who) (t : WaitSt) (hd : Hdr) (x : WaitForm) (far : Nat → Far) :
    (waitLoop s w t hd x far).Inv := by
  have ht := inv_testAll h w x far
  unfold waitLoop
  generalize testAll s w x far = r at *
  dsimp only
  repeat' first
    | (with_reducible assumption)
    | (with_reducible refine inv_foldl_pair (fun s c q h => inv_sendTo h ..) _ ?_)
    | (with_reducible refine inv_failWait ?_ ..)
    | (with_reducible refine inv_endWait ?_ ..)
    | (with_reducible refine inv_terminateWith ?_ ..)
    | (with_reducible refine inv_modGrp ?_ ..)
    | (with_reducible refine inv_faultRecord ?_ (by assumption))
    | (with_reducible refine inv_recordWait (by with_reducible assumption) ?_)
    | split

theorem inv_retestWait {s : State} (h : s.Inv) (r : GRef) (poll : Bool) : (retestWait s r poll).Inv := by
  unfold retestWait
  split
  · exact h
  · split
    · dsimp only
      split
      · next e =>
        split at e
        · cases e
        · exact inv_waitLoop (inv_modGrp (inv_waitAnswers e h) ..) ..
      · repeat' first
          | (with_reducible assumption)
          | (with_reducible refine inv_waitLoop ?_ ..)
          | (with_reducible refine inv_endWait ?_ ..)
          | (with_reducible refine inv_modGrp ?_ ..)
          | split
    · exact h

theorem inv_arrive {s : State} (h : s.Inv) (w : Who) (n : Nat) : (arrive s w n).Inv := by
  unfold arrive
  repeat' first
    | (with_reducible assumption)
    | (with_reducible refine inv_tryComplete ?_ ..)
    | (with_reducible refine inv_modLaunch ?_ ..)

theorem inv_popSide {s : State} (h : s.Inv) (r : GRef) : (popSide s r).Inv := by
  unfold popSide
  repeat' first | (with_reducible assumption) | (with_reducible refine inv_modGrp ?_ ..)

theorem inv_tryDue {s : State} (h : s.Inv) (li : Nat) : (tryDue s li).Inv := by
  unfold tryDue
  repeat' first
    | (with_reducible assumption)
    | (intro _; try dsimp only)
    | (with_reducible refine inv_tryComplete ?_ ..)
    | (with_reducible refine inv_foldl ?_ _ ?_)
    | (split)

theorem inv_replayAnswered {s : State} (h : s.Inv) (w : Who) (e : SideEntry) : (replayAnswered s w e).Inv := by
  unfold replayAnswered
  repeat' first
    | (with_reducible assumption)
    | (with_reducible refine inv_popSide ?_ ..)
    | (with_reducible refine inv_forget ?_ ..)
    | (with_reducible refine inv_tryDue ?_ ..)
    | (with_reducible refine inv_deliver ?_ ..)
    | (split)

theorem inv_setHead {s : State} (h : s.Inv) (r : GRef) (e : SideEntry) : (setHead s r e).Inv := by
  unfold setHead
  repeat' first | (with_reducible assumption) | (with_reducible refine inv_modGrp ?_ ..)

theorem inv_replayItem {s : State} (h : s.Inv) (w : Who) (e : SideEntry) (addr : W64) (data : W128) (loc : Loc) :
    (replayItem s w e addr data loc).1.Inv := by
  unfold replayItem
  try dsimp only
  repeat' first
    | (with_reducible assumption)
    | (intro _; try dsimp only)
    | (with_reducible refine inv_settleAt ?_ ..)
    | (with_reducible refine inv_sendTo ?_ ..)
    | (with_reducible refine inv_setPte ?_ ..)
    | (with_reducible refine inv_bufferOp ?_ ..)
    | (with_reducible refine inv_atomAt ?_ ..)
    | (with_reducible refine inv_storeLane ?_ ..)
    | (with_reducible refine inv_foldl ?_ _ ?_)
    | (split)

theorem inv_replaySide {s : State} (h : s.Inv) (r : GRef) : (replaySide s r).Inv := by
  unfold replaySide
  try dsimp only
  repeat' first
    | (with_reducible assumption)
    | (intro _; try dsimp only)
    | (with_reducible refine inv_replayAnswered ?_ ..)
    | (with_reducible refine inv_resolve ?_ ..)
    | (with_reducible refine inv_tryDue ?_ ..)
    | (with_reducible refine inv_deliver ?_ ..)
    | (with_reducible refine inv_popSide ?_ ..)
    | (with_reducible refine inv_tellPages ?_ ..)
    | (with_reducible refine inv_setHead ?_ ..)
    | (with_reducible refine inv_modGrp ?_ ..)
    | (with_reducible refine inv_terminateWith ?_ ..)
    | (with_reducible refine inv_equinoxGate ?_ ..)
    | (with_reducible refine inv_replayItem ?_ ..)
    | (with_reducible refine inv_foldl_pair ?_ _ ?_)
    | (with_reducible refine pair_inv (by with_reducible assumption) ?_)
    | (with_reducible refine EqFate.inv_go (by with_reducible assumption) ?_)
    | (with_reducible refine EqFate.inv_trap (by with_reducible assumption) ?_)
    | (with_reducible refine EqFate.inv_full (by with_reducible assumption) ?_)
    | (split)

theorem inv_resumeBar {s : State} (h : s.Inv) (w : Who) (h : Hdr) (la : Bool) (d : BitVec 8) (c : BitVec 8) (n : Nat) (k :
    W32) : (resumeBar s w h la d c n k).Inv := by
  unfold resumeBar
  repeat' first
    | (with_reducible assumption)
    | (with_reducible refine inv_modGrp ?_ ..)
    | (with_reducible refine inv_ite ?_ ?_)

/-! ### Sys2Proof.Machine.Monitors -/

theorem inv_bad72 {i : Iss} {s : State} (_h : i.s.Inv) (h1 : s.Inv) (check : Nat) : (bad72 i s check).Inv := by
  unfold bad72
  repeat' first | (with_reducible assumption) | (with_reducible refine Act.mk_trap ?_)

theorem inv_countedFirst {i : Iss} {k : State → Act} (h : i.s.Inv) (h1 : ∀ k0, k0.Inv → (k k0).Inv) : (countedFirst i
    k).Inv := by
  unfold countedFirst
  try dsimp only
  repeat' first
    | (with_reducible assumption)
    | (with_reducible refine h1 _ ?_ )
    | (with_reducible refine inv_applyBuf ?_ ..)
    | (with_reducible refine Act.mk_again ?_)
    | (split)

theorem inv_withMonitor {i : Iss} {k : State → Monitor → Act} (h : i.s.Inv) (h1 : ∀ k0 k1, k0.Inv → (k k0 k1).Inv) (m :
    BitVec 8) : (withMonitor i m k).Inv := by
  unfold withMonitor
  repeat' first
    | (with_reducible assumption)
    | (intro _; try dsimp only)
    | (with_reducible refine h1 _ _ ?_ )
    | (with_reducible refine inv_bad72 ?_ ?_ ..)
    | (with_reducible refine inv_countedFirst ?_ ?_ ..)
    | (split)

theorem inv_setMonitor {s : State} (h : s.Inv) (blk : Nat) (n : Nat) (m : Monitor) : (setMonitor s blk n m).Inv := by
  unfold setMonitor
  repeat' first | (with_reducible assumption) | (with_reducible refine inv_modBlk ?_ ..)

theorem inv_readMonitor {s : State} (h : s.Inv) (h : Hdr) (d : BitVec 8) (a : BitVec 8) (n : Nat) (f : Monitor → List
    RegWrite) : outcomeInv (readMonitor h d a n s f) := by
  unfold readMonitor
  repeat' first
    | (with_reducible assumption)
    | (intro _; try dsimp only)
    | (with_reducible refine inv_issue ?_ ?_ ..)
    | (with_reducible refine inv_withMonitor ?_ ?_ ..)
    | (with_reducible refine Act.mk_later ?_)

/-! ### Sys2Proof.Machine.Queues -/

theorem inv_signalHost {s : State} (h : s.Inv) (q : Nat) : (signalHost s q).Inv := by
  unfold signalHost
  repeat' first | (with_reducible assumption) | (simp only [inv_mk]; with_reducible refine inv_intro ?_)

theorem inv_setQueue {s : State} (h : s.Inv) (q : Nat) (x : Queue) : (State.setQueue s q x).Inv := by
  unfold State.setQueue
  repeat' first | (with_reducible assumption) | (simp only [inv_mk]; with_reducible refine inv_intro ?_)

theorem inv_stopQueue {s : State} (h : s.Inv) (q : Nat) (code : BitVec 8) : (stopQueue s q code).Inv := by
  unfold stopQueue
  repeat' first
    | (with_reducible assumption)
    | (with_reducible refine inv_signalHost ?_ ..)
    | (with_reducible refine inv_modQueue ?_ ..)

theorem inv_packetWaits {s : State} (h : s.Inv) (q : Nat) (c : Nat) (a : W64) (write : Bool) : (packetWaits s q c a
    write).Inv := by
  unfold packetWaits
  repeat' first
    | (with_reducible assumption)
    | (with_reducible refine inv_stopQueue ?_ ..)
    | (with_reducible refine inv_faultRecord ?_ (by assumption))
    | (with_reducible refine Waits.mk_recorded ?_)
    | (with_reducible exact Waits.mk_noRoom)
    | (with_reducible refine Waits.mk_stopped ?_)
    | (split)

theorem inv_packetPiece {s : State} (h : s.Inv) (c : Nat) (a : W64) (n : Nat) (write : Bool) (counter : Bool) :
    (packetPiece s c a n write counter).1.Inv := by
  unfold packetPiece
  try dsimp only
  repeat' first
    | (with_reducible assumption)
    | (with_reducible refine inv_xlat ?_ ..)
    | (with_reducible refine pair_inv (by with_reducible assumption) ?_)
    | (split)

theorem inv_addMaxAt {s : State} (h : s.Inv) (loc : Loc) (x : Nat) : (addMaxAt s loc x).1.Inv := by
  unfold addMaxAt
  repeat' first
    | (with_reducible assumption)
    | (with_reducible refine inv_locWrite ?_ ..)
    | (with_reducible refine inv_pite ?_ ?_)

theorem inv_counterAddAt {s : State} (h : s.Inv) (c : Nat) (ctr : W64) (x : W64) : (counterAddAt s c ctr x).1.Inv := by
  unfold counterAddAt
  repeat' first
    | (with_reducible assumption)
    | (with_reducible refine inv_packetPiece ?_ ..)
    | (with_reducible refine inv_sendTo ?_ ..)
    | (with_reducible refine inv_setPte ?_ ..)
    | (with_reducible refine inv_addMaxAt ?_ ..)
    | (with_reducible refine pair_inv (by with_reducible assumption) ?_)
    | (split)

theorem inv_counterAdd {s : State} (h : s.Inv) (c : Nat) (ctr : W64) (x : W64) : (counterAdd s c ctr x).1.Inv := by
  unfold counterAdd
  repeat' first
    | (with_reducible assumption)
    | (with_reducible refine inv_counterAddAt ?_ ..)
    | (with_reducible refine inv_pite ?_ ?_)

theorem inv_settleLaunch {s : State} (h : s.Inv) (li : Nat) : (settleLaunch s li).Inv := by
  unfold settleLaunch
  try dsimp only
  repeat' first
    | (with_reducible assumption)
    | (with_reducible refine inv_signalHost ?_ ..)
    | (with_reducible refine inv_modQueue ?_ ..)
    | (with_reducible refine inv_modLaunch ?_ ..)
    | (with_reducible refine inv_stopQueue ?_ ..)
    | (with_reducible refine inv_packetWaits ?_ ..)
    | (with_reducible refine inv_counterAdd ?_ ..)
    | (with_reducible refine pair_inv (by with_reducible assumption) ?_)
    | (with_reducible refine Waits.inv_recorded (by with_reducible assumption) ?_)
    | (with_reducible refine Waits.inv_stopped (by with_reducible assumption) ?_)
    | (simp only [inv_mk]; with_reducible refine inv_intro ?_)
    | (split)

theorem inv_settleAll {s : State} (h : s.Inv) : (settleAll s).Inv := by
  unfold settleAll
  repeat' first
    | (with_reducible assumption)
    | (intro _; try dsimp only)
    | (with_reducible refine inv_settleLaunch ?_ ..)
    | (with_reducible refine inv_foldl ?_ _ ?_)

theorem inv_packetRange {s : State} (h : s.Inv) (c : Nat) (a : W64) (n : Nat) (write : Bool) : (packetRange s c a n
    write).1.Inv := by
  unfold packetRange
  repeat' first
    | (with_reducible assumption)
    | (intro _; try dsimp only)
    | (with_reducible refine inv_packetPiece ?_ ..)
    | (with_reducible refine inv_foldl_pair ?_ _ ?_)
    | (with_reducible refine pair_inv (by with_reducible assumption) ?_)
    | (split)

theorem inv_writePieces {s : State} (h : s.Inv) (ps : List Piece0) (bs : List Byte) (at_ : Nat) : (writePieces s ps bs
    at_).1.Inv := by
  unfold writePieces
  repeat' first
    | (with_reducible assumption)
    | (intro _; try dsimp only)
    | (with_reducible refine inv_sendTo ?_ ..)
    | (with_reducible refine inv_setPte ?_ ..)
    | (with_reducible refine inv_locWrite ?_ ..)
    | (with_reducible refine inv_foldl_pair ?_ _ ?_)
    | (split)

/-! ### Sys2Proof.Machine.Turn -/

theorem inv_marchTurn {s : State} (h : s.Inv) (q : Nat) : (marchTurn s q).Inv := by
  unfold marchTurn
  try dsimp only
  repeat' first
    | (with_reducible assumption)
    | (with_reducible refine inv_stopQueue ?_ ..)
    | (with_reducible refine Next.mk_run ?_)
    | (with_reducible refine Next.mk_moved ?_)
    | (split)

theorem inv_reserveEntries {s : State} (h : s.Inv) (blk : Nat) : (reserveEntries s blk).Inv := by
  unfold reserveEntries
  repeat' first | (with_reducible assumption) | (with_reducible refine inv_modBlk ?_ ..) | (split)

theorem inv_ordinalPlace_error {s t : State} {w : Who} {v : Level} {k off : Nat} (e : ordinalPlace s w v k off = .error t) (h : s.Inv) : t.Inv := by
  induction k generalizing off with
  | zero => cases e
  | succ k ih =>
    unfold ordinalPlace at e
    split at e
    · cases e; exact inv_fillAt h ..
    · exact ih e

theorem inv_refetchFrame {s : State} (h : s.Inv) (w : Who) (d : Nat) (f : HandlerFrame) : (refetchFrame s w d f).Inv := by
  unfold refetchFrame
  dsimp only
  split
  · next e => exact inv_fetchFail (pair_inv e (inv_readRegion h ..)) ..
  · next e => exact inv_terminateWith (pair_inv e (inv_readRegion h ..)) ..
  · next e =>
    have h1 := pair_inv e (inv_readRegion h ..)
    split
    · next e2 => exact inv_fetchFail (pair_inv e2 (inv_labelEntry h1 ..)) ..
    · next e2 =>
      have h2 := pair_inv e2 (inv_labelEntry h1 ..)
      split
      · next e3 => exact inv_ordinalPlace_error e3 h2
      · split
        · exact inv_fillAt h2 ..
        · exact inv_modGrp h2 ..

theorem inv_takeBank {s : State} (h : s.Inv) (w : Who) : (takeBank s w).Inv := by
  unfold takeBank
  repeat' first
    | (with_reducible assumption)
    | (with_reducible refine inv_modGrp ?_ ..)
    | (with_reducible refine inv_ite ?_ ?_)

theorem inv_readStart {s : State} (h : s.Inv) (w : Who) : (readStart s w).Inv := by
  unfold readStart
  repeat' first
    | (with_reducible assumption)
    | (with_reducible refine inv_readRegion ?_ ..)
    | (with_reducible refine inv_fetchFail ?_ ..)
    | (with_reducible refine inv_terminateWith ?_ ..)
    | (with_reducible refine inv_modGrp ?_ ..)
    | (with_reducible refine pair_inv (by with_reducible assumption) ?_)
    | (split)

theorem inv_debugHold {s t : State} {w : Who} {x y : W64} (e : debugHold s w x y = some t) (h : s.Inv) : t.Inv := by
  have ht : State.Inv { s with steps1 := s.steps1.filter (· ≠ w.r) } := h
  unfold debugHold at e
  dsimp only at e
  split at e
  · cases e
  · split at e
    · cases e
      exact inv_modGrp ht ..
    · split at e
      · cases e
        exact inv_enterHandler ht ..
      · split at e
        · cases e
          exact inv_modGrp h ..
        · cases e

theorem inv_sampled {s : State} (h : s.Inv) (w : Who) (x : W64) : (sampled s w x).Inv := by
  unfold sampled
  repeat' first
    | (with_reducible assumption)
    | (with_reducible refine inv_ite ?_ ?_)
    | (simp only [inv_mk]; with_reducible refine inv_intro ?_)

theorem inv_levelTurn {s : State} (h : s.Inv) (w : Who) : (levelTurn s w).Inv := by
  unfold levelTurn
  try dsimp only
  repeat' first
    | (with_reducible assumption)
    | (with_reducible refine inv_modGrp ?_ ..)
    | (with_reducible refine inv_terminateWith ?_ ..)
    | (with_reducible refine inv_labelEntry ?_ ..)
    | (with_reducible refine inv_fetchFail ?_ ..)
    | (with_reducible refine inv_sampled ?_ ..)
    | (with_reducible refine inv_debugHold (by with_reducible assumption) ?_)
    | (with_reducible refine pair_inv (by with_reducible assumption) ?_)
    | (with_reducible refine Next.mk_run ?_)
    | (with_reducible refine Next.mk_moved ?_)
    | (split)

theorem inv_groupTurn {s : State} (h : s.Inv) (r : GRef) : (groupTurn s r).Inv := by
  unfold groupTurn
  try dsimp only
  repeat' first
    | (with_reducible assumption)
    | (with_reducible refine inv_takeBank ?_ ..)
    | (with_reducible refine inv_readStart ?_ ..)
    | (with_reducible refine inv_refetchFrame ?_ ..)
    | (with_reducible refine inv_modGrp ?_ ..)
    | (with_reducible refine inv_levelTurn ?_ ..)
    | (with_reducible refine inv_countWake ?_ ..)
    | (with_reducible refine inv_enterHandler ?_ ..)
    | (with_reducible refine Next.mk_run ?_)
    | (with_reducible refine Next.mk_moved ?_)
    | (simp only [inv_mk]; with_reducible refine inv_intro ?_)
    | (split)

theorem inv_streamDesc {s : State} (h : s.Inv) (core : Nat) (c : Nat) (base : W64) : (streamDesc s core c base).1.Inv := by
  unfold streamDesc
  repeat' first
    | (with_reducible assumption)
    | (with_reducible refine inv_readCode ?_ ..)
    | (with_reducible refine pair_inv (by with_reducible assumption) ?_)
    | (split)

theorem inv_sequencerTurn {s : State} (h : s.Inv) (blk : Nat) : (sequencerTurn s blk).Inv := by
  unfold sequencerTurn
  split
  · exact h
  · split
    · exact h
    · refine if_keeps (P := Next.Inv) h (if_keeps (P := Next.Inv) h (if_keeps (P := Next.Inv) h (if_keeps (P := Next.Inv) (inv_reserveEntries h ..) (if_keeps (P := Next.Inv) h ?_))))
      have h1 (c : Option GRef) : State.Inv { s with cur := c } := h
      split
      · dsimp only
        split
        · next e => exact inv_modBlk (pair_inv e (inv_streamDesc (h1 _) ..)) ..
        · next e => exact inv_streamFail (pair_inv e (inv_streamDesc (h1 _) ..)) ..
      · refine if_keeps (P := Next.Inv) (inv_modBlk (h1 _) ..) ?_
        dsimp only
        split
        · exact h1 _
        · split
          · exact inv_modBlk (h1 _) ..
          · exact inv_modBlk (h1 _) ..

/-! ### Sys2Proof.Machine.Quantise -/

theorem inv_settleFlags {s : State} (h : s.Inv) (w : Who) : (settleFlags s w).Inv := by
  unfold settleFlags
  repeat' first | (with_reducible assumption) | (with_reducible refine inv_modGrp ?_ ..)

theorem inv_rangeFates {s : State} (h : s.Inv) (w : Who) (cls : Cls) (a : W64) (n : Nat) : (rangeFates s w cls a n).1.Inv
    := by
  unfold rangeFates
  repeat' first
    | (with_reducible assumption)
    | (intro _; try dsimp only)
    | (with_reducible refine inv_resolve ?_ ..)
    | (with_reducible refine inv_foldl_pair ?_ _ ?_)

theorem inv_tornWrite {s : State} (h : s.Inv) (w : Who) (fs : PieceLocs) (bs : List Byte) : (tornWrite s w fs bs).1.Inv := by
  unfold tornWrite
  repeat' first
    | (with_reducible assumption)
    | (intro _; try dsimp only)
    | (with_reducible refine inv_sendTo ?_ ..)
    | (with_reducible refine inv_setPte ?_ ..)
    | (with_reducible refine inv_storeLane ?_ ..)
    | (with_reducible refine inv_settleAt ?_ ..)
    | (with_reducible refine inv_foldl_pair ?_ _ ?_)
    | (simp only [inv_mk]; with_reducible refine inv_intro ?_)
    | (split)

theorem inv_tileWrite {s : State} (h : s.Inv) (w : Who) (fs : PieceLocs) (bs : List Byte) : (tileWrite s w fs bs).1.Inv := by
  unfold tileWrite
  repeat' first
    | (with_reducible assumption)
    | (intro _; try dsimp only)
    | (with_reducible refine inv_sendTo ?_ ..)
    | (with_reducible refine inv_setPte ?_ ..)
    | (with_reducible refine inv_storeLane ?_ ..)
    | (with_reducible refine inv_settleAt ?_ ..)
    | (with_reducible refine inv_foldl_pair ?_ _ ?_)
    | (split)

theorem inv_transferMade {i : Iss} {s : State} {torn : List Byte → State → State} {make : List Byte → Made} (h1 : s.Inv)
    (h2 : ∀ bs s, s.Inv → (torn bs s).Inv) (h3 : ∀ bs cs k s, make bs = .ok (cs, k) → s.Inv → (k s).Inv) (sid : BitVec 4) (fs fd : PieceLocs)
    (got : Nat → List Byte) : (transferMade i sid torn make s fs fd got).Inv := by
  unfold transferMade
  try dsimp only
  repeat' first
    | (with_reducible assumption)
    | (with_reducible refine h2 _ _ ?_)
    | (with_reducible refine h3 _ _ _ _ (by with_reducible assumption) ?_)
    | (with_reducible refine inv_modGrp ?_ ..)
    | (with_reducible refine inv_logAccess ?_ ..)
    | (with_reducible refine inv_tornWrite ?_ ..)
    | (with_reducible refine inv_tileWrite ?_ ..)
    | (with_reducible refine Act.mk_done ?_)
    | (with_reducible refine Act.mk_trap ?_)
    | (with_reducible refine Act.mk_again ?_)
    | (dsimp only)
    | (split)

theorem inv_transfer {i : Iss} {s : State} {torn : List Byte → State → State} {make : List Byte → Made} (h : i.s.Inv) (h1 : s.Inv)
    (h2 : ∀ bs s, s.Inv → (torn bs s).Inv) (h3 : ∀ bs cs k s, make bs = .ok (cs, k) → s.Inv → (k s).Inv) (sid : BitVec 4) (chk : TileCheck)
    (fs fd : List (Nat × W64 × Nat × Fate)) (srcs dsts : List (W64 × Nat)) : (transfer i s sid chk fs fd srcs dsts torn make).Inv := by
  unfold transfer
  try dsimp only
  repeat' first
    | (with_reducible assumption)
    | (intro _; try dsimp only)
    | (with_reducible refine inv_terminateWith ?_ ..)
    | (with_reducible refine inv_recordBoth ?_ ..)
    | (with_reducible refine inv_gateBoth ?_ ..)
    | (with_reducible refine inv_countLookups ?_ ..)
    | (with_reducible refine inv_withAnswers ?_ ?_ ?_ ..)
    | (with_reducible refine inv_answered ?_ ?_ ..)
    | (with_reducible refine inv_transferMade ?_ ?_ ?_ ..)
    | (with_reducible refine pair_inv (by with_reducible assumption) ?_)
    | (with_reducible refine inv_recordBoth_ok (by with_reducible assumption) ?_)
    | (with_reducible refine EqFate.inv_go (by with_reducible assumption) ?_)
    | (with_reducible refine EqFate.inv_trap (by with_reducible assumption) ?_)
    | (with_reducible refine EqFate.inv_full (by with_reducible assumption) ?_)
    | (with_reducible refine Act.mk_done ?_)
    | (with_reducible refine Act.mk_trap ?_)
    | (with_reducible refine Act.mk_again ?_)
    | (dsimp only)
    | (split)

theorem inv_tileTransfer {i : Iss} (h : i.s.Inv) (sid : BitVec 4) (src dst : W64) (ns nd : Nat) (make : List Byte → Except (BitVec 8 × List W64) (List Byte × BitVec 7)) :
    (tileTransfer i sid src dst ns nd make).Inv := by
  unfold tileTransfer
  dsimp only
  refine inv_transfer h (inv_rangeFates (inv_rangeFates h ..) ..) (fun _ _ h => h) (fun bs cs k s e h => ?_) ..
  split at e
  · cases e
  · cases e
    exact inv_modGrp h ..

/-! ### Sys2Proof.Machine.Engine -/

theorem inv_setRpr {s : State} (h : s.Inv) (blk : Nat) (x : W32) : (setRpr s blk x).Inv := by
  unfold setRpr
  repeat' first | (with_reducible assumption) | (with_reducible refine inv_modBlk ?_ ..)

theorem inv_engStop {s : State} (h : s.Inv) (w : Who) (cause : BitVec 8) (tv : List W64) : (engStop s w cause tv).Inv := by
  unfold engStop
  repeat' first | (with_reducible assumption) | (with_reducible refine inv_streamStop ?_ ..)

theorem inv_Eng_run {α : Type} {r : Eng α} {k : State → α → State} (h : r.Inv) (h1 : ∀ s x, s.Inv → (k s x).Inv) (w : Who) (rows : Nat) : (Eng.run w rows r k).Inv := by
  unfold Eng.run
  split
  · exact h1 _ _ h
  · exact h
  · exact inv_engStop h ..
  · exact inv_engStop h ..

theorem inv_streamOp {s : State} {k : Who → State} (h : ∀ w, (k w).Inv) : outcomeInv (streamOp s k) := by
  unfold streamOp
  split
  · exact True.intro
  · exact h _

theorem inv_modSeq {s : State} (h : s.Inv) (blk : Nat) (f : Seq → Seq) : (modSeq s blk f).Inv := by
  unfold modSeq
  repeat' first | (with_reducible assumption) | (with_reducible refine inv_modBlk ?_ ..)

theorem inv_engLookups {s : State} (h : s.Inv) (w : Who) (type : Nat) (part : Nat) (fs : List EngPiece) : (engLookups s w
    type part fs).Inv := by
  unfold engLookups
  repeat' first
    | (with_reducible assumption)
    | (with_reducible refine inv_modSeq ?_ ..)
    | (with_reducible refine inv_countLookups ?_ ..)
    | (with_reducible refine inv_ite ?_ ?_)

theorem inv_engFates {s : State} (h : s.Inv) (w : Who) (cls : Cls) (spans : List (Nat × W64 × Nat)) : (engFates s w cls
    spans).1.Inv := by
  unfold engFates
  repeat' first
    | (with_reducible assumption)
    | (intro _; try dsimp only)
    | (with_reducible refine inv_resolve ?_ ..)
    | (with_reducible refine inv_foldl_pair ?_ _ ?_)

theorem inv_engService {s : State} (h : s.Inv) (w : Who) (va : W64) (write : Bool) : (engService s w va write).Inv := by
  unfold engService
  repeat' first
    | (with_reducible assumption)
    | (with_reducible refine inv_modSeq ?_ ..)
    | (with_reducible refine inv_terminateWith ?_ ..)
    | (with_reducible refine inv_faultRecord ?_ (by assumption))
    | (split)

theorem inv_engGate {s : State} (h : s.Inv) (w : Who) (type : Nat) (part : Nat) (reads : Bool) (stop : Bool) (fs : List
    EngPiece) : (engGate s w type part reads stop fs).Inv := by
  unfold engGate
  repeat' first
    | (with_reducible assumption)
    | (with_reducible refine inv_engService ?_ ..)
    | (with_reducible refine inv_equinoxGate ?_ ..)
    | (with_reducible refine inv_terminateWith ?_ ..)
    | (with_reducible refine inv_engLookups ?_ ..)
    | (with_reducible refine EqFate.inv_go (by with_reducible assumption) ?_)
    | (with_reducible refine EqFate.inv_trap (by with_reducible assumption) ?_)
    | (with_reducible refine EqFate.inv_full (by with_reducible assumption) ?_)
    | (with_reducible refine Eng.mk_go ?_)
    | (with_reducible refine Eng.mk_stop ?_)
    | (with_reducible refine Eng.mk_rest ?_)
    | (split)

theorem inv_engRead {s : State} (h : s.Inv) (w : Who) (phase : Nat) (spans : List (Nat × W64 × Nat)) : (engRead s w phase
    spans).Inv := by
  unfold engRead
  try dsimp only
  repeat' first
    | (with_reducible assumption)
    | (intro _; try dsimp only)
    | (with_reducible refine inv_engFates ?_ ..)
    | (with_reducible refine inv_engGate ?_ ..)
    | (with_reducible refine inv_sendTo ?_ ..)
    | (with_reducible refine inv_modSeq ?_ ..)
    | (with_reducible refine inv_foldl ?_ _ ?_)
    | (with_reducible refine Eng.inv_go (by with_reducible assumption) ?_)
    | (with_reducible refine Eng.inv_stop (by with_reducible assumption) ?_)
    | (with_reducible refine Eng.inv_rest (by with_reducible assumption) ?_)
    | (with_reducible refine Eng.mk_go ?_)
    | (with_reducible refine Eng.mk_stop ?_)
    | (with_reducible refine Eng.mk_rest ?_)
    | (split)

theorem inv_setAccRows {s : State} (h : s.Inv) (blk : Nat) (region : Nat) (row : Nat) (xs : List W32) : (setAccRows s blk
    region row xs).Inv := by
  unfold setAccRows
  repeat' first | (with_reducible assumption) | (with_reducible refine inv_modBlk ?_ ..)

theorem inv_dropAnswers {s : State} (h : s.Inv) (blk : Nat) : (dropAnswers s blk).Inv := by
  unfold dropAnswers
  repeat' first
    | (with_reducible assumption)
    | (with_reducible refine inv_modSeq ?_ ..)
    | (with_reducible refine inv_forget ?_ ..)
    | (split)

theorem inv_addBflags {s : State} (h : s.Inv) (blk : Nat) (f : BitVec 7) : (addBflags s blk f).Inv := by
  unfold addBflags
  repeat' first | (with_reducible assumption) | (with_reducible refine inv_modBlk ?_ ..)

theorem inv_engDone {s : State} (h : s.Inv) (blk : Nat) (keep : Bool) : (engDone s blk keep).Inv := by
  unfold engDone
  repeat' first
    | (with_reducible assumption)
    | (with_reducible refine inv_modBlk ?_ ..)
    | (with_reducible refine inv_dropAnswers ?_ ..)

theorem inv_putCells {s : State} (h : s.Inv) (blk : Nat) (region : Nat) (row : Nat) (rs : List FRes) : (putCells s blk
    region row rs).Inv := by
  unfold putCells
  repeat' first
    | (with_reducible assumption)
    | (with_reducible refine inv_addBflags ?_ ..)
    | (with_reducible refine inv_setAccRows ?_ ..)

/-! ### Sys2Proof.Machine.Matrix -/

theorem inv_engChecked {s : State} {k : State} (h : s.Inv) (h1 : k.Inv) (w : Who) (fail : Option (Nat × Nat)) (regions :
    List (Nat × Nat)) : (engChecked s w fail regions k).Inv := by
  unfold engChecked
  repeat' first | (with_reducible assumption) | (with_reducible refine inv_engStop ?_ ..) | (split)

theorem inv_scaleRun {s : State} (h : s.Inv) (w : Who) (d : Nat) (a : Nat) (scale : Nat → Nat → Nat) : (scaleRun s w d a
    scale).Inv := by
  unfold scaleRun
  repeat' first
    | (with_reducible assumption)
    | (intro _; try dsimp only)
    | (with_reducible refine inv_engDone ?_ ..)
    | (with_reducible refine inv_putCells ?_ ..)
    | (with_reducible refine inv_foldl ?_ _ ?_)
    | (split)

theorem inv_loadB {s : State} (h : s.Inv) (w : Who) (p : Pass) (got : Option (List (List Nat))) : (loadB s w p got).Inv := by
  unfold loadB
  try dsimp only
  repeat' first
    | (with_reducible assumption)
    | (with_reducible refine inv_engRead ?_ ..)
    | (with_reducible refine Eng.inv_go (by with_reducible assumption) ?_)
    | (with_reducible refine Eng.inv_stop (by with_reducible assumption) ?_)
    | (with_reducible refine Eng.inv_rest (by with_reducible assumption) ?_)
    | (with_reducible refine Eng.mk_go ?_)
    | (with_reducible refine Eng.mk_stop ?_)
    | (with_reducible refine Eng.mk_rest ?_)
    | (split)

theorem inv_dropHeld {s : State} (h : s.Inv) (quad : Nat) (blk : Nat) : (dropHeld s quad blk).Inv := by
  unfold dropHeld
  repeat' first
    | (with_reducible assumption)
    | (intro _; try dsimp only)
    | (with_reducible refine inv_modSeq ?_ ..)
    | (with_reducible refine inv_foldl ?_ _ ?_)
    | (split)

theorem inv_rowFates {s : State} (h : s.Inv) (w : Who) (cls : Cls) (a : W64) (stride : Nat) : (rowFates s w cls a
    stride).1.Inv := by
  unfold rowFates
  repeat' first
    | (with_reducible assumption)
    | (intro _; try dsimp only)
    | (with_reducible refine inv_resolve ?_ ..)
    | (with_reducible refine inv_foldl_pair ?_ _ ?_)

theorem inv_endDrain {s : State} (h : s.Inv) (w : Who) (p : DrainPlan) : (endDrain s w p).Inv := by
  unfold endDrain
  repeat' first
    | (with_reducible assumption)
    | (with_reducible refine inv_addBflags ?_ ..)
    | (with_reducible refine inv_engStop ?_ ..)
    | (with_reducible refine inv_modBlk ?_ ..)
    | (with_reducible refine inv_engDone ?_ ..)
    | (split)

theorem inv_drainMerged {s : State} (h : s.Inv) (w : Who) (p : DrainPlan) (a : W64) (id : Nat) : (drainMerged s w p a
    id).Inv := by
  unfold drainMerged
  repeat' first
    | (with_reducible assumption)
    | (with_reducible refine inv_engStop ?_ ..)
    | (with_reducible refine inv_endDrain ?_ ..)
    | (with_reducible refine inv_ite ?_ ?_)

theorem inv_mergeMax {s : State} (h : s.Inv) (w : Who) (a : W64) (loc : Loc) (x : Nat) : (mergeMax s w a loc x).Inv := by
  unfold mergeMax
  repeat' first
    | (with_reducible assumption)
    | (with_reducible refine inv_sendTo ?_ ..)
    | (with_reducible refine inv_setPte ?_ ..)
    | (with_reducible refine inv_modSeq ?_ ..)
    | (with_reducible refine inv_bufferOp ?_ ..)
    | (with_reducible refine inv_locWrite ?_ ..)
    | (split)

theorem inv_drainPieces {s : State} (h : s.Inv) (w : Who) (ps : List (Nat × W64 × List Byte)) : (drainPieces s w ps).1.Inv
    := by
  unfold drainPieces
  try dsimp only
  repeat' first
    | (with_reducible assumption)
    | (intro _; try dsimp only)
    | (with_reducible refine inv_engFates ?_ ..)
    | (with_reducible refine inv_storeLane ?_ ..)
    | (with_reducible refine inv_foldl_pair ?_ _ ?_)
    | (split)

theorem inv_mergeWord {s : State} (h : s.Inv) (w : Who) (a : W64) : (mergeWord s w a).Inv := by
  unfold mergeWord
  try dsimp only
  repeat' first
    | (with_reducible assumption)
    | (with_reducible refine inv_resolve ?_ ..)
    | (with_reducible refine inv_engGate ?_ ..)
    | (with_reducible refine Eng.inv_go (by with_reducible assumption) ?_)
    | (with_reducible refine Eng.inv_stop (by with_reducible assumption) ?_)
    | (with_reducible refine Eng.inv_rest (by with_reducible assumption) ?_)
    | (with_reducible refine Eng.mk_go ?_)
    | (with_reducible refine Eng.mk_stop ?_)
    | (with_reducible refine Eng.mk_rest ?_)
    | (split)

theorem inv_writeDrain {s : State} (h : s.Inv) (w : Who) (p : DrainPlan) (mx : Option W64) : (writeDrain s w p mx).Inv := by
  unfold writeDrain
  try dsimp only
  repeat' first
    | (with_reducible assumption)
    | (intro _; try dsimp only)
    | (with_reducible refine inv_mergeMax ?_ ..)
    | (with_reducible refine inv_endDrain ?_ ..)
    | (with_reducible refine inv_equinoxGate ?_ ..)
    | (with_reducible refine inv_engStop ?_ ..)
    | (with_reducible refine inv_terminateWith ?_ ..)
    | (with_reducible refine inv_drainPieces ?_ ..)
    | (with_reducible refine inv_engService ?_ ..)
    | (with_reducible refine inv_engLookups ?_ ..)
    | (with_reducible refine inv_Eng_run ?_ ?_ ..)
    | (with_reducible refine inv_mergeWord ?_ ..)
    | (with_reducible refine pair_inv (by with_reducible assumption) ?_)
    | (with_reducible refine EqFate.inv_go (by with_reducible assumption) ?_)
    | (with_reducible refine EqFate.inv_full (by with_reducible assumption) ?_)
    | (with_reducible refine Eng.inv_go (by with_reducible assumption) ?_)
    | (with_reducible refine Eng.inv_rest (by with_reducible assumption) ?_)
    | (split)

theorem inv_runDrain {s : State} (h : s.Inv) (w : Who) (p : DrainPlan) (mx : Option W64) : (runDrain s w p mx).Inv := by
  unfold runDrain
  repeat' first
    | (with_reducible assumption)
    | (with_reducible refine inv_drainMerged ?_ ..)
    | (with_reducible refine inv_writeDrain ?_ ..)
    | (split)

theorem inv_ldaccRows {s : State} (h : s.Inv) (blk d : Nat) (t : Tile) (r0 c0 : Nat) (rows : List Nat) : (ldaccRows blk d t r0 c0 rows s).Inv := by
  induction rows generalizing s with
  | nil =>
    unfold ldaccRows
    exact inv_engDone h ..
  | cons row rest ih =>
    unfold ldaccRows
    split
    · exact h
    · split
      · exact h
      · refine inv_Eng_run (inv_engRead h ..) (fun s get h => ?_) ..
        exact ih (inv_dropAnswers (inv_setRpr (inv_setAccRows h ..) ..) ..)

theorem inv_checkPass {s : State} {k : State → List (List (Option Nat)) → State} (h : s.Inv) (h1 : ∀ k0 k1, k0.Inv → (k k0
    k1).Inv) (w : Who) (p : Pass) : (checkPass s w p k).Inv := by
  unfold checkPass
  repeat' first
    | (with_reducible assumption)
    | (intro _; try dsimp only)
    | (with_reducible refine h1 _ _ ?_ )
    | (with_reducible refine inv_Eng_run ?_ ?_ ..)
    | (with_reducible refine inv_engRead ?_ ..)
    | (with_reducible refine inv_engStop ?_ ..)
    | (split)

theorem inv_endPass {s : State} (h : s.Inv) (blk : Nat) (p : Pass) (held : List Held) : (endPass s blk p held).Inv := by
  unfold endPass
  repeat' first
    | (with_reducible assumption)
    | (with_reducible refine inv_modSeq ?_ ..)
    | (with_reducible refine inv_dropAnswers ?_ ..)
    | (with_reducible refine inv_engDone ?_ ..)
    | (with_reducible refine inv_setRpr ?_ ..)
    | (with_reducible refine inv_ite ?_ ?_)

theorem inv_loadA {s : State} (h : s.Inv) (w : Who) (p : Pass) (row : Nat) (held : Option (List (List Nat))) : (loadA s w
    p row held).Inv := by
  unfold loadA
  try dsimp only
  repeat' first
    | (with_reducible assumption)
    | (with_reducible refine inv_engRead ?_ ..)
    | (with_reducible refine Eng.inv_go (by with_reducible assumption) ?_)
    | (with_reducible refine Eng.inv_stop (by with_reducible assumption) ?_)
    | (with_reducible refine Eng.inv_rest (by with_reducible assumption) ?_)
    | (with_reducible refine Eng.mk_go ?_)
    | (with_reducible refine Eng.mk_stop ?_)
    | (with_reducible refine Eng.mk_rest ?_)
    | (split)

theorem inv_keepLoaded {s : State} (h : s.Inv) (blk : Nat) (p : Pass) (as : List (List Nat)) (b : List (List Nat)) :
    (keepLoaded s blk p as b).Inv := by
  unfold keepLoaded
  repeat' first | (with_reducible assumption) | (with_reducible refine inv_modSeq ?_ ..)

theorem inv_passRows {s : State} (h : s.Inv) (blk : Nat) (p : Pass) (ns : List (List (Option Nat))) (heldA : Option (List (List Nat)))
    (rows : List Nat) (as : List (List Nat)) (b : Option (List (List Nat))) : (passRows blk p ns heldA rows as b s).Inv := by
  induction rows generalizing s as b with
  | nil =>
    unfold passRows
    exact inv_endPass h ..
  | cons row rest ih =>
    unfold passRows
    split
    · exact h
    · split
      · exact h
      · refine inv_Eng_run (inv_loadA h ..) (fun s a h => inv_Eng_run (inv_loadB h ..) (fun s bb h => ?_) ..) ..
        exact ih (inv_keepLoaded (inv_setRpr (inv_putCells h ..) ..) ..) ..

theorem inv_runPass {s : State} (h : s.Inv) (w : Who) : (runPass s w).Inv := by
  unfold runPass
  repeat' first
    | (with_reducible assumption)
    | (intro _; try dsimp only)
    | (with_reducible refine inv_checkPass ?_ ?_ ..)
    | (with_reducible refine inv_passRows ?_ ?_ ..)
    | (split)

theorem inv_badWord {s : State} (h : s.Inv) (w : Who) : (badWord s w).Inv := by
  unfold badWord
  repeat' first | (with_reducible assumption) | (with_reducible refine inv_engStop ?_ ..)

theorem inv_mchkTiles {s : State} (h : s.Inv) (w : Who) (fmt : Nat) (ts : List Nat) (phase : Nat) : (mchkTiles w fmt ts phase s).Inv := by
  induction ts generalizing s phase with
  | nil => exact inv_engDone h ..
  | cons t rest ih =>
    unfold mchkTiles
    refine inv_Eng_run (inv_engRead h ..) (fun s get h => ?_) ..
    split
    · exact inv_engStop h ..
    · exact ih h ..

theorem inv_reserve {s : State} (h : s.Inv) (w : Who) : (reserve s w).Inv := by
  unfold reserve
  repeat' first | (with_reducible assumption) | (with_reducible refine inv_modBlk ?_ ..)

/-! ### Sys2Proof.Machine.Save -/

theorem inv_stopGroup {s : State} (h : s.Inv) (r : GRef) : (stopGroup s r).Inv := by
  unfold stopGroup
  repeat' first
    | (with_reducible assumption)
    | (with_reducible refine inv_modGrp ?_ ..)
    | (with_reducible refine inv_unparkAll ?_ ..)
    | (split)

theorem inv_stopGroups {s : State} (h : s.Inv) (blk : Nat) : (stopGroups s blk).Inv := by
  unfold stopGroups
  repeat' first
    | (with_reducible assumption)
    | (intro _; try dsimp only)
    | (with_reducible refine inv_stopGroup ?_ ..)
    | (with_reducible refine inv_foldl ?_ _ ?_)
    | (split)

theorem inv_evict {s : State} (h : s.Inv) (blk : Nat) : (evict s blk).Inv := by
  unfold evict
  try dsimp only
  repeat' first
    | (with_reducible assumption)
    | (intro _; try dsimp only)
    | (with_reducible refine inv_stopGroups ?_ ..)
    | (with_reducible refine inv_writeVirtual ?_ ..)
    | (with_reducible refine inv_releaseGrans ?_ ..)
    | (with_reducible refine inv_leafTells ?_ ..)
    | (with_reducible refine inv_modBlk ?_ ..)
    | (with_reducible refine inv_foldl ?_ _ ?_)
    | (simp only [inv_mk]; with_reducible refine inv_intro ?_)
    | (split)

theorem inv_evictSoon {s : State} (h : s.Inv) (blk : Nat) : (evictSoon s blk).Inv := by
  unfold evictSoon
  try dsimp only
  repeat' first
    | (with_reducible assumption)
    | (with_reducible refine inv_modLeaf ?_ ..)
    | (with_reducible refine inv_evict ?_ ..)
    | (with_reducible refine inv_modBlk ?_ ..)
    | (split)

theorem inv_leafTurn {s : State} (h : s.Inv) (n : Nat) : (leafTurn s n).Inv := by
  unfold leafTurn
  try dsimp only
  repeat' first
    | (with_reducible assumption)
    | (intro _; try dsimp only)
    | (with_reducible refine inv_modLeaf ?_ ..)
    | (with_reducible refine inv_evictSoon ?_ ..)
    | (with_reducible refine inv_foldl ?_ _ ?_)
    | (split)

theorem inv_leafTurns {s : State} (h : s.Inv) : (leafTurns s).Inv := by
  unfold leafTurns
  repeat' first
    | (with_reducible assumption)
    | (intro _; try dsimp only)
    | (with_reducible refine inv_leafTurn ?_ ..)
    | (with_reducible refine inv_foldl ?_ _ ?_)
    | (with_reducible refine inv_ite ?_ ?_)

theorem inv_evictReady {s : State} (h : s.Inv) : (evictReady s).Inv := by
  unfold evictReady
  repeat' first
    | (with_reducible assumption)
    | (intro _; try dsimp only)
    | (with_reducible refine inv_evict ?_ ..)
    | (with_reducible refine inv_foldl ?_ _ ?_)
    | (split)

theorem inv_moveArrivals {s : State} (h : s.Inv) (blk : Nat) (n : Nat) (u : Nat) (x4 : Nat) : (moveArrivals s blk n u
    x4).Inv := by
  unfold moveArrivals
  repeat' first
    | (with_reducible assumption)
    | (with_reducible refine inv_modLaunch ?_ ..)
    | (with_reducible refine inv_modBlk ?_ ..)
    | (with_reducible refine inv_tryComplete ?_ ..)
    | (split)

theorem inv_restoreOn {s : State} (h : s.Inv) (blk : Nat) (core : Nat) : (restoreOn s blk core).Inv := by
  unfold restoreOn
  repeat' first
    | (with_reducible assumption)
    | (intro _; try dsimp only)
    | (with_reducible refine inv_modBlk ?_ ..)
    | (with_reducible refine inv_grantGrans ?_ ..)
    | (with_reducible refine inv_moveArrivals ?_ ..)
    | (with_reducible refine inv_foldl ?_ _ ?_)
    | (split)

/-! ### Sys2Proof.Machine.Place -/

theorem inv_commandLeaves {s : State} (h : s.Inv) (cores : List Nat) : (commandLeaves s cores).Inv := by
  unfold commandLeaves
  repeat' first
    | (with_reducible assumption)
    | (intro _; try dsimp only)
    | (with_reducible refine inv_modLeaf ?_ ..)
    | (with_reducible refine inv_foldl ?_ _ ?_)

theorem inv_runSlice {s : State} (h : s.Inv) (q : Nat) : (runSlice s q).Inv := by
  unfold runSlice
  repeat' first
    | (with_reducible assumption)
    | (with_reducible refine inv_modQueue ?_ ..)
    | (with_reducible refine inv_ite ?_ ?_)

theorem inv_restoreAll {s : State} (h : s.Inv) (q : Nat) (ws : List (Nat × Block)) (cores : List Nat) : (restoreAll s q ws
    cores).Inv := by
  unfold restoreAll
  repeat' first
    | (with_reducible assumption)
    | (intro _; try dsimp only)
    | (with_reducible refine inv_restoreOn ?_ ..)
    | (with_reducible refine inv_commandLeaves ?_ ..)
    | (with_reducible refine inv_runSlice ?_ ..)
    | (with_reducible refine inv_foldl ?_ _ ?_)
    | (with_reducible refine inv_ite ?_ ?_)

theorem inv_retag {s : State} (h : s.Inv) (c : Nat) (base : W64) (off : Nat) : (retag s c base off).Inv := by
  unfold retag
  repeat' first | (with_reducible assumption) | (with_reducible refine inv_writeVirtual ?_ ..) | (split)

theorem inv_relocate {s : State} (h : s.Inv) (c : Nat) (l : LaunchRec) (cores : List Nat) : (relocate s c l cores).Inv := by
  unfold relocate
  repeat' first
    | (with_reducible assumption)
    | (intro _; try dsimp only)
    | (with_reducible refine inv_retag ?_ ..)
    | (with_reducible refine inv_writeVirtual ?_ ..)
    | (with_reducible refine inv_foldl ?_ _ ?_)
    | (split)

theorem inv_drain {s : State} (h : s.Inv) (li : Nat) : (drain s li).Inv := by
  unfold drain
  repeat' first
    | (with_reducible assumption)
    | (with_reducible refine inv_modLaunch ?_ ..)
    | (with_reducible refine inv_writeVirtual ?_ ..)
    | (split)

theorem inv_takeWhole {s : State} (h : s.Inv) (li : Nat) : (takeWhole s li).Inv := by
  unfold takeWhole
  repeat' first
    | (with_reducible assumption)
    | (intro _; try dsimp only)
    | (with_reducible refine inv_drain ?_ ..)
    | (with_reducible refine inv_evictSoon ?_ ..)
    | (with_reducible refine inv_foldl ?_ _ ?_)
    | (split)

theorem inv_withoutBlocks {s : State} (h : s.Inv) (f : Nat → Block → Bool) : (withoutBlocks s f).Inv := by
  unfold withoutBlocks
  repeat' first | (with_reducible assumption) | (simp only [inv_mk]; with_reducible refine inv_intro ?_)

theorem inv_preemptFor {s : State} (h : s.Inv) (h : Nat) (can : Nat → Bool) : (preemptFor s h can).Inv := by
  unfold preemptFor
  try dsimp only
  repeat' first
    | (with_reducible assumption)
    | (intro _; try dsimp only)
    | (with_reducible refine inv_takeWhole ?_ ..)
    | (with_reducible refine inv_evictSoon ?_ ..)
    | (with_reducible refine inv_foldl ?_ _ ?_)
    | (split)

theorem inv_ageHead {s : State} (h : s.Inv) (li : Nat) : (ageHead s li).Inv := by
  unfold ageHead
  repeat' first | (with_reducible assumption) | (with_reducible refine inv_modLaunch ?_ ..) | (split)

theorem inv_startNext {s : State} (h : s.Inv) (q : Nat) (p : Started) : (startNext s q p).Inv := by
  unfold startNext
  repeat' first
    | (with_reducible assumption)
    | (with_reducible refine inv_modQueue ?_ ..)
    | (with_reducible refine inv_runSlice ?_ ..)
    | (simp only [inv_mk]; with_reducible refine inv_intro ?_)

theorem inv_placeBlock {s : State} (h : s.Inv) (li : Nat) (ord : Nat) (core : Nat) (n : Nat) : (placeBlock s li ord core
    n).Inv := by
  unfold placeBlock
  repeat' first
    | (with_reducible assumption)
    | (intro _; try dsimp only)
    | (with_reducible refine inv_writeVirtual ?_ ..)
    | (with_reducible refine inv_grantGrans ?_ ..)
    | (with_reducible refine inv_foldl ?_ _ ?_)
    | (simp only [inv_mk]; with_reducible refine inv_intro ?_)
    | (split)

theorem inv_placeLaunch {s : State} (h : s.Inv) (li : Nat) (cores : List Nat) : (placeLaunch s li cores).Inv := by
  unfold placeLaunch
  repeat' first
    | (with_reducible assumption)
    | (intro _; try dsimp only)
    | (with_reducible refine inv_relocate ?_ ..)
    | (with_reducible refine inv_ageHead ?_ ..)
    | (with_reducible refine inv_modLaunch ?_ ..)
    | (with_reducible refine inv_commandLeaves ?_ ..)
    | (with_reducible refine inv_startNext ?_ ..)
    | (with_reducible refine inv_placeBlock ?_ ..)
    | (with_reducible refine inv_foldl ?_ _ ?_)
    | (split)

theorem inv_switchAway {s : State} (h : s.Inv) (q : Nat) : (switchAway s q).Inv := by
  unfold switchAway
  repeat' first
    | (with_reducible assumption)
    | (with_reducible refine inv_modQueue ?_ ..)
    | (with_reducible refine inv_ite ?_ ?_)
    | (simp only [inv_mk]; with_reducible refine inv_intro ?_)

/-! ### Sys2Proof.Machine.March -/

theorem inv_overrun {s : State} (h : s.Inv) (q : Nat) : (overrun s q).Inv := by
  unfold overrun
  repeat' first | (with_reducible assumption) | (with_reducible refine inv_modQueue ?_ ..)

theorem inv_dropSent {s : State} (h : s.Inv) (sent : List (Nat × Nat)) : (dropSent s sent).Inv := by
  unfold dropSent
  repeat' first | (with_reducible assumption) | (simp only [inv_mk]; with_reducible refine inv_intro ?_)

theorem inv_setHeld {s : State} (h : s.Inv) (q : Nat) (i : Instr) (new : List Started) : (setHeld s q i new).Inv := by
  unfold setHeld
  repeat' first | (with_reducible assumption) | (with_reducible refine inv_modQueue ?_ ..)

theorem inv_packet {s : State} {act : State → List (Nat × Nat) → PktRes} (h : s.Inv) (h1 : ∀ s sent, s.Inv → (act s sent).Inv) (i : Instr) (q : Nat) (order : Bool) :
    outcomeInv (packet i q order s act) := by
  have go (s : State) (sent : List (Nat × Nat)) (h : s.Inv) : State.Inv (match act s sent with
    | .done s code =>
      let s := signalHost (overrun (dropSent (setHeld s q i []) sent) q) q
      match code with
      | some c => stopQueue s q c
      | none => s
    | .stop s c => stopQueue (dropSent (setHeld s q i []) sent) q c
    | .wait s left svc sent => setHeld s q i [.held left svc sent]) := by
    have ha := h1 s sent h
    split
    · next e =>
      have hs := inv_signalHost (inv_overrun (inv_dropSent (inv_setHeld (PktRes.inv_done e ha) q i []) sent) q) q
      dsimp only
      split
      · exact inv_stopQueue hs ..
      · exact hs
    · next e => exact inv_stopQueue (inv_dropSent (inv_setHeld (PktRes.inv_stop e ha) ..) ..) ..
    · next e => exact inv_setHeld (PktRes.inv_wait e ha) ..
  unfold packet
  dsimp only
  split
  · refine outcome_next ?_
    split
    · exact h
    · exact go _ _ h
  · split
    · exact h
    · exact go _ _ (inv_startNext h ..)

theorem inv_waitPage {s : State} (h : s.Inv) (q : Nat) (c : Nat) (a : W64) (write : Bool) (left : Instr) (sent : List (Nat
    × Nat)) : (waitPage s q c a write left sent).Inv := by
  unfold waitPage
  repeat' first
    | (with_reducible assumption)
    | (with_reducible refine inv_packetWaits ?_ ..)
    | (with_reducible refine Waits.inv_recorded (by with_reducible assumption) ?_)
    | (with_reducible refine Waits.inv_stopped (by with_reducible assumption) ?_)
    | (with_reducible refine PktRes.mk_stop ?_)
    | (with_reducible refine PktRes.mk_wait ?_)
    | (split)

theorem inv_failRead {s : State} (h : s.Inv) (q : Nat) (c : Nat) (e : ReadFail) (write : Bool) (left : Instr) (sent : List
    (Nat × Nat)) : (failRead s q c e write left sent).Inv := by
  unfold failRead
  repeat' first
    | (with_reducible assumption)
    | (with_reducible refine inv_waitPage ?_ ..)
    | (with_reducible refine PktRes.mk_stop ?_)
    | (split)

theorem inv_writeThen {s : State} {k : State → PktRes} (h : s.Inv) (h1 : ∀ k0, k0.Inv → (k k0).Inv) (ps : List Piece0) (bs
    : List Byte) (me : Instr) (drop : List (Nat × Nat)) : (writeThen s ps bs me drop k).Inv := by
  unfold writeThen
  repeat' first
    | (with_reducible assumption)
    | (with_reducible refine h1 _ ?_ )
    | (with_reducible refine inv_writePieces ?_ ..)
    | (with_reducible refine inv_dropSent ?_ ..)
    | (with_reducible refine pair_inv (by with_reducible assumption) ?_)
    | (with_reducible refine PktRes.mk_wait ?_)
    | (split)

theorem inv_writePacket {s : State} {last : State → PktRes} (h : s.Inv) (h1 : ∀ last0, last0.Inv → (last last0).Inv) (me :
    Instr) (q : Nat) (order : Bool) (addr : W64) (data : State → List Byte) : outcomeInv (writePacket me q order addr data
    s last) := by
  unfold writePacket
  repeat' first
    | (with_reducible assumption)
    | (intro _; try dsimp only)
    | (with_reducible refine h1 _ ?_ )
    | (with_reducible refine inv_packet ?_ ?_ ..)
    | (with_reducible refine inv_dropSent ?_ ..)
    | (with_reducible refine inv_packetRange ?_ ..)
    | (with_reducible refine inv_failRead ?_ ..)
    | (with_reducible refine inv_writeThen ?_ ?_ ..)
    | (with_reducible refine pair_inv (by with_reducible assumption) ?_)
    | (split)

theorem inv_addThen {s : State} (h : s.Inv) (q : Nat) (c : Nat) (ctr : W64) (add : W64) (left : Instr) (sent : List (Nat ×
    Nat)) : (addThen s q c ctr add left sent).Inv := by
  unfold addThen
  repeat' first
    | (with_reducible assumption)
    | (with_reducible refine inv_counterAddAt ?_ ..)
    | (with_reducible refine inv_waitPage ?_ ..)
    | (with_reducible refine pair_inv (by with_reducible assumption) ?_)
    | (with_reducible refine PktRes.mk_done ?_)
    | (with_reducible refine PktRes.mk_stop ?_)
    | (with_reducible refine PktRes.mk_wait ?_)
    | (split)

theorem inv_pendLaunch {s : State} (h : s.Inv) (q : Nat) (c : Nat) (record : W64) (ctr : W64) (add : W64) (bs : List Byte)
    : (pendLaunch s q c record ctr add bs).Inv := by
  unfold pendLaunch
  repeat' first
    | (with_reducible assumption)
    | (with_reducible refine inv_writeVirtual ?_ ..)
    | (simp only [inv_mk]; with_reducible refine inv_intro ?_)

theorem inv_testWaitc {s : State} (h : s.Inv) (q : Nat) (k : Nat) (ctr : W64) (value : W64) (due : Option Nat) (sent :
    Option Nat) : (testWaitc s q k ctr value due sent).Inv := by
  unfold testWaitc
  try dsimp only
  repeat' first
    | (with_reducible assumption)
    | (with_reducible refine inv_modQueue ?_ ..)
    | (with_reducible refine inv_stopQueue ?_ ..)
    | (with_reducible refine inv_signalHost ?_ ..)
    | (with_reducible refine inv_packetPiece ?_ ..)
    | (with_reducible refine inv_packetWaits ?_ ..)
    | (with_reducible refine inv_sendTo ?_ ..)
    | (with_reducible refine pair_inv (by with_reducible assumption) ?_)
    | (with_reducible refine Waits.inv_recorded (by with_reducible assumption) ?_)
    | (with_reducible refine Waits.inv_stopped (by with_reducible assumption) ?_)
    | (simp only [inv_mk]; with_reducible refine inv_intro ?_)
    | (split)

theorem inv_readPieces {s : State} (h : s.Inv) (ps : List Piece0) (sent : List (Nat × Nat)) : (readPieces s ps sent).Inv
    := by
  unfold readPieces
  try dsimp only
  repeat' first
    | (with_reducible assumption)
    | (intro _; try dsimp only)
    | (with_reducible refine inv_sendTo ?_ ..)
    | (with_reducible refine inv_foldl_pair ?_ _ ?_)
    | (with_reducible refine PktRead.mk_ok ?_)
    | (with_reducible refine PktRead.mk_ask ?_)
    | (with_reducible refine PktRead.mk_fail ?_)
    | (split)

theorem inv_readRange {s : State} (h : s.Inv) (c : Nat) (a : W64) (n : Nat) (sent : List (Nat × Nat)) : (readRange s c a n
    sent).Inv := by
  unfold readRange
  repeat' first
    | (with_reducible assumption)
    | (with_reducible refine inv_packetRange ?_ ..)
    | (with_reducible refine inv_readPieces ?_ ..)
    | (with_reducible refine pair_inv (by with_reducible assumption) ?_)
    | (with_reducible refine PktRead.mk_fail ?_)
    | (split)

/-! ### Sys2Proof.Machine.Hub -/

theorem inv_passFocus {s : State} (h : s.Inv) : (passFocus s).Inv := by
  unfold passFocus
  try dsimp only
  repeat' first | (with_reducible assumption) | (simp only [inv_mk]; with_reducible refine inv_intro ?_) | (split)

theorem inv_putOperands {s : State} (h : s.Inv) (at_ : Nat) (bs : List Byte) : (putOperands s at_ bs).Inv := by
  unfold putOperands
  repeat' first | (with_reducible assumption) | (simp only [inv_mk]; with_reducible refine inv_intro ?_)

theorem inv_hostCommand {s : State} (h : s.Inv) (cmd : Nat) (x : Nat) : (hostCommand s cmd x).Inv := by
  unfold hostCommand
  repeat' first | (with_reducible assumption) | (with_reducible refine inv_putOperands ?_ ..)

theorem inv_reportPreempted {s : State} (h : s.Inv) : (reportPreempted s).Inv := by
  unfold reportPreempted
  repeat' first | (with_reducible assumption) | (simp only [inv_mk]; with_reducible refine inv_intro ?_) | (split)

theorem inv_mailCommand {s : State} (h : s.Inv) (cmd : Nat) (xs : List Nat) : (mailCommand s cmd xs).Inv := by
  unfold mailCommand
  repeat' first | (with_reducible assumption) | (with_reducible refine inv_putOperands ?_ ..)

theorem inv_serveRequest {s : State} (h : s.Inv) (x1 : RemoteOp) : (serveRequest s x1).1.Inv := by
  unfold serveRequest
  try dsimp only
  repeat' first
    | (with_reducible assumption)
    | (with_reducible refine inv_atomAt ?_ ..)
    | (with_reducible refine inv_casAt ?_ ..)
    | (with_reducible refine inv_caddAt ?_ ..)
    | (with_reducible refine inv_wr ?_ ..)
    | (with_reducible refine inv_fullEmptyAt ?_ ..)
    | (with_reducible refine inv_store ?_ ..)
    | (with_reducible refine pair_inv (by with_reducible assumption) ?_)
    | (simp only [inv_mk]; with_reducible refine inv_intro ?_)
    | (split)

theorem inv_present {s : State} (h : s.Inv) (m : MsgHdr) (x2 : OutBody) : (present s m x2).Inv := by
  unfold present
  try dsimp only
  repeat' first
    | (with_reducible assumption)
    | (with_reducible refine inv_serveRequest ?_ ..)
    | (with_reducible refine inv_sendOn ?_ ..)
    | (simp only [inv_mk]; with_reducible refine inv_intro ?_)
    | (split)

theorem inv_presentNext {s : State} (h : s.Inv) (flow fuel : Nat) : (presentNext flow fuel s).Inv := by
  induction fuel generalizing s with
  | zero => exact h
  | succ k ih =>
    unfold presentNext
    split
    · exact h
    · exact ih (inv_present (by exact h) ..)

theorem inv_triedOn {s : State} (h : s.Inv) (e : Nat × Nat) : (triedOn s e).Inv := by
  unfold triedOn
  repeat' first | (with_reducible assumption) | (simp only [inv_mk]; with_reducible refine inv_intro ?_)

theorem inv_recordFlits {s : State} (h : s.Inv) (m : MsgHdr) (kind : Nat) : (recordFlits s m kind).Inv := by
  unfold recordFlits
  repeat' first
    | (with_reducible assumption)
    | (intro _; try dsimp only)
    | (with_reducible refine inv_foldl ?_ _ ?_)
    | (simp only [inv_mk]; with_reducible refine inv_intro ?_)
    | (split)

theorem inv_receive {s : State} (h : s.Inv) (m : MsgHdr) (body : OutBody) (kind : Nat) : (receive s m body kind).Inv := by
  unfold receive
  repeat' first
    | (with_reducible assumption)
    | (intro _; try dsimp only)
    | (with_reducible refine inv_triedOn ?_ ..)
    | (with_reducible refine inv_recordFlits ?_ ..)
    | (with_reducible refine inv_sendOn ?_ ..)
    | (with_reducible refine inv_presentNext ?_ ..)
    | (with_reducible refine inv_present ?_ ..)
    | (with_reducible refine inv_foldl ?_ _ ?_)
    | (with_reducible refine inv_ite ?_ ?_)
    | (simp only [inv_mk]; with_reducible refine inv_intro ?_)

theorem inv_debugAct {s : State} (h : s.Inv) (x1 : DebugAct) : (debugAct s x1).Inv := by
  unfold debugAct
  repeat' first | (with_reducible assumption) | (simp only [inv_mk]; with_reducible refine inv_intro ?_) | (split)

theorem inv_debugActs {s : State} (h : s.Inv) : (debugActs s).Inv := by
  unfold debugActs
  repeat' first
    | (with_reducible assumption)
    | (intro _; try dsimp only)
    | (with_reducible refine inv_debugAct ?_ ..)
    | (with_reducible refine inv_foldl ?_ _ ?_)
    | (simp only [inv_mk]; with_reducible refine inv_intro ?_)

theorem inv_wholeRead {s : State} (h : s.Inv) (c : Nat) (a : W64) (n : Nat) : (wholeRead s c a n).1.Inv := by
  unfold wholeRead
  repeat' first
    | (with_reducible assumption)
    | (with_reducible refine inv_virtRange ?_ ..)
    | (with_reducible refine pair_inv (by with_reducible assumption) ?_)
    | (split)

theorem inv_wholeWrite {s : State} (h : s.Inv) (c : Nat) (a : W64) (bs : List Byte) : (wholeWrite s c a bs).1.Inv := by
  unfold wholeWrite
  repeat' first
    | (with_reducible assumption)
    | (with_reducible refine inv_virtRange ?_ ..)
    | (with_reducible refine inv_writeAt ?_ ..)
    | (with_reducible refine pair_inv (by with_reducible assumption) ?_)
    | (split)

theorem inv_overLink {s : State} {act : State → State} (h : s.Inv) (h1 : ∀ act0, act0.Inv → (act act0).Inv) (e : OnLink) :
    (overLink s e act).Inv := by
  unfold overLink
  repeat' first
    | (with_reducible assumption)
    | (with_reducible refine h1 _ ?_ )
    | (with_reducible refine inv_triedOn ?_ ..)
    | (with_reducible refine inv_ite ?_ ?_)

theorem inv_controlFlit {s : State} {act : State → State} (h : s.Inv) (h1 : ∀ act0, act0.Inv → (act act0).Inv) (link :
    OnLink) (src : Option Nat) (vc : BitVec 2) : (controlFlit s link src vc act).Inv := by
  unfold controlFlit
  repeat' first
    | (with_reducible assumption)
    | (intro _; try dsimp only)
    | (with_reducible refine h1 _ ?_ )
    | (with_reducible refine inv_overLink ?_ ?_ ..)
    | (with_reducible refine inv_recordFlits ?_ ..)
    | (simp only [inv_mk]; with_reducible refine inv_intro ?_)

theorem inv_endHarvest {s : State} (h : s.Inv) : (endHarvest s).Inv := by
  unfold endHarvest
  repeat' first
    | (with_reducible assumption)
    | (with_reducible refine inv_store ?_ ..)
    | (with_reducible refine inv_ite ?_ ?_)
    | (simp only [inv_mk]; with_reducible refine inv_intro ?_)

theorem inv_saveHarvest {s : State} (h : s.Inv) : (saveHarvest s).Inv := by
  unfold saveHarvest
  repeat' first
    | (with_reducible assumption)
    | (intro _; try dsimp only)
    | (with_reducible refine inv_sendOn ?_ ..)
    | (with_reducible refine inv_store ?_ ..)
    | (with_reducible refine inv_foldl ?_ _ ?_)
    | (with_reducible refine inv_ite ?_ ?_)
    | (simp only [inv_mk]; with_reducible refine inv_intro ?_)

theorem inv_startHarvest {s : State} (h : s.Inv) : (startHarvest s).Inv := by
  unfold startHarvest
  repeat' first
    | (with_reducible assumption)
    | (with_reducible refine inv_ite ?_ ?_)
    | (simp only [inv_mk]; with_reducible refine inv_intro ?_)

theorem inv_triggerCause {s : State} (h : s.Inv) (ctx : Nat) (n : Nat) (origin : Nat) (tick : W64) : (triggerCause s ctx n
    origin tick).Inv := by
  unfold triggerCause
  repeat' first
    | (with_reducible assumption)
    | (intro _; try dsimp only)
    | (with_reducible refine inv_deliver ?_ ..)
    | (with_reducible refine inv_foldl ?_ _ ?_)
    | (split)

theorem inv_triggerActs {s : State} (h : s.Inv) (n origin : Nat) (tick : W64) : (triggerActs s n origin tick).Inv := by
  unfold triggerActs
  split
  · extract_lets a e s1 s2 s3 s4 s5
    have i2 : s2.Inv := inv_ite (a := ({ s1 with window := true } : State)) (b := s1) h h
    have i3 : s3.Inv := inv_ite (a := ({ s2 with window := false } : State)) (b := s2) i2 i2
    have i4 : s4.Inv := inv_ite (inv_endHarvest (inv_saveHarvest (inv_startHarvest i3))) i3
    have i5 : s5.Inv := inv_ite (inv_triggerCause i4 ..) i4
    exact inv_ite (a := ({ s5 with frozen := true } : State)) (b := s5) i5 i5
  · exact h

theorem inv_abortChunk {s : State} (h : s.Inv) (dst : W64) (set : Nat) (sources : List (List Byte)) : (abortChunk s dst
    set sources).Inv := by
  unfold abortChunk
  try dsimp only
  repeat' first
    | (with_reducible assumption)
    | (with_reducible refine inv_deliver ?_ ..)
    | (simp only [inv_mk]; with_reducible refine inv_intro ?_)
    | (split)

theorem inv_writeQueueReg {s : State} (h : s.Inv) (q : Nat) (new : List Byte) : (writeQueueReg s q new).Inv := by
  unfold writeQueueReg
  repeat' first
    | (with_reducible assumption)
    | (with_reducible refine inv_setQueue ?_ ..)
    | (with_reducible refine inv_ite ?_ ?_)
    | (simp only [inv_mk]; with_reducible refine inv_intro ?_)

theorem inv_writeCtxReg {s : State} (h : s.Inv) (c : Nat) (new : List Byte) : (writeCtxReg s c new).Inv := by
  unfold writeCtxReg
  repeat' first
    | (with_reducible assumption)
    | (with_reducible refine inv_setCtx ?_ ..)
    | (with_reducible refine inv_ite ?_ ?_)

theorem inv_commandEvent {s : State} (h : s.Inv) (i : Instr) : (commandEvent s i).Inv := by
  unfold commandEvent
  repeat' first | (with_reducible assumption) | (simp only [inv_mk]; with_reducible refine inv_intro ?_)

theorem inv_startCommands {s : State} (h : s.Inv) (offset : Nat) (n : Nat) : (startCommands s offset n).Inv := by
  unfold startCommands
  try dsimp only
  repeat' first
    | (with_reducible assumption)
    | (with_reducible refine inv_commandEvent ?_ ..)
    | (simp only [inv_mk]; with_reducible refine inv_intro ?_)
    | (split)

theorem inv_answerReads {s : State} (h : s.Inv) : (answerReads s).Inv := by
  unfold answerReads
  repeat' first
    | (with_reducible assumption)
    | (with_reducible refine inv_ite ?_ ?_)
    | (simp only [inv_mk]; with_reducible refine inv_intro ?_)

/-! ### Sys2Proof.Machine.Integer -/

theorem inv_bits2 {s : State} (h : s.Inv) (h : Hdr) (x : Alu) (f : Nat → Nat → Nat → Nat) : outcomeInv (bits2 h x s f) := by
  unfold bits2
  repeat' first | (with_reducible assumption) | (with_reducible refine inv_aluOp ?_ ..)

theorem inv_int2 {s : State} (h : s.Inv) (h : Hdr) (x : Alu) (lat : Nat) (f : Int → Int → Int) : outcomeInv (int2 h x lat
    s f) := by
  unfold int2
  repeat' first | (with_reducible assumption) | (with_reducible refine inv_aluOp ?_ ..)

theorem inv_bits1 {s : State} (h : s.Inv) (h : Hdr) (x : Alu) (f : Nat → Nat → Nat) : outcomeInv (bits1 h x s f) := by
  unfold bits1
  repeat' first | (with_reducible assumption) | (with_reducible refine inv_aluOp ?_ ..)

/-! ### Sys2Proof.Machine.LoadStore -/

theorem inv_loadValues {i : Iss} {s : State} (_h : i.s.Inv) (h1 : s.Inv) (x : MemForm) (c : Checked) (got : Nat → List
    Byte) : (loadValues i s x c got).1.Inv := by
  unfold loadValues
  repeat' first | (with_reducible assumption) | (with_reducible refine inv_logAccess ?_ ..)

theorem inv_loadAct {i : Iss} (h : i.s.Inv) (u : Bool) (x : MemForm) (acts : List (Nat × W64)) : (loadAct i u x acts).Inv
    := by
  unfold loadAct
  repeat' first
    | (with_reducible assumption)
    | (intro _; try dsimp only)
    | (with_reducible refine inv_accessing ?_ ?_ ..)
    | (with_reducible refine inv_loadValues ?_ ?_ ..)
    | (with_reducible refine Act.mk_later ?_)

theorem inv_laneWrites {i : Iss} {s : State} (_h : i.s.Inv) (h1 : s.Inv) (x : MemForm) (tag : W64 → Option CountTag) (ws :
    List (Nat × W64 × Loc)) : (laneWrites i s x tag ws).Inv := by
  unfold laneWrites
  repeat' first
    | (with_reducible assumption)
    | (intro _; try dsimp only)
    | (with_reducible refine inv_groupStore ?_ ..)
    | (with_reducible refine inv_logAccess ?_ ..)
    | (with_reducible refine inv_foldl_pair ?_ _ ?_)
    | (with_reducible refine inv_ite ?_ ?_)

theorem inv_feLane {i : Iss} {r : FeRun} (_h : i.s.Inv) (h1 : r.s.Inv) (o : FeOp) (x : MemForm) (got : Nat → List Byte) (l
    : Nat) (addr : W64) (loc : Loc) : (feLane i o x got r l addr loc).s.Inv := by
  unfold feLane
  try dsimp only
  repeat' first
    | (with_reducible assumption)
    | (with_reducible refine inv_fullEmptyAt ?_ ..)
    | (with_reducible refine inv_countWrite ?_ ..)
    | (with_reducible refine inv_noteSolid ?_ ?_ ..)
    | (with_reducible refine inv_setPte ?_ ..)
    | (split)

theorem inv_feAct {i : Iss} (h : i.s.Inv) (o : FeOp) (x : MemForm) : (feAct i o x).Inv := by
  unfold feAct
  repeat' first
    | (with_reducible assumption)
    | (intro _; try dsimp only)
    | (with_reducible refine inv_accessing ?_ ?_ ..)
    | (with_reducible refine inv_feLane ?_ ?_ ..)
    | (with_reducible refine inv_logAccess ?_ ..)
    | (with_reducible refine inv_modGrp ?_ ..)
    | (with_reducible refine foldl_keeps (P := fun r : FeRun => r.s.Inv) ?_ _ ?_)
    | (with_reducible refine inv_ite ?_ ?_)
    | (with_reducible refine Act.mk_later ?_)

theorem inv_feOp {s : State} (h : s.Inv) (h : Hdr) (o : FeOp) (x : MemForm) : outcomeInv (feOp h o x s) := by
  unfold feOp
  repeat' first
    | (with_reducible assumption)
    | (intro _; try dsimp only)
    | (with_reducible refine inv_issue ?_ ?_ ..)
    | (with_reducible refine inv_feAct ?_ ..)

/-! ### Sys2Proof.Machine.Predicate -/

theorem inv_oneResult {s : State} (h : s.Inv) (h : Hdr) (lat : Nat) (reads : List Reg) (ud : Bool) (d : BitVec 8) (f : Iss
    → FRes) : outcomeInv (oneResult h lat reads ud d s f) := by
  unfold oneResult
  repeat' first
    | (with_reducible assumption)
    | (intro _; try dsimp only)
    | (with_reducible refine inv_issue ?_ ?_ ..)
    | (with_reducible refine Act.mk_fixed ?_)

theorem inv_writeSpecial {s : State} (h : s.Inv) (w : Who) (num : BitVec 8) (x : W64) : (writeSpecial s w num x).Inv := by
  unfold writeSpecial
  repeat' first
    | (with_reducible assumption)
    | (with_reducible refine inv_modGrp ?_ ..)
    | (with_reducible refine inv_modBlk ?_ ..)
    | (split)

/-! ### Sys2Proof.Machine.Special -/

theorem inv_specialOp {s : State} (h : s.Inv) (h : Hdr) (x : Alu) (f : Special) : outcomeInv (specialOp h x s f) := by
  unfold specialOp
  repeat' first | (with_reducible assumption) | (with_reducible refine inv_aluOp ?_ ..)

/-! ### Sys2Proof.Machine.Traps -/

theorem inv_sendTrigger {s : State} (h : s.Inv) (n : Nat) : (sendTrigger s n).Inv := by
  unfold sendTrigger
  repeat' first
    | (with_reducible assumption)
    | (intro _; try dsimp only)
    | (with_reducible refine inv_sendOn ?_ ..)
    | (with_reducible refine inv_foldl ?_ _ ?_)

theorem inv_settleSel {i : Iss} (h : i.s.Inv) (d : Nat) (e : EwSel) : (settleSel i d e).1.Inv := by
  unfold settleSel
  repeat' first | (with_reducible assumption) | (with_reducible refine inv_modGrp ?_ ..)

theorem inv_passCauses {s : State} (h : s.Inv) (w : Who) : (passCauses s w).Inv := by
  unfold passCauses
  repeat' first | (with_reducible assumption) | (with_reducible refine inv_modGrp ?_ ..) | (split)

theorem inv_countResult {i : Iss} (h : i.s.Inv) (d : BitVec 8) : (countResult i d).Inv := by
  unfold countResult
  repeat' first
    | (with_reducible assumption)
    | (with_reducible refine inv_modGrp ?_ ..)
    | (with_reducible refine Act.mk_later ?_)

theorem inv_ewPut {s : State} (h : s.Inv) (w : Who) (d : Nat) (act : Mask) (e : EwSel) (hv : Nat → Nat → W32) (hs : Nat →
    W32) : (ewPut s w d act e hv hs).Inv := by
  unfold ewPut
  repeat' first
    | (with_reducible assumption)
    | (with_reducible refine inv_modGrp ?_ ..)
    | (with_reducible refine inv_modBlk ?_ ..)
    | (split)

theorem inv_returnOp {s : State} (h : s.Inv) (h : Hdr) (resume : Bool) : outcomeInv (returnOp h resume s) := by
  unfold returnOp
  repeat' first
    | (with_reducible assumption)
    | (intro _; try dsimp only)
    | (with_reducible refine inv_issue ?_ ?_ ..)
    | (with_reducible refine inv_returnFromHandler ?_ ..)
    | (with_reducible refine Act.mk_again ?_)
    | (with_reducible refine Act.mk_at ?_)
    | (split)

/-! ### Sys2Proof.Machine.Moves -/

theorem inv_upkeep {s : State} (h : s.Inv) : (upkeep s).Inv := by
  unfold upkeep
  repeat' first
    | (with_reducible assumption)
    | (intro _; try dsimp only)
    | (with_reducible refine inv_answerReads ?_ ..)
    | (with_reducible refine inv_debugActs ?_ ..)
    | (with_reducible refine inv_reportPreempted ?_ ..)
    | (with_reducible refine inv_evictReady ?_ ..)
    | (with_reducible refine inv_leafTurns ?_ ..)
    | (with_reducible refine inv_transmit ?_ ..)
    | (with_reducible refine inv_tryDue ?_ ..)
    | (with_reducible refine inv_settleAll ?_ ..)
    | (with_reducible refine inv_grantFrom ?_ ..)
    | (with_reducible refine inv_endHarvest ?_ ..)
    | (with_reducible refine inv_saveHarvest ?_ ..)
    | (with_reducible refine inv_passFocus ?_ ..)
    | (with_reducible refine inv_foldl ?_ _ ?_)
    | (with_reducible refine inv_ite ?_ ?_)

theorem inv_chooseTurn {s : State} (h : s.Inv) : (chooseTurn s).2.Inv := by
  unfold chooseTurn
  split <;> exact h

end Sys2Proof.Machine
end

