-- ==== Sys2Proof/Laws/Issue.lean ====
section
/-! SUPPORT. The laws of issue: everything that issuing an instruction can come to, said once, and how updates of groups and
blocks combine. A proof about one instruction cites `issue_issues` and never unfolds `issue`. -/
namespace Sys2Proof.Machine

variable {s : State} {h : Hdr} {long uniform : Bool} {u : Uses} {i : Iss} {body : Iss → Act}

/-! ### Issue -/

/-- Issue, in terms of how the instruction is found. -/
theorem issue_found (h : Hdr) (long uniform : Bool) (u : Uses) (s : State) (body : Iss → Act) :
    issue h long uniform u s body = match foundBy s h long uniform u with
      | none => .fault .noGroupOnTurn
      | some i => .next (if i.act = 0#32 then passed h i i.s
          else if (u.reads ++ u.writes).any (beyond i.g) then finish h i (.trap i.s 0x06#8 i.act [])
          else if hazard i.g h uniform u then finish h i (.trap i.s 0x05#8 i.act [])
          else finish h i (body i)) := by
  unfold issue foundBy
  cases s.cur.bind (who? s) with
  | none => rfl
  | some w =>
    dsimp only [Option.map_some]
    by_cases h0 : actingSet (arriveIf (diagMode s w.c) (fun x => x.touches w.g.depth (guardReg h uniform ++ u.reads ++ u.writes)) w.g) h uniform = 0#32
    · rw [if_pos (by simpa using h0), if_pos h0]; rfl
    · rw [if_neg (by simpa using h0), if_neg h0]
      dsimp only [Iss.g]
      split
      next hb => simp only [hb, if_true]
      next hb =>
        simp only [hb, if_false, Bool.false_eq_true]
        split
        next hz => simp only [hz, if_true]
        next hz => simp only [hz, if_false, Bool.false_eq_true]

/-- An instruction that issues comes to what its body says. -/
theorem issue_issues (hi : Issues s h long uniform u i) : issue h long uniform u s body = .next (finish h i (body i)) := by
  obtain ⟨h1, h2, h3, h4⟩ := hi
  rw [issue_found, h1]
  simp [h2, h3, h4]

/-- With no lane to act on, an instruction only moves its group on (R25, R71). -/
theorem issue_noLane (hf : foundBy s h long uniform u = some i) (h0 : i.act = 0#32) : issue h long uniform u s body = .next (passed h i i.s) := by
  rw [issue_found, hf]
  simp [h0]

/-- An instruction that names a register beyond the allocation (R33). -/
theorem issue_beyond (hf : foundBy s h long uniform u = some i) (h0 : i.act ≠ 0#32) (hb : (u.reads ++ u.writes).any (beyond i.g) = true) :
    issue h long uniform u s body = .next (enterHandler i.s i.w.r (preciseEntry i.w 0x06#8 i.act [] i.long)) := by
  rw [issue_found, hf]
  simp only [h0, hb, if_false, if_true]
  simp [finish, h0]

/-- An instruction that meets a hazard under CHKMODE (R22). -/
theorem issue_hazard (hf : foundBy s h long uniform u = some i) (h0 : i.act ≠ 0#32) (hb : (u.reads ++ u.writes).any (beyond i.g) = false)
    (hz : hazard i.g h uniform u = true) : issue h long uniform u s body = .next (enterHandler i.s i.w.r (preciseEntry i.w 0x05#8 i.act [] i.long)) := by
  rw [issue_found, hf]
  simp only [h0, hb, hz, if_false, if_true, Bool.false_eq_true]
  simp [finish, h0]

/-- Issue ends in a next state whenever a group is on turn. -/
theorem issue_next (ht : s.onTurn ≠ none) : ∃ t, issue h long uniform u s body = .next t := by
  rw [issue_found]
  unfold State.onTurn at ht
  unfold foundBy
  cases e : s.cur.bind (who? s) with
  | none => exact absurd e ht
  | some w => exact ⟨_, rfl⟩

theorem found_long (hf : foundBy s h long uniform u = some i) : i.long = long := by
  unfold foundBy at hf
  cases e : s.cur.bind (who? s) <;> rw [e] at hf <;> simp only [Option.map_none, Option.map_some] at hf
  · cases hf
  · cases hf; rfl

@[simp] theorem finish_done (t : State) : finish h i (.done t) = passed h i t := rfl
@[simp] theorem finish_fixed (t : State) (lat : Nat) (ws : List RegWrite) (fs : FlagSet) : finish h i (.fixed t lat ws fs) = pended h i t lat ws fs := rfl
@[simp] theorem finish_later (t : State) (ws : List RegWrite) (fs : FlagSet) : finish h i (.later t ws fs) = flown h i t ws fs := rfl
@[simp] theorem finish_again (t : State) : finish h i (.again t) = t := rfl

theorem finish_trap (t : State) (cause : BitVec 8) {m : Mask} (tv : List W64) (hm : m ≠ 0#32) :
    finish h i (.trap t cause m tv) = enterHandler t i.w.r (preciseEntry i.w cause m tv i.long) := by
  simp [finish, hm]

/-! ### Updates of blocks and groups -/

theorem modBlk_get (s : State) (b k : Nat) (f : Block → Block) : (s.modBlk b f).blocks[k]? = if k = b then s.blocks[k]?.map f else s.blocks[k]? := by
  rw [modBlk_blocks, List.getElem?_modify]
  by_cases h : b = k
  · simp [h]
  · simp [h, Ne.symm h]

@[simp] theorem grp_modGrp (s : State) (r : GRef) (f : Group → Group) : (s.modGrp r f).grp? r = (s.grp? r).map f := by
  unfold State.grp? State.modGrp
  rw [modBlk_get, if_pos rfl]
  cases s.blocks[r.blk]? with
  | none => rfl
  | some b => simp [Block.modGrp]

theorem grp_modGrp_ne {s : State} {r q : GRef} (f : Group → Group) (h : q ≠ r) : (s.modGrp r f).grp? q = s.grp? q := by
  unfold State.grp? State.modGrp
  rw [modBlk_get]
  split
  next hb =>
    cases s.blocks[q.blk]? with
    | none => rfl
    | some b =>
      have : q.grp ≠ r.grp := fun e => h (by cases q; cases r; simp_all)
      simp [Block.modGrp, Ne.symm this]
  next => rfl

/-- Two updates of one group are one. -/
theorem modGrp_modGrp (s : State) (r : GRef) (f k : Group → Group) : (s.modGrp r f).modGrp r k = s.modGrp r fun g => k (f g) := by
  unfold State.modGrp State.modBlk Block.modGrp
  simp only [List.modify_modify_eq]
  congr 1
  congr 1
  funext b
  simp [List.modify_modify_eq, Function.comp_def]

theorem grp_of_who {s : State} {r : GRef} {w : Who} (h : who? s r = some w) : s.grp? r = some w.g ∧ s.blocks[r.blk]? = some w.b
    ∧ s.launches[w.b.launch]? = some w.l ∧ w.r = r := by
  simp only [who?, Option.bind_eq_bind, Option.bind_eq_some_iff, Option.pure_def, Option.some.injEq] at h
  obtain ⟨b, hb, g, hg, l, hl, rfl⟩ := h
  exact ⟨by simp [State.grp?, hb, hg], hb, hl, rfl⟩

end Sys2Proof.Machine
end

