-- ==== Sys2Proof/Laws/PerInstr.lean ====
section
/-! SUPPORT. What holds of every instruction, constructor by constructor. `LengthBit` says that an encoding's L bit tells
whether a second word follows (R15). -/
namespace Sys2Proof

theorem pack_l (l : Bool) (h : Hdr) (opc d a b c : BitVec 8) (md : BitVec 13) : (pack l h opc d a b c md).getLsbD 63 = l := by
  simp only [pack, BitVec.getLsbD_append]
  simp

/-- What an encoding's two words say of each other. -/
def Words.whole (x : Words) : Prop := x.1.getLsbD 63 = x.2.isSome

theorem encAlu_whole (opc : BitVec 8) (h : Hdr) (x : Alu) : (encAlu opc h x).whole := pack_l ..
theorem encCvt_whole (opc : BitVec 8) (h : Hdr) (x : CvtForm) : (encCvt opc h x).whole := pack_l ..
theorem encMem_whole (opc : BitVec 8) (h : Hdr) (x : MemForm) : (encMem opc h x).whole := pack_l ..
theorem encCopy_whole (opc : BitVec 8) (h : Hdr) (x : CopyForm) : (encCopy opc h x).whole := pack_l ..
theorem enc0_whole (opc : BitVec 8) (h : Hdr) (d a b c : BitVec 8) (md : BitVec 13) : (enc0 opc h d a b c md).whole := pack_l ..
theorem encX_whole (opc d a b c : BitVec 8) (md : BitVec 13) (x : W64) : (encX opc d a b c md x).whole := pack_l ..

namespace Laws.LengthBit

def Statement (i : Instr) : Prop := ∀ w, encode i = some w → w.whole

theorem of_encode {i : Instr} {w : Words} (e : encode i = some w) (h : w.whole) : Statement i := fun x hx => by
  rw [e] at hx
  exact Option.some.inj hx ▸ h
theorem of_none {i : Instr} (e : encode i = none) : Statement i := fun x hx => by rw [e] at hx; cases hx

theorem nop (x0) : Statement (.nop x0) := of_encode rfl (enc0_whole ..)
theorem blk (x0 x1 x2 x3) : Statement (.blk x0 x1 x2 x3) := of_encode rfl (enc0_whole ..)
theorem want (x0 x1) : Statement (.want x0 x1) := of_encode rfl (enc0_whole ..)
theorem wantv (x0 x1) : Statement (.wantv x0 x1) := of_encode rfl (enc0_whole ..)
theorem call (x0 x1 x2) : Statement (.call x0 x1 x2) := of_encode rfl (enc0_whole ..)
theorem callv (x0 x1 x2) : Statement (.callv x0 x1 x2) := of_encode rfl (enc0_whole ..)
theorem ret (x0) : Statement (.ret x0) := of_encode rfl (enc0_whole ..)
theorem exit (x0) : Statement (.exit x0) := of_encode rfl (enc0_whole ..)
theorem yield (x0 x1) : Statement (.yield x0 x1) := of_encode rfl (enc0_whole ..)
theorem iadd (x0 x1) : Statement (.iadd x0 x1) := of_encode rfl (encAlu_whole ..)
theorem isub (x0 x1) : Statement (.isub x0 x1) := of_encode rfl (encAlu_whole ..)
theorem imul (x0 x1) : Statement (.imul x0 x1) := of_encode rfl (encAlu_whole ..)
theorem imulh (x0 x1) : Statement (.imulh x0 x1) := of_encode rfl (encAlu_whole ..)
theorem imad (x0 x1) : Statement (.imad x0 x1) := of_encode rfl (encAlu_whole ..)
theorem imadw (x0 x1) : Statement (.imadw x0 x1) := of_encode rfl (encAlu_whole ..)
theorem imin (x0 x1) : Statement (.imin x0 x1) := of_encode rfl (encAlu_whole ..)
theorem imax (x0 x1) : Statement (.imax x0 x1) := of_encode rfl (encAlu_whole ..)
theorem iabs (x0 x1) : Statement (.iabs x0 x1) := of_encode rfl (encAlu_whole ..)
theorem ineg (x0 x1) : Statement (.ineg x0 x1) := of_encode rfl (encAlu_whole ..)
theorem and (x0 x1) : Statement (.and x0 x1) := of_encode rfl (encAlu_whole ..)
theorem or (x0 x1) : Statement (.or x0 x1) := of_encode rfl (encAlu_whole ..)
theorem xor (x0 x1) : Statement (.xor x0 x1) := of_encode rfl (encAlu_whole ..)
theorem andn (x0 x1) : Statement (.andn x0 x1) := of_encode rfl (encAlu_whole ..)
theorem not (x0 x1) : Statement (.not x0 x1) := of_encode rfl (encAlu_whole ..)
theorem shl (x0 x1) : Statement (.shl x0 x1) := of_encode rfl (encAlu_whole ..)
theorem shr (x0 x1) : Statement (.shr x0 x1) := of_encode rfl (encAlu_whole ..)
theorem sar (x0 x1) : Statement (.sar x0 x1) := of_encode rfl (encAlu_whole ..)
theorem rotl (x0 x1) : Statement (.rotl x0 x1) := of_encode rfl (encAlu_whole ..)
theorem clz (x0 x1) : Statement (.clz x0 x1) := of_encode rfl (encAlu_whole ..)
theorem ctz (x0 x1) : Statement (.ctz x0 x1) := of_encode rfl (encAlu_whole ..)
theorem popc (x0 x1) : Statement (.popc x0 x1) := of_encode rfl (encAlu_whole ..)
theorem brev (x0 x1) : Statement (.brev x0 x1) := of_encode rfl (encAlu_whole ..)
theorem bfx (x0 x1) : Statement (.bfx x0 x1) := of_encode rfl (encAlu_whole ..)
theorem bfi (x0 x1) : Statement (.bfi x0 x1) := of_encode rfl (encAlu_whole ..)
theorem lea (x0 x1) : Statement (.lea x0 x1) := of_encode rfl (encAlu_whole ..)
theorem sel (x0 x1) : Statement (.sel x0 x1) := of_encode rfl (encAlu_whole ..)
theorem mov (x0 x1) : Statement (.mov x0 x1) := of_encode rfl (encAlu_whole ..)
theorem movi (x0 x1) : Statement (.movi x0 x1) := of_encode rfl (encAlu_whole ..)
theorem fadd (x0 x1) : Statement (.fadd x0 x1) := of_encode rfl (encAlu_whole ..)
theorem fsub (x0 x1) : Statement (.fsub x0 x1) := of_encode rfl (encAlu_whole ..)
theorem fmul (x0 x1) : Statement (.fmul x0 x1) := of_encode rfl (encAlu_whole ..)
theorem ffma (x0 x1) : Statement (.ffma x0 x1) := of_encode rfl (encAlu_whole ..)
theorem fmin (x0 x1) : Statement (.fmin x0 x1) := of_encode rfl (encAlu_whole ..)
theorem fmax (x0 x1) : Statement (.fmax x0 x1) := of_encode rfl (encAlu_whole ..)
theorem frnd (x0 x1) : Statement (.frnd x0 x1) := of_encode rfl (encAlu_whole ..)
theorem fcls (x0 x1) : Statement (.fcls x0 x1) := of_encode rfl (encAlu_whole ..)
theorem frcp (x0 x1) : Statement (.frcp x0 x1) := of_encode rfl (encAlu_whole ..)
theorem frsq (x0 x1) : Statement (.frsq x0 x1) := of_encode rfl (encAlu_whole ..)
theorem fsqrt (x0 x1) : Statement (.fsqrt x0 x1) := of_encode rfl (encAlu_whole ..)
theorem fex2 (x0 x1) : Statement (.fex2 x0 x1) := of_encode rfl (encAlu_whole ..)
theorem flg2 (x0 x1) : Statement (.flg2 x0 x1) := of_encode rfl (encAlu_whole ..)
theorem fsin (x0 x1) : Statement (.fsin x0 x1) := of_encode rfl (encAlu_whole ..)
theorem fcos (x0 x1) : Statement (.fcos x0 x1) := of_encode rfl (encAlu_whole ..)
theorem dadd (x0 x1) : Statement (.dadd x0 x1) := of_encode rfl (encAlu_whole ..)
theorem dmul (x0 x1) : Statement (.dmul x0 x1) := of_encode rfl (encAlu_whole ..)
theorem dfma (x0 x1) : Statement (.dfma x0 x1) := of_encode rfl (encAlu_whole ..)
theorem dmin (x0 x1) : Statement (.dmin x0 x1) := of_encode rfl (encAlu_whole ..)
theorem dmax (x0 x1) : Statement (.dmax x0 x1) := of_encode rfl (encAlu_whole ..)
theorem hadd2 (x0 x1) : Statement (.hadd2 x0 x1) := of_encode rfl (encAlu_whole ..)
theorem hmul2 (x0 x1) : Statement (.hmul2 x0 x1) := of_encode rfl (encAlu_whole ..)
theorem hfma2 (x0 x1) : Statement (.hfma2 x0 x1) := of_encode rfl (encAlu_whole ..)
theorem cvt (x0 x1) : Statement (.cvt x0 x1) := of_encode rfl (encCvt_whole ..)
theorem cvtsr (x0 x1) : Statement (.cvtsr x0 x1) := of_encode rfl (encCvt_whole ..)
theorem setp (x0 x1) : Statement (.setp x0 x1) := of_encode rfl (pack_l ..)
theorem plop (x0 x1 x2 x3 x4 x5 x6) : Statement (.plop x0 x1 x2 x3 x4 x5 x6) := of_encode rfl (enc0_whole ..)
theorem p2v (x0 x1 x2) : Statement (.p2v x0 x1 x2) := of_encode rfl (enc0_whole ..)
theorem v2p (x0 x1 x2 x3) : Statement (.v2p x0 x1 x2 x3) := of_encode rfl (enc0_whole ..)
theorem shfl (x0 x1 x2 x3 x4) : Statement (.shfl x0 x1 x2 x3 x4) := of_encode rfl (enc0_whole ..)
theorem vote (x0 x1 x2 x3 x4) : Statement (.vote x0 x1 x2 x3 x4) := of_encode rfl (enc0_whole ..)
theorem ballot (x0 x1 x2 x3 x4) : Statement (.ballot x0 x1 x2 x3 x4) := of_encode rfl (enc0_whole ..)
theorem match_ (x0 x1 x2 x3) : Statement (.match_ x0 x1 x2 x3) := of_encode rfl (enc0_whole ..)
theorem redux (x0 x1 x2 x3 x4 x5) : Statement (.redux x0 x1 x2 x3 x4 x5) := of_encode rfl (enc0_whole ..)
theorem v2s (x0 x1 x2 x3 x4) : Statement (.v2s x0 x1 x2 x3 x4) := of_encode rfl (enc0_whole ..)
theorem ld (x0 x1) : Statement (.ld x0 x1) := of_encode rfl (encMem_whole ..)
theorem st (x0 x1) : Statement (.st x0 x1) := of_encode rfl (encMem_whole ..)
theorem ldu (x0 x1) : Statement (.ldu x0 x1) := of_encode rfl (encMem_whole ..)
theorem pft (x0 x1) : Statement (.pft x0 x1) := of_encode rfl (encMem_whole ..)
theorem ldw (x0 x1) : Statement (.ldw x0 x1) := of_encode rfl (encMem_whole ..)
theorem ldcn (x0 x1) : Statement (.ldcn x0 x1) := of_encode rfl (encMem_whole ..)
theorem stf (x0 x1) : Statement (.stf x0 x1) := of_encode rfl (encMem_whole ..)
theorem ste (x0 x1) : Statement (.ste x0 x1) := of_encode rfl (encMem_whole ..)
theorem feget (x0 x1) : Statement (.feget x0 x1) := of_encode rfl (encMem_whole ..)
theorem feset (x0 x1) : Statement (.feset x0 x1) := of_encode rfl (encMem_whole ..)
theorem atom (x0 x1) : Statement (.atom x0 x1) := of_encode rfl (encMem_whole ..)
theorem red (x0 x1) : Statement (.red x0 x1) := of_encode rfl (encMem_whole ..)
theorem cas (x0 x1) : Statement (.cas x0 x1) := of_encode rfl (encMem_whole ..)
theorem cadd (x0 x1) : Statement (.cadd x0 x1) := of_encode rfl (encMem_whole ..)
theorem mst (x0 x1) : Statement (.mst x0 x1) := of_encode rfl (encMem_whole ..)
theorem cpy (x0 x1) : Statement (.cpy x0 x1) := of_encode rfl (encCopy_whole ..)
theorem cpyg (x0 x1) : Statement (.cpyg x0 x1) := of_encode rfl (encCopy_whole ..)
theorem cpyr (x0 x1) : Statement (.cpyr x0 x1) := of_encode rfl (encCopy_whole ..)
theorem wcond (x0 x1) : Statement (.wcond x0 x1) := of_encode rfl (enc0_whole ..)
theorem wait (x0 x1) : Statement (.wait x0 x1) := of_encode rfl (enc0_whole ..)
theorem bar (x0 x1 x2 x3 x4 x5) : Statement (.bar x0 x1 x2 x3 x4 x5) := of_encode rfl (enc0_whole ..)
theorem bara (x0 x1 x2 x3) : Statement (.bara x0 x1 x2 x3) := of_encode rfl (enc0_whole ..)
theorem sig (x0 x1 x2 x3 x4) : Statement (.sig x0 x1 x2 x3 x4) := of_encode rfl (enc0_whole ..)
theorem fence (x0 x1 x2 x3) : Statement (.fence x0 x1 x2 x3) := of_encode rfl (enc0_whole ..)
theorem fencex (x0 x1) : Statement (.fencex x0 x1) := of_encode rfl (enc0_whole ..)
theorem fetchb (x0 x1) : Statement (.fetchb x0 x1) := of_encode rfl (enc0_whole ..)
theorem tfetch (x0 x1 x2) : Statement (.tfetch x0 x1 x2) := of_encode rfl (enc0_whole ..)
theorem mstart (x0 x1) : Statement (.mstart x0 x1) := of_encode rfl (enc0_whole ..)
theorem mstartResume (x0) : Statement (.mstartResume x0) := of_encode rfl (enc0_whole ..)
theorem mstartRetry (x0) : Statement (.mstartRetry x0) := of_encode rfl (enc0_whole ..)
theorem mend : Statement (.mend) := of_encode rfl (enc0_whole ..)
theorem mtile (x0 x1 x2) : Statement (.mtile x0 x1 x2) := of_encode rfl (enc0_whole ..)
theorem mtileMemory (x0 x1) : Statement (.mtileMemory x0 x1) := of_encode rfl (encX_whole ..)
theorem mma (x0 x1 x2 x3 x4 x5) : Statement (.mma x0 x1 x2 x3 x4 x5) := of_encode rfl (encX_whole ..)
theorem mmas (x0 x1 x2 x3 x4) : Statement (.mmas x0 x1 x2 x3 x4) := of_encode rfl (encX_whole ..)
theorem mzero (x0 x1) : Statement (.mzero x0 x1) := of_encode rfl (enc0_whole ..)
theorem mscale (x0 x1 x2) : Statement (.mscale x0 x1 x2) := by
  cases x2 <;> exact of_encode rfl (encX_whole ..)
theorem mdrain (x0 x1 x2 x3 x4 x5 x6) : Statement (.mdrain x0 x1 x2 x3 x4 x5 x6) := of_encode rfl (encX_whole ..)
theorem mldacc (x0 x1 x2 x3) : Statement (.mldacc x0 x1 x2 x3) := of_encode rfl (encX_whole ..)
theorem cpyaccRd (x0 x1 x2 x3) : Statement (.cpyaccRd x0 x1 x2 x3) := of_encode rfl (enc0_whole ..)
theorem cpyaccWr (x0 x1 x2 x3) : Statement (.cpyaccWr x0 x1 x2 x3) := of_encode rfl (enc0_whole ..)
theorem cpyaccSt (x0 x1 x2 x3 x4) : Statement (.cpyaccSt x0 x1 x2 x3 x4) := of_encode rfl (enc0_whole ..)
theorem cpyaccLd (x0 x1 x2 x3 x4) : Statement (.cpyaccLd x0 x1 x2 x3 x4) := of_encode rfl (enc0_whole ..)
theorem msig (x0 x1 x2) : Statement (.msig x0 x1 x2) := of_encode rfl (enc0_whole ..)
theorem mwait (x0 x1 x2) : Statement (.mwait x0 x1 x2) := of_encode rfl (encX_whole ..)
theorem mchk (x0 x1 x2 x3) : Statement (.mchk x0 x1 x2 x3) := of_encode rfl (encX_whole ..)
theorem rng (x0 x1) : Statement (.rng x0 x1) := of_encode rfl (encAlu_whole ..)
theorem qpk (x0 x1 x2 x3 x4) : Statement (.qpk x0 x1 x2 x3 x4) := of_encode rfl (enc0_whole ..)
theorem qpkTile (x0 x1 x2 x3 x4 x5 x6) : Statement (.qpkTile x0 x1 x2 x3 x4 x5 x6) := of_encode rfl (enc0_whole ..)
theorem qunpk (x0 x1 x2 x3) : Statement (.qunpk x0 x1 x2 x3) := of_encode rfl (enc0_whole ..)
theorem qunpkTile (x0 x1 x2 x3 x4 x5 x6) : Statement (.qunpkTile x0 x1 x2 x3 x4 x5 x6) := of_encode rfl (enc0_whole ..)
theorem flrd (x0 x1 x2 x3) : Statement (.flrd x0 x1 x2 x3) := of_encode rfl (enc0_whole ..)
theorem flclr (x0 x1 x2) : Statement (.flclr x0 x1 x2) := of_encode rfl (enc0_whole ..)
theorem moncfg (x0 x1 x2) : Statement (.moncfg x0 x1 x2) := of_encode rfl (enc0_whole ..)
theorem monref (x0 x1 x2 x3) : Statement (.monref x0 x1 x2 x3) := of_encode rfl (enc0_whole ..)
theorem monrdC (x0 x1 x2) : Statement (.monrdC x0 x1 x2) := of_encode rfl (enc0_whole ..)
theorem monrdP (x0 x1 x2) : Statement (.monrdP x0 x1 x2) := of_encode rfl (enc0_whole ..)
theorem monrdSt (x0 x1 x2) : Statement (.monrdSt x0 x1 x2) := of_encode rfl (enc0_whole ..)
theorem monclr (x0 x1) : Statement (.monclr x0 x1) := of_encode rfl (enc0_whole ..)
theorem monstp (x0 x1) : Statement (.monstp x0 x1) := of_encode rfl (enc0_whole ..)
theorem trap (x0 x1) : Statement (.trap x0 x1) := of_encode rfl (enc0_whole ..)
theorem trapKill (x0 x1) : Statement (.trapKill x0 x1) := of_encode rfl (enc0_whole ..)
theorem bkpt (x0 x1) : Statement (.bkpt x0 x1) := of_encode rfl (enc0_whole ..)
theorem eret (x0) : Statement (.eret x0) := of_encode rfl (enc0_whole ..)
theorem eretx (x0) : Statement (.eretx x0) := of_encode rfl (enc0_whole ..)
theorem ewrd (x0 x1 x2 x3 x4) : Statement (.ewrd x0 x1 x2 x3 x4) := of_encode rfl (enc0_whole ..)
theorem ewwr (x0 x1 x2 x3 x4) : Statement (.ewwr x0 x1 x2 x3 x4) := of_encode rfl (enc0_whole ..)
theorem trig (x0 x1 x2) : Statement (.trig x0 x1 x2) := of_encode rfl (enc0_whole ..)
theorem rdsr (x0 x1 x2 x3) : Statement (.rdsr x0 x1 x2 x3) := of_encode rfl (enc0_whole ..)
theorem wrsr (x0 x1 x2) : Statement (.wrsr x0 x1 x2) := of_encode rfl (enc0_whole ..)
theorem grow (x0 x1 x2 x3) : Statement (.grow x0 x1 x2 x3) := of_encode rfl (enc0_whole ..)
theorem shrink (x0 x1 x2 x3) : Statement (.shrink x0 x1 x2 x3) := of_encode rfl (enc0_whole ..)
theorem emulatedEncoding (x0 x1 x2 x3 x4 x5) : Statement (.emulatedEncoding x0 x1 x2 x3 x4 x5) := of_none rfl
theorem deliveredCauseEntry (x0) : Statement (.deliveredCauseEntry x0) := of_none rfl
theorem resultArrival (x0 x1) : Statement (.resultArrival x0 x1) := of_none rfl
theorem census : Statement (.census) := of_none rfl
theorem sweepEnd : Statement (.sweepEnd) := of_none rfl
theorem remoteParkDelay (x0) : Statement (.remoteParkDelay x0) := of_none rfl
theorem sideLogReplay (x0) : Statement (.sideLogReplay x0) := of_none rfl
theorem copyRetire (x0 x1) : Statement (.copyRetire x0 x1) := of_none rfl
theorem copyAbort (x0 x1) : Statement (.copyAbort x0 x1) := of_none rfl
theorem waitRetest (x0) : Statement (.waitRetest x0) := of_none rfl
theorem waitTimeout (x0) : Statement (.waitTimeout x0) := of_none rfl
theorem waitRemotePoll (x0) : Statement (.waitRemotePoll x0) := of_none rfl
theorem faultServiceRewalk (x0) : Statement (.faultServiceRewalk x0) := of_none rfl
theorem codeLineFill (x0 x1) : Statement (.codeLineFill x0 x1) := of_none rfl
theorem matrixPass (x0) : Statement (.matrixPass x0) := of_none rfl
theorem sequencerResume (x0) : Statement (.sequencerResume x0) := of_none rfl
theorem tileCommit (x0) : Statement (.tileCommit x0) := of_none rfl
theorem placement (x0) : Statement (.placement x0) := of_none rfl
theorem timeSliceExpiry (x0) : Statement (.timeSliceExpiry x0) := of_none rfl
theorem blockRestore (x0) : Statement (.blockRestore x0) := of_none rfl
theorem nopPacket (x0 x1) : Statement (.nopPacket x0 x1) := of_none rfl
theorem launch (x0 x1 x2 x3 x4) : Statement (.launch x0 x1 x2 x3 x4) := of_none rfl
theorem copy (x0 x1 x2 x3 x4 x5 x6) : Statement (.copy x0 x1 x2 x3 x4 x5 x6) := of_none rfl
theorem write (x0 x1 x2 x3) : Statement (.write x0 x1 x2 x3) := of_none rfl
theorem signal (x0 x1 x2 x3 x4) : Statement (.signal x0 x1 x2 x3 x4) := of_none rfl
theorem waitc (x0 x1 x2 x3 x4) : Statement (.waitc x0 x1 x2 x3 x4) := of_none rfl
theorem waitcTimeout (x0) : Statement (.waitcTimeout x0) := of_none rfl
theorem wsig (x0 x1 x2 x3 x4 x5) : Statement (.wsig x0 x1 x2 x3 x4 x5) := of_none rfl
theorem fencePacket (x0 x1 x2) : Statement (.fencePacket x0 x1 x2) := of_none rfl
theorem tstamp (x0 x1 x2) : Statement (.tstamp x0 x1 x2) := of_none rfl
theorem queueWriteIndex (x0 x1) : Statement (.queueWriteIndex x0 x1) := of_none rfl
theorem hostMemRead (x0 x1) : Statement (.hostMemRead x0 x1) := of_none rfl
theorem hostMemWrite (x0 x1) : Statement (.hostMemWrite x0 x1) := of_none rfl
theorem invalidationRequest (x0 x1 x2) : Statement (.invalidationRequest x0 x1 x2) := of_none rfl
theorem preemptQueue (x0) : Statement (.preemptQueue x0) := of_none rfl
theorem setPowerLimit (x0) : Statement (.setPowerLimit x0) := of_none rfl
theorem destroyContext (x0) : Statement (.destroyContext x0) := of_none rfl
theorem keygen (x0) : Statement (.keygen x0) := of_none rfl
theorem tag (x0 x1 x2 x3 x4) : Statement (.tag x0 x1 x2 x3 x4) := of_none rfl
theorem attest (x0 x1 x2) : Statement (.attest x0 x1 x2) := of_none rfl
theorem registerWrite (x0 x1) : Statement (.registerWrite x0 x1) := of_none rfl
theorem pellorRequest (x0 x1) : Statement (.pellorRequest x0 x1) := of_none rfl
theorem pellorResponse (x0 x1) : Statement (.pellorResponse x0 x1) := of_none rfl
theorem permitReturn (x0 x1 x2) : Statement (.permitReturn x0 x1 x2) := of_none rfl
theorem marker (x0) : Statement (.marker x0) := of_none rfl
theorem triggerMessage (x0 x1 x2) : Statement (.triggerMessage x0 x1 x2) := of_none rfl
theorem scanReadout : Statement (.scanReadout) := of_none rfl
theorem reductionAbort (x0 x1 x2) : Statement (.reductionAbort x0 x1 x2) := of_none rfl
theorem switchChunkTimeout (x0 x1) : Statement (.switchChunkTimeout x0 x1) := of_none rfl
theorem reset (x0) : Statement (.reset x0) := of_none rfl
theorem hbmTrainingComplete : Statement (.hbmTrainingComplete) := of_none rfl
theorem powerAdjust (x0 x1) : Statement (.powerAdjust x0 x1) := of_none rfl
theorem hbmScrub (x0) : Statement (.hbmScrub x0) := of_none rfl
theorem stepRequest (x0) : Statement (.stepRequest x0) := of_none rfl
theorem queueDescriptorWrite (x0 x1 x2) : Statement (.queueDescriptorWrite x0 x1 x2) := of_none rfl
theorem debuggerResume (x0 x1) : Statement (.debuggerResume x0 x1) := of_none rfl
theorem badStreamWord (x0 x1 x2) : Statement (.badStreamWord x0 x1 x2) := of_none rfl
theorem islandPoweredUp (x0) : Statement (.islandPoweredUp x0) := of_none rfl
theorem podConfiguration (x0 x1 x2) : Statement (.podConfiguration x0 x1 x2) := of_none rfl
theorem hostPortLinkUp (x0) : Statement (.hostPortLinkUp x0) := of_none rfl

end Laws.LengthBit
end Sys2Proof
end

