-- ==== Sys2Proof/Tests/Slice0.lean ====
section
/-! SUPPORT. Tests: terms that the encoding does not admit, words of the spec's encodings and what they decode to, the spec's
worked cases, and for every statement with hypotheses a state and operands that meet them. -/
open Sys2Proof Sys2Proof.Machine
namespace Sys2Proof.Tests

set_option Elab.async false

/-- A header with the guard that is always true. -/
def g7 : Hdr := { sp := false, stall := 0, hold := 0, gn := false, gp := 7 }

/-! ### Ill-formed terms: one for each check of WellFormed.lean -/

/-- Well-formed forms, from which each ill-formed term below changes one field. -/
def xa : Alu := { u := false, ty := .b32, rm := .rn, os := 0, d := 4, a := 2, b := .reg 6, c := 0 }
def xf : Alu := { xa with ty := .f32 }
def xd : Alu := { xa with ty := .f64 }
def xm : MemForm := { sid := 0, sc := 0, cp := 0, wd := 4, ord := 0, op := 0, ext := .none, d := 4, a := 2, b := 0 }
def xs : MemForm := { xm with d := 0, b := 4 }
def xk : CopyForm := { sid := 0, sc := 0, cp := 0, wd := 7, op := 0, ctr := none, d := 4, a := 2, b := 6 }
def xc : CvtForm := { u := false, ty := .bf16, rm := .rn, sat := false, mg := false, de := 0, se := 0, sty := .f32, d := 4, a := 2, b := .reg 0 }
def xp : SetpForm := { u := false, ty := .i32, cmp := 0, cb := 0, d := 1, a := 2, b := .reg 6, c := 0 }
def xw : WcondForm := { kind := 2, s := false, cls := 0, d := 1, a := 3, b := 9 }
def xt : WaitForm := { mask := 1, any := false, mw := false, sc := 1, d := 1, b := 9, c := 0 }

/-- The terms above are well-formed where they stand, so each term below fails by its own change. -/
theorem test_wellformed_bases : [Instr.iadd g7 xa, .fadd g7 xf, .dadd g7 xd, .ld g7 xm, .st g7 xs, .cpy g7 xk, .cvt g7 xc, .setp g7 xp,
    .wcond g7 xw, .wait g7 xt].all (·.wf) = true := by decide

theorem test_illformed_control : [Instr.blk 0 0xFFFE false 1, .want g7 0xFFFE, .call g7 0 7, .call g7 0 128, .callv g7 0 3].any (·.wf) = false := by
  decide

theorem test_illformed_integer : [Instr.iadd g7 xf, .iadd g7 { xa with os := 2 }, .iadd g7 { xa with rm := .rz }, .iadd g7 { xa with c := 1 },
    .iadd g7 { xa with u := true }, .iadd g7 { xa with u := true, b := .uni 6, d := 128 }, .iadd g7 { xa with ty := .b64, d := 5 },
    .iadd g7 { xa with ty := .b64, b := .reg 7 }, .iadd g7 { xa with b := .uni 128 }, .iadd g7 { xa with b := .imm32 0x100000000 },
    .imul g7 { xa with os := 1 }, .imad g7 { xa with ty := .b64, c := 3 }, .imadw g7 { xa with c := 3 }, .imadw g7 { xa with ty := .b64 },
    .iabs g7 xa, .iabs g7 { xa with ty := .i32, b := .imm8 1 }].any (·.wf) = false := by decide

theorem test_illformed_logic_and_moves : [Instr.and g7 { xa with ty := .i32 }, .sar g7 xa, .not g7 { xa with a := 2, b := .uni 0 }, .bfx g7 xf,
    .bfi g7 { xa with ty := .i32 }, .lea g7 { xa with a := 3 }, .lea g7 { xa with ty := .b64 }, .sel g7 { xa with c := 8 }, .mov g7 xa,
    .movi g7 xa, .movi g7 { xa with a := 0, b := .imm32 0x100000000 }, .movi g7 { xa with a := 0, u := true, b := .imm8 1, c := 1 }].any (·.wf)
    = false := by decide

theorem test_illformed_float : [Instr.fadd g7 xa, .fadd g7 { xf with os := 1 }, .fadd g7 { xf with c := 2 }, .ffma g7 { xf with rm := .rs },
    .ffma g7 { xf with os := 4 }, .fmin g7 { xf with os := 2 }, .frnd g7 { xf with b := .reg 0, rm := .rs }, .fcls g7 { xa with b := .reg 0 },
    .frsq g7 { xf with b := .reg 0, rm := .rz }, .frcp g7 { xf with b := .reg 3 }, .dadd g7 { xd with a := 3 }, .dadd g7 { xd with rm := .rs },
    .dfma g7 { xd with os := 4 }, .dmin g7 { xd with os := 2 }, .hadd2 g7 xf, .hfma2 g7 { xa with ty := .f16, os := 4 }].any (·.wf)
    = false := by decide

theorem test_illformed_conversions : [Instr.cvt g7 { xc with se := 1 }, .cvt g7 { xc with de := 1 }, .cvt g7 { xc with mg := true, de := 2 },
    .cvt g7 { xc with ty := .f32, mg := true }, .cvt g7 { xc with b := .reg 1 }, .cvt g7 { xc with ty := .i32, sat := true },
    .cvt g7 { xc with rm := .rs }, .cvt g7 { xc with ty := .f64, d := 5 }, .cvtsr g7 { xc with ty := .i8 }, .cvtsr g7 { xc with rm := .rz },
    .cvtsr g7 { xc with b := .imm8 1 }, .rng g7 { xa with b := .reg 3 }, .rng g7 { xa with c := 1 }].any (·.wf) = false := by decide

theorem test_illformed_predicates : [Instr.setp g7 { xp with d := 8 }, .setp g7 { xp with cmp := 6 }, .setp g7 { xp with cb := 4 },
    .setp g7 { xp with c := 1 }, .setp g7 { xp with ty := .f16 }, .plop g7 false 0 8 0 0 0, .p2v g7 true 128, .v2p g7 true 1 128,
    .shfl g7 0 1 2 (.imm32 1), .vote g7 3 false 0 0, .ballot g7 true false 128 0, .match_ g7 .i32 0 0, .match_ g7 .b64 1 0,
    .redux g7 false 6 .b32 1 2, .redux g7 false 3 .f32 1 2, .v2s g7 3 0 0 0, .v2s g7 0 0 0 32, .v2s g7 2 0 0 1].any (·.wf) = false := by decide

theorem test_illformed_memory : [Instr.ld g7 { xm with wd := 7 }, .ld g7 { xm with sc := 7 }, .ld g7 { xm with a := 3 }, .ld g7 { xm with ord := 2 },
    .ld g7 { xm with op := 1 }, .ld g7 { xm with b := 1 }, .ld g7 { xm with wd := 5, d := 5 }, .ld g7 { xm with wd := 6, d := 6 },
    .ld g7 { xm with ext := .place 0 }, .ld g7 { xm with ext := .place 0x80C0000000000000 }, .ldu g7 { xm with d := 128 },
    .st g7 { xs with wd := 1 }, .st g7 { xs with ord := 1 }, .st g7 { xs with d := 1 }, .pft g7 xm, .ldw g7 { xm with wd := 2 },
    .ldw g7 { xm with cp := 1 }, .ldw g7 { xm with ext := .place 0x8000000000000000 }, .stf g7 { xs with ord := 1 }, .feget g7 { xm with wd := 5 },
    .feset g7 { xs with b := 0, op := 2 }].any (·.wf) = false := by decide

theorem test_illformed_atomics_and_copies : [Instr.atom g7 { xm with wd := 6 }, .atom g7 { xm with op := 7 }, .atom g7 { xm with wd := 9, op := 3 },
    .red g7 { xs with ord := 1 }, .cas g7 { xm with b := 5 }, .cas g7 { xm with op := 2, b := 6 }, .cas g7 { xm with wd := 5, b := 6 },
    .cadd g7 xm, .cadd g7 { xm with wd := 5, op := 1, b := 6 }, .mst g7 { xs with d := 1 }, .cpy g7 { xk with wd := 6 }, .cpy g7 { xk with d := 3 },
    .cpy g7 { xk with op := 1 }, .cpyg g7 xk, .cpyr g7 { xk with wd := 6 }, .cpyr g7 { xk with wd := 4, op := 3 }].any (·.wf) = false := by decide

theorem test_illformed_waits : [Instr.wcond g7 { xw with kind := 0 }, .wcond g7 { xw with d := 4 }, .wcond g7 { xw with a := 16 },
    .wcond g7 { xw with s := true }, .wcond g7 { xw with kind := 3, a := 0, b := 0 }, .wcond g7 { xw with kind := 1 }, .wcond g7 { xw with kind := 4 },
    .wait g7 { xt with mask := 0 }, .wait g7 { xt with sc := 7 }, .wait g7 { xt with d := 8 }, .wait g7 { xt with c := 1 }, .bar g7 0 false 0 0 0,
    .bar g7 1 false 0 16 0, .bar g7 1 false 0 0 1, .bara g7 6 0 0, .sig g7 true 1 0 0, .sig g7 false 1 16 0, .fence g7 7 0 1, .fence g7 0 3 1,
    .fence g7 0 0 0, .fencex g7 0, .fetchb g7 7, .tfetch g7 2 0].any (·.wf) = false := by decide

theorem test_illformed_matrix : [Instr.mstart g7 1, .mtile g7 16 0, .mtile g7 0 2, .mtileMemory 16 0, .mma false false 32 0 0 ⟨0, 0, 0, 0⟩,
    .mmas 0 0 0 16 ⟨0, 0, 0, 0⟩, .mzero 0 0, .mzero 0 33, .mscale 0 0 (.row 16 0), .mdrain false false 0 0 1 0 0, .mdrain false true 0 0 16 0 0,
    .mldacc 0 16 0 0, .cpyaccRd g7 0 32 0, .cpyaccWr g7 32 0 0, .cpyaccSt g7 0 1 0 0, .cpyaccLd g7 0 0 1 0, .msig 1 0 0, .mwait 0 0 0,
    .mchk 16 0 0 0].any (·.wf) = false := by decide

theorem test_illformed_rest : [Instr.qpk g7 7 0 0 0, .qpkTile g7 0 0 7 0 0 0, .qunpkTile g7 0 0 0 false 1 0, .flrd g7 3 false 0, .flrd g7 2 false 124,
    .flclr g7 2 1, .flclr g7 0 0, .flclr g7 0 128, .moncfg g7 8 0, .moncfg g7 0 4, .monref g7 0 2 0, .monrdC g7 4 0, .monrdSt g7 0 8, .monclr g7 8,
    .trap g7 0xEF, .bkpt g7 0, .ewrd g7 13 0 224 0, .ewrd g7 0 1 224 0, .ewrd g7 0 0 128 0, .ewwr g7 5 0 1 224, .trig g7 3 0, .trig g7 4 16,
    .rdsr g7 true 0 0, .rdsr g7 false 6 0, .rdsr g7 false 5 1, .wrsr g7 1 0, .wrsr g7 0x0E 1, .grow g7 true 0 32, .shrink g7 false 128 0].any (·.wf)
    = false := by decide

/-! ### Words of the encodings (R15 to R31, R86 and each family's table), and what they decode to -/

def decodesTo (t : W64 × W64 × Instr) : Bool := match decodeWord .plain t.1 t.2.1 with
  | .ok i => i = t.2.2
  | .error _ => false
def decodesInHandler (t : W64 × W64 × Instr) : Bool := match decodeWord { DecodeEnv.plain with handler := true } t.1 t.2.1 with
  | .ok i => i = t.2.2
  | .error _ => false
def streamReads (t : W64 × W64 × Instr) : Bool := decodeStream t.1 t.2.1 = some t.2.2
def headerReads (t : W64 × W64 × Instr) : Bool := decodeHeader t.1 = some t.2.2

theorem test_decode_integer : ([
    (0x00E2010040800000, 0x0, .iadd g7 { u := false, ty := .b32, rm := .rn, os := 0, d := 8, a := 2, b := .reg 4, c := 0 }),
    (0x00E22100408008C1, 0x0, .isub g7 { u := false, ty := .i64, rm := .rn, os := 1, d := 8, a := 2, b := .uni 4, c := 0 }),
    (0x00E2410040800000, 0x0, .imul g7 { u := false, ty := .b32, rm := .rn, os := 0, d := 8, a := 2, b := .reg 4, c := 0 }),
    (0x00E2610040800080, 0x0, .imulh g7 { u := false, ty := .b64, rm := .rn, os := 0, d := 8, a := 2, b := .reg 4, c := 0 }),
    (0x00E281004080C040, 0x0, .imad g7 { u := false, ty := .i32, rm := .rn, os := 0, d := 8, a := 2, b := .reg 4, c := 6 }),
    (0x00E2A1004080C040, 0x0, .imadw g7 { u := false, ty := .i32, rm := .rn, os := 0, d := 8, a := 2, b := .reg 4, c := 6 }),
    (0x00E2C10040800040, 0x0, .imin g7 { u := false, ty := .i32, rm := .rn, os := 0, d := 8, a := 2, b := .reg 4, c := 0 }),
    (0x00E2E10040800000, 0x0, .imax g7 { u := false, ty := .b32, rm := .rn, os := 0, d := 8, a := 2, b := .reg 4, c := 0 }),
    (0x00E3010040000041, 0x0, .iabs g7 { u := false, ty := .i32, rm := .rn, os := 1, d := 8, a := 2, b := .reg 0, c := 0 }),
    (0x00E32100400000C0, 0x0, .ineg g7 { u := false, ty := .i64, rm := .rn, os := 0, d := 8, a := 2, b := .reg 0, c := 0 }),
    (0x80E2008080001800, 0xffffffff, .iadd g7 { u := false, ty := .b32, rm := .rn, os := 0, d := 4, a := 4, b := .imm32 0xffffffff, c := 0 })
  ] : List (W64 × W64 × Instr)).all decodesTo = true := by decide +kernel

theorem test_decode_logic : ([
    (0x00E4010040800000, 0x0, .and g7 { u := false, ty := .b32, rm := .rn, os := 0, d := 8, a := 2, b := .reg 4, c := 0 }),
    (0x00E4210040800000, 0x0, .or g7 { u := false, ty := .b32, rm := .rn, os := 0, d := 8, a := 2, b := .reg 4, c := 0 }),
    (0x00E4410040800080, 0x0, .xor g7 { u := false, ty := .b64, rm := .rn, os := 0, d := 8, a := 2, b := .reg 4, c := 0 }),
    (0x00E4610040800000, 0x0, .andn g7 { u := false, ty := .b32, rm := .rn, os := 0, d := 8, a := 2, b := .reg 4, c := 0 }),
    (0x00E4810040000000, 0x0, .not g7 { u := false, ty := .b32, rm := .rn, os := 0, d := 8, a := 2, b := .reg 0, c := 0 }),
    (0x00E4A10040A01000, 0x0, .shl g7 { u := false, ty := .b32, rm := .rn, os := 0, d := 8, a := 2, b := .imm8 5, c := 0 }),
    (0x00E4C10040A01000, 0x0, .shr g7 { u := false, ty := .b32, rm := .rn, os := 0, d := 8, a := 2, b := .imm8 5, c := 0 }),
    (0x00E4E10040800040, 0x0, .sar g7 { u := false, ty := .i32, rm := .rn, os := 0, d := 8, a := 2, b := .reg 4, c := 0 }),
    (0x00E5010040800000, 0x0, .rotl g7 { u := false, ty := .b32, rm := .rn, os := 0, d := 8, a := 2, b := .reg 4, c := 0 }),
    (0x00E5210040000080, 0x0, .clz g7 { u := false, ty := .b64, rm := .rn, os := 0, d := 8, a := 2, b := .reg 0, c := 0 }),
    (0x00E5410040000000, 0x0, .ctz g7 { u := false, ty := .b32, rm := .rn, os := 0, d := 8, a := 2, b := .reg 0, c := 0 }),
    (0x00E5610040000000, 0x0, .popc g7 { u := false, ty := .b32, rm := .rn, os := 0, d := 8, a := 2, b := .reg 0, c := 0 }),
    (0x00E5810040000000, 0x0, .brev g7 { u := false, ty := .b32, rm := .rn, os := 0, d := 8, a := 2, b := .reg 0, c := 0 }),
    (0x00E5A10040800040, 0x0, .bfx g7 { u := false, ty := .i32, rm := .rn, os := 0, d := 8, a := 2, b := .reg 4, c := 0 }),
    (0x00E5C10040814000, 0x0, .bfi g7 { u := false, ty := .b32, rm := .rn, os := 0, d := 8, a := 2, b := .reg 4, c := 10 })
  ] : List (W64 × W64 × Instr)).all decodesTo = true := by decide +kernel

theorem test_decode_moves : ([
    (0x00E6008081400004, 0x0, .lea g7 { u := false, ty := .b32, rm := .rn, os := 4, d := 4, a := 4, b := .reg 10, c := 0 }),
    (0x00E620A0C0E06001, 0x0, .sel g7 { u := false, ty := .b32, rm := .rn, os := 1, d := 5, a := 6, b := .reg 7, c := 3 }),
    (0x00E640C000800800, 0x0, .mov g7 { u := false, ty := .b32, rm := .rn, os := 0, d := 6, a := 0, b := .uni 4, c := 0 }),
    (0x80E6618000009800, 0x100, .movi g7 { u := false, ty := .b32, rm := .rn, os := 0, d := 12, a := 0, b := .imm32 0x100, c := 4 })
  ] : List (W64 × W64 × Instr)).all decodesTo = true := by decide +kernel

theorem test_decode_float : ([
    (0x00E8012060A16220, 0x0, .fadd g7 { u := false, ty := .f32, rm := .rs, os := 0, d := 9, a := 3, b := .reg 5, c := 11 }),
    (0x00E8212060A00208, 0x0, .fsub g7 { u := false, ty := .f32, rm := .rz, os := 0, d := 9, a := 3, b := .reg 5, c := 0 }),
    (0x00E8412060A00200, 0x0, .fmul g7 { u := false, ty := .f32, rm := .rn, os := 0, d := 9, a := 3, b := .reg 5, c := 0 }),
    (0x00E8612060A0E203, 0x0, .ffma g7 { u := false, ty := .f32, rm := .rn, os := 3, d := 9, a := 3, b := .reg 5, c := 7 }),
    (0x00E8812060A00200, 0x0, .fmin g7 { u := false, ty := .f32, rm := .rn, os := 0, d := 9, a := 3, b := .reg 5, c := 0 }),
    (0x00E8A12060A00201, 0x0, .fmax g7 { u := false, ty := .f32, rm := .rn, os := 1, d := 9, a := 3, b := .reg 5, c := 0 }),
    (0x00E8C12060000208, 0x0, .frnd g7 { u := false, ty := .f32, rm := .rz, os := 0, d := 9, a := 3, b := .reg 0, c := 0 }),
    (0x00E8E12060000200, 0x0, .fcls g7 { u := false, ty := .f32, rm := .rn, os := 0, d := 9, a := 3, b := .reg 0, c := 0 }),
    (0x00E9012060000208, 0x0, .frcp g7 { u := false, ty := .f32, rm := .rz, os := 0, d := 9, a := 3, b := .reg 0, c := 0 }),
    (0x00E9212060000200, 0x0, .frsq g7 { u := false, ty := .f32, rm := .rn, os := 0, d := 9, a := 3, b := .reg 0, c := 0 }),
    (0x00E9412060000200, 0x0, .fsqrt g7 { u := false, ty := .f32, rm := .rn, os := 0, d := 9, a := 3, b := .reg 0, c := 0 }),
    (0x00E9612060000200, 0x0, .fex2 g7 { u := false, ty := .f32, rm := .rn, os := 0, d := 9, a := 3, b := .reg 0, c := 0 }),
    (0x00E9812060000200, 0x0, .flg2 g7 { u := false, ty := .f32, rm := .rn, os := 0, d := 9, a := 3, b := .reg 0, c := 0 }),
    (0x00E9A12060000200, 0x0, .fsin g7 { u := false, ty := .f32, rm := .rn, os := 0, d := 9, a := 3, b := .reg 0, c := 0 }),
    (0x00E9C12060000200, 0x0, .fcos g7 { u := false, ty := .f32, rm := .rn, os := 0, d := 9, a := 3, b := .reg 0, c := 0 })
  ] : List (W64 × W64 × Instr)).all decodesTo = true := by decide +kernel

theorem test_decode_float64_and_halves : ([
    (0x00EA010040800250, 0x0, .dadd g7 { u := false, ty := .f64, rm := .ru, os := 0, d := 8, a := 2, b := .reg 4, c := 0 }),
    (0x00EA210040800240, 0x0, .dmul g7 { u := false, ty := .f64, rm := .rn, os := 0, d := 8, a := 2, b := .reg 4, c := 0 }),
    (0x00EA41004080C242, 0x0, .dfma g7 { u := false, ty := .f64, rm := .rn, os := 2, d := 8, a := 2, b := .reg 4, c := 6 }),
    (0x00EA610040800240, 0x0, .dmin g7 { u := false, ty := .f64, rm := .rn, os := 0, d := 8, a := 2, b := .reg 4, c := 0 }),
    (0x00EA810040800240, 0x0, .dmax g7 { u := false, ty := .f64, rm := .rn, os := 0, d := 8, a := 2, b := .reg 4, c := 0 }),
    (0x00EB0100408002C0, 0x0, .hadd2 g7 { u := false, ty := .bf16, rm := .rn, os := 0, d := 8, a := 2, b := .reg 4, c := 0 }),
    (0x00EB210040800298, 0x0, .hmul2 g7 { u := false, ty := .f16, rm := .rd, os := 0, d := 8, a := 2, b := .reg 4, c := 0 }),
    (0x00EB41004080C280, 0x0, .hfma2 g7 { u := false, ty := .f16, rm := .rn, os := 0, d := 8, a := 2, b := .reg 4, c := 6 })
  ] : List (W64 × W64 × Instr)).all decodesTo = true := by decide +kernel

theorem test_decode_conversions : ([
    (0x00EC012080090302, 0x0, .cvt g7 { u := false, ty := .e4m3, rm := .rn, sat := false, mg := true, de := 1, se := 0, sty := .f32, d := 9, a := 4, b := .reg 0 }),
    (0x00EC20C0412102C0, 0x0, .cvtsr g7 { u := false, ty := .bf16, rm := .rn, sat := false, mg := false, de := 0, se := 0, sty := .f32, d := 6, a := 2, b := .reg 9 }),
    (0x00FA00A081000800, 0x0, .rng g7 { u := false, ty := .b32, rm := .rn, os := 0, d := 5, a := 4, b := .uni 8, c := 0 })
  ] : List (W64 × W64 × Instr)).all decodesTo = true := by decide +kernel

theorem test_decode_predicates : ([
    (0x004E006080A00210, 0x0, .setp { g7 with gp := 2 } { u := false, ty := .f32, cmp := 2, cb := 0, d := 3, a := 4, b := .reg 5, c := 0 }),
    (0x00EE2020406084E8, 0x0, .plop g7 true 0xE8 1 2 3 4),
    (0x00EE412000000000, 0x0, .p2v g7 false 9),
    (0x00EE600100000015, 0x0, .v2p g7 false 0x15 8),
    (0x00EE80E0C0201003, 0x0, .shfl g7 3 7 6 (.imm8 1)),
    (0x00EEA04020000005, 0x0, .vote g7 1 true 2 1),
    (0x00EEC12020000404, 0x0, .ballot g7 true true 9 1),
    (0x00EEE10040000080, 0x0, .match_ g7 .b64 8 2),
    (0x38EF01A100000202, 0x0, .redux { g7 with stall := 7 } false 2 .f32 13 8),
    (0x00EF212062200000, 0x0, .v2s g7 0 9 3 17)
  ] : List (W64 × W64 × Instr)).all decodesTo = true := by decide +kernel

theorem test_decode_memory : ([
    (0x80F0028100002245, 0x40, .ld g7 { sid := 1, sc := 1, cp := 0, wd := 5, ord := 1, op := 0, ext := .off 0x40, d := 20, a := 8, b := 0 }),
    (0x80F0200040A00004, 0x10, .st g7 { sid := 0, sc := 0, cp := 0, wd := 4, ord := 0, op := 0, ext := .off 0x10, d := 0, a := 2, b := 5 }),
    (0x00F0408000000005, 0x0, .ldu g7 { sid := 0, sc := 0, cp := 0, wd := 5, ord := 0, op := 0, ext := .none, d := 4, a := 0, b := 0 }),
    (0x00F06000400006E0, 0x0, .pft g7 { sid := 3, sc := 3, cp := 2, wd := 0, ord := 0, op := 0, ext := .none, d := 0, a := 2, b := 0 }),
    (0x00F0812040002044, 0x0, .ldw g7 { sid := 0, sc := 1, cp := 0, wd := 4, ord := 1, op := 0, ext := .none, d := 9, a := 2, b := 0 }),
    (0x00F0A12040002044, 0x0, .ldcn g7 { sid := 0, sc := 1, cp := 0, wd := 4, ord := 1, op := 0, ext := .none, d := 9, a := 2, b := 0 }),
    (0x80F0C00040A04044, 0x8, .stf g7 { sid := 0, sc := 1, cp := 0, wd := 4, ord := 2, op := 0, ext := .off 8, d := 0, a := 2, b := 5 }),
    (0x00F0E00040A00044, 0x0, .ste g7 { sid := 0, sc := 1, cp := 0, wd := 4, ord := 0, op := 0, ext := .none, d := 0, a := 2, b := 5 }),
    (0x00F1012040000A04, 0x0, .feget g7 { sid := 5, sc := 0, cp := 0, wd := 4, ord := 0, op := 0, ext := .none, d := 9, a := 2, b := 0 }),
    (0x00F1200040014004, 0x0, .feset g7 { sid := 0, sc := 0, cp := 0, wd := 4, ord := 2, op := 1, ext := .none, d := 0, a := 2, b := 0 }),
    (0x00F200C100E204C7, 0x0, .atom g7 { sid := 2, sc := 3, cp := 0, wd := 7, ord := 0, op := 2, ext := .none, d := 6, a := 8, b := 7 }),
    (0x00F2200040800049, 0x0, .red g7 { sid := 0, sc := 1, cp := 0, wd := 9, ord := 0, op := 0, ext := .none, d := 0, a := 2, b := 4 }),
    (0x00F2414041812044, 0x0, .cas g7 { sid := 0, sc := 1, cp := 0, wd := 4, ord := 1, op := 1, ext := .none, d := 10, a := 2, b := 12 }),
    (0x00F260C040800105, 0x0, .cadd g7 { sid := 0, sc := 4, cp := 0, wd := 5, ord := 0, op := 0, ext := .none, d := 6, a := 2, b := 4 }),
    (0x00F2800040804105, 0x0, .mst g7 { sid := 0, sc := 4, cp := 0, wd := 5, ord := 2, op := 0, ext := .none, d := 0, a := 2, b := 4 }),
    (0x80F0010040008004, 0x8134000000000000, .ld g7 { sid := 0, sc := 0, cp := 0, wd := 4, ord := 0, op := 0, ext := .place 0x8134000000000000, d := 8, a := 2, b := 0 })
  ] : List (W64 × W64 × Instr)).all decodesTo = true := by decide +kernel

theorem test_decode_copies : ([
    (0x00F2A101418002C7, 0x0, .cpy g7 { sid := 1, sc := 3, cp := 0, wd := 7, op := 0, ctr := none, d := 8, a := 10, b := 12 }),
    (0x80F2C00140002008, 0x2000, .cpyg g7 { sid := 0, sc := 0, cp := 0, wd := 8, op := 0, ctr := (some 0x2000), d := 0, a := 10, b := 0 }),
    (0x00F2E10141808144, 0x0, .cpyr g7 { sid := 0, sc := 5, cp := 0, wd := 4, op := 2, ctr := none, d := 8, a := 10, b := 12 })
  ] : List (W64 × W64 × Instr)).all decodesTo = true := by decide +kernel

theorem test_decode_waits : ([
    (0x00F4002061200002, 0x0, .wcond g7 { kind := 2, s := false, cls := 0, d := 1, a := 3, b := 9 }),
    (0x00F400410000000C, 0x0, .wcond g7 { kind := 4, s := true, cls := 0, d := 2, a := 8, b := 0 }),
    (0x00F4202002800043, 0x0, .wait g7 { mask := 3, any := false, mw := false, sc := 1, d := 1, b := 20, c := 0 }),
    (0x00F4402000004048, 0x0, .bar g7 1 true 1 0 2),
    (0x00F4612060000080, 0x0, .bara g7 2 9 3),
    (0x00F4804000201040, 0x0, .sig g7 true 1 2 1),
    (0x00F4A000006000E0, 0x0, .fence g7 3 2 3),
    (0x00F4C00000600000, 0x0, .fencex g7 3),
    (0x00F4E000000000C0, 0x0, .fetchb g7 3),
    (0x00F5010000006000, 0x0, .tfetch g7 8 3)
  ] : List (W64 × W64 × Instr)).all decodesTo = true := by decide +kernel

theorem test_decode_control : ([
    (0x0000000000000000, 0x0, .nop { g7 with gp := 0 }),
    (0x0020400040000000, 0x0, .want { g7 with gp := 1 } 2),
    (0x00E06000E0000000, 0x0, .wantv g7 7),
    (0x00E08020C0A00000, 0x0, .call g7 0x105 6),
    (0x00E0A04100600000, 0x0, .callv g7 0x203 8),
    (0x00E0C00000000000, 0x0, .ret g7),
    (0x00E0E00000000000, 0x0, .exit g7),
    (0x4141000000000028, 0x0, .yield { sp := true, stall := 0, hold := 0, gn := true, gp := 2 } 40)
  ] : List (W64 × W64 × Instr)).all decodesTo = true := by decide +kernel

theorem test_decode_matrix_registers : ([
    (0x00F6000100000000, 0x0, .mstart g7 8),
    (0x00F6000000000001, 0x0, .mstartResume g7),
    (0x00F6000000000002, 0x0, .mstartRetry g7),
    (0x00F6406180000000, 0x0, .mtile g7 3 12),
    (0x00F7218020A00000, 0x0, .cpyaccRd g7 12 1 5),
    (0x00F7202180A00001, 0x0, .cpyaccWr g7 1 12 5),
    (0x00F7210020A00602, 0x0, .cpyaccSt g7 3 8 1 5),
    (0x00F7202100A00603, 0x0, .cpyaccLd g7 3 1 8 5)
  ] : List (W64 × W64 × Instr)).all decodesTo = true := by decide +kernel

theorem test_decode_numbers_and_flags : ([
    (0x00FA250200010002, 0x0, .qpk g7 2 40 16 8),
    (0x00FA2282C0030262, 0x0, .qpkTile g7 2 1 1 20 22 24),
    (0x00FA420500000002, 0x0, .qunpk g7 2 16 40),
    (0x00FA4282C0000272, 0x0, .qunpkTile g7 2 1 1 true 20 22),
    (0x00FA614000000002, 0x0, .flrd g7 2 false 10),
    (0x00FA80000FE00001, 0x0, .flclr g7 1 0x7F)
  ] : List (W64 × W64 × Instr)).all decodesTo = true := by decide +kernel

theorem test_decode_monitors : ([
    (0x00FB004200000000, 0x0, .moncfg g7 2 16),
    (0x00FB204303800000, 0x0, .monref g7 2 24 28),
    (0x00FB440040000000, 0x0, .monrdC g7 32 2),
    (0x00FB440040000001, 0x0, .monrdP g7 32 2),
    (0x00FB450040000002, 0x0, .monrdSt g7 40 2),
    (0x00FB604000000000, 0x0, .monclr g7 2),
    (0x003B804000000000, 0x0, .monstp { g7 with gp := 1 } 2)
  ] : List (W64 × W64 × Instr)).all decodesTo = true := by decide +kernel

theorem test_decode_traps_and_registers : ([
    (0x00FC00001E600000, 0x0, .trap g7 0xF3),
    (0x00FC000000000001, 0x0, .trapKill g7 0),
    (0x40FC200000A00000, 0x0, .bkpt { g7 with sp := true } 5),
    (0x00FCC00000600140, 0x0, .trig g7 5 3),
    (0x00FD00C000000405, 0x0, .rdsr g7 true 5 6),
    (0x00FD20008000000E, 0x0, .wrsr g7 0x0E 4),
    (0x00FD412000401000, 0x0, .grow g7 true 9 2),
    (0x00FD612001400800, 0x0, .shrink g7 false 9 10)
  ] : List (W64 × W64 × Instr)).all decodesTo = true := by decide +kernel

theorem test_decode_handler : ([
    (0x00FC400000000000, 0x0, .eret g7),
    (0x00FC600000000000, 0x0, .eretx g7),
    (0x00FC8E800000000C, 0x0, .ewrd g7 12 0 0x74 0),
    (0x00FC9C8020000000, 0x0, .ewrd g7 0 0 0xE4 1),
    (0x00FCA0001CE00005, 0x0, .ewwr g7 5 0 0 0xE7)
  ] : List (W64 × W64 × Instr)).all decodesInHandler = true := by decide +kernel

theorem test_decode_stream : ([
    (0x00F6200000000000, 0x0, .mend),
    (0x80F6400000000001, 0x4000010040, .mtileMemory 0 0x4000010040),
    (0x80F6604000200000, 0x800400000100000, .mma false false 2 0 1 { xr := 128, xk := 64, xb := 0, xn := 1 }),
    (0x80F6806040608000, 0x0, .mmas 3 2 3 4 { xr := 0, xk := 0, xb := 0, xn := 0 }),
    (0x00F6A00000800000, 0x0, .mzero 0 4),
    (0x80F6C04040000000, 0x3f000000, .mscale 2 2 (.scalar 0x3F000000)),
    (0x80F6C04000600001, 0x0, .mscale 2 0 (.row 3 0)),
    (0x80F6E0A040C00002, 0x800000000000, .mdrain false true 5 2 6 0 128),
    (0x80F7006040000000, 0x40020000000000, .mldacc 3 2 4 2),
    (0x00F7402000200040, 0x0, .msig 1 1 1),
    (0x80F7600040000040, 0x3, .mwait 1 2 3),
    (0x80F7800040000000, 0x40020000300000, .mchk 2 4 2 3)
  ] : List (W64 × W64 × Instr)).all streamReads = true := by decide +kernel

theorem test_decode_headers : ([
    (0x00E0200000000005, 0x0, .blk 0 0 false 5),
    (0x00E0200020001005, 0x0, .blk 0 1 true 5)
  ] : List (W64 × W64 × Instr)).all headerReads = true := by decide +kernel
/-! ### States that meet the statements' hypotheses -/

/-- One block of one group of 32 lanes, on turn at an instruction (log 5). -/
def demo : State := { placeOne State.reset 0 0 with cur := some { blk := 0, grp := 0 } }
def r0 : GRef := { blk := 0, grp := 0 }

/-- Whether an instruction issues, and the way it is found passes a test. -/
def issuesAnd (s : State) (h : Hdr) (long uniform : Bool) (u : Uses) (P : Iss → Bool) : Bool :=
  match foundBy s h long uniform u with
  | some i => i.act != 0#32 && !(u.reads ++ u.writes).any (beyond i.g) && !hazard i.g h uniform u && P i
  | none => false

theorem issues_of {s : State} {h : Hdr} {long uniform : Bool} {u : Uses} {P : Iss → Bool} (e : issuesAnd s h long uniform u P = true) :
    ∃ i, Issues s h long uniform u i ∧ P i = true := by
  unfold issuesAnd at e
  split at e
  next i hi =>
    simp only [Bool.and_eq_true, bne_iff_ne, ne_eq, Bool.not_eq_true'] at e
    exact ⟨i, ⟨hi, e.1.1.1, e.1.1.2, e.1.2⟩, e.2⟩
  next => simp at e

/-- Whether every access of an instruction is made where it stands by a group with no write to come after, and what it reaches
passes a test. -/
def reachesAnd (i : Iss) (p : Plan) (acts : List (Nat × W64)) (Q : State → List (Nat × W64 × Loc) → Bool) : Bool :=
  match checkLanes i.s i.w p.req p.log p.mon acts with
  | (s', .pass c) => c.unm.isEmpty && c.off == 0 && c.log.isEmpty && c.probed && i.g.sent.isEmpty && i.g.sideLog.isEmpty && !i.w.l.lrec.equinox && i.g.notes.isEmpty
      && c.ok.all (fun e => match e.2.2 with | .dev .. => false | _ => true) && Q s' c.ok
  | _ => false

theorem reaches_of {i : Iss} {p : Plan} {acts : List (Nat × W64)} {Q : State → List (Nat × W64 × Loc) → Bool}
    (e : reachesAnd i p acts Q = true) :
    ∃ s' ok, Reaches i p acts s' ok ∧ (∀ sid n va loc, ComesAfter i.g sid n va loc) ∧ Q s' ok = true := by
  unfold reachesAnd at e
  split at e
  next s' c hc =>
    simp only [Bool.and_eq_true, List.isEmpty_iff, beq_iff_eq, Bool.not_eq_true', List.all_eq_true] at e
    obtain ⟨⟨⟨⟨⟨⟨⟨⟨⟨h1, h2⟩, hl⟩, hp⟩, h0⟩, h3⟩, h4⟩, h5⟩, h6⟩, h7⟩ := e
    refine ⟨s', c.ok, ⟨?_, h0, h3, h4, ?_⟩, ?_, h7⟩
    · rw [hc, ← h1, ← h2, ← hl, ← hp]
    · intro x hx d pa slot hd
      have := h6 x hx
      rw [hd] at this
      exact absurd this (by simp)
    · intro sid n va loc x hx
      rw [h5] at hx
      exact absurd hx (by simp)
  next => simp at e

/-- A form, whether it has an extension word, whether it is uniform, and what it uses. -/
abbrev Form := Instr × Bool × Bool × Uses

/-- A form is well-formed and issues in the state `demo`. -/
def Meets (t : Form) : Prop := t.1.wf = true ∧ ∃ i, Issues demo g7 t.2.1 t.2.2.1 t.2.2.2 i
def meetsB (t : Form) : Bool := t.1.wf && issuesAnd demo g7 t.2.1 t.2.2.1 t.2.2.2 fun _ => true

theorem meets_all {l : List Form} (e : l.all meetsB = true) : ∀ t ∈ l, Meets t := by
  intro t ht
  have := List.all_eq_true.1 e t ht
  simp only [meetsB, Bool.and_eq_true] at this
  obtain ⟨i, hi, -⟩ := issues_of this.2
  exact ⟨this.1, i, hi⟩

/-- An ALU form with the slots it reads. -/
def aluForm (i : Instr) (x : Alu) (k : Slots) (lat : Option Nat) : Form :=
  (i, bLong x.b, x.u, { reads := k.reads x, writes := regsOf x.u k.d x.d, lat := lat })

def xl : Alu := { xa with ty := .b64 }
def xu : Alu := { xa with u := true, b := .imm32 0x80000000 }
def x1 : Alu := { xa with b := .reg 0 }
def xi : Alu := { x1 with ty := .i32 }

theorem test_meets_IntegerForms : ∀ t ∈ [aluForm (.iadd g7 xa) xa (.two .b32) (some 2), aluForm (.isub g7 xu) xu (.two .b32) (some 2),
    aluForm (.imul g7 xl) xl (.two .b64) (some 4), aluForm (.imulh g7 xa) xa (.two .b32) (some 4), aluForm (.imad g7 xa) xa (.three .b32) (some 4),
    aluForm (.imadw g7 xa) xa { a := some false, b := some false, c := some true, d := true } (some 4), aluForm (.imin g7 xa) xa (.two .b32) (some 2),
    aluForm (.imax g7 xa) xa (.two .b32) (some 2), aluForm (.iabs g7 xi) xi (.one .i32) (some 2), aluForm (.ineg g7 xi) xi (.one .i32) (some 2),
    aluForm (.lea g7 xa) xa { a := some true, b := some false, c := none, d := true } (some 2),
    aluForm (.mov g7 { x1 with a := 0 }) { x1 with a := 0 } { a := none, b := some false, c := none, d := false } (some 2),
    (.sel g7 xa, false, false, { reads := (Slots.two .b32).reads xa ++ [predReg false 0], writes := regsOf false false 4, lat := some 2 }),
    (.movi g7 { xa with a := 0, b := .imm8 7 }, false, false, { writes := regsOf false false 4, lat := some 2 })], Meets t :=
  meets_all (by decide +kernel)

theorem test_meets_BitResults : ∀ t ∈ [aluForm (.and g7 xa) xa (.two .b32) (some 2), aluForm (.or g7 xa) xa (.two .b32) (some 2),
    aluForm (.xor g7 xl) xl (.two .b64) (some 2), aluForm (.andn g7 xa) xa (.two .b32) (some 2), aluForm (.not g7 x1) x1 (.one .b32) (some 2),
    aluForm (.shl g7 xa) xa (.two .b32) (some 2), aluForm (.shr g7 xu) xu (.two .b32) (some 2),
    aluForm (.sar g7 { xa with ty := .i32 }) { xa with ty := .i32 } (.two .i32) (some 2), aluForm (.rotl g7 xa) xa (.two .b32) (some 2),
    aluForm (.clz g7 x1) x1 (.one .b32) (some 2), aluForm (.ctz g7 x1) x1 (.one .b32) (some 2), aluForm (.popc g7 x1) x1 (.one .b32) (some 2),
    aluForm (.brev g7 x1) x1 (.one .b32) (some 2), aluForm (.bfx g7 xa) xa (.two .b32) (some 2), aluForm (.bfi g7 xa) xa (.three .b32) (some 2)],
    Meets t := meets_all (by decide +kernel)

/-- FADD with stochastic rounding reads a third slot. -/
def xr : Alu := { xf with rm := .rs, c := 7 }
def xh : Alu := { xa with ty := .bf16 }

theorem test_meets_FloatForms : ∀ t ∈ [aluForm (.fadd g7 xr) xr { Slots.two .f32 with c := some false } (some 4),
    aluForm (.fsub g7 xf) xf (.two .f32) (some 4), aluForm (.fmul g7 xf) xf (.two .f32) (some 4), aluForm (.ffma g7 xf) xf (.three .f32) (some 4),
    aluForm (.fmin g7 xf) xf (.two .f32) (some 4), aluForm (.fmax g7 xf) xf (.two .f32) (some 4), aluForm (.dadd g7 xd) xd (.two .f64) (some 8),
    aluForm (.dmul g7 xd) xd (.two .f64) (some 8), aluForm (.dfma g7 xd) xd (.three .f64) (some 8), aluForm (.dmin g7 xd) xd (.two .f64) (some 8),
    aluForm (.dmax g7 xd) xd (.two .f64) (some 8), aluForm (.hadd2 g7 xh) xh (.two .bf16) (some 4), aluForm (.hmul2 g7 xh) xh (.two .bf16) (some 4),
    aluForm (.hfma2 g7 xh) xh (.three .bf16) (some 4)], Meets t := meets_all (by decide +kernel)

theorem test_meets_FloatOperands : (∃ s, FV.nan true = .nan s) ∧ (FV.nan true).isSNaN = true ∧ (mulFV (.inf true) (.num false 0 0)).2 = true
    ∧ (mulFV (.num false 3 0) (.num false 5 1)).2 = false
    ∧ (match (addFV .rn (mulFV (.num false 3 0) (.num false 5 1)).1 (.num true 15 1)).1 with
      | .num _ 0 _ => true
      | _ => false) = true
    ∧ (match (addFV .rn (mulFV (.num false 3 0) (.num false 5 1)).1 (.inf true)).1 with
      | .inf n => n
      | _ => false) = true := ⟨⟨_, rfl⟩, by decide, by decide, by decide, by decide, by decide⟩

theorem test_meets_MinMaxValues : decodeF .f32 0x7FC00000 = .nan false ∧ decodeF .f32 0x7F800001 = .nan true
    ∧ decodeF .f32 0x80000000 = .num true 0 (-149) ∧ decodeF .f32 0 = .num false 0 (-149) ∧ Below (decodeF .f32 0x80000000) (decodeF .f32 0) := by
  refine ⟨by decide, by decide, by decide, by decide, .inr ⟨-149, -149, by decide, by decide⟩⟩

def xg : Alu := { xf with b := .reg 0 }

theorem test_meets_FloatFunctions : ∀ t ∈ [aluForm (.fcls g7 xg) xg (.one .f32) (some 4), aluForm (.frnd g7 xg) xg (.one .f32) (some 4),
    aluForm (.frcp g7 xg) xg (.one .f32) none, aluForm (.frsq g7 xg) xg (.one .f32) none, aluForm (.fsqrt g7 xg) xg (.one .f32) none,
    aluForm (.fex2 g7 xg) xg (.one .f32) none, aluForm (.flg2 g7 xg) xg (.one .f32) none, aluForm (.fsin g7 xg) xg (.one .f32) none,
    aluForm (.fcos g7 xg) xg (.one .f32) none], Meets t := meets_all (by decide +kernel)

theorem test_meets_ConversionForms : ∀ t ∈ ([(.cvt g7 { xc with mg := true, de := 1 }, false, false,
      { reads := regsOf false false 2 ++ [] ++ regsOf false false 4, writes := regsOf false false 4, lat := some 4 }),
    (.cvtsr g7 xc, false, false, { reads := regsOf false false 2 ++ bRegs false (.reg 0) ++ [], writes := regsOf false false 4, lat := some 4 }),
    aluForm (.rng g7 xa) xa { a := some false, b := some true, c := none, d := false } (some 4)] : List Form), Meets t :=
  meets_all (by decide +kernel)

theorem test_meets_PredicateForms : ∀ t ∈ ([(.setp g7 { xp with cb := 5, c := 2 }, false, false,
      { reads := regsOf false false 2 ++ bRegs false (.reg 6) ++ [predReg false 2], writes := [1].map (predReg false), lat := some 2 }),
    (.plop g7 true 0xE8 1 2 3 4, false, true, { reads := [predReg true 2, predReg true 3, predReg true 4], writes := [1].map (predReg true), lat := some 2 }),
    (.v2p g7 false 0x41 9, false, false, { reads := regsOf false false 9, writes := [0, 6].map (predReg false), lat := some 2 }),
    (.p2v g7 false 9, false, false, { reads := (List.range 7).map fun n => predReg false (BitVec.ofNat 8 n), writes := regsOf false false 9, lat := some 2 }),
    (.shfl g7 3 7 6 (.imm8 31), false, false, { reads := .v 6 :: bRegs false (.imm8 31), writes := regsOf false false 7, lat := some 4 }),
    (.match_ g7 .b64 8 6, false, false, { reads := regsOf false true 6, writes := regsOf false true 8, lat := some 4 }),
    (.vote g7 2 false 2 1, false, false, { reads := [.p 1], writes := [.p 2], lat := some 4 }),
    (.ballot g7 true false 9 1, false, false, { reads := [.p 1], writes := regsOf true false 9, lat := some 4 }),
    (.redux g7 false 5 .b32 9 8, false, false, { reads := [.v 8], writes := regsOf false false 9, lat := some 8 }),
    (.redux g7 true 2 .f32 9 8, false, false, { reads := [.v 8], writes := regsOf true false 9, lat := some 8 }),
    (.v2s g7 1 9 3 17, false, false, { reads := [.v 3, .s 17], writes := regsOf true false 9, lat := some 4 })] : List Form), Meets t :=
  meets_all (by decide +kernel)


theorem test_meets_ComparisonValues : Ty.i32.isInt = true ∧ Ty.f32.isInt = false ∧ (∃ s, decodeF .f32 0x7FC00000 = .nan s)
    ∧ decodeF .f32 0x3F800000 = .num false 0x800000 (-23) ∧ decodeF .f32 0xFF800000 = .inf true := ⟨rfl, rfl, ⟨false, by decide⟩, by decide, by decide⟩

theorem test_meets_ReductionValues : FV.nan true ∈ [0x7F800001, 0x3F800000].map (decodeF .f32)
    ∧ FV.inf true ∈ [0x7F800000, 0xFF800000].map (decodeF .f32) ∧ FV.inf false ∈ [0x7F800000, 0xFF800000].map (decodeF .f32)
    ∧ [0x3F800000, 0xBF800000].map (decodeF .f32) = [.num false 0x800000 (-23), .num true 0x800000 (-23)]
    ∧ [0x80000000, 0x80000000].map (decodeF .f32) = [.num true 0 (-149), .num true 0 (-149)]
    ∧ notAbove (-149) (.num true 0 (-149)) := ⟨by decide, by decide, by decide, by decide, by decide, Int.le_refl _⟩
/-- Page tables of context 0 at 0x20000 (R306): the first 16 MiB of addresses at 0x1000000, the next at 0x2000000 without write
permission, the third replicated (R141). TRAPV and EMUV name a region at 0x4000, whose descriptor stands below it (R66). -/
def paged (s : State) : State :=
  let t := [(0x10000, 0x20000), (0x20000, 0x28001), (0x28000, 0x30001), (0x30000, 0x1C00000001000087), (0x30008, 0x1C00000002000085),
    (0x30010, 0x5C00000004000087),
    (0x1003FC0, 0x3000), (0x1003FC8, 0x8000000001), (0x1003FE8, 0x3000)].foldl (fun s e => wr s e.1 8 e.2) s
  { t with ctxs := [(0, { Ctx.absent with st := 1, desc := 0x10000, febudget := 1024 })],
           launches := t.launches.map fun l => { l with lrec := { l.lrec with trapv := 0x4000, emuv := 0x4000 } } }

/-- A group whose v2:v3 hold in lane l the address 64 l, v4 the number 7, v6:v7 an address of the third page, s2:s3 the address 0x100, s12 the number 5; p1 is true in lane 5, and q1 is true. -/
def filled (g : Group) : Group :=
  { g with v := (List.range 31).map (fun l => (65 + l, BitVec.ofNat 32 (64 * (l + 1)))) ++ (List.range 32).map (fun l => (128 + l, 7#32))
      ++ (List.range 32).map fun l => (192 + l, BitVec.ofNat 32 (0x2000000 + 64 * l)),
           s := [(2, 0x100), (4, 0x8000), (6, 0x80), (12, 5)], lvl := { g.lvl with p := g.lvl.p.set 1 0x20#32, q := 2 } }

def demoM : State := ((paged demo).modGrp r0 filled).modBlk 0 fun b => { b with mons := [] }
/-- The guard that is true in lane 5 alone. -/
def g1 : Hdr := { g7 with gp := 1 }

def ldUses : Uses := { reads := regsOf false true 2, writes := regRun false 4 1 }
def ldReq (c : Cls) (w r : Bool) : Req := { cls := c, write := w, reads := r, size := 4, align := 4 }
def atLanes (i : Iss) : List (Nat × W64) := (laneList i.act).map fun l => (l, readVV i.g 2 l + extOff .none)

theorem test_meets_LoadResults : ∃ i s' ok, Issues demoM g7 false false ldUses i ∧ Reaches i { req := ldReq .load false true, stop := true } (atLanes i) s' ok
    ∧ ∀ sid n va loc, ComesAfter i.g sid n va loc := by
  obtain ⟨i, hi, hp⟩ := issues_of (s := demoM) (h := g7) (long := false) (uniform := false) (u := ldUses)
    (P := fun i => reachesAnd i { req := ldReq .load false true, stop := true } (atLanes i) fun _ ok => ok.length == 32) (by decide +kernel)
  obtain ⟨s', ok, hr, hc, -⟩ := reaches_of hp
  exact ⟨i, s', ok, hi, hr, hc⟩

theorem test_meets_LoadUniform : ∃ i s' ok, Issues demoM g7 false true { reads := regsOf true true 2, writes := regRun true 4 1 } i
    ∧ Reaches i { req := ldReq .load false true, stop := true } [(lowLane i.act, readSS i.g 2 + extOff .none)] s' ok
    ∧ ∀ sid n va loc, ComesAfter i.g sid n va loc := by
  obtain ⟨i, hi, hp⟩ := issues_of (s := demoM) (h := g7) (long := false) (uniform := true) (u := { reads := regsOf true true 2, writes := regRun true 4 1 })
    (P := fun i => reachesAnd i { req := ldReq .load false true, stop := true } [(lowLane i.act, readSS i.g 2 + extOff .none)] fun _ ok => ok.length == 1)
    (by decide +kernel)
  obtain ⟨s', ok, hr, hc, -⟩ := reaches_of hp
  exact ⟨i, s', ok, hi, hr, hc⟩

theorem test_meets_Prefetch : ∃ i, Issues demoM g7 false false { reads := regsOf false true 2 } i := by
  obtain ⟨i, hi, -⟩ := issues_of (s := demoM) (h := g7) (long := false) (uniform := false) (u := { reads := regsOf false true 2 })
    (P := fun _ => true) (by decide +kernel)
  exact ⟨i, hi⟩

theorem test_meets_ValueWritesLanes : [(0, 1), (31, 2 ^ 64 - 1)] ≠ ([] : List (Nat × Nat)) ∧ (∀ v ∈ [(0, 1), (31, 2 ^ 64 - 1)], v.1 < 32)
    ∧ (([(0, 1), (31, 2 ^ 64 - 1)] : List (Nat × Nat)).map (·.1)).Nodup := by decide

/-- Whether what is reached is one aligned word of memory with a leaf outside it. -/
def oneWord (_ : State) (ok : List (Nat × W64 × Loc)) : Bool := match ok with
  | [(5, _, .mem pa (some p) _)] => pa % 4 == 0 && (p + 8 ≤ pa || pa + 4 ≤ p)
  | _ => false

theorem one_word {s' : State} {ok : List (Nat × W64 × Loc)} (h : oneWord s' ok = true) :
    ∃ va pa p rp, ok = [(5, va, .mem pa (some p) rp)] ∧ (p + 8 ≤ pa ∨ pa + 4 ≤ p) := by
  unfold oneWord at h
  split at h
  next _ va pa p rp =>
    simp only [Bool.and_eq_true, Bool.or_eq_true, decide_eq_true_eq] at h
    exact ⟨va, pa, p, rp, rfl, h.2⟩
  next => simp at h

def stUses : Uses := { reads := regsOf false true 2 ++ regRun false 4 1 }

theorem test_meets_StoreResults : ∃ i s' ok, Issues demoM g7 false false stUses i
    ∧ Reaches i { req := ldReq .store true false, log := true, mon := true, rel := true } (atLanes i) s' ok
    ∧ ∀ sid n va loc, ComesAfter i.g sid n va loc := by
  obtain ⟨i, hi, hp⟩ := issues_of (s := demoM) (h := g7) (long := false) (uniform := false) (u := stUses)
    (P := fun i => reachesAnd i { req := ldReq .store true false, log := true, mon := true, rel := true } (atLanes i) fun _ ok => ok.length == 32)
    (by decide +kernel)
  obtain ⟨s', ok, hr, hc, -⟩ := reaches_of hp
  exact ⟨i, s', ok, hi, hr, hc⟩

/-- A form whose one acting lane reaches one word of memory, in a state with no monitor and no waiter. -/
theorem one_lane {s : State} {u : Uses} {p : Plan} {acts : Iss → List (Nat × W64)} {Q : Iss → State → Bool}
    (e : issuesAnd s g1 false false u (fun i => reachesAnd i p (acts i) fun s' ok => oneWord s' ok && Q i s') = true) :
    ∃ i s' va pa slot rp, Issues s g1 false false u i ∧ Reaches i p (acts i) s' [(5, va, .mem pa (some slot) rp)]
      ∧ (∀ sid n va loc, ComesAfter i.g sid n va loc) ∧ (slot + 8 ≤ pa ∨ pa + 4 ≤ slot) ∧ Q i s' = true := by
  obtain ⟨i, hi, hp⟩ := issues_of e
  obtain ⟨s', ok, hr, hc, hq⟩ := reaches_of hp
  simp only [Bool.and_eq_true] at hq
  obtain ⟨va, pa, slot, rp, rfl, hs⟩ := one_word hq.1
  exact ⟨i, s', va, pa, slot, rp, hi, hr, hc, hs, hq.2⟩

def atReplicas (i : Iss) : List (Nat × W64) := (laneList i.act).map fun l => (l, readVV i.g 6 l + extOff .none)
def mstUses : Uses := { reads := regsOf false true 6 ++ regRun false 4 1 }

theorem test_meets_MulticastStore : ∃ i s' va pa slot rp, Issues demoM g1 false false mstUses i
    ∧ Reaches i { req := ldReq .mst true false, log := true, rel := false } (atReplicas i) s' [(5, va, .mem pa (some slot) rp)]
    ∧ (∀ sid n va loc, ComesAfter i.g sid n va loc) ∧ (slot + 8 ≤ pa ∨ pa + 4 ≤ slot) ∧ (fun _ (_ : State) => true) i s' = true := one_lane (by decide +kernel)

/-- No monitor runs, and the word of lane 5 is in a state that nothing waits on. -/
def quiet (full : Bool) (i : Iss) (s' : State) : Bool :=
  i.w.b.mons.isEmpty && isFull s' 0x400050 == full && !(feOf s' 0x400050).getLsbD 1 && !poisoned s' 0x1000140 4

/-- `demoM` with the page already reached and the word of lane 5 EMPTY. -/
def demoE : State := setFe (wr demoM 0x30000 8 0x1C0000000100009F) 0x400050 0

theorem test_meets_FullEmptyLoads : ∃ i s' va pa slot rp, Issues demoM g1 false false ldUses i
    ∧ Reaches i { req := ldReq .fe false true, stop := true } (atLanes i) s' [(5, va, .mem pa (some slot) rp)]
    ∧ (∀ sid n va loc, ComesAfter i.g sid n va loc) ∧ (slot + 8 ≤ pa ∨ pa + 4 ≤ slot) ∧ quiet true i s' = true := one_lane (by decide +kernel)

theorem test_meets_FullEmptyConsumes : ∃ i s' va pa slot rp, Issues demoM g1 false false ldUses i
    ∧ Reaches i { req := ldReq .fe true true, stop := true } (atLanes i) s' [(5, va, .mem pa (some slot) rp)]
    ∧ (∀ sid n va loc, ComesAfter i.g sid n va loc) ∧ (slot + 8 ≤ pa ∨ pa + 4 ≤ slot) ∧ quiet true i s' = true := one_lane (by decide +kernel)

theorem test_meets_FullEmptyStores : ∃ i s' va pa slot rp, Issues demoE g1 false false stUses i
    ∧ Reaches i { req := ldReq .fe true true, mon := true, rel := true, stop := true } (atLanes i) s' [(5, va, .mem pa (some slot) rp)]
    ∧ (∀ sid n va loc, ComesAfter i.g sid n va loc) ∧ (slot + 8 ≤ pa ∨ pa + 4 ≤ slot) ∧ quiet false i s' = true := one_lane (by decide +kernel)

theorem test_meets_FullEmptyPuts : ∃ i s' va pa slot rp, Issues demoM g1 false false stUses i
    ∧ Reaches i { req := ldReq .fe true false, mon := true, rel := true, stop := true } (atLanes i) s' [(5, va, .mem pa (some slot) rp)]
    ∧ (∀ sid n va loc, ComesAfter i.g sid n va loc) ∧ (slot + 8 ≤ pa ∨ pa + 4 ≤ slot) ∧ quiet true i s' = true := one_lane (by decide +kernel)

theorem test_meets_FullEmptySets : ∃ i s' va pa slot rp, Issues demoE g1 false false { reads := regsOf false true 2 } i
    ∧ Reaches i { req := ldReq .fe true false, stop := true } (atLanes i) s' [(5, va, .mem pa (some slot) rp)]
    ∧ (∀ sid n va loc, ComesAfter i.g sid n va loc) ∧ (slot + 8 ≤ pa ∨ pa + 4 ≤ slot) ∧ quiet false i s' = true := one_lane (by decide +kernel)

/-- LDW and LDCN find the word EMPTY. -/
theorem test_meets_FullEmptyDefers : ∃ i s' va pa slot rp, Issues demoE g1 false false ldUses i
    ∧ Reaches i { req := ldReq .fe false true, stop := true } (atLanes i) s' [(5, va, .mem pa (some slot) rp)]
    ∧ (∀ sid n va loc, ComesAfter i.g sid n va loc) ∧ (slot + 8 ≤ pa ∨ pa + 4 ≤ slot) ∧ quiet false i s' = true := one_lane (by decide +kernel)

/-- STF finds the word FULL. -/
theorem test_meets_FullEmptyStoreDefers : ∃ i s' va pa slot rp, Issues demoM g1 false false stUses i
    ∧ Reaches i { req := ldReq .fe true true, mon := true, stop := true } (atLanes i) s' [(5, va, .mem pa (some slot) rp)]
    ∧ (∀ sid n va loc, ComesAfter i.g sid n va loc) ∧ (slot + 8 ≤ pa ∨ pa + 4 ≤ slot) ∧ quiet true i s' = true := one_lane (by decide +kernel)

theorem test_meets_AtomicResults : ∃ i s' va pa slot rp, Issues demoM g1 false false { stUses with writes := regRun false 8 1 } i
    ∧ Reaches i { req := ldReq .atomic true true, mon := true, rel := true, stop := true } (atLanes i) s' [(5, va, .mem pa (some slot) rp)]
    ∧ (∀ sid n va loc, ComesAfter i.g sid n va loc) ∧ (slot + 8 ≤ pa ∨ pa + 4 ≤ slot) ∧ quiet true i s' = true := one_lane (by decide +kernel)

theorem test_meets_Reductions : ∃ i s' va pa slot rp, Issues demoM g1 false false stUses i
    ∧ Reaches i { req := ldReq .atomic true true, log := true, mon := true, rel := false } (atLanes i) s' [(5, va, .mem pa (some slot) rp)]
    ∧ (∀ sid n va loc, ComesAfter i.g sid n va loc) ∧ (slot + 8 ≤ pa ∨ pa + 4 ≤ slot) ∧ quiet true i s' = true := one_lane (by decide +kernel)

theorem test_meets_CompareAndSwap : (Instr.cas g1 { xm with d := 8, b := 4 }).wf = true
    ∧ ∃ i s' va pa slot rp, Issues demoM g1 false false { reads := regsOf false true 2 ++ regRun false 4 2, writes := regRun false 8 1 } i
    ∧ Reaches i { req := ldReq .atomic true true, mon := true, rel := false, stop := true } (atLanes i) s' [(5, va, .mem pa (some slot) rp)]
    ∧ (∀ sid n va loc, ComesAfter i.g sid n va loc) ∧ (slot + 8 ≤ pa ∨ pa + 4 ≤ slot) ∧ quiet true i s' = true := ⟨by decide, one_lane (by decide +kernel)⟩

def zeroThere (_ : Iss) (s' : State) : Bool := ofBytes (rdBytes s' 0x1000140 8) == 0

/-- CADD at a sum that does not wrap: the word at lane 5's address is zero. -/
theorem test_meets_CheckedAdd : (Instr.cadd g1 { xm with wd := 5, d := 8, b := 4 }).wf = true
    ∧ ∃ i s' va pa slot rp, Issues demoM g1 false false { reads := regsOf false true 2 ++ regRun false 4 2, writes := regRun false 8 2 } i
    ∧ Reaches i { req := { ldReq .cadd true true with size := 8, align := 8 }, mon := true, rel := false, stop := true } (atLanes i) s'
        [(5, va, .mem pa (some slot) rp)]
    ∧ (∀ sid n va loc, ComesAfter i.g sid n va loc) ∧ (slot + 8 ≤ pa ∨ pa + 4 ≤ slot) ∧ zeroThere i s' = true :=
  ⟨by decide, one_lane (by decide +kernel)⟩

theorem test_meets_CombineValues : (9, Ty.f32) ∈ [(4, Ty.b32), (5, .b64), (7, .i32), (8, .i64), (9, .f32), (10, .f64)]
    ∧ (4, Ty.b32) ∈ [(4, Ty.b32), (5, .b64), (7, .i32), (8, .i64), (9, .f32), (10, .f64)] ∧ 0xFFFFFFFF < 2 ^ Ty.f32.width := by decide
/-- An instruction is found on a turn, and the way it is found passes a test. -/
def foundAnd (s : State) (h : Hdr) (long uniform : Bool) (u : Uses) (P : Iss → Bool) : Bool :=
  match foundBy s h long uniform u with
  | some i => P i
  | none => false

theorem found_of {s : State} {h : Hdr} {long uniform : Bool} {u : Uses} {P : Iss → Bool} (e : foundAnd s h long uniform u P = true) :
    ∃ i, foundBy s h long uniform u = some i ∧ P i = true := by
  unfold foundAnd at e
  split at e
  next i hi => exact ⟨i, hi, e⟩
  next => simp at e

/-- Whether the block on turn passes a test. -/
def turnAnd (s : State) (P : Who → Bool) : Bool := match s.onTurn with
  | some w => P w
  | none => false

theorem turn_of {s : State} {P : Who → Bool} (e : turnAnd s P = true) : ∃ w, s.onTurn = some w ∧ P w = true := by
  unfold turnAnd at e
  split at e
  next w hw => exact ⟨w, hw, e⟩
  next => simp at e

/-- The guard that is true in no lane. -/
def gNone : Hdr := { g7 with gp := 2 }

theorem test_meets_NopEffect : ∃ i, foundBy demo { gNone with gn := false, gp := 7 } false false {} = some i ∧ (fun _ => true) i = true :=
  found_of (by decide +kernel)

theorem test_meets_YieldResult : ∃ i, foundBy demo g7 false true { chk := false } = some i ∧ (fun _ => true) i = true := found_of (by decide +kernel)

/-- Instructions of a group that no lane acts on, and which names they issue under. -/
def noLaneB (e : Instr) : Bool := match issued demo e with
  | some (h, long, uniform, u) => foundAnd demo h long uniform u fun i => i.act == 0#32 && !barHeld i.g
  | none => false

theorem no_lane_of {e : Instr} (h : noLaneB e = true) : ∃ x i, issued demo e = some x ∧ foundBy demo x.1 x.2.1 x.2.2.1 x.2.2.2 = some i
    ∧ (i.act == 0#32 && !barHeld i.g) = true := by
  unfold noLaneB at h
  split at h
  next h0 long uniform u he =>
    obtain ⟨i, hi, hp⟩ := found_of h
    exact ⟨_, i, he, hi, hp⟩
  next => simp at h

theorem test_meets_NoLaneActs : ∀ e ∈ [Instr.iadd gNone xa, .st gNone xm, .want gNone 3, .call gNone 0 6, .exit gNone, .trap gNone 5, .eret gNone,
    .bar gNone 1 true 2 0 3, .wait gNone xt, .mstart gNone 6, .ewrd gNone 0 0 4 2, .qpk gNone 1 20 0 40],
    ∃ x i, issued demo e = some x ∧ foundBy demo x.1 x.2.1 x.2.2.1 x.2.2.2 = some i ∧ (i.act == 0#32 && !barHeld i.g) = true := by
  intro e he
  exact no_lane_of (List.all_eq_true.1 (by decide +kernel : [Instr.iadd gNone xa, .st gNone xm, .want gNone 3, .call gNone 0 6, .exit gNone,
    .trap gNone 5, .eret gNone, .bar gNone 1 true 2 0 3, .wait gNone xt, .mstart gNone 6, .ewrd gNone 0 0 4 2, .qpk gNone 1 20 0 40].all noLaneB
      = true) e he)

/-- A group about to enter block 3, whose lanes 4 and 5 want it from ordinals 2 and 4. -/
def demoB : State := demo.modGrp r0 fun g => g.modCl fun v =>
  { v with phase := .enter 3 false, wl := lanes fun l => if l = 4 || l = 5 then 3#16 else 7#16,
           ri := lanes fun l => if l = 4 then 2#12 else if l = 5 then 4#12 else 0#12 }

theorem test_meets_BlockEntry : ∃ w, demoB.onTurn = some w ∧ (wlOf w.g.cl 4 == 3#16 && riOf w.g.cl 4 == 2#12 && riOf w.g.cl 5 == 4#12) = true :=
  turn_of (by decide +kernel)

/-- WANT's and WANTV's labels at the ends of their ranges: N - 1, N, and 0xFFFF. -/
def demoN : State := demo.modGrp r0 fun g => { g.modCl (fun v => { v with n := 6 }) with v := [(256, 5#32), (257, 0xFFFF#32)] }

theorem test_meets_LabelWrites : (∃ i, Issues demoN g7 false false { chk := false } i ∧ (5 < i.g.cl.n && i.g.cl.n ≤ 6) = true)
    ∧ (∃ i, Issues demoN g7 false false { reads := [.v 8], chk := false } i
      ∧ (i.g.cl.n ≤ 65534 && (laneList i.act).all fun l => (readV i.g 8 l).toNat < i.g.cl.n || readV i.g 8 l == 0xFFFF#32) = true) :=
  ⟨issues_of (by decide +kernel), issues_of (by decide +kernel)⟩

/-- `demoM` with the address of the region at 0x4000 in s8:s9, and in v8:v9 of every lane. -/
def demoC : State := demoM.modGrp r0 fun g => { g with s := [(8, 0x4000)], v := (List.range 32).map fun l => (256 + l, 0x4000#32) }

/-- The callee at a base can be entered at label 0, and the hardware stack has one entry left. -/
def enterable (i : Iss) (base : W64) : Bool := match readRegion i.s i.w.tlbs i.w.c base with
  | (s', .ok (some rg)) => 0 < rg.n && i.g.calls.length < 4 && i.g.frames.isEmpty && s'.grp? i.w.r == some i.g
  | _ => false
def call3 (s : State) : State :=
  s.modGrp r0 fun g => { g with calls := List.replicate 3 { wl := g.lvl.wl, base := 0x1000, label := 0, ord := 1, swc := 0, mask := 0 } }

theorem test_meets_Calls : (∃ i, Issues (call3 demoC) g7 false false { reads := [.s 8, .s 9], chk := false } i ∧ enterable i (readSS i.g 8) = true)
    ∧ (∃ i, Issues (call3 demoC) g7 false false { reads := [.v 8, .v 9], chk := false } i
      ∧ (enterable i (readVV i.g 8 0) && has i.act 0 && i.g.cl.callv.isNone && (laneList i.act).all fun k => readVV i.g 8 0 ≤ readVV i.g 8 k) = true)
    ∧ (∃ i, Issues (demoC.modGrp r0 fun g => g.modCl fun v => { v with callv := some 0x4000 }) g7 false false { reads := [.v 8, .v 9], chk := false } i
      ∧ (i.g.frames.isEmpty && i.g.cl.callv == some 0x4000#64 && (laneList i.act).all fun k => !(0x4000#64 < readVV i.g 8 k)) = true) :=
  ⟨issues_of (by decide +kernel), issues_of (by decide +kernel), issues_of (by decide +kernel)⟩

/-! ### Copies -/

/-- The registers of a copy of 128 bytes from 0x100 to 0x8000, and 254 copies outstanding. -/
def demoK : State := demoM.modGrp r0 fun g => { g with s := [(2, 0x100), (4, 0x8000), (6, 0x80)] }
def aCopy : CopyOp :=
  { id := 1, cls := .copy, wd := 7, op := 0, sid := 0, sc := 0, dst := 0x8000, src := 0x100, len := 128, ctr := none, label := 0, ord := 1,
    stage := .queued, tile := 0,
    sent := [], todo := none, cur := [], acks := [], behind := 0, again := false }
def copyUses : Uses := { reads := regsOf true true 4 ++ regsOf true true 2 ++ regsOf true false 6 }

/-- The conditions under which CPY and CPYR join the outstanding copies; `state` says that full/empty states are copied. -/
def copyMeets (state : Bool) (c : CopyClass) (i : Iss) : Bool :=
  let dst := readSS i.g 4
  let src := readSS i.g 2
  let n := (readS i.g 6).toNat
  (endCauses i.s .src state src).isEmpty && (endCauses i.s .dst state dst).isEmpty && (pageCauses i.s i.w true state dst n).isEmpty
    && (pageCauses i.s i.w false state src n).isEmpty && !scrBeyond i.w src n && !scrBeyond i.w dst n && !rangesMeet i.w.die dst n src n
    && i.g.sideLog.isEmpty && !i.w.l.lrec.equinox && outstanding i.g c < 255 && n % 4 == 0 && dst.toNat % 4 == 0 && src.toNat % 4 == 0
    && dst.toNat / 2 ^ 60 == 0 && src.toNat / 2 ^ 60 == 0

def demoK254 : State := demoK.modGrp r0 fun g => { g with copies := List.replicate 254 aCopy }

theorem test_meets_CopyIssues : (∃ i, Issues demoK254 g7 false true copyUses i ∧ copyMeets true .copy i = true)
    ∧ (∃ i, Issues demoK g7 false true copyUses i ∧ copyMeets false .coll i = true)
    ∧ (∃ i, Issues demoK g7 false true { reads := regsOf true true 2 } i ∧ copyMeets false .gather i = true) :=
  ⟨issues_of (by decide +kernel), issues_of (by decide +kernel), issues_of (by decide +kernel)⟩

/-- A group with one queued copy whose two bytes, of one page at each end, are still to be moved. -/
def twoBytes : Piece := { row := 0, off := 0, src := 0x100, dst := 0x8000, n := 2, seen := false }
def demoQ : State := demoM.modGrp r0 fun g => { g with copies := [{ aCopy with len := 2, todo := some [twoBytes] }] }

/-- What the copy's engine plans for some of the bytes. -/
def planAt (w : Who) (k : CopyOp) (lo n : Nat) : State × Except Snag (List Move) :=
  planPieces { demoQ with fresh := demoQ.fresh + 3 } w k (recut { demoQ with fresh := demoQ.fresh + 3 } w { twoBytes.part lo n with seen := false })
def plansOne (w : Who) (k : CopyOp) (lo n : Nat) : Bool := match planAt w k lo n with
  | (s', .ok [{ p := p, src := .mem ps _ false, dst := .mem pd (some e) _ }]) => p.off == lo && p.n == n && p.src == 0x100#64 + u64 lo
    && p.dst == 0x8000#64 + u64 lo && ps == 0x1000100 + lo && pd == 0x1008000 + lo && (e + 8 ≤ pd || pd + n ≤ e) && s'.parked.isEmpty
    && s'.grp? r0 == some w.g
  | _ => false

theorem test_meets_CopyRetires : (match who? demoQ r0 with
    | some w => w.b.st == .resident && !w.l.lrec.equinox && w.g.sideLog.isEmpty && (match w.g.copies with
      | [k] => k.todo == some [twoBytes] && plansOne w k 0 1 && plansOne w k 1 1 && plansOne w k 0 2
      | _ => false)
    | none => false) = true := by decide +kernel

def failedCopy : CopyOp := { aCopy with stage := .failed 0x8000 64 0x12 }

theorem test_meets_CopyAborts : ((who? (demo.modGrp r0 fun g => { g with copies := [failedCopy] }) r0).any fun w =>
    w.g.copies == [failedCopy] && w.b.st == .resident && w.g.status != .retired && !w.l.lrec.equinox && demo.parked.isEmpty) = true := by decide +kernel

/-! ### Waits and barriers -/

/-- s2:s3 hold an address of path 0x0, s4:s5 one of path 0x6; s8 holds a value. -/
def demoW : State := demo.modGrp r0 fun g => { g with s := [(2, 0x108), (5, 0x60000000), (8, 3)] }

theorem test_meets_ConditionWrites : (∃ i, Issues demoW g7 false true { reads := regsOf true true 2 ++ regsOf true true 4 } i
      ∧ (field (readSS i.g 2).toNat 60 4 == 0 && field (readSS i.g 2).toNat 0 60 % 8 == 0) = true)
    ∧ (∃ i, Issues demoW g7 false true { reads := regsOf true true 4 ++ regsOf true true 2 } i
      ∧ (field (readSS i.g 4).toNat 60 4 == 6 && field (readSS i.g 4).toNat 0 60 % 8 == 0) = true)
    ∧ (∃ i, Issues demoW g7 false true { reads := regsOf true false 8 } i
      ∧ (15 < i.w.l.lrec.nbctrs && barrierCause i.w.l 15 none == none) = true)
    ∧ (∃ i, Issues demoW g7 false true {} i ∧ (fun _ => true) i = true)
    ∧ (∃ i, Issues demoW g7 false true { reads := regsOf true true 2 } i
      ∧ (field (readSS i.g 2).toNat 60 4 == 0 && field (readSS i.g 2).toNat 0 60 % 4 == 0) = true) :=
  ⟨issues_of (by decide +kernel), issues_of (by decide +kernel), issues_of (by decide +kernel), issues_of (by decide +kernel), issues_of (by decide +kernel)⟩

/-- Wait-condition registers 0 and 1 name block counter 2: at 3, which it has reached, and at 4, which it has not. s9 is a time. -/
def demoNb : State := (demo.modBlk 0 fun b => { b with nb := b.nb.set 2 3 }).modGrp r0 fun g =>
  { g with w := (g.w.set 0 (condWord 2 false 2 3)).set 1 (condWord 2 false 2 4), s := [(9, 50)] }
def waitUses : Uses := { reads := regsOf true false 9, writes := [Reg.q 1] }

/-- The masks 1 and 2 hold registers of kind 2; the first fires, the second does not. -/
def counterMeets (i : Iss) : Bool :=
  condKind (wOf i.g 0) == 2 && condKind (wOf i.g 1) == 2 && i.s.parked.isEmpty && i.g.sent.isEmpty && readS i.g 9 != 0#32
    && ((wOf i.g 0).extractLsb' 0 32).toNat ≤ (i.w.b.nb[2]).toNat && (i.w.b.nb[2]).toNat < ((wOf i.g 1).extractLsb' 0 32).toNat

theorem test_meets_WaitOnConditions : (∃ i, Issues demoNb g7 false true waitUses i ∧ counterMeets i = true)
    ∧ (∃ i, Issues demoNb g7 false true { waitUses with reads := regsOf true false 10 } i ∧ (readS i.g 10 == 0#32 && firedNow i.w { xt with mask := 2 } == 0) = true)
    ∧ (∃ i, Issues demoNb g7 false true waitUses i ∧ (firedNow i.w { xt with mask := 3 } == 1) = true) :=
  ⟨issues_of (by decide +kernel), issues_of (by decide +kernel), issues_of (by decide +kernel)⟩

/-- Wait-condition register 0 names the counter at 0x100, at its value 0, or the word there, FULL. -/
def demoWord (kind val : Nat) : State := demoM.modGrp r0 fun g =>
  { g with w := g.w.set 0 (condWord kind false (if kind = 1 then 0x20 else 0x40) val), s := [(9, 50)] }
def wordMeets (n : Nat) (k : Cls) (P : State → Nat → W128 → Bool) (i : Iss) : Bool :=
  let c := wOf i.g 0
  let g := commitAll (diagMode i.s i.w.c) i.g
  !i.w.l.lrec.equinox && i.g.sent.isEmpty && match resolve (i.s.modGrp i.w.r fun _ => g) { i.w with g := g } { cls := k, write := false, reads := n == 8, size := n, align := n } (condAddr c) with
    | (s', .ok (.mem pa _ _)) => s'.parked.isEmpty && P s' pa c
    | _ => false

theorem test_meets_WaitOnWord : (∃ i, Issues (demoWord 1 0) g7 false true waitUses i
      ∧ wordMeets 8 .load (fun s pa c => condKind c == 1 && !poisoned s pa 8 && (c.extractLsb' 0 64).toNat ≤ ofBytes (rdBytes s pa 8)) i = true)
    ∧ (∃ i, Issues (demoWord 4 1) g7 false true waitUses i
      ∧ wordMeets 4 .fe (fun s pa c => condKind c == 4 && isFull s (pa / 4) == c.getLsbD 0) i = true) :=
  ⟨issues_of (by decide +kernel), issues_of (by decide +kernel)⟩

/-- A WAIT since a tick, with a time-out, whose conditions did not hold when they were tested. -/
def since (start : Nat) (limit : W32) : WaitSt := { start := start, limit := limit, polled := 0, recs := [], seen := 0, vals := [], tested := true, woken := false }

/-- The group suspended in a WAIT on the first condition, or on the second with its time just run out. -/
def waiting (x : WaitForm) (start : Nat) (s : State) : State :=
  { s.modGrp r0 fun g => { g with status := .waiting (since start 50) g7 x } with tick := start + 50 }

theorem test_meets_WaitGoesOn : ((who? (waiting { xt with mask := 1 } 0 demoNb) r0).any fun w =>
      w.g.sent.isEmpty && condKind (wOf w.g 0) == 2 && condNow w 0 && !(watchVals w { xt with mask := 1 }).isEmpty && (waiting { xt with mask := 1 } 0 demoNb).parked.isEmpty) = true
    ∧ ((who? (waiting { xt with mask := 2 } 7 demoNb) r0).any fun w =>
      w.g.sent.isEmpty && condKind (wOf w.g 1) == 2 && (w.b.nb[2]).toNat < ((wOf w.g 1).extractLsb' 0 32).toNat
        && 7 + 50 ≤ (waiting { xt with mask := 2 } 7 demoNb).tick) = true := by decide +kernel

/-- A KIND 1 condition on path 0x6 at address 0x100 of this device, at value 0; the fabric tables are the context's own. -/
def demoP : State :=
  let s := wr demoM 0x10008 8 0x20000
  { s.modGrp r0 (fun g => { g with w := g.w.set 0 (condWord 1 true 0x20 0), status := .waiting (since 0 0xFFFFFFFF) g7 { xt with mask := 1 } }) with tick := 1000 }

theorem test_meets_RemotePoll : ((who? demoP r0).any fun w =>
    let c := wOf w.g 0
    condKind c == 1 && c.getLsbD 124 && w.g.sent.isEmpty && !w.l.lrec.equinox && demoP.parked.isEmpty
      && match resolve demoP w { cls := .load, write := false, reads := true, size := 8, align := 8 } (condAddr c) with
        | (s', .ok (.mem pa _ _)) => !poisoned s' pa 8 && (c.extractLsb' 0 64).toNat ≤ ofBytes (rdBytes s' pa 8) && s'.parked.isEmpty
        | _ => false) = true := by decide +kernel

/-- Two groups of a block, and barrier 0 of block scope. -/
def demoR : State := { demo with
  launches := demo.launches.map fun l => { l with lrec := { l.lrec with bars := Vector.replicate 16 1#4 } },
  blocks := demo.blocks.map fun b => { b with groups := b.groups ++ b.groups, mons := [] } }
def barUses : Uses := { writes := [Reg.q 2, Reg.q 3] }
/-- The launch's barrier 0 as this state of it says. -/
def barred (x : BarInst) (s : State) : State := s.modLaunch 0 fun l => setBarInst l x

theorem test_meets_BarrierReturns :
    (∃ w, (barred { BarInst.fresh 0 0 with phase := 1, last := some r0 } (demoR.modGrp r0 fun g => { g with status := .barrier 0 0 g7 1 true 2 3 })).onTurn = some w
      ∧ (w.g.status == .barrier 0 0 g7 1 true 2 3) = true)
    ∧ (∃ i, Issues (barred { BarInst.fresh 0 0 with broken := true } demoR) g7 false true barUses i
      ∧ (i.g.status == .ready && barrierCause i.w.l 0 (some 1) == none && i.g.sideLog.isEmpty && (barNow i.s i.w 0).broken) = true) :=
  ⟨turn_of (by decide +kernel), issues_of (by decide +kernel)⟩

/-- The group has not arrived, and the block's other group is still to come. -/
def barMeets (held : Bool) (i : Iss) : Bool :=
  let st := i.s.modGrp i.w.r fun g =>
    if held then { commitAll (diagMode i.s i.w.c) g with status := .barrier 0 0 g7 1 true 2 3 } else applyWrite g.depth g (.s 9 (barNow i.s i.w 0).phase)
  let x := barNow i.s i.w 0
  barrierCause i.w.l 0 (some 1) == none && i.g.sideLog.isEmpty && !x.broken && !x.arrived.contains i.w.r && i.s.launches[0]? == some i.w.l
    && (participants st 0 0 (barKey i.w.l 0 i.w.b 0)).any (fun r => r != i.w.r && !x.arrived.contains r && !countsArrived st r)
    && i.g.status == .ready && x.phase == 0 && st.blocks.all fun b => b.mons.isEmpty

theorem test_meets_BarrierArrives : (∃ i, Issues demoR g7 false true barUses i ∧ barMeets true i = true)
    ∧ (∃ i, Issues demoR g7 false true { reads := regsOf true false 9 } i ∧ barMeets false i = true) :=
  ⟨issues_of (by decide +kernel), issues_of (by decide +kernel)⟩

/-- Counter 15 one below the greatest value. -/
def demoS : State := (demo.modBlk 0 fun b => { b with nb := b.nb.set 15 0xFFFFFFFE }).modGrp r0 fun g => { g with s := [(8, 2)] }

theorem test_meets_SignalAdds : (∃ i, Issues demoS g7 false true {} i
      ∧ (i.g.sideLog.isEmpty && 15 < i.w.l.lrec.nbctrs && (i.w.b.nb[15]).toNat + 1 < 2 ^ 32) = true)
    ∧ (∃ i, Issues demoS g7 false true { reads := regsOf true false 8 } i
      ∧ (i.g.sideLog.isEmpty && 15 < i.w.l.lrec.nbctrs && decide (2 ^ 32 ≤ (i.w.b.nb[15]).toNat + (readS i.g 8).toNat)) = true) :=
  ⟨issues_of (by decide +kernel), issues_of (by decide +kernel)⟩

/-- A side-log entry of stream 3, which a fence of stream 0 does not wait for. -/
def demoF : State := demo.modGrp r0 fun g =>
  { g with sideLog := [{ mask := 1, kind := 0, wd := 4, sid := 3, sc := 0, ord := 0, op := 0, items := [], phases := [], sent := [], told := [] }] }

theorem test_meets_FencesComplete : ∃ i, Issues demoF g7 false true {} i ∧ (i.g.sideLog.all fun e => !(1#16).getLsbD e.sid.toNat) = true :=
  issues_of (by decide +kernel)

/-- A launch of two tiles of which one, or both, are taken. -/
def demoT (n : Nat) : State := demo.modLaunch 0 fun l =>
  { l with next := n, lrec := { l.lrec with index := (2, 1, 1), tile := (1, 1, 1) } }
def tileUses : Uses := { writes := Reg.q 3 :: (List.range 4).map fun k => Reg.s (8 + k) }
def tilesMeet (i : Iss) : Bool :=
  !i.w.l.lrec.equinox && i.s.launches[i.w.b.launch]? == some i.w.l && !i.w.l.draining && tileCounts i.w.l.lrec == (2, 1, 1)

theorem test_meets_TileFetch : (∃ i, Issues (demoT 1) g7 false true tileUses i ∧ (tilesMeet i && i.w.l.next < 2) = true)
    ∧ (∃ i, Issues (demoT 2) g7 false true tileUses i ∧ (tilesMeet i && 2 ≤ i.w.l.next) = true) :=
  ⟨issues_of (by decide +kernel), issues_of (by decide +kernel)⟩

/-! ### The matrix engine -/

def sequenced (st : SeqSt) (word ext : W64) (s : State) : State :=
  s.modBlk 0 fun b => { b with seq := { b.seq with st := st, base := 0x1000, next := 0x1008, word := word, ext := ext, desc := some (0x3000, 128) } }

theorem test_meets_StreamStarts : (∃ i, Issues demoM g7 false true { reads := regsOf true true 6 } i
      ∧ (i.w.b.seq.st == .idle && (readSS i.g 6).toNat % 128 == 0) = true)
    ∧ (∃ i, Issues (sequenced .stopped 0x80F7600040000040 3 demo) g7 false true {} i ∧ (i.w.b.seq.st == .stopped) = true)
    ∧ (∃ i, Issues (sequenced .waiting 0 0 demo) g7 false true { reads := regsOf true true 6 } i ∧ (i.w.b.seq.st == .waiting) = true) :=
  ⟨issues_of (by decide +kernel), issues_of (by decide +kernel), issues_of (by decide +kernel)⟩

/-- A block that decodes a stream instruction. -/
def streamsB (w : Who) : Bool := w.b.seq.sent.isEmpty && w.b.seq.held.isEmpty && w.b.seq.st == .running
/-- A read of the engine that stays on this device. -/
def engReadsB (s : State) (w : Who) (phase : Nat) (spans : List (Nat × W64 × Nat)) (P : State → (Nat → List Byte) → Bool) : Bool :=
  match engRead s w phase spans with
  | .go s' get => ((s'.blocks[w.r.blk]?).map (·.seq.sent)) == some [] && P s' get
  | _ => false

def demoX : State := sequenced .running 0x80F6A00000800000 0 demoM

theorem test_meets_TileDescriptorWrites : (∃ i, Issues demo g7 false true { reads := regRun true 12 4 } i ∧ (fun _ => true) i = true)
    ∧ (∃ w, demoX.onTurn = some w ∧ (streamsB w && engReadsB demoX w 0 [(0, 0x100, 16)] fun _ _ => true) = true) :=
  ⟨issues_of (by decide +kernel), turn_of (by decide +kernel)⟩

theorem test_meets_StreamSignals : ∃ w, (demoX.modBlk 0 fun b => { b with nb := b.nb.set 15 0xFFFFFFFF }).onTurn = some w
    ∧ (streamsB w && 15 < w.l.lrec.nbctrs && !w.b.liveGroups.isEmpty && (w.b.nb[0]).toNat + 255 < 2 ^ 32 && decide (2 ^ 32 ≤ (w.b.nb[15]).toNat + 1)
      && decide (w.b.nb[0] < 1#32)) = true := turn_of (by decide +kernel)

/-- `mwait.blk nb2, #3` with the counter at 3. -/
theorem test_meets_StreamResumes : (((sequenced .waiting 0x80F7600040000040 3 demo).modBlk 0 fun b => { b with nb := b.nb.set 2 3 }).blocks[0]?.any fun b =>
    b.st == .resident && b.seq.st == .waiting && b.seq.sent.isEmpty && (rawOf b.seq.word b.seq.ext).a.toNat == 2
      && b.seq.ext.extractLsb' 0 32 ≤ b.nb[2]) = true := by decide +kernel

/-- Where a piece stands in this device's memory, with the page-table entry that it marks. -/
def placeOf (x : EngPiece) : Option (Nat × Option Nat) := match x.2.2.2 with
  | .ok (.mem pa slot _) => some (pa, slot)
  | _ => none

/-- Whether an entry, and whether another piece, stands apart from a piece. -/
def entryApart (e : Option Nat) (y : EngPiece) : Bool := match e, placeOf y with
  | some e, some (pb, _) => e + 8 ≤ pb || pb + y.2.2.1 ≤ e
  | _, _ => true
def bytesApart (x y : EngPiece) : Bool := match placeOf x, placeOf y with
  | some (pa, _), some (pb, _) => pa + x.2.2.1 ≤ pb || pb + y.2.2.1 ≤ pa
  | _, _ => true
def apartB (fs : List EngPiece) : Bool :=
  fs.all (fun x => (placeOf x).any fun p => fs.all (entryApart p.2)) && decide (fs.Pairwise fun x y => bytesApart x y = true)

theorem apart_of {fs : List EngPiece} (h : apartB fs = true) : PiecesApart fs := by
  simp only [apartB, Bool.and_eq_true, List.all_eq_true, decide_eq_true_eq, Option.any_eq_true] at h
  have place {x : EngPiece} {pa slot rp} (hx : x.2.2.2 = .ok (.mem pa slot rp)) : placeOf x = some (pa, slot) := by simp [placeOf, hx]
  refine ⟨fun x hx => ?_, h.2.imp fun {x y} hxy pa sa ra pb sb rb h1 h2 => ?_⟩
  · obtain ⟨⟨pa, slot⟩, hp, ha⟩ := h.1 x hx
    unfold placeOf at hp
    split at hp
    next pa slot rp hl =>
      cases hp
      refine ⟨_, _, rp, hl, ?_⟩
      intro e he y hy pb sb rb hyl
      have := ha y hy
      simpa [entryApart, he, place hyl] using this
    next => cases hp
  · simpa [bytesApart, place h1, place h2] using hxy

/-- A descriptor of rows 512 bytes apart at an address (R36). -/
def tileAt (fmt rows cols base : Nat) : W128 := BitVec.ofNat 128 (fmt * 2 ^ 120 + cols * 2 ^ 108 + rows * 2 ^ 96 + 512 * 2 ^ 64 + base)
/-- The descriptors as an instruction decodes them: FP32, E4M3, a ZB format, one that names no format, a word for MX. -/
def demoD : State := demoX.modBlk 0 fun b =>
  { b with seq := { b.seq with td := (((((b.seq.td.set 0 (tileAt 1 2 2 0x1000)).set 1 (tileAt 1 1 128 0x2000)).set 2 (tileAt 11 128 32 0x4000)).set 4
      (tileAt 4 128 64 0x8000)).set 5 (tileAt 1 1 1 0x6000)).set 6 (tileAt 0x88 128 128 0x10000) } }

theorem test_meets_StreamStops : (who? demoX r0).isSome = true ∧ ∃ w, demoD.onTurn = some w
    ∧ (checkMma 3 0 (tileOf (tdOf w 3)) (tileOf (tdOf w 0)) false false ⟨0, 0, 0, 0⟩ == some (1, 3)
      && checkMmas 3 4 2 (tileOf (tdOf w 3)) (tileOf (tdOf w 4)) (tileOf (tdOf w 2)) ⟨0, 0, 0, 0⟩ == some (1, 3)
      && checkScale 3 (tileOf (tdOf w 3)) == some (1, 3) && checkDrain 3 (tileOf (tdOf w 3)) false none 0 0 == some (1, 3)
      && checkLdacc 3 (tileOf (tdOf w 3)) == some (1, 3) && checkMchk 0 (tileOf (tdOf w 0)) 0 0 == some (1, 0)) = true :=
  ⟨by decide +kernel, turn_of (by decide +kernel)⟩

/-- The last regions that exist. -/
theorem test_meets_RegionsZeroed : ∃ w, demoX.onTurn = some w ∧ (streamsB w && 28 + 4 ≤ w.l.lrec.accregs) = true := turn_of (by decide +kernel)

theorem test_meets_ScaleResults : ∃ w, demoD.onTurn = some w ∧ (streamsB w && w.b.rpr == 0 && 31 < w.l.lrec.accregs && checkScale 1 (tileOf (tdOf w 1)) == none
    && engReadsB (setRpr demoD 0 (rprAt 0 0)) w 0 (opSpans (tileOf (tdOf w 1)) 0 1 0 128) fun s' _ =>
      (s'.blocks[0]?).map (·.acc) == (demoD.blocks[0]?).map (·.acc)) = true := turn_of (by decide +kernel)

theorem test_meets_PassesReserved : ∃ w, demoD.onTurn = some w ∧ (31 < w.l.lrec.accregs
    && checkMma 0 1 (tileOf (tdOf w 0)) (tileOf (tdOf w 1)) false false ⟨0, 0, 0, 0⟩ == none
    && checkMmas 4 4 2 (tileOf (tdOf w 4)) (tileOf (tdOf w 4)) (tileOf (tdOf w 2)) ⟨0, 0, 0, 0⟩ == none) = true := turn_of (by decide +kernel)

/-- `mma a2, t0, t1, #0, #0, #0` at the last row-group of its one pass; both operands are FP32 rows. -/
def demoG : State := (sequenced .running 0x80F6604000200000 0 demoD).modBlk 0 fun b =>
  { b with rpr := rprAt 0 112, seq := { b.seq with busy := true, entries := 1, td := (b.seq.td.set 0 (tileAt 1 114 2 0x1000)).set 1 (tileAt 1 1 4 0x2000) } }

theorem test_meets_PassAccumulates : ∃ w, ({ demoG with arbiter := [] } : State).onTurn = some w ∧ (w.r.grp == w.b.seq.owner && busyBlocks demoG (quadOf 0) == [0]
    && demoG.blocks.all (fun x => x.seq.held.isEmpty) && w.b.seq.sent.isEmpty && (rprStart w.b).2 == 112
    && match passOf w.b with
      | some p => !p.sparse && !p.ck && p.p + 1 == p.np && p.d < w.l.lrec.accregs
          && engReadsB { demoG with arbiter := sset 0 demoG.arbiter (quadOf 0) 1 } w 8 [] fun s1 _ =>
          (who? s1 w.r).any fun w1 => w1.b.acc == w.b.acc && match loadA s1 w1 p 112 none with
            | .go s2 as => as.length == 16 && match loadB s2 w1 p none with
              | .go s3 bs => bs.length == 128 && (s3.blocks[0]?).any fun b => b.acc == w.b.acc
              | _ => false
            | _ => false
      | none => false) = true := turn_of (by decide +kernel)

/-- A drain of two rows of two columns to FP32, whose second cell is a NaN that NANTRAP traps, and a load from such a tile. -/
def demoY : State := demoD.modBlk 0 fun b => { b with acc := [(0, 0x3F800000), (1, 0x7FC00000)], rpr := rprAt 0 112, nantrap := 1 }
/-- The pieces of a drain reach this device, apart. -/
def drains (s : State) (w : Who) (p : DrainPlan) : Bool :=
  apartB (engFates s w .dst ((p.pieces.zipIdx).map fun x => (x.2, x.1.2.1, x.1.2.2.length))).2

theorem test_meets_DrainWrites : ∃ w, demoY.onTurn = some w ∧ (streamsB w && !w.l.lrec.equinox && 0 < w.l.lrec.accregs
    && fmtZb (tileOf (tdOf w 0)).fmt == false && checkDrain 0 (tileOf (tdOf w 0)) false (some (5, tileOf (tdOf w 5))) 0 0 == none
    && (tileOf (tdOf w 0)).base.toNat + 4096 * (tileOf (tdOf w 0)).stride + 16384 ≤ 2 ^ 64
    && (match mergeWord demoY w (tileOf (tdOf w 5)).base with
      | .go s1 (.mem ..) => drains s1 w (plainDrain w (tileOf (tdOf w 0)) 0 false 0 0)
      | _ => false)
    && w.b.nantrap.getLsbD 0 && (decodeF .f32 0x7FC00000).isNaN && !(decodeF .f32 0x3F800000).isNaN) = true := turn_of (by decide +kernel)

theorem test_meets_DrainTiles : ∃ w, demoD.onTurn = some w ∧ (streamsB w && !w.l.lrec.equinox && 0 < w.l.lrec.accregs
    && fmtZb (tileOf (tdOf w 6)).fmt && checkDrain 6 (tileOf (tdOf w 6)) false none 0 0 == none && !w.b.nantrap.getLsbD 0
    && (tileOf (tdOf w 6)).base.toNat + 32 * (tileOf (tdOf w 6)).stride + 132 * (tilePayload (fmtM (tileOf (tdOf w 6)).fmt) + 16) ≤ 2 ^ 64
    && drains demoD w (zbDrain w (tileOf (tdOf w 6)) 0 0 0)) = true := turn_of (by decide +kernel)

/-- A load of the last row-group of a region, and a check of tiles of which none is in range. -/
def demoZ : State := demoD.modBlk 0 fun b => { b with rpr := rprAt 0 112 }

theorem test_meets_RegionTransfers : ∃ w, demoZ.onTurn = some w ∧ (streamsB w && !w.l.lrec.equinox
    && checkLdacc 0 (tileOf (tdOf w 0)) == none && (rprStart w.b).2 == 112 && w.r.grp == w.b.seq.owner
    && engReadsB (setRpr demoZ 0 (rprAt 0 112)) { w with b := { w.b with rpr := rprAt 0 112 } } 7 (opSpans (tileOf (tdOf w 0)) 112 16 0 128)
        (fun s' _ => (who? s' w.r).isSome)
    && checkMchk 6 (tileOf (tdOf w 6)) 128 0 == none && (tilesAt (tileOf (tdOf w 6)) 128 1 0 32).isEmpty) = true :=
  turn_of (by decide +kernel)

/-- s6 selects quarter 1 of row 0 (or is a stride of 128), s2:s3 and s4:s5 are addresses. -/
def copiesAcc (cls : Cls) (n : Nat) (i : Iss) : Bool :=
  let a := readSS i.g n
  let x := rowFates i.s i.w cls a (readS i.g 6).toNat
  let s' := countLookups x.1 i.w 0 ((tileOk x.2).map (·.2.1))
  (match rowChecks i.w a (readS i.g 6).toNat x.2 with | .pass => true | _ => false) && i.g.sideLog.isEmpty && i.g.notes.isEmpty && i.g.sent.isEmpty
    && !i.w.l.lrec.equinox
    && (tileOk x.2).all fun e => (match e.2.2 with | .dev .. => false | _ => true) && !locPoisoned s' (pieceLen x.2 e.1) e.2.2

theorem test_meets_AccumulatorCopies : (∃ i, Issues demoM g7 false true { reads := regsOf true false 6, writes := regsOf false false 9 } i
      ∧ ((readS i.g 6).toNat < 512 && 31 < i.w.l.lrec.accregs) = true)
    ∧ (∃ i, Issues demoM g1 false true { reads := regsOf false false 4 ++ regsOf true false 6 } i ∧ decide ((readS i.g 6).toNat < 512) = true)
    ∧ (∃ i, Issues demoM g7 false true { reads := regsOf true true 4 ++ regsOf true false 6 } i ∧ copiesAcc .dst 4 i = true)
    ∧ (∃ i, Issues demoM g7 false true { reads := regsOf true true 2 ++ regsOf true false 6 } i ∧ copiesAcc .src 2 i = true) :=
  ⟨issues_of (by decide +kernel), issues_of (by decide +kernel), issues_of (by decide +kernel), issues_of (by decide +kernel)⟩

/-! ### Quantisation, flags, monitors and special registers -/

/-- A tile's ranges pass their checks on this device. -/
def tileMoves (s : State) (ns nd : Nat) (i : Iss) : Bool :=
  let a := rangeFates s i.w .src (readSS i.g 2) ns
  let b := rangeFates a.1 i.w .dst (readSS i.g 4) nd
  let s' := countLookups (countLookups b.1 i.w 0 ((tileOk a.2).map (·.2.1))) i.w 1 ((tileOk b.2).map (·.2.1))
  let here (e : Nat × W64 × Loc) : Bool := match e.2.2 with | .dev .. => false | _ => true
  (match tileChecks i.w (readSS i.g 2) (readSS i.g 4) ns nd a.2 b.2 with | .pass => true | _ => false) && i.g.sideLog.isEmpty && i.g.notes.isEmpty && i.g.sent.isEmpty
    && !i.w.l.lrec.equinox && (tileOk a.2).all (fun e => here e && !locPoisoned s' (pieceLen a.2 e.1) e.2.2) && (tileOk b.2).all here

theorem test_meets_QuantiseResults : (∃ i, Issues demo g7 false false { reads := regRun false 16 16 ++ [.v 8], writes := regRun false 40 (zbRegs (zbM 2) + 1) } i
      ∧ (fun _ => true) i = true)
    ∧ (∃ i, Issues demo g7 false false { reads := regRun false 40 (zbRegs (zbM 2)), writes := regRun false 16 16 } i ∧ (fun _ => true) i = true)
    ∧ (∃ i, Issues demoM g7 false false { reads := regsOf true true 4 ++ regsOf true true 2 ++ regsOf true false 6 } i
      ∧ tileMoves (i.s.modGrp i.w.r fun g => { g with seed := i.w.b.seed }) (4 * tileElems) (tilePayload (zbM 2) + 16) i = true)
    ∧ (∃ i, Issues demoM g7 false false { reads := regsOf true true 4 ++ regsOf true true 2 } i
      ∧ tileMoves i.s (tilePayload (zbM 2) + 16) (4 * tileElems) i = true) :=
  ⟨issues_of (by decide +kernel), issues_of (by decide +kernel), issues_of (by decide +kernel), issues_of (by decide +kernel)⟩

/-- The pieces that a tile form writes. -/
theorem test_meets_PiecesWritten : ∃ i, Issues demoM g7 false false { reads := regsOf true true 4 ++ regsOf true true 2 } i
    ∧ (let x := rangeFates i.s i.w .dst (readSS i.g 4) 4096
       apartB x.2 && decide ((x.2.map (·.1)).Nodup) && x.2.all (fun p => p.1 + p.2.2.1 ≤ 4096) && !i.w.l.lrec.equinox) = true := issues_of (by decide +kernel)

/-- Two writes of a transfer are out at another device, and answered. -/
def demoOut : State := { demoM.modGrp r0 (fun g => { g with sent := [(wroteKey, 6), (wroteKey + 4096, 7)] }) with answers := [(6, [0]), (7, [0])] }
def outMeets (i : Iss) : Bool := !i.g.sent.isEmpty && i.g.sent.all fun x => wroteKey ≤ x.1 && x.1 < tornKey && !(sget [] i.s.answers x.2).isEmpty
  && (sget [] i.s.answers x.2).getD 0 0 != 0xE0#8

theorem test_meets_TransfersPerformed :
    (∃ i, Issues demoOut g7 false false { reads := regsOf true true 4 ++ regsOf true true 2 ++ regsOf true false 6 } i ∧ outMeets i = true)
    ∧ (∃ i, Issues demoOut g7 false false { reads := regsOf true true 4 ++ regsOf true true 2 } i ∧ outMeets i = true)
    ∧ (∃ i, Issues demoOut g7 false true { reads := regsOf true true 4 ++ regsOf true false 6 } i ∧ (outMeets i && 31 < i.w.l.lrec.accregs) = true) :=
  ⟨issues_of (by decide +kernel), issues_of (by decide +kernel), issues_of (by decide +kernel)⟩

/-- A group in diagnostic mode with a flag in lane 31. -/
def demoL : State := (wr demoM 0x1002D 1 1).modGrp r0 fun g => { g with laneFlags := g.laneFlags.set 31 5 }

theorem test_meets_FlagReads : (∃ i, Issues demo g7 false true { writes := regRun true 10 1 } i ∧ (diagMode i.s i.w.c == false) = true)
    ∧ (∃ i, Issues demoL g7 false true { writes := regRun true 10 5 } i ∧ (diagMode i.s i.w.c == true) = true) :=
  ⟨issues_of (by decide +kernel), issues_of (by decide +kernel)⟩

/-- Monitor 7 runs, over the i32 words of a range of 16 bytes at 0x8000, every 4 bytes; s16 to s23 hold such a configuration. -/
def monitored : Vector W32 8 := #v[0x8000, 0, 16, 4, 0, 0, 0, 0]
def demoO (st : MonSt) : State := { demo with launches := demoR.launches }.modBlk 0 (fun b => { b with mons := b.mons.modify 7 fun m => { m with st := st, cfg := monitored } })
  |>.modGrp r0 fun g => { g with s := [(16, 0x8000), (18, 16), (19, 4)] }
def monMeets (st : MonSt) (i : Iss) : Bool :=
  (i.w.b.mons[7]?).any (fun m => m.st == st) && (i.s.blocks[0]?).map (·.mons) == some i.w.b.mons && i.g.sideLog.isEmpty && i.w.l.bufs.isEmpty

theorem test_meets_MonitorResults :
    (∃ i, Issues (demoO .off) g7 false true { reads := (List.range 8).map fun k => Reg.s (16 + k) } i
      ∧ (monMeets .off i && checkConfig i.w.l (Vector.ofFn fun k => readS i.g (16 + k.val)) == .ok) = true)
    ∧ (∃ i, Issues (demoO .run) g7 false true { reads := (List.range 4).map (fun k => Reg.s (24 + k)) ++ regsOf true true 28 } i ∧ monMeets .run i = true)
    ∧ (∃ i, Issues (demoO .run) g7 false true {} i ∧ monMeets .run i = true)
    ∧ (∃ i, Issues (demoO .stopped) g7 false true {} i ∧ (monMeets .stopped i && i.w.b.mons.length ≤ 8) = true)
    ∧ (∃ i, Issues (demoO .broken) g7 false true { writes := (List.range 8).map fun k => Reg.s (32 + k) } i ∧ monMeets .broken i = true)
    ∧ (∃ i, Issues (demoO .run) g7 false true { writes := (List.range 1).map fun k => Reg.s (40 + k) } i ∧ monMeets .run i = true) :=
  ⟨issues_of (by decide +kernel), issues_of (by decide +kernel), issues_of (by decide +kernel), issues_of (by decide +kernel),
   issues_of (by decide +kernel), issues_of (by decide +kernel)⟩

/-- The group in a handler of a cause, entered at its word. -/
def handling (kind : FrameKind) (s : State) : State := s.modGrp r0 fun g =>
  { g with frames := { lvl := g.lvl, cause := 0xF0, emask := 0xFFFFFFFF, epos := 0, tval := Vector.replicate 4 0#64, kind := kind, h := [], hs := [],
                        raw := 0, ext := 0, ew := Vector.replicate 4 0#32, refetch := false } :: g.frames }

theorem test_meets_SpecialRegisters : (∃ i, Issues demo g7 false false { writes := regsOf true (sr64 5) 6, lat := some 2 } i ∧ (fun _ => true) i = true)
    ∧ (∃ i, Issues demo g7 false false { reads := regsOf true (sr64 0x0E) 4 } i ∧ (fun _ => true) i = true)
    ∧ (∃ i, Issues demo g7 false false { reads := regsOf true (sr64 0x10) 12 } i ∧ (i.g.frames.isEmpty && readS i.g 12 == 0#32) = true)
    ∧ (∃ i, Issues (handling (.precise false) demo) g7 false false { reads := regsOf true (sr64 0x10) 12 } i ∧ (!i.g.frames.isEmpty) = true) :=
  ⟨issues_of (by decide +kernel), issues_of (by decide +kernel), issues_of (by decide +kernel), issues_of (by decide +kernel)⟩

/-! ### Traps -/

theorem test_meets_TrapEffect : (∃ i, foundBy demo gNone false false {} = some i ∧ (i.act == 0#32) = true)
    ∧ (∃ i, Issues demoM g1 false false {} i ∧ i.g.frames.isEmpty = true)
    ∧ (∃ i, Issues (handling (.precise false) demo) g7 false false {} i ∧ ((i.g.frames.head?).any fun f => f.cause == 0xF0#8) = true) :=
  ⟨found_of (by decide +kernel), issues_of (by decide +kernel), issues_of (by decide +kernel)⟩

theorem test_meets_DebugInstructions : (∃ i, Issues demo g7 false true {} i ∧ (debugStops i.s i.w.c == false) = true)
    ∧ (∃ i, Issues (wr demoM 0x1002D 1 2) g7 false true {} i ∧ (debugStops i.s i.w.c && i.g.status != .resumed) = true) :=
  ⟨issues_of (by decide +kernel), issues_of (by decide +kernel)⟩

/-- A handler's region can be entered for a cause: at 0x4000, as `paged` places it. -/
def entersB (s : State) (d : Nat) : Bool := (who? s r0).any fun w =>
  w.r == r0 && w.g.frames.length == d && bankFree s w (d + 1) && w.l.lrec.trapv == 0x4000#64 && w.l.lrec.emuv == 0x4000#64
    && match readRegion s w.tlbs w.c 0x4000 with
      | (_, .ok (some rg)) => rg.n ≤ 255
      | _ => false

/-- Four other groups of the partition hold its banks of depth 1. -/
def demoBanks : State := demo.modBlk 0 fun b => { b with groups := match b.groups, (handling (.precise false) demo).grp? r0 with
  | g :: _, some h => g :: List.replicate 16 h
  | gs, _ => gs }

theorem test_meets_TakingExceptions : entersB demoM 0 = true ∧ entersB (handling (.precise false) demoM) 1 = true
    ∧ ((who? (handling (.precise false) (handling .delivered demo)) r0).any fun w => 2 ≤ w.g.frames.length) = true
    ∧ ((who? demoBanks r0).any fun w => w.g.frames.length < 2 && !bankFree demoBanks w 1) = true
    ∧ ((who? demo r0).any fun w => w.g.frames.length < 2 && bankFree demo w 1 && w.l.lrec.trapv == 0#64 && w.l.lrec.emuv == 0#64) = true := by
  decide +kernel

/-- The descriptor of the handler's region lies on an unmapped page, and the fault queue has room. -/
def demoFar : State :=
  let s := wr (wr demoM 0x10018 8 0x50000) 0x50018 4 16
  { s with launches := s.launches.map fun l => { l with lrec := { l.lrec with trapv := 0x4000000 } } }

theorem test_meets_FatalEntries : ((who? demoFar r0).any fun w => w.r == r0 && w.g.frames.length == 0 && bankFree demoFar w 1 && vectorOf w.l 0x10#8 != 0#64
    && match readRegion demoFar w.tlbs w.c (vectorOf w.l 0x10#8) with
      | (s, .error (.unmapped va)) => (match faultRecord s w.c va 4 false w.res w.b.core with
        | .ok _ => true
        | _ => false)
      | _ => false) = true := by decide +kernel

/-- A handler whose group's own level runs in the region at 0x4000. -/
def demoH : State := handling (.precise true) (demoM.modGrp r0 fun g => g.modCl fun v => { v with base := 0x4000 })

theorem test_meets_HandlerReturns : ∃ i, Issues demoH g7 false true {} i ∧ (match i.g.frames with
    | f :: rest => f.kind == .precise true && match readRegion i.s i.w.tlbs i.w.c (i.g.levelAt rest.length).base with
      | (s', .ok (some _)) => s'.grp? i.w.r == some i.g
      | _ => false
    | [] => false) = true := issues_of (by decide +kernel)

theorem test_meets_WindowAccess : (∃ i, Issues demoH g7 false false { writes := [.v 224] } i ∧ (match i.g.frames with
      | _ :: below => i.g.inflight.isEmpty && (demoH.onTurn.map (·.g.frames)) == some i.g.frames
          && ewBeyond i.w below.length { cls := .v, n := 255, cnt := 1 } == false
      | [] => false) = true)
    ∧ (∃ i, Issues demoH g7 false false { reads := [.v 255] } i ∧ (!i.g.frames.isEmpty) = true)
    ∧ (∃ i, Issues demoH g7 false false { writes := [.s 112] } i ∧ (!i.g.frames.isEmpty) = true)
    ∧ (∃ i, Issues demoH g7 false false { reads := [.s 127] } i ∧ (!i.g.frames.isEmpty) = true) :=
  ⟨issues_of (by decide +kernel), issues_of (by decide +kernel), issues_of (by decide +kernel), issues_of (by decide +kernel)⟩

theorem issues_all {s : State} {h : Hdr} {long uniform : Bool} {P : Iss → Bool} {l : List Uses}
    (e : l.all (fun u => issuesAnd s h long uniform u P) = true) : ∀ u ∈ l, ∃ i, Issues s h long uniform u i ∧ P i = true :=
  fun u hu => issues_of (List.all_eq_true.1 e u hu)

/-- A handler of depth `n` that sees the operand window of its frame, on lanes that the level below has live. -/
def windowB (s : State) (n : Nat) (i : Iss) : Bool := match i.g.frames with
  | _ :: below => below.length + 1 == n && i.g.inflight.isEmpty && (s.onTurn.map (·.g.frames)) == some i.g.frames
      && i.act &&& ~~~(liveMask (i.g.levelAt below.length)) == 0#32 && 15 < i.w.l.lrec.nbctrs
  | [] => false

def hsRun (n : Nat) : List Reg := (List.range n).map fun k => .s (112 + k)

theorem test_meets_WindowReads : (∀ u ∈ ([{ writes := [.v 224], below := [.p 3] }, { writes := [.v 255] }, { writes := hsRun 1, below := [.q 6] },
      { writes := hsRun 4 }, { writes := hsRun 1 }, { writes := hsRun 2 }] : List Uses), ∃ i, Issues demoH g7 false false u i ∧ windowB demoH 1 i = true)
    ∧ ∀ u ∈ ([{ writes := [.v 224] }] : List Uses),
      ∃ i, Issues (handling (.precise false) demoH) g7 false false u i ∧ windowB (handling (.precise false) demoH) 2 i = true :=
  ⟨issues_all (by decide +kernel), issues_all (by decide +kernel)⟩

/-- Lane 31 of h0 holds no label of the region below, and every lane of h1 the label 0. -/
def demoHW : State := demoH.modGrp r0 fun g => match g.frames with
  | f :: fs => { g with frames := { f with h := [(31, 0xFFFE#32)] } :: fs }
  | [] => g

theorem test_meets_WindowWrites : (∀ u ∈ ([{ reads := [.v 224], putsBelow := [.p 6] }, { reads := [.v 224] }, { reads := hsRun 1, putsBelow := [.q 0] },
      { reads := hsRun 4 }, { reads := hsRun 1 }, { reads := hsRun 2 }] : List Uses), ∃ i, Issues demoHW g7 false false u i ∧ (windowB demoHW 1 i
        && (readV i.g 224 31).toNat % 2 ^ 16 == 0xFFFE && (i.g.levelAt 0).n ≤ 0xFFFE && i.g.calls.isEmpty) = true)
    ∧ (∀ u ∈ ([{ reads := [.v 225] }] : List Uses), ∃ i, Issues demoHW g7 false false u i ∧ (windowB demoHW 1 i
        && (laneList i.act).all fun l => (readV i.g 225 l).toNat % 2 ^ 16 < (i.g.levelAt 0).n) = true)
    ∧ ∀ u ∈ ([{ reads := [.v 224] }] : List Uses),
      ∃ i, Issues (handling (.precise false) demoH) g7 false false u i ∧ windowB (handling (.precise false) demoH) 2 i = true :=
  ⟨issues_all (by decide +kernel), issues_all (by decide +kernel), issues_all (by decide +kernel)⟩

/-- The window's first operand names a register, a descriptor or a counter of each class, or is an immediate or the extension word. -/
def classes (x : W32) : State := demoH.modGrp r0 fun g => match g.frames with
  | f :: fs => { g with frames := { f with ew := f.ew.set 0 x } :: fs }
  | [] => g

theorem test_meets_WindowDescriptors : ([0x100000FF#32, 0x2000007F#32, 0x30000006#32, 0x40000006#32, 0x5000000F#32, 0x70000003#32, 0x8000000F#32,
      0x9000FFFF#32, 0xA0000000#32].all fun x =>
    (classes x).onTurn.any fun w => (w.g.frames.head?).any fun f => (f.ew[0]).extractLsb' 28 4 == x.extractLsb' 28 4) = true := by
  decide +kernel

/-- A group of 64 vector registers; its partition has all its others free. -/
def demoV : State := demo.modGrp r0 fun g => { g with nv := 64, s := [(12, 7)], grans := (List.range 8).map fun k => (2 * k, 15) }
def growUses (imm : Bool) : Uses := { reads := if imm then [] else [.s 12], writes := [.s 9] }

theorem test_meets_Allocation :
    (∃ i, Issues demoV g7 false true (growUses true) i ∧ (i.s.growQ.isEmpty && 256 < i.g.nv + 8 * 25 && i.g.nv + 8 * 24 ≤ 256 && i.g.inflight.isEmpty
      && 8 * 24 ≤ freeRegs (i.s.modGrp i.w.r fun g => { commitAll (diagMode i.s i.w.c) g with status := .growing }) i.w.b.core (i.w.r.grp % 4)) = true)
    ∧ (∃ i, Issues demoV g7 false true (growUses false) i ∧ (i.s.growQ.isEmpty && readS i.g 12 != 0#32 && 8 * (readS i.g 12).toNat + 8 == i.g.nv && i.g.nv < 8 * 8 + 8
      && decide ((i.g.grans.map (·.1)).Nodup) && i.g.grans.drop (i.g.nv / 8 - 7) != []) = true)
    ∧ (∃ i, Issues (demoV.modGrp r0 fun g => { g with inflight := [{ depth := 0, writes := [], flags := FlagSet.none, tags := [(27, 27, 5)] }] }) g7 false true
        (growUses true) i
      ∧ (i.w.b.st == .resident && i.g.status != .retired && i.g.inflight.any fun x => x.tags.any fun t => !tagHolds i.g t) = true) :=
  ⟨issues_of (by decide +kernel), issues_of (by decide +kernel), issues_of (by decide +kernel)⟩

/-! ### What comes of itself -/

/-- A result for v223 in flight, with its granule's tag as it is, or out of date. -/
def resultFor (t : BitVec 4) : InFlight := { depth := 0, writes := [.v 223 0xFFFFFFFF (Vector.replicate 32 9)], flags := FlagSet.none, tags := [(27, 27, t)] }
def flying (t : BitVec 4) : State := demo.modGrp r0 fun g => { g with inflight := [resultFor t], grans := (List.range 32).map fun k => (k, 0) }

theorem test_meets_ResultArrives : ((who? (flying 0) r0).any fun w => w.b.st == .resident && w.g.inflight == [resultFor 0] && tagHolds w.g (27, 27, 0)) = true
    ∧ ((who? (flying 5) r0).any fun w => w.b.st == .resident && w.g.inflight == [resultFor 5] && !tagHolds w.g (27, 27, 5) && w.g.dropcnt.toNat < 0xFFFFFFFF) = true := by
  decide +kernel

/-- A group at the end of block 0: lane 1 is held beyond its length, lane 2 wants block 3; block 1's header has FT. -/
def demoU : State :=
  { demo.modGrp r0 (fun g => g.modCl fun v => { v with ord := 2, off := 16, len := 1, wl := v.wl.set 2 3, ri := v.ri.set 1 9 }) with
    icache := [{ who := .group r0, ctx := 0, line := 0x1000, bytes := List.replicate 16 0 ++ toBytes 8 0x00E0220000010801 ++ List.replicate 104 0 }] }

theorem test_meets_CensusMoves : ∃ w, demoU.onTurn = some w ∧ (decide (w.g.cl.label.toNat + 1 < w.g.cl.n)
    && match codeWord demoU (.group w.r) (w.g.cl.base + u64 w.g.cl.off) with
      | .ok _ => true
      | .error _ => false) = true := turn_of (by decide +kernel)

/-- The last of a block's two groups but one retires; a group parks on the word of lane 5, EMPTY where FULL is needed. -/
def demoAll : State := (demoR.modLaunch 0 fun l => { l with lrec := { l.lrec with barriers := 0 } }).modGrp r0 fun g => g.modCl fun v => { v with wl := Vector.replicate 32 0xFFFF }
def demoPark : State := (demoE.modLaunch 0 fun l => { l with lrec := { l.lrec with parkq := 1 } }).modGrp r0 fun g => g.modCl fun v =>
  { v with wl := (Vector.replicate 32 0xFFFF).set 5 0, defm := 0x20, dva := v.dva.set 5 0x140, dneed := 0x20 }

theorem test_meets_SweepEnds : (∃ w, demoAll.onTurn = some w ∧ (liveMask w.g.cl == 0#32 && w.g.frames.isEmpty && w.g.calls.isEmpty && !w.l.lrec.equinox
      && w.l.lrec.barriers == 0 && w.g.delivered.isEmpty && demoAll.growQ.isEmpty && w.r.grp == 0 && (w.b.groups[1]?).any fun g => g.status != .retired) = true)
    ∧ (∃ w, demoPark.onTurn = some w ∧ (let v := w.g.cl
      liveMask v == 0x20#32 && w.g.frames.isEmpty && v.defm == 0x20#32 && field (lget 0#64 v.dva 5).toNat 60 4 != 6
        && match resolve demoPark w { cls := .fe, write := has v.dwr 5, reads := false, size := 4, align := 4 } (lget 0#64 v.dva 5) with
          | (s', .ok (.mem pa _ _)) => isFull s' (pa / 4) != has v.dneed 5 && !parkRefused s' w (lget 0#64 v.dva 5).toNat && s'.grp? w.r == some w.g
          | _ => false) = true)
    ∧ ∃ w, demo.onTurn = some w ∧ (liveMask w.g.cl != 0#32 && w.g.cl.defm != liveMask w.g.cl) = true :=
  ⟨turn_of (by decide +kernel), turn_of (by decide +kernel), turn_of (by decide +kernel)⟩

def demoRemote : State := { demo.modGrp r0 fun g => { g with status := .remotePark 7, wakes := 1023 } with tick := 1007 }

theorem test_meets_RemoteParkEnds : ((who? demoRemote r0).any fun w =>
    w.g.status == .remotePark 7 && 7 + 1000 ≤ demoRemote.tick && w.g.wakes < w.b.febudget.toNat && liveMask w.g.lvl != 0#32) = true := by decide +kernel

theorem test_meets_EncodingTraps : (∃ i, foundBy demo gNone true false { chk := false } = some i ∧ (i.act == 0#32) = true)
    ∧ ∃ i, foundBy demo g7 true false { chk := false } = some i ∧ (i.act != 0#32) = true := ⟨found_of (by decide +kernel), found_of (by decide +kernel)⟩

def owedCause : Delivered := { cause := 0x70, tval := Vector.replicate 4 1 }
def demoOwed : State := demoM.modGrp r0 fun g => { g with delivered := [owedCause, owedCause] }

theorem test_meets_DeliveredEnters : ((who? demoOwed r0).any fun w => w.g.delivered == [owedCause, owedCause] && w.g.frames.isEmpty && w.b.st == .resident
    && w.g.status == .ready && liveMask w.g.lvl != 0#32 && bankFree demoOwed w 1 && demoOwed.parked.isEmpty) = true := by decide +kernel

/-- The context's key, and code at 0x1000 in a page that may be executed, whose tags stand at 0x3000; the page at 0x3000000 may not. -/
def demoCode (tag : Nat) : State :=
  let s := wr (wr (wr demoM 0x30000 8 0x1C0000000100008F) 0x30018 8 0x1C00000005000083) 0x1003000 8 tag
  { s with ctxs := [(0, { s.ctx 0 with key := some 0x000102030405060708090A0B0C0D0E0F })] }

/-- The line at 0x1000 is read, its tag's entry and its descriptor are reached, and no word of them is bad. -/
def lineMeets (s : State) : Bool := (who? s r0).any fun w =>
  match xlatCode s w.tlbs w.c 0x1000 with
  | (s1, .ok pa) => match xlatCode s1 w.tlbs w.c (w.g.cl.tagTab + u64 (8 * ((0x1000 - w.g.cl.base.toNat) / 128))) with
    | (s2, .ok tpa) => match xlatCode s2 w.tlbs w.c (w.g.cl.base - 64#64) with
      | (s3, .ok dpa) => match (s3.ctx w.c).key with
        | some _ => !poisoned s3 pa 128 && !poisoned s3 tpa 8 && !poisoned s3 dpa 64
        | none => false
      | _ => false
    | _ => false
  | _ => false

/-- Whether a code address cannot be fetched from. -/
def noFetch (s : State) (a : Who → W64) : Bool := (who? s r0).any fun w => match xlatCode s w.tlbs w.c (a w) with
  | (_, .error (.cause ..)) => true
  | _ => false

/-- Which of the last two clauses a state falls under is up to its tag alone; the first two find a page that is not executable. -/
theorem test_meets_CodeLines : lineMeets (demoCode 0x1111) = true ∧ noFetch (demoCode 0x1111) (fun _ => 0x3000000) = true
    ∧ noFetch ((demoCode 0x1111).modGrp r0 fun g => g.modCl fun v => { v with tagTab := 0x3000000 })
        (fun w => w.g.cl.tagTab + u64 (8 * ((0x1000 - w.g.cl.base.toNat) / 128))) = true := by decide +kernel
/-- A side-log entry of lane 5, a store of four bytes at 0x140. -/
def anEntry : SideEntry := { mask := 0x20, kind := 0, wd := 4, sid := 0, sc := 0, ord := 0, op := 0, items := [(5, 0x140, 7)], phases := [], sent := [], told := [] }
def demoLog : State := demoM.modGrp r0 fun g => { g with sideLog := [anEntry, anEntry] }

theorem test_meets_SideLogReplays : ((who? demoLog r0).any fun w => w.b.st == .resident && !w.g.sideSvc && w.g.sideLog == [anEntry, anEntry]
    && !w.l.lrec.equinox && w.l.bars.isEmpty && w.b.mons.isEmpty && match resolve demoLog w (entryReq anEntry) 0x140 with
      | (s', .ok (.mem pa (some p) _)) => s'.grp? r0 == some w.g && s'.launches == demoLog.launches && ((s'.blocks[0]?).map (·.mons)) == some []
          && (p + 8 ≤ pa || pa + entrySize anEntry ≤ p)
      | _ => false) = true := by decide +kernel

/-- A group waits for the fault service, once resumed by the debugger or not, or with a cause to take. -/
theorem test_meets_FaultServices : ∀ st ∈ [GStatus.service true, .service false,
      .entering { cause := 0x10, emask := 1, tv := [], kind := .precise false, epos := 0, svc := true }],
    let s := wr (demoM.modGrp r0 fun g => { g with status := st }) 0x10 8 1
    serviceCounter s 0 ≠ (s.ctx 0).served ∧ (who? s r0).any (fun w => w.l.ctx == 0) = true := by decide +kernel

/-- An Equinox launch whose tile 2 is at the frontier with one store. -/
def demoTile : State := demo.modLaunch 0 fun l =>
  { l with frontier := 2, next := 4, lrec := { l.lrec with equinox := true, index := (4, 1, 1) }, bufs := [{ tile := 2, ended := true, ops := [.store 0x100 [1, 2] none] }] }

theorem test_meets_TileCommits : (demoTile.launches[0]?).any (fun l => l.lrec.equinox && passes l l.frontier && l.bars.isEmpty
    && (bufOf l l.frontier).ops == [.store 0x100 [1, 2] none]) = true := by decide +kernel

/-! ### The March core -/

/-- Queue 63 has a packet at its head; the counter at 0x200 holds a value. -/
def demoQueue (old : Nat) : State := (wr demoM 0x1000200 8 old).setQueue 63 { Queue.absent with enable := true, count := 1, wr := 1 }
def startsB (s : State) (i : Instr) : Bool := canStart s 63 true && (heldPacket s 63 i).isNone

def onePieceB (x : State × Except ReadFail (List Piece0)) (n : Nat) (P : State → Bool) : Bool := match x with
  | (s, .ok [p]) => p.off == 0 && p.n == n && (match p.loc with
      | .mem pa (some q) _ => q + 8 ≤ pa || pa + n ≤ q
      | _ => false) && P s
  | _ => false
def counterB (s : State) (ctr : W64) (P : Nat → Bool) : Bool := ctr.toNat % 8 == 0 && match packetPiece s 0 ctr 8 true true with
  | (s, .ok (.mem pc (some q) _)) => (q + 8 ≤ pc || pc + 8 ≤ q) && P (ofBytes (rdBytes s pc 8))
  | _ => false
def theData : List Byte := List.replicate 32 0xAB#8

theorem test_meets_PacketResults :
    (let nop := Instr.nopPacket 63 true
     startsB (demoQueue 0) nop = true)
    ∧ (let e := Instr.write 63 true 0x100 theData
       (startsB (demoQueue 0) e && onePieceB (packetRange (begun (demoQueue 0) 63 e) 0 0x100 32 true) 32 fun _ => true) = true)
    ∧ (let e := Instr.copy 63 true 0x100 0x8000 128 0 0
       (startsB (demoQueue 0) e && onePieceB (packetRange (begun (demoQueue 0) 63 e) 0 0x100 128 false) 128 fun s =>
         onePieceB (packetRange s 0 0x8000 128 true) 128 fun _ => true) = true)
    ∧ (let e := Instr.signal 63 true 0x200 5 6
       (startsB (demoQueue (2 ^ 64 - 6)) e && counterB (begun (demoQueue (2 ^ 64 - 6)) 63 e) 0x200 fun x => x + 5 < 2 ^ 64) = true)
    ∧ (let e := Instr.signal 63 true 0x200 6 6
       (startsB (demoQueue (2 ^ 64 - 6)) e && counterB (begun (demoQueue (2 ^ 64 - 6)) 63 e) 0x200 fun x => 2 ^ 64 ≤ x + 6) = true)
    ∧ (let e := Instr.wsig 63 true 0x100 [1, 2] 0x200 1
       (startsB (demoQueue 3) e && match packetRange (begun (demoQueue 3) 63 e) 0 0x100 2 true with
         | (s, .ok ps) => onePieceB (s, .ok ps) 2 fun _ => counterB (writePieces s ps [1, 2] writeKey).1 0x200 fun x => x + 1 < 2 ^ 64
         | _ => false) = true)
    ∧ (let e := Instr.fencePacket 63 true 6
       (startsB (demoQueue 0) e && ((demoQueue 0).queue 63).started.isEmpty) = true)
    ∧ (let e := Instr.tstamp 63 true 0x100
       (startsB (demoQueue 0) e && onePieceB (packetRange (begun (demoQueue 0) 63 e) 0 0x100 8 true) 8 fun _ => true) = true) := by decide +kernel

/-- A WAITC for the value 3 started with a deadline at tick 9. -/
def demoWaitc (tick : Nat) : State := { (demoQueue 2).modQueue 63 fun x => { x with started := [.waitc 0x200 3 (some 9) false none] } with tick := tick }
def waitcB (s u : State) (value : Nat) (reached : Bool) : Bool := match packetPiece u (s.queue 63).ctx 0x200 8 false true with
  | (s1, .ok (.mem pa _ _)) => decide (value ≤ ofBytes (rdBytes s1 pa 8)) == reached
  | _ => false
def waitcStarts (s : State) (value reached : Nat) : Bool :=
  canStart s 63 true && waitcB s (startNext s 63 (.waitc 0x200 (u64 value) (some (s.tick + 1)) false none))
    value (reached == 1)

theorem test_meets_CounterWaits : waitcStarts (demoQueue 3) 3 1 = true ∧ waitcStarts (demoQueue 2) 3 0 = true
    ∧ waitcB (demoWaitc 9) (demoWaitc 9) 3 false = true ∧ 9 ≤ (demoWaitc 9).tick ∧ (demoWaitc 8).tick < 9 := by decide +kernel

/-- A launch record for a gang of one core, and one whose last check fails. -/
def recordOf (equinoxArea : Nat) : List Byte :=
  layout [(0x4000, 8), (0, 8), (0, 8), (0, 8), (0, 8), (0, 8), (0, 4), (1, 2), (1, 2), (0, 1), (1, 1), (0, 2), (1, 1), (0, 1), (32, 2), (8, 2), (0, 2), (0, 4), (0, 1),
    (0, 1), (0, 2), (0, 4), (0, 8), (1, 4), (1, 4), (1, 4), (1, 4), (1, 4), (1, 4), (0, 8), (0x100000, 8), (0x110000, 8), (equinoxArea, 8), (0, 8), (0, 104)]
def demoRecord (equinoxArea : Nat) : State :=
  wrBytes (((paged { State.reset with boot := 1, retiredCores := List.range 143 }).setQueue 63 { Queue.absent with enable := true, count := 1, wr := 1 })) 0x1005000 (recordOf equinoxArea)
def recordB (s : State) (P : State → List Byte → Bool) : Bool := startsB s (.launch 63 true 0x5000 0 0)
  && match packetRange s 0 0x5000 256 false with
    | (s1, .ok [{ off := 0, loc := .mem n _ false, n := 256 }]) => P s1 (rdBytes s1 n 256)
    | _ => false

theorem test_meets_LaunchQueues :
    recordB (demoRecord 0) (fun s1 bs => (checkRecord 0x5000 bs).isNone && (parseLaunch bs).gang && (nextPlaced (pendLaunch s1 63 0 0x5000 0 0 bs)).isSome) = true
    ∧ recordB (demoRecord 1) (fun _ bs => checkRecord 0x5000 bs == some 8) = true := by decide +kernel
/-- The launch of the record is queued; core 143's island (R3) may be gated. -/
def demoPlace (gated : Bool) : State := { pendLaunch (demoRecord 0) 63 0 0x5000 0 0 (recordOf 0) with gated := if gated then [islandOf 143] else [] }

theorem test_meets_LaunchPlaces : (nextPlaced (demoPlace false) == some (0, [143]) && ((demoPlace false).launches[0]?).isSome
      && leafRoom (demoPlace false) [143] && [143].all fun c => !(demoPlace false).gated.contains (islandOf c)) = true
    ∧ (nextPlaced (demoPlace true) == some (0, [143]) && [143].any fun c => (demoPlace true).gated.contains (islandOf c)) = true := by decide +kernel

/-- Queue 63's slice has run out with no other head; a launch of no gang has an evicted block, and core 143 is free. -/
def demoSlice : State := { (demoQueue 0).modQueue 63 (fun x => { x with slice := 10 }) with tick := 10, holder := some 63 }
/-- The slice of queue 0, whose launch is on a core, has run out while no queue is switched to; it has run over by 3 ticks before. -/
def demoStays : State := { demo.setQueue 0 { Queue.absent with slice := 10, overran := 3 } with tick := 10 }
def demoBack : State :=
  { demo.modBlk 0 (fun b => { b with st := .evicted }) with
      retiredCores := List.range 143, boot := 1,
      launches := demo.launches.map fun l => { l with lrec := { l.lrec with barriers := 0 } } }

theorem test_meets_SlicesAndReturns :
    (let x := demoSlice.queue 63
     (x.slice != 0 && x.sliceAt + x.slice ≤ demoSlice.tick && x.started.isEmpty && demoSlice.holder == some 63
       && (heads { demoSlice.modQueue 63 (fun x => { x with sliceAt := demoSlice.tick }) with holder := none }).isEmpty) = true)
    ∧ (let x := demoStays.queue 0
       (x.slice != 0 && launchOn demoStays 0 && x.sliceAt + x.slice ≤ demoStays.tick && x.started.isEmpty && demoStays.holder.isNone
         && (heads { demoStays.modQueue 0 (fun x => { x with sliceAt := demoStays.tick - x.overran, overran := 0 }) with holder := none }).isEmpty) = true)
    ∧ ((demoQueue 0).holder != some 63 && !launchOn (demoQueue 0) 63 && ((demoQueue 0).queue 63).started.isEmpty) = true
    ∧ (demoBack.launches[0]?).any (fun l => !l.lrec.gang && !headFirst demoBack l && (match demoBack.blocks[0]? with
        | some b => waitingBlocks demoBack 0 == [(0, b)] && coresBack demoBack 0 l [(0, b)] 1 == some [143] && coresReady demoBack [143] && l.lrec.barriers == 0 && b.launch == 0
        | none => false)) = true := by decide +kernel

/-! ### The host, the security block, boot and power -/

/-- An invalidation of whole pages up to the last, one of a part of a page, and one whose base lies within a page. -/
theorem test_meets_HostEvents : demo.boot = 2#2 ∧ State.reset.boot ≠ 2#2
    ∧ (0x1000#64).toNat % 4096 = 0 ∧ (0#64).toNat % 4096 = 0 ∧ (0x1001#64).toNat % 4096 ≠ 0 ∧ (0xFFF#64).toNat % 4096 ≠ 0 := by decide +kernel

/-- The launch's queue is pre-empted in its drain form; context 0 is used, and context 1,023 is not. -/
def demoDrain : State := demo.setQueue 0 { Queue.absent with drain := true }

theorem test_meets_HostCommands : ((demoDrain.queue 0).drain && (demoDrain.launches[0]?).any (fun l => l.queue == 0 && !l.draining)
      && demoDrain.launches.length == 1 && demoDrain.blocks.any (fun b => b.launch == 0 && b.st == .resident) && demoDrain.blocks.all (!·.leaving) && demoDrain.leafLinks.toList.all (·.evicts.isEmpty)) = true
    ∧ (demoDrain.queues.all (fun e => !e.2.enable || e.2.ctx != 1023) && demoDrain.launches.all fun l => l.ctx != 1023) = true
    ∧ (demoDrain.blocks.any fun b => b.st != .ended && (demoDrain.launches[b.launch]?).any fun l => l.ctx == 0) = true := by decide +kernel

theorem test_meets_HostRegisters : (List.replicate 64 0xFF#8).length = 64 ∧ (List.replicate 16 0#8).length = 16 ∧ fieldAt (List.replicate 16 0#8) 8 1 % 4 ≠ 1
    ∧ (demo.ctx 0).st = 1#2 := by decide +kernel

/-! #### Long ranges -/

/-- Every byte of a range translates to the byte after the one before, and nothing changes. -/
theorem virtRange_run {s : State} {c : Nat} {va : W64} {pa n : Nat} {wr : Bool} (h : ∀ i, i < n → ∃ t, field (va + u64 i).toNat 60 4 = 0
      ∧ xlat s [] c false (field (va + u64 i).toNat 0 60) = (s, .hit t) ∧ t.pa = pa + i
      ∧ (if wr then pteW t.pte = true ∧ setPte s t.slot 16 = s else poisoned s t.pa 1 = false)) :
    virtRange s [] c va n wr = (s, .ok ((List.range n).map (pa + ·))) := by
  induction n with
  | zero => rfl
  | succ n ih =>
    have ih := ih fun i hi => h i (by omega)
    obtain ⟨t, h1, h2, h3, h4⟩ := h n (by omega)
    unfold virtRange at ih ⊢
    rw [List.range_succ, List.foldl_append, ih]
    simp only [List.foldl_cons, List.foldl_nil, h1, h2, h3]
    cases wr <;> simp_all

/-- The page at address 0 of context 0 has AC and D set, the context has a key, and the device is in service. -/
def demoKey : State :=
  let s := wr demoM 0x30000 8 0x1C0000000100009F
  { s with ctxs := [(0, { s.ctx 0 with key := some 7 })], boot := 2, measure := [0, 1, 2],
           leaves := [(0x30000, frameOf 0x1C0000000100009F)] }
/-- The same with a mailbox command in its block. -/
def mailed (cmd : Nat) (xs : List Nat) : State := mailCommand demoKey cmd xs

theorem walk_low (va : Nat) (h : va < 2 ^ 24) : walk demoKey 0 false va = .leaf 0x30000 0x1C0000000100009F := by
  have f0 : field va 48 12 = 0 := by simp only [field]; omega
  have f1 : field va 36 12 = 0 := by simp only [field]; omega
  have f2 : field va 24 12 = 0 := by simp only [field]; omega
  have e : walkFrom demoKey va [0, 1, 2, 3] (cxd demoKey 0 0 8) = walkFrom demoKey 0 [0, 1, 2, 3] (cxd demoKey 0 0 8) := by
    have z : ∀ k, field 0 k 12 = 0 := fun k => by simp [field]
    have b0 : (rd demoKey (cxd demoKey 0 0 8) 8).testBit 7 = false := by decide +kernel
    have b1 : (rd demoKey (frameOf (rd demoKey (cxd demoKey 0 0 8) 8)) 8).testBit 7 = false := by decide +kernel
    have b2 : (rd demoKey (frameOf (rd demoKey (frameOf (rd demoKey (cxd demoKey 0 0 8) 8)) 8)) 8).testBit 7 = true := by decide +kernel
    simp [walkFrom, f0, f1, f2, z, b0, b1, b2]
  rw [walk, if_neg (by decide), e]
  decide +kernel

theorem xlat_low (cmd : Nat) (xs : List Nat) (va : Nat) (h : va < 2 ^ 24) :
    xlat (mailed cmd xs) [] 0 false va = (mailed cmd xs, .hit { pa := 0x1000000 + va, pte := 0x1C0000000100009F, slot := some 0x30000 }) := by
  have hw : walk (mailed cmd xs) 0 false va = walk demoKey 0 false va := rfl
  have hk : heldLeaf (mailed cmd xs) [] 0 false va = none := rfl
  have hs : setPte (mapFresh (mailed cmd xs) 0x30000 0x1C0000000100009F) (some 0x30000) 8 = mailed cmd xs := by
    have e : setPte (mapFresh demoKey 0x30000 0x1C0000000100009F) (some 0x30000) 8 = demoKey := by decide +kernel
    have o : setPte (mapFresh (mailed cmd xs) 0x30000 0x1C0000000100009F) (some 0x30000) 8 = { setPte (mapFresh demoKey 0x30000 0x1C0000000100009F) (some 0x30000) 8 with
        operands := (mailed cmd xs).operands } := by
      have m : mapFresh (mailed cmd xs) 0x30000 0x1C0000000100009F = mailed cmd xs := if_pos (by rfl)
      have m' : mapFresh demoKey 0x30000 0x1C0000000100009F = demoKey := if_pos (by rfl)
      have r : rd demoKey 0x30000 8 = 0x1C0000000100009F := by decide +kernel
      have r' : rd (mailed cmd xs) 0x30000 8 = 0x1C0000000100009F := r
      rw [m, m', setPte, setPte, r, r', if_neg (by decide), if_neg (by decide)]
      rfl
    rw [o, e]
    rfl
  have p : frameOf 0x1C0000000100009F + pageOff 0x1C0000000100009F va = 0x1000000 + va := by
    have f : frameOf 0x1C0000000100009F = 0x1000000 := by decide
    have g : pageSize 0x1C0000000100009F = 2 ^ 24 := by decide
    rw [f, pageOff, g, Nat.mod_eq_of_lt h]
  simp only [xlat, hk, hw, walk_low va h, refill, hs, p, List.foldl_nil, Bool.false_eq_true, if_false]

theorem range_low (cmd : Nat) (xs : List Nat) (va : W64) (n : Nat) (wr : Bool) (h : va.toNat + n ≤ 2 ^ 24) :
    virtRange (mailed cmd xs) [] 0 va n wr = (mailed cmd xs, .ok ((List.range n).map (0x1000000 + va.toNat + ·))) := by
  refine virtRange_run fun i hi => ⟨{ pa := 0x1000000 + (va.toNat + i), pte := 0x1C0000000100009F, slot := some 0x30000 }, ?_, ?_, ?_, ?_⟩
  rotate_left
  · have hv : field (va + u64 i).toNat 0 60 = va.toNat + i := by
      simp only [field, u64, BitVec.toNat_add, BitVec.toNat_ofNat]; omega
    rw [hv]
    exact xlat_low cmd xs _ (by omega)
  · simp only; omega
  · cases wr
    · rfl
    · have r : rd demoKey 0x30000 8 = 0x1C0000000100009F := by decide +kernel
      have r' : rd (mailed cmd xs) 0x30000 8 = 0x1C0000000100009F := r
      have e : setPte (mailed cmd xs) (some 0x30000) 16 = mailed cmd xs := by
        rw [setPte, r', if_neg (by decide)]
      have w : pteW 0x1C0000000100009F = true := by decide
      exact ⟨w, e⟩
  · simp only [field, u64, BitVec.toNat_add, BitVec.toNat_ofNat]; omega

theorem nodup_run (a n : Nat) : ((List.range n).map (a + ·)).Nodup :=
  List.pairwise_map.2 (List.nodup_range.imp fun h e => h (by omega))

theorem read_low (cmd : Nat) (xs : List Nat) (va : W64) (n : Nat) (h : va.toNat + n ≤ 2 ^ 24) :
    wholeRead (mailed cmd xs) 0 va n = (mailed cmd xs, some (readAt (mailed cmd xs) ((List.range n).map (0x1000000 + va.toNat + ·)))) := by
  unfold wholeRead
  rw [range_low _ _ _ _ _ h]

/-- A line at 0x1000, its descriptor and its table; a nonce at 0 and a report at 0x8000; context 0 has a key, context 1,023 none. -/
theorem test_meets_SecurityResults : demoKey.boot = 2#2 ∧ (demoKey.ctx 0).key = some 7 ∧ (demoKey.ctx 1023).key = none ∧ demoKey.measure.length = 3
    ∧ (∃ s d bs ps, wholeRead (mailCommand demoKey 2 [0, 0x1000, 1, 0xFC0, 0x3000]) 0 0xFC0 64 = (s, some d) ∧ wholeRead s 0 0x1000 (128 * 1) = (s, some bs)
      ∧ virtRange s [] 0 0x3000 (8 * 1) true = (s, .ok ps) ∧ ps.Nodup)
    ∧ ∃ s n ps, wholeRead (mailCommand demoKey 3 [0, 0x8000, 0]) 0 0 32 = (s, some n) ∧ virtRange s [] 0 0x8000 3892 true = (s, .ok ps) ∧ ps.Nodup := by
  exact ⟨rfl, by decide +kernel, by decide +kernel, rfl,
    ⟨_, _, _, _, read_low 2 _ _ _ (by decide), read_low 2 _ _ _ (by decide), range_low 2 _ _ _ _ (by decide), nodup_run _ _⟩,
    ⟨_, _, _, read_low 3 _ _ _ (by decide), range_low 3 _ _ _ _ (by decide), nodup_run _ _⟩⟩
/-- Every firmware falls under a clause of boot: which one is up to its signatures (log 9). -/
theorem test_meets_BootResults (f1 f2 f3 : Firmware) : let good (k : Nat) (f : Firmware) : Prop := Config.firmwareSignatureOk k f.image f.sig = true
    (good 1 f1 ∧ good 2 f2 ∧ good 3 f3) ∨ ¬ good 1 f1 ∨ (good 1 f1 ∧ ¬ good 2 f2) ∨ (good 1 f1 ∧ good 2 f2 ∧ ¬ good 3 f3) := by
  intro good
  by_cases h1 : good 1 f1 <;> by_cases h2 : good 2 f2 <;> by_cases h3 : good 3 f3 <;> simp_all
theorem test_meets_Training : ({ State.reset with boot := 1 } : State).boot = 1#2 := rfl

/-- Core 0's island is used; the last compute island of D3 and an island of no cores are not. -/
theorem test_meets_PowerResults : (demo.blocks.any fun b => b.st == .resident && islandOf b.core == 0) = true
    ∧ (50 < 56 && 50 % 14 < 9 && demo.blocks.all fun b => islandOf b.core != 50) = true
    ∧ (paValid demo (288 * 2 ^ 30 - 1) && !poisoned demo (288 * 2 ^ 30 - 1) 1) = true := by decide +kernel

/-! ### Debug, triggers and the fabric -/

/-- A group parked inside a CALL's callee cannot be saved where its block has requests on their way; link 31 is the pod's. -/
def demoBusy : State := demo.modGrp r0 fun g => { g with sent := [(0, 1)] }
def demoLinks : State := { demo with devices := [0, 1], harvest := true, harvestEnd := 64 }

theorem test_meets_DebugResults : (demo.grp? r0).any (fun g => g.status != .retired && !demo.steps1.contains r0) = true
    ∧ (demo.trig[15].actions.getLsbD 2 == false && demo.trig[15].actions.getLsbD 4 == false) = true
    ∧ (!demoBusy.harvest && demoBusy.blocks.any fun b => b.st == .resident && !canSave b) = true
    ∧ (demoLinks.harvest && demoLinks.harvestEnd != 0 && (usedLinks demoLinks).any fun j => j != 31 && ((demoLinks.links[j]?).map (·.marked)) == some false) = true := by
  decide +kernel

/-- The group stands before a safe point that acts on every lane, with a breakpoint there, or a step requested in each of the two
forms of a context. -/
def atBreak (s : State) : State := { s with breaks := [{ ctx := 0, base := 0x1000, label := 0, ord := 1 }] }
def demoStops : State := wr demoM 0x1002D 1 2
def holdB (s : State) (P : Who → Bool) : Bool := (who? s r0).any fun w =>
  w.g.cl.base == 0x1000 && w.g.cl.label == 0 && w.g.cl.ord == 1 && w.g.cl.callv.isNone && w.g.status == .ready && w.g.sent.isEmpty && activeMask w.g.cl != 0#32 && P w

theorem test_meets_DebugStops : (0x40E0000000000000#64).getLsbD 62 = true
    ∧ holdB (atBreak demo) (fun w => !(atBreak demo).steps1.contains w.r && w.c == 0) = true
    ∧ ((who? demoBusy r0).any fun w => !w.g.sent.isEmpty) = true
    ∧ holdB { demoStops with steps1 := [r0] } (fun w => debugStops demoStops w.c && w.r == r0) = true
    ∧ holdB { demoM with steps1 := [r0] } (fun w => !debugStops demoM w.c && actsOn { demoM with steps1 := [r0] } w 0x40E0000000000000 0 != 0#32) = true
    ∧ holdB { demoM with steps1 := [r0] } (fun w => !debugStops demoM w.c && actsOn { demoM with steps1 := [r0] } w 0x4052000000000010 0 == 0#32
        && demoM.breaks.isEmpty) = true := by
  decide +kernel

/-- A request of this device to device 1 with its number, and a collective copy whose only chunk is on its way. -/
def aHeader : MsgHdr := { flits := [0], vc := 0, src := 1, dst := 0, seq := 0, fails := [15] }
def aMessage : OutMsg := { id := 9, dst := 1, vc := 0, seq := 5, body := .request (.load 0 8), flits := [], wait := true }
def demoPod : State :=
  { demo.modGrp r0 (fun g => { g with copies := [{ aCopy with cls := .coll, dst := 0x8000, sent := [(chunkKey, 9)] }] }) with
      devices := [0, 1], outbox := [aMessage], sets := [{ num := 3, ranks := [0, 1], op := 0, wd := 4, base := 0x8000, len := 256 }] }

/-- The header is next in its flow, or five ahead of it; a link may have failed for the last time, or have no permit left. -/
theorem test_meets_FabricMessages : (!demoPod.harvest && aHeader.dst == demoPod.device && (flitWays aHeader).all (fun x => x.2 < 16) && demoPod.early.isEmpty
      && aHeader.seq == sget 0 demoPod.inFlows (flowOf aHeader)) = true
    ∧ (!poisoned demoPod 0 8 && poisoned { demoPod with poison := [0] } 0 8) = true
    ∧ demoPod.outbox.find? (fun x => x.dst == aHeader.src && x.seq == ({ aHeader with vc := 2, seq := 5 } : MsgHdr).seq && (match x.body with
      | .request _ => true
      | _ => false)) = some aMessage
    ∧ (let m : MsgHdr := { aHeader with seq := 5 }
       let next := sget 0 demoPod.inFlows (flowOf m)
       m.seq ≠ next ∧ (m.seq + 2 ^ 16 - next) % 2 ^ 16 < 2 ^ 15)
    ∧ (flitWays { aHeader with fails := [16] }).all (fun x => x.2 < 16) = false ∧ ({ aHeader with dst := 1 } : MsgHdr).dst ≠ demoPod.device
    ∧ ({ demoPod with links := Vector.replicate 32 { retired := false, retries := 0, permits := Vector.replicate 4 0, marked := false, flits := [], sent := 0 } } :
        State).links.toList.all (fun l => l.permits == Vector.replicate 4 0) = true := by decide +kernel

theorem test_meets_FabricResults : (!demo.harvest && demo.outbox.isEmpty) = true ∧ (!demoPod.chunks.contains (0x8000#64, 3)) = true
    ∧ ((chunkOwner demoPod 0x8000).any (fun x => x.1 == r0 && x.2.2 == 9) && (demoPod.sets.find? fun z => z.num == 3).isSome) = true
    ∧ ((chunkOwner demoPod 0x9000).isNone && (demoPod.sets.find? fun z => z.num == 3).any (fun z => z.ranks.contains demoPod.device)
      && demoPod.lateChunks.isEmpty && demoPod.outbox.all fun x => match x.body with
        | .request (.contribute ..) => false
        | _ => true) = true
    ∧ (0 ∈ [0, 1023] ∧ (∀ d ∈ [0, 1023], d < 1024) ∧ [0, 1023].length ≤ 1024) ∧ 1023 ∈ [0, 1023] ∧ 1023 ≠ 0 := by decide +kernel

/-! ### Rules over all instructions and states -/

/-- Two results of one group due together and apart, the older later. -/
def aPending (due : Nat) : Pending := { due := due, writes := [.q 6 true], flags := FlagSet.none }

theorem test_meets_RegisterWrites : ∃ g h : Group, g.frames = [] ∧ h.frames ≠ [] ∧ g.pend = [aPending 4] ∧ 4 ≤ g.clock ∧ h.pend = [aPending 4, aPending 3]
    ∧ 4 ≤ h.clock ∧ 31 < 32 ∧ 224 ≤ 224 ∧ 112 ≤ 112 ∧ 6 < 7 ∧ 7 ≤ 7 :=
  ⟨{ Group.start 0 0 32 8 0 0 1 { base := 0, tab := 0, n := 0, codeLen := 0, tagTab := 0 } with pend := [aPending 4], clock := 4 },
   { Group.start 0 0 32 8 0 0 1 { base := 0, tab := 0, n := 0, codeLen := 0, tagTab := 0 } with
       pend := [aPending 4, aPending 3], clock := 4,
       frames := [{ lvl := (Group.start 0 0 32 8 0 0 1 { base := 0, tab := 0, n := 0, codeLen := 0, tagTab := 0 }).lvl, cause := 0xF0, emask := 1, epos := 0,
                    tval := Vector.replicate 4 0#64, kind := .delivered, h := [], hs := [], raw := 0, ext := 0, ew := Vector.replicate 4 0#32, refetch := false }] },
   by decide +kernel⟩

/-- A group of eight vector registers, and one under CHKMODE with a write of v4 pending. -/
def demoSmall : State := demo.modGrp r0 fun g => { g with nv := 8 }
def demoHazard : State := demo.modGrp r0 fun g => { g with chkmode := 1, pend := [{ due := 9, writes := [.v 4 0xFFFFFFFF (Vector.replicate 32 1)], flags := FlagSet.none }] }
/-- A form whose result goes to v8, and one that reads v4. -/
def x8 : Alu := { xa with d := 8 }
def x4 : Alu := { xa with a := 4 }
def trapB (s : State) (past : Bool) (e : Instr) : Bool := match issued s e with
  | some (h, long, uniform, u) => match foundBy s h long uniform u with
    | some i => i.act != 0#32 && !barHeld i.g && (u.reads ++ u.writes).any (beyond i.g) == past && (past || hazard i.g h uniform u)
    | none => false
  | none => false

theorem test_meets_IssueTraps : [Instr.iadd g7 x8, .ffma g7 { x8 with ty := .f32 }, .frcp g7 { x8 with b := .reg 0 }, .ld g7 { xm with a := 8 }, .st g7 { xm with b := 8 },
      .atom g7 { xm with d := 8 }, .shfl g7 0 8 2 (.imm8 1), .ldw g7 { xm with d := 8 }].all (trapB demoSmall true) = true
    ∧ [Instr.iadd g7 x4, .ffma g7 { x4 with ty := .f32 }, .frcp g7 { x4 with b := .reg 0 }, .ld g7 { xm with a := 4, d := 2 }, .st g7 { xm with b := 4 },
      .atom g7 { xm with b := 4, d := 8 }, .shfl g7 0 8 4 (.imm8 1), .ldw g7 { xm with a := 4, d := 2 }].all (trapB demoHazard false) = true := by decide +kernel

/-- Paths at the ends of their ranges; the last four bytes of the scratchpad; pages unmapped, read-only, writable, and malformed. -/
def ldq (w : Bool) : Req := { cls := if w then .store else .load, write := w, reads := !w, size := 4, align := 4 }
def demoBad : State := wr demoM 0x30018 8 0x87

theorem test_meets_AddressChecks : (who? demoM r0).any (fun w => field (0x8000000000000000#64).toNat 60 4 == 8 && field (0x2000000000000000#64).toNat 60 4 == 2
      && field (0x1000000000000001#64).toNat 60 4 == 1 && (0x1000000000000001#64).toNat % 4 != 0 && pathCause .load 1 == none && pathCause .load 0 == none
      && 0x3FFFC + 4 ≤ w.l.lrec.scratch && demoM.blocks[0]? == some w.b && (match xlat demoM w.tlbs w.c false 0x3000000 with | (_, .unmapped) => true | _ => false)
      && (match xlat demoM w.tlbs w.c false 0x1000000 with | (_, .hit t) => !pteW t.pte | _ => false)
      && (match xlat demoM w.tlbs w.c false 0xFFFFFC with | (_, .hit t) => pteW t.pte && !pteRP t.pte | _ => false)
      && (match xlat demoM w.tlbs w.c false 0x2000000 with | (_, .hit t) => pteW t.pte && pteRP t.pte | _ => false) && pathCause .load 4 == none
      && (match xlat demoBad w.tlbs w.c false 0x3000000 with | (_, .bad _ _) => true | _ => false)) = true := by decide +kernel

/-- v2:v3 of every lane hold an address on path 0x8, or one that is not aligned. -/
def demoAddr (lo hi : W32) : State := demo.modGrp r0 fun g => { g with v := (List.range 32).map (fun l => (64 + l, lo)) ++ (List.range 32).map fun l => (96 + l, hi) }

theorem test_meets_LoadTraps : (∃ i, Issues (demoAddr 4 0x80000000) g7 false false ldUses i
      ∧ (i.act == 0xFFFFFFFF#32 && (laneList i.act).all fun k => 8 ≤ field (readVV i.g 2 k + extOff .none).toNat 60 4) = true)
    ∧ ∃ i, Issues (demoAddr 2 0x10000000) g7 false false ldUses i
      ∧ (i.act == 0xFFFFFFFF#32 && (laneList i.act).all fun k => field (readVV i.g 2 k + extOff .none).toNat 60 4 == 1 && (readVV i.g 2 k + extOff .none).toNat % 4 == 2) = true :=
  ⟨issues_of (by decide +kernel), issues_of (by decide +kernel)⟩
/-- The tables of `paged`, with a leaf at level 3, and a malformed leaf, no entry, and a malformed table entry at every level. -/
def demoWalk : State := [(0x20008, 0x81), (0x20018, 3), (0x28008, 0x81), (0x28018, 3), (0x30010, 0x87), (0x30018, 0x40001), (0x30028, 3), (0x40000, 0x9000087),
  (0x40008, 1), (0x40010, 0x187)].foldl (fun s e => wr s e.1 8 e.2) demoM

/-- The entry that a walk meets at a level, by way of tables: absent, a malformed table entry or leaf, or a leaf. -/
inductive Meeting where
  | absent | badTable | badLeaf | leaf
  deriving DecidableEq
def meets (va k : Nat) : Option Meeting :=
  let index (j : Nat) : Nat := field va (48 - 12 * j) 12
  let table (k : Nat) : Nat := (List.range k).foldl (fun t j => frameOf (rd demoWalk (t + 8 * index j) 8)) (cxd demoWalk 0 0 8)
  let entry (k : Nat) : Nat := rd demoWalk (table k + 8 * index k) 8
  if (List.range k).all fun j => (entry j).testBit 0 && !(entry j).testBit 7 && tableOk demoWalk j (entry j) then
    if !(entry k).testBit 0 then some .absent
    else if (entry k).testBit 7 then some (if leafOk demoWalk k (entry k) then .leaf else .badLeaf)
    else if tableOk demoWalk k (entry k) then none else some .badTable
  else none

theorem test_meets_PageWalks : demoWalk.tlb = []
    ∧ [2 ^ 49, 2 ^ 37, 4 * 2 ^ 24, 3 * 2 ^ 24 + 3 * 4096].zipIdx.all (fun x => meets x.1 x.2 == some .absent) = true
    ∧ [3 * 2 ^ 48, 3 * 2 ^ 36, 5 * 2 ^ 24, 3 * 2 ^ 24 + 4096].zipIdx.all (fun x => meets x.1 x.2 == some .badTable) = true
    ∧ [2 ^ 48, 2 ^ 36, 2 * 2 ^ 24, 3 * 2 ^ 24 + 2 * 4096].zipIdx.all (fun x => meets x.1 x.2 == some .badLeaf) = true
    ∧ meets 0 2 = some .leaf ∧ meets (3 * 2 ^ 24) 3 = some .leaf := by decide +kernel

/-- Word 5 has waiters, word 6 has none; the group is parked on word 5, or on nothing. -/
def demoWake : State := { setFe demoM 5 2 with parked := [(5, [(r0, 0x14)])] }.modGrp r0 fun g => { g with status := .parked 0x14 }

theorem test_meets_WordsWake : isFull demoWake 5 ≠ true ∧ isFull demoWake 6 = true ∧ (feOf demoWake 5).getLsbD 1 = true ∧ (feOf demoWake 6).getLsbD 1 = false
    ∧ (demoWake.grp? r0).any (fun g => decide (g.status = .parked 0x14)) = true ∧ (r0, 0x14) ∈ sget [] demoWake.parked 5 ∧ (r0, 0x14) ∉ sget [] demoWake.parked 6 := by
  decide +kernel

theorem test_meets_MemoryReadsBack : (Memory.wf demoM.mem && swf 1#2 demoM.fe) = true := by decide +kernel

/-- The greatest finite number, the least subnormal and an infinity of each format. -/
theorem test_meets_NumbersKeep : decodeF .f32 0x7F7FFFFF = .num false 0xFFFFFF 104 ∧ decodeF .f32 1 = .num false 1 (-149) ∧ decodeF .f32 0xFF800000 = .inf true
    ∧ decodeF .e5m2 0x7C = .inf false ∧ decodeF .f16 0x8001 = .num true 1 (-24) := by decide +kernel

/-- Monitor 7 counts a store of the group at 0x8000, in its phase or the next, or in what a MONCLR has left. -/
def aCount (k : W32) (e : Nat) : CountTag := { who := r0, addr := 0x8000, phases := [{ mon := 7, phase := k, epoch := e }] }

theorem test_meets_MonitorCounts : ((demoO .run).blocks[0]?).any (fun b => (b.mons[7]?).any fun m => m.st == .run && monFF m == 0
    && monFields m (aCount 0 0).addr.toNat 4 == [0x8000] && m.phase == 0 && m.epoch == 0 && m.past.isEmpty && in256 (m.cur + 2 ^ 31) && in256 (m.nxt - 2 ^ 31)) = true
    ∧ (let z : MonPast := { epoch := 1, cfg := monitored, phase := 2, cur := 2 ^ 255 - 8, nxt := 0 }
       z.epoch ≠ 0 ∧ z.cfg = monitored ∧ in256 (z.cur + 7) = true ∧ in256 (z.cur + 8) = false) := by decide +kernel

theorem test_meets_BlocksTerminate : (demoAll.blocks[0]?).any (fun b => b.st != .ended && b.groups.length == 2 && (demoAll.launches[b.launch]?).isSome) = true := by
  decide +kernel

/-- A group, a sequencer, a queue and an event have their turns; see the words in `demoStep`. -/
def demoStep (x : W64) : State := placeOne State.reset x 0
def takesB (s : State) (t : Turn) : Bool := (upkeep s).agenda.head? == some t && !(upkeep s).frozen
def dueB (s : State) (P : State → Who → Bool) : Bool := let u := dueTurn s (upkeep s).agenda.tail
  (who? u r0).any fun w => w.b.st == .resident && !w.b.leaving && !u.harvest && u.focus == none && w.g.lacks == 0 && !w.g.cl.unread && w.g.status == .ready
    && w.g.delivered.isEmpty && (toRefetch w.g).isNone && w.g.cl.callv.isNone && u.steps1.isEmpty && u.breaks.isEmpty && P u w
def bodyB (u : State) (w : Who) (ok : Bool) : Bool := w.g.cl.phase == .body && w.g.cl.ord ≤ w.g.cl.len && w.g.cl.callv == none && match nextWords u w with
  | .ok (x, e) => (match decodeWord (decodeEnv u w) x e with
    | .ok _ => true
    | .error _ => false) == ok
  | .error _ => false

theorem test_meets_StepRunsDecoded : (takesB (demoStep 0) (.group r0) && dueB (demoStep 0) (bodyB · · true)) = true
    ∧ (takesB (demoStep 0x1FE00000000000) (.group r0) && dueB (demoStep 0x1FE00000000000) (bodyB · · false)) = true
    ∧ dueB (demoStep 0x00E0200000000001) (fun u w => match w.g.cl.phase with
      | .enter m true => w.g.cl.off < w.g.cl.codeLen && (match codeWord u (.group r0) (w.g.cl.base + u64 w.g.cl.off) with
        | .ok x => (match decodeHeader x with
          | some (.blk _ l _ _) => l == m
          | _ => false)
        | _ => false)
      | _ => false) = true
    ∧ dueB ((demoStep 0).modGrp r0 fun g => g.modCl fun v => { v with ord := 2 }) (fun _ w => w.g.cl.phase == .body && w.g.cl.len < w.g.cl.ord) = true
    ∧ dueB ((demoStep 0).modGrp r0 fun g => g.modCl fun v => { v with phase := .sweepEnd }) (fun _ w => w.g.cl.phase == .sweepEnd) = true
    ∧ takesB { State.reset with agenda := [.event .scanReadout] } (.event .scanReadout) = true := by decide +kernel

/-- A stream's `mzero`, and a queue whose ring is in host memory and holds a NOP. -/
def demoStream : State := placeOne State.reset 0x00F6A00000800000 0
def demoMarch : State := { demoQueue 0 with agenda := [.march 63] }

theorem test_meets_StepTakesOthers : takesB demoStream (.sequencer 0) = true ∧ (let u := dueTurn demoStream []
     ((u.blocks[0]?).any fun b => (u.launches[b.launch]?).isSome && b.st == .resident && !b.leaving && !b.seq.svc && b.seq.st == .running && !b.seq.busy
      && (match b.seq.desc with
        | some (_, len) => (b.seq.next - b.seq.base).toNat < len && (match streamWords u 0 b.seq.next (len - (b.seq.next - b.seq.base).toNat) with
          | .ok (x, e, true) => (decodeStream x e).isSome
          | _ => false)
        | none => false)) = true)
    ∧ takesB demoMarch (.march 63) = true ∧ (let u := dueTurn demoMarch []
     let y := u.queue 63
     (y.started.isEmpty && y.enable && !y.stopped && y.rd != y.wr && (u.ctx y.ctx).st == 1#2 && marchRuns u && match packetBytes u y with
      | some bs => (parsePacket 63 bs).isSome
      | none => false) = true) := by decide +kernel

theorem test_meets_NothingStops : demo.onTurn.isSome = true := by decide +kernel

/-- A step of a state that keeps the invariant. -/
theorem test_meets_StepKeepsInv : State.Inv (demoStep 0) ∧ (match step (demoStep 0) with
    | .next _ => true
    | _ => false) = true := by
  constructor
  · unfold State.Inv; decide +kernel
  · decide +kernel

theorem test_meets_DecodeEncode : (Instr.nop { g7 with gp := 0 }).wf = true ∧ encode (.nop { g7 with gp := 0 }) = some (0, none) := by decide

theorem test_meets_WordsMeanOne : (match decodeWord .plain 0 0 with
      | .ok i => i == .nop { g7 with gp := 0 }
      | .error _ => false) = true ∧ (decodeStream 0x00F6A00000800000 0).isSome = true
    ∧ (decodeHeader 0x00E0200000000001).isSome = true := by decide +kernel

end Sys2Proof.Tests
end

section
/-! Memory as the statements speak of it: what is read back, and the forms of memory at reset and after a write (log 4). -/
namespace Sys2Proof.Machine

/-- A run of bytes is read back as it was written. -/
theorem rdBytes_wrBytes_same (s : State) (pa : Nat) (bs : List Byte) : rdBytes (wrBytes s pa bs) pa bs.length = bs := by
  rw [rdBytes_eq]
  refine List.ext_getElem (by simp) fun i hi hb => ?_
  rw [List.getElem_map, List.getElem_range, get_wrBytes, if_pos (by omega)]
  simp [hb]

/-- A byte that a write does not cover stays. -/
theorem byteOf_wrBytes_apart (s : State) {pa a : Nat} {bs : List Byte} (h : a < pa ∨ pa + bs.length ≤ a) :
    byteOf (wrBytes s pa bs) a = byteOf s a := by
  unfold byteOf
  rw [get_wrBytes, if_neg (by omega)]

/-- A number written is read back modulo its width. -/
theorem rd_wr_same (s : State) (pa n x : Nat) : rd (wr s pa n x) pa n = x % 256 ^ n := by
  have h : rdBytes (wr s pa n x) pa n = toBytes n x := by simpa [wr] using rdBytes_wrBytes_same s pa (toBytes n x)
  rw [← ofBytes_toBytes, ← h]
  rfl

/-- Byte `k` of a number written has weight `256 ^ k` (R14). -/
theorem byteOf_wr (s : State) {n k : Nat} (pa x : Nat) (h : k < n) : (byteOf (wr s pa n x) (pa + k)).toNat = x / 256 ^ k % 256 := by
  unfold byteOf wr
  rw [get_wrBytes, if_pos (by simpa using h)]
  simp [toBytes, h]

/-- Settles O49: a write is a run of keys of the sparse map, which `get_wrBytes` reads. -/
theorem memoryReadsBack : Obligations.MemoryReadsBack := fun s pa n x bs =>
  ⟨rdBytes_wrBytes_same s pa bs, fun _ => byteOf_wrBytes_apart s, rd_wr_same s pa n x, fun _ => byteOf_wr s pa x, (inv_store · pa bs)⟩

/-- Settles O56: at reset both maps are empty. -/
theorem resetInv : Obligations.ResetInv := ⟨rfl, rfl⟩

end Sys2Proof.Machine
end

section
/-! What executing one instruction or event comes to (R13, log 34): with a group on turn a next state, and from a state in the form
of log 4 none but a state in that form. An arm that issues is safe by its body, an arm of a matrix stream by its meaning for the
group on turn, and an event by the states it can answer. -/
namespace Sys2Proof.Machine

/-- An outcome, met in a state, that stops nothing and keeps the canonical form. -/
structure Safe (s : State) (o : Outcome) : Prop where
  next : s.onTurn ≠ none → ∃ t, o = .next t
  inv : s.Inv → outcomeInv o

variable {s t : State}

/-! ### The ways to execute -/

theorem safe_next (ht : s.Inv → t.Inv) : Safe s (.next t) := ⟨fun _ => ⟨t, rfl⟩, ht⟩

theorem safe_same : Safe s (.next s) := safe_next id

theorem safe_issue {h : Hdr} {long uniform : Bool} {u : Uses} {body : Iss → Act} (hb : ∀ i, i.s.Inv → (body i).Inv) :
    Safe s (issue h long uniform u s body) := ⟨issue_next, (inv_issue · hb ..)⟩

theorem safe_streamOp {k : Who → State} (hk : s.Inv → ∀ w, (k w).Inv) : Safe s (streamOp s k) where
  next ht := by
    unfold streamOp
    split
    next e => exact absurd e ht
    next w _ => exact ⟨k w, rfl⟩
  inv hs := inv_streamOp (hk hs)

theorem packet_next (i : Instr) (q : Nat) (order : Bool) (s : State) (act : State → List (Nat × Nat) → PktRes) :
    ∃ t, packet i q order s act = .next t := by
  unfold packet
  dsimp only
  split
  · exact ⟨_, rfl⟩
  · split <;> exact ⟨_, rfl⟩

theorem safe_packet {i : Instr} {q : Nat} {order : Bool} {act : State → List (Nat × Nat) → PktRes}
    (ha : ∀ s sent, s.Inv → (act s sent).Inv) : Safe s (packet i q order s act) :=
  ⟨fun _ => packet_next .., (inv_packet · ha ..)⟩

theorem safe_writePacket {me : Instr} {q : Nat} {order : Bool} {addr : W64} {data : State → List Byte} {last : State → PktRes}
    (hl : ∀ s, s.Inv → (last s).Inv) : Safe s (writePacket me q order addr data s last) where
  next _ := by
    unfold writePacket
    exact packet_next ..
  inv hs := inv_writePacket hs hl ..

theorem safe_regOp {h : Hdr} {long u wide : Bool} {lat : Option Nat} {reads : List Reg} {d : BitVec 8} {f : Iss → Nat → FRes} :
    Safe s (regOp h long u lat reads wide d s f) := ⟨issue_next, (inv_regOp · ..)⟩

theorem safe_aluOp {h : Hdr} {x : Alu} {lat : Option Nat} {k : Slots} {f : Nat → Nat → Nat → FRes} :
    Safe s (aluOp h x lat k s f) := safe_regOp

theorem safe_int2 {h : Hdr} {x : Alu} {lat : Nat} {f : Int → Int → Int} : Safe s (int2 h x lat s f) := by
  unfold int2
  exact safe_aluOp

theorem safe_bits2 {h : Hdr} {x : Alu} {f : Nat → Nat → Nat → Nat} : Safe s (bits2 h x s f) := by
  unfold bits2
  exact safe_aluOp

theorem safe_bits1 {h : Hdr} {x : Alu} {f : Nat → Nat → Nat} : Safe s (bits1 h x s f) := by
  unfold bits1
  exact safe_aluOp

theorem safe_float2 {h : Hdr} {x : Alu} {f : FV → FV → FV × Bool} : Safe s (float2 h x s f) := by
  unfold float2
  exact safe_aluOp

theorem safe_double2 {h : Hdr} {x : Alu} {f : FV → FV → FV × Bool} : Safe s (double2 h x s f) := by
  unfold double2
  exact safe_aluOp

theorem safe_specialOp {h : Hdr} {x : Alu} {f : Special} : Safe s (specialOp h x s f) := by
  unfold specialOp
  exact safe_aluOp

theorem safe_cvtOp {h : Hdr} {x : CvtForm} {useB : Bool} {f : Nat → Nat → FRes} : Safe s (cvtOp h x useB s f) := by
  unfold cvtOp
  exact safe_regOp

theorem safe_oneResult {h : Hdr} {lat : Nat} {reads : List Reg} {ud : Bool} {d : BitVec 8} {f : Iss → FRes} :
    Safe s (oneResult h lat reads ud d s f) := ⟨issue_next, (inv_oneResult · ..)⟩

theorem safe_feOp {h : Hdr} {o : FeOp} {x : MemForm} : Safe s (feOp h o x s) := ⟨issue_next, (inv_feOp · ..)⟩

theorem safe_readMonitor {h : Hdr} {d a : BitVec 8} {n : Nat} {f : Monitor → List RegWrite} : Safe s (readMonitor h d a n s f) :=
  ⟨issue_next, (inv_readMonitor · ..)⟩

theorem safe_returnOp {h : Hdr} {resume : Bool} : Safe s (returnOp h resume s) := ⟨issue_next, (inv_returnOp · ..)⟩

/-! ### Control, OPC 0x00 to 0x08, and the sequencer's own steps -/

theorem safe_execBlk (stall : BitVec 3) (label : W16) (ft : Bool) (len : BitVec 12) (s : State) : Safe s (execBlk stall label ft len s) :=
  safe_streamOp fun hs w => inv_modGrp hs w.r _

theorem safe_execWant (h : Hdr) (label : W16) (s : State) : Safe s (execWant h label s) :=
  safe_issue fun _ hi => if_keeps (P := Act.Inv) hi hi

theorem safe_execWantv (h : Hdr) (a : BitVec 8) (s : State) : Safe s (execWantv h a s) :=
  safe_issue fun _ hi => if_keeps (P := Act.Inv) hi hi

theorem safe_execCall (h : Hdr) (entry : W16) (a : BitVec 8) (s : State) : Safe s (execCall h entry a s) :=
  safe_issue fun _ hi => inv_callTo hi ..

theorem safe_execCallv (h : Hdr) (entry : W16) (a : BitVec 8) (s : State) : Safe s (execCallv h entry a s) := by
  refine safe_issue fun i hi => ?_
  dsimp only
  split
  · exact hi
  · exact inv_callTo hi ..

theorem safe_execRet (h : Hdr) (s : State) : Safe s (execRet h s) :=
  safe_issue fun _ hi => Act.mk_done (inv_tryBarriers (inv_modGrp hi ..) _)

theorem safe_execExit (h : Hdr) (s : State) : Safe s (execExit h s) :=
  safe_issue fun _ hi => Act.mk_done (inv_tryBarriers (inv_modGrp hi ..) _)

theorem safe_execCensus (s : State) : Safe s (execCensus s) := safe_streamOp fun hs w => inv_census hs w

theorem safe_execSweepEnd (s : State) : Safe s (execSweepEnd s) := safe_streamOp fun hs w => inv_sweepEnd hs w

theorem safe_execCodeLineFill (f : Fetcher) (line : W64) (s : State) : Safe s (execCodeLineFill f line s) := by
  unfold execCodeLineFill
  split
  · split
    · exact safe_same
    · exact safe_next (inv_fillCode · ..)
  · split
    · exact safe_same
    · split
      · exact safe_same
      · dsimp only
        split
        next e => exact safe_next fun hs => pair_inv e (inv_loadLine hs ..)
        next e => exact safe_next fun hs => inv_streamFail (pair_inv e (inv_loadLine hs ..)) ..

theorem safe_execRemoteParkDelay (r : GRef) (s : State) : Safe s (execRemoteParkDelay r s) := by
  unfold execRemoteParkDelay
  split
  · exact safe_same
  · split
    · exact if_keeps (P := Safe s) (safe_next (inv_countWake · ..)) safe_same
    · exact safe_same

/-! ### Memory and atomics, OPC 0x80 to 0x94 -/

theorem safe_execLd (h : Hdr) (x : MemForm) (s : State) : Safe s (execLd h x s) := safe_issue fun _ hi => inv_loadAct hi ..

theorem safe_execLdu (h : Hdr) (x : MemForm) (s : State) : Safe s (execLdu h x s) := safe_issue fun _ hi => inv_loadAct hi ..

theorem safe_execSt (h : Hdr) (x : MemForm) (s : State) : Safe s (execSt h x s) := by
  refine safe_issue fun i hi => ?_
  refine inv_accessing hi (fun s c _ hs => ?_) ..
  exact inv_logLanes hi (inv_laneWrites hi hs ..) (fun _ ht => Act.mk_done ht) ..

theorem safe_execMst (h : Hdr) (x : MemForm) (s : State) : Safe s (execMst h x s) := by
  refine safe_issue fun i hi => ?_
  refine inv_accessing hi (fun s c _ hs => ?_) ..
  exact inv_logLanes hi (inv_laneWrites hi hs ..) (fun _ ht => Act.mk_done ht) ..

theorem safe_execAtom (h : Hdr) (x : MemForm) (s : State) : Safe s (execAtom h x s) := by
  unfold execAtom
  extract_lets n
  refine safe_issue fun i hi => ?_
  refine inv_accessing hi (fun s c got hs => ?_) ..
  refine Act.mk_later (inv_logLanesOf hi (inv_eachLane hs (fun s l addr loc hs => ?_) _) ..)
  split
  · exact hs
  · exact inv_noteAtom hi hs (inv_atomAt hs ..) ..

theorem safe_execRed (h : Hdr) (x : MemForm) (s : State) : Safe s (execRed h x s) := by
  unfold execRed
  extract_lets n
  refine safe_issue fun i hi => ?_
  refine inv_accessing hi (fun s c got hs => ?_) ..
  refine inv_logLanes hi (inv_logLanesOf hi (inv_foldl (fun s e hs => ?_) _ hs) ..) (fun _ ht => Act.mk_done ht) ..
  dsimp only
  split
  · exact hs
  · exact inv_ite (inv_bufferOp (inv_setPte hs ..) ..) (inv_noteAtom hi hs (inv_atomAt hs ..) ..)
  · exact inv_noteAtom hi hs (inv_atomAt hs ..) ..

theorem safe_execCas (h : Hdr) (x : MemForm) (s : State) : Safe s (execCas h x s) := by
  unfold execCas
  extract_lets n
  refine safe_issue fun i hi => ?_
  refine inv_accessing hi (fun s c got hs => ?_) ..
  refine Act.mk_later (inv_logLanesOf hi (inv_logLanesOf hi (inv_eachLane hs (fun s l addr loc hs => ?_) _) ..) ..)
  split
  · exact hs
  · exact inv_ite (inv_noteAtom hi hs (inv_casAt hs ..) ..) (inv_casAt hs ..)

theorem safe_execCadd (h : Hdr) (x : MemForm) (s : State) : Safe s (execCadd h x s) := by
  unfold execCadd
  extract_lets nr
  refine safe_issue fun i hi => ?_
  refine inv_accessing hi (fun s c got hs => ?_) ..
  extract_lets r done wrapped s1 s2
  have hr : r.1.Inv := by
    refine inv_eachLane hs (fun s l addr loc hs => ?_) _
    split
    · exact hs
    · exact inv_noteAtom hi hs (inv_caddAt hs ..) ..
  have h1 : s1.Inv := inv_logLanesOf hi hr ..
  have h2 : s2.Inv := inv_ite h1 (inv_modGrp h1 ..)
  exact if_keeps (P := Act.Inv) h2 h2

/-! ### Copies, OPC 0x95 to 0x97, and their steps -/

theorem safe_execCpy (h : Hdr) (x : CopyForm) (s : State) : Safe s (execCpy h x s) := safe_issue fun _ hi => inv_copyIssue hi ..

theorem safe_execCpyr (h : Hdr) (x : CopyForm) (s : State) : Safe s (execCpyr h x s) := safe_issue fun _ hi => inv_copyIssue hi ..

theorem safe_execCpyg (h : Hdr) (x : CopyForm) (s : State) : Safe s (execCpyg h x s) := by
  refine safe_issue fun i hi => ?_
  dsimp only
  split
  · exact hi
  · exact inv_enqueue hi ..

theorem safe_execCopyRetire (r : GRef) (cls : CopyClass) (s : State) : Safe s (execCopyRetire r cls s) := by
  unfold execCopyRetire
  split
  · exact safe_same
  · exact safe_next fun hs => inv_keepScratch hs (inv_copyStep hs ..) ..

theorem safe_execCopyAbort (r : GRef) (cls : CopyClass) (s : State) : Safe s (execCopyAbort r cls s) := by
  unfold execCopyAbort
  split
  · exact safe_same
  · split
    · split
      · exact safe_next fun hs => inv_keepScratch hs (inv_abortCopy hs ..) ..
      · exact safe_same
    · exact safe_same

/-! ### Waits, barriers, fences, tiles and the side log, OPC 0xA0 to 0xA8 -/

theorem safe_execWcond (h : Hdr) (x : WcondForm) (s : State) : Safe s (execWcond h x s) := by
  unfold execWcond
  extract_lets kind reads
  refine safe_issue fun i hi => ?_
  extract_lets put addr path off
  clear_value kind
  have hput (w : W128) : (put w).Inv := Act.mk_done (inv_modGrp hi ..)
  split
  · exact if_keeps (P := Act.Inv) hi (if_keeps (P := Act.Inv) hi (hput _))
  · exact if_keeps (P := Act.Inv) hi (hput _)
  · exact hput _
  · exact if_keeps (P := Act.Inv) hi (if_keeps (P := Act.Inv) hi (hput _))
  · split
    · exact hi
    · exact hput _

theorem safe_execWait (h : Hdr) (x : WaitForm) (s : State) : Safe s (execWait h x s) :=
  safe_issue fun _ hi => Act.mk_again (inv_waitLoop (inv_modGrp hi ..) ..)

theorem safe_execWaitRetest (r : GRef) (s : State) : Safe s (execWaitRetest r s) := safe_next fun hs => inv_retestWait hs ..

theorem safe_execWaitTimeout (r : GRef) (s : State) : Safe s (execWaitTimeout r s) := by
  unfold execWaitTimeout
  split
  · exact safe_same
  · split
    · exact safe_next fun hs => inv_ite (inv_retestWait hs ..) hs
    · exact safe_same

theorem safe_execWaitRemotePoll (r : GRef) (s : State) : Safe s (execWaitRemotePoll r s) := by
  unfold execWaitRemotePoll
  split
  · exact safe_same
  · split
    · exact safe_next fun hs => inv_ite (inv_retestWait hs ..) hs
    · exact safe_same

theorem safe_execBar (h : Hdr) (sc : BitVec 3) (la : Bool) (d a c : BitVec 8) (s : State) : Safe s (execBar h sc la d a c s) := by
  unfold execBar
  split
  · exact safe_next (inv_resumeBar · ..)
  · refine safe_issue fun i hi => ?_
    dsimp only
    split
    · exact hi
    · refine if_keeps (P := Act.Inv) hi (if_keeps (P := Act.Inv) (inv_modGrp hi ..) (Act.mk_again ?_))
      split
      · exact inv_resumeBar (inv_arrive (inv_modGrp hi ..) ..) ..
      · exact inv_arrive (inv_modGrp hi ..) ..

theorem safe_execBara (h : Hdr) (sc : BitVec 3) (d a : BitVec 8) (s : State) : Safe s (execBara h sc d a s) := by
  refine safe_issue fun i hi => ?_
  dsimp only
  split
  · exact hi
  · refine if_keeps (P := Act.Inv) hi ?_
    exact Act.mk_done (inv_ite (inv_modGrp (inv_logOwn hi ..) ..) (inv_arrive (inv_modGrp (inv_logOwn hi ..) ..) ..))

theorem safe_execSig (h : Hdr) (imm : Bool) (sc : BitVec 3) (d b : BitVec 8) (s : State) : Safe s (execSig h imm sc d b s) := by
  refine safe_issue fun i hi => ?_
  refine if_keeps (P := Act.Inv) hi (if_keeps (P := Act.Inv) hi ?_)
  dsimp only
  split
  · exact hi
  · exact Act.mk_done (inv_modBlk (inv_logOwn hi ..) ..)

theorem safe_execFence (h : Hdr) (sc : BitVec 3) (kind : BitVec 2) (mask : W16) (s : State) : Safe s (execFence h sc kind mask s) :=
  safe_issue fun _ hi => if_keeps (P := Act.Inv) hi (inv_logOwn hi ..)

theorem safe_execFencex (h : Hdr) (mask : W16) (s : State) : Safe s (execFencex h mask s) := safe_issue fun _ hi => inv_logOwn hi ..

theorem safe_execTfetch (h : Hdr) (d c : BitVec 8) (s : State) : Safe s (execTfetch h d c s) := by
  refine safe_issue fun i hi => ?_
  extract_lets l eq hold t
  have hh (t : TileHold) (next : Nat) : (hold t next).Inv := inv_ite (inv_modGrp (inv_modLaunch hi ..) ..) (inv_modLaunch hi ..)
  exact if_keeps (P := Act.Inv) hi (if_keeps (P := Act.Inv) (hh ..) (hh ..))

theorem safe_execTileCommit (launch : Nat) (s : State) : Safe s (execTileCommit launch s) := by
  unfold execTileCommit
  split
  · exact safe_same
  · exact if_keeps (P := Safe s) (safe_next fun hs => inv_tryDue (inv_modLaunch (inv_applyBuf hs ..) ..) _) safe_same

theorem safe_execSideLogReplay (r : GRef) (s : State) : Safe s (execSideLogReplay r s) := by
  unfold execSideLogReplay
  split
  · exact safe_next fun hs => inv_ite hs (inv_replaySide hs _)
  · exact safe_same

/-! ### The matrix engine, OPC 0xB0 to 0xBC -/

theorem safe_execMstart (h : Hdr) (a : BitVec 8) (s : State) : Safe s (execMstart h a s) :=
  safe_issue fun _ hi => if_keeps (P := Act.Inv) hi (if_keeps (P := Act.Inv) hi hi)

theorem safe_execMstartResume (h : Hdr) (s : State) : Safe s (execMstartResume h s) :=
  safe_issue fun _ hi => if_keeps (P := Act.Inv) hi (inv_modBlk hi ..)

theorem safe_execMstartRetry (h : Hdr) (s : State) : Safe s (execMstartRetry h s) :=
  safe_issue fun _ hi => if_keeps (P := Act.Inv) hi (inv_modBlk hi ..)

theorem safe_execMtile (h : Hdr) (d a : BitVec 8) (s : State) : Safe s (execMtile h d a s) := safe_issue fun _ hi => inv_modBlk hi ..

theorem safe_execCpyaccRd (h : Hdr) (d a b : BitVec 8) (s : State) : Safe s (execCpyaccRd h d a b s) := by
  refine safe_issue fun i hi => ?_
  split
  · exact hi
  · exact if_keeps (P := Act.Inv) hi hi

theorem safe_execCpyaccWr (h : Hdr) (d a b : BitVec 8) (s : State) : Safe s (execCpyaccWr h d a b s) := by
  refine safe_issue fun i hi => ?_
  split
  · exact hi
  · exact if_keeps (P := Act.Inv) hi (inv_modBlk hi ..)

theorem safe_execCpyaccSt (h : Hdr) (sid : BitVec 4) (d a b : BitVec 8) (s : State) : Safe s (execCpyaccSt h sid d a b s) := by
  refine safe_issue fun i hi => ?_
  refine if_keeps (P := Act.Inv) hi ?_
  split
  next e =>
  refine inv_transfer hi (pair_inv e (inv_rowFates hi ..)) (fun _ _ hs => hs) (fun bs cs k s e hs => ?_) ..
  have hk : (fun s => s) = k := congrArg Prod.snd (Except.ok.inj e)
  exact hk ▸ hs

theorem safe_execCpyaccLd (h : Hdr) (sid : BitVec 4) (d a b : BitVec 8) (s : State) : Safe s (execCpyaccLd h sid d a b s) := by
  refine safe_issue fun i hi => ?_
  refine if_keeps (P := Act.Inv) hi ?_
  split
  next e =>
  extract_lets put old torn
  have hput (bs : List Byte) {s : State} (hs : s.Inv) : (put bs s).Inv := inv_setAccRows hs ..
  have htorn (bs : List Byte) (s : State) (hs : s.Inv) : (torn bs s).Inv := hput _ (inv_mk.2 hs)
  refine inv_transfer hi (pair_inv e (inv_rowFates hi ..)) htorn (fun bs cs k s e hs => ?_) ..
  cases e
  exact hput _ hs

theorem safe_execMend (s : State) : Safe s (execMend s) :=
  safe_streamOp fun hs _ => inv_checkBlockEnd (inv_modSeq (inv_engDone hs ..) ..) _

theorem safe_execMtileMemory (d : BitVec 8) (addr : W64) (s : State) : Safe s (execMtileMemory d addr s) := by
  refine safe_streamOp fun hs w => ?_
  refine inv_ite (inv_engStop hs ..) (inv_ite (inv_engStop hs ..) ?_)
  exact inv_Eng_run (inv_engRead hs ..) (fun _ _ hs => inv_engDone (inv_modBlk hs ..) ..) ..

theorem safe_execMsig (sc : BitVec 3) (d v : BitVec 8) (s : State) : Safe s (execMsig sc d v s) := by
  refine safe_streamOp fun hs w => inv_ite (inv_badWord hs _) ?_
  split
  · exact inv_engStop hs ..
  · exact inv_engDone (inv_modBlk hs ..) ..

theorem safe_execMwait (sc : BitVec 3) (a : BitVec 8) (v : W32) (s : State) : Safe s (execMwait sc a v s) :=
  safe_streamOp fun hs _ => inv_ite (inv_badWord hs _) (inv_ite (inv_engDone hs ..) (inv_checkBlockEnd (inv_modSeq hs ..) _))

theorem safe_execSequencerResume (blk : Nat) (s : State) : Safe s (execSequencerResume blk s) := by
  refine safe_next fun hs => ?_
  split
  · exact hs
  · exact inv_ite (inv_engDone (inv_modSeq hs ..) ..) hs

theorem safe_execBadStreamWord (blk : Nat) (word ext : W64) (s : State) : Safe s (execBadStreamWord blk word ext s) := by
  refine safe_next fun hs => ?_
  split
  · exact hs
  · split
    · exact inv_engStop hs ..
    · exact hs

theorem safe_execMma (ck isat : Bool) (d a b : BitVec 8) (x : MatExt) (s : State) : Safe s (execMma ck isat d a b x s) :=
  safe_streamOp fun hs _ => inv_engChecked hs (inv_reserve hs _) ..

theorem safe_execMmas (d a b c : BitVec 8) (x : MatExt) (s : State) : Safe s (execMmas d a b c x s) :=
  safe_streamOp fun hs _ => inv_engChecked hs (inv_reserve hs _) ..

theorem safe_execMzero (d n : BitVec 8) (s : State) : Safe s (execMzero d n s) :=
  safe_streamOp fun hs _ => inv_engChecked hs (inv_engDone (inv_modBlk hs ..) ..) ..

theorem safe_execMscale (d a : BitVec 8) (m : MScale) (s : State) : Safe s (execMscale d a m s) := by
  refine safe_streamOp fun hs w => ?_
  extract_lets dn an s1 byTile
  have hb (t : BitVec 8) (off : BitVec 12) (pick : Nat → Nat → Nat) : (byTile t off pick).Inv :=
    inv_engChecked hs (inv_Eng_run (inv_engRead (inv_setRpr hs ..) ..) (fun _ _ hs => inv_scaleRun hs ..) ..) ..
  split
  · exact inv_engChecked hs (inv_scaleRun hs ..) ..
  · exact hb ..
  · exact hb ..

theorem safe_execMldacc (d a : BitVec 8) (xr xk : BitVec 12) (s : State) : Safe s (execMldacc d a xr xk s) :=
  safe_streamOp fun hs _ => inv_engChecked hs (inv_ldaccRows (inv_setRpr hs ..) ..) ..

theorem safe_execMchk (a : BitVec 8) (xr xk : BitVec 12) (xn : BitVec 8) (s : State) : Safe s (execMchk a xr xk xn s) :=
  safe_streamOp fun hs _ => inv_engChecked hs (inv_mchkTiles hs ..) ..

theorem safe_execMdrain (sat mx : Bool) (d a b : BitVec 8) (xr xk : BitVec 12) (s : State) : Safe s (execMdrain sat mx d a b xr xk s) :=
  safe_streamOp fun hs _ => inv_engChecked hs (inv_runDrain hs ..) ..

theorem safe_execMatrixPass (quad : Nat) (s : State) : Safe s (execMatrixPass quad s) := by
  refine safe_next fun hs => ?_
  split
  · exact hs
  · split
    · exact inv_runPass (inv_mk.2 (inv_dropHeld hs ..)) _
    · exact hs

/-! ### Quantisation and flags, OPC 0xD1 to 0xD4 -/

theorem safe_execQpk (h : Hdr) (zf : BitVec 3) (d a c : BitVec 8) (s : State) : Safe s (execQpk h zf d a c s) := by
  unfold execQpk
  exact safe_issue fun _ hi => hi

theorem safe_execQunpk (h : Hdr) (zf : BitVec 3) (d a : BitVec 8) (s : State) : Safe s (execQunpk h zf d a s) := by
  unfold execQunpk
  exact safe_issue fun _ hi => hi

theorem safe_execQpkTile (h : Hdr) (zf : BitVec 3) (sid : BitVec 4) (sc : BitVec 3) (d a c : BitVec 8) (s : State) :
    Safe s (execQpkTile h zf sid sc d a c s) := by
  unfold execQpkTile
  extract_lets m
  refine safe_issue fun i hi => ?_
  exact inv_tileTransfer (by exact hi) ..

theorem safe_execQunpkTile (h : Hdr) (zf : BitVec 3) (sid : BitVec 4) (sc : BitVec 3) (ck : Bool) (d a : BitVec 8) (s : State) :
    Safe s (execQunpkTile h zf sid sc ck d a s) := by
  unfold execQunpkTile
  extract_lets m
  exact safe_issue fun i hi => inv_tileTransfer hi ..

theorem safe_execFlrd (h : Hdr) (src : BitVec 2) (clr : Bool) (d : BitVec 8) (s : State) : Safe s (execFlrd h src clr d s) := by
  refine safe_issue fun i hi => ?_
  have hf := inv_settleFlags hi i.w
  dsimp only
  split
  · exact Act.mk_later (inv_ite (inv_modGrp hf ..) hf)
  · exact Act.mk_later (inv_ite (inv_modBlk hf ..) hf)
  · exact Act.mk_later (inv_ite (inv_modGrp hf ..) hf)

theorem safe_execFlclr (h : Hdr) (src : BitVec 2) (mask : BitVec 8) (s : State) : Safe s (execFlclr h src mask s) := by
  refine safe_issue fun i hi => ?_
  have hf := inv_settleFlags hi i.w
  exact Act.mk_done (inv_ite (inv_modGrp hf ..) (inv_modBlk hf ..))

/-! ### Monitors, OPC 0xD8 to 0xDC -/

theorem safe_execMoncfg (h : Hdr) (d a : BitVec 8) (s : State) : Safe s (execMoncfg h d a s) := by
  refine safe_issue fun i hi => inv_withMonitor hi (fun s m hs => ?_) _
  dsimp only
  split
  · exact inv_bad72 hi hs _
  · exact hs
  · exact Act.mk_done (inv_setMonitor hs ..)

theorem safe_execMonref (h : Hdr) (d a b : BitVec 8) (s : State) : Safe s (execMonref h d a b s) :=
  safe_issue fun _ hi => inv_withMonitor hi (fun _ _ hs => if_keeps (P := Act.Inv) (inv_bad72 hi hs _) (Act.mk_done (inv_setMonitor hs ..))) _

theorem safe_execMonclr (h : Hdr) (d : BitVec 8) (s : State) : Safe s (execMonclr h d s) :=
  safe_issue fun _ hi => inv_withMonitor hi (fun _ _ hs => if_keeps (P := Act.Inv) (inv_bad72 hi hs _) (Act.mk_done (inv_setMonitor hs ..))) _

theorem safe_execMonstp (h : Hdr) (d : BitVec 8) (s : State) : Safe s (execMonstp h d s) :=
  safe_issue fun _ hi => inv_withMonitor hi (fun _ _ hs => Act.mk_done (inv_ite (inv_setMonitor hs ..) hs)) _

/-! ### Placement, time slices and restoring -/

theorem safe_execPlacement (launch : Nat) (s : State) : Safe s (execPlacement launch s) := by
  unfold execPlacement
  split
  · exact if_keeps (P := Safe s) (safe_next fun hs => inv_ite (inv_placeLaunch hs ..) hs) safe_same
  · split
    · exact safe_next (inv_preemptFor · ..)
    · exact safe_same

theorem safe_execTimeSliceExpiry (q : Nat) (s : State) : Safe s (execTimeSliceExpiry q s) := by
  unfold execTimeSliceExpiry
  refine if_keeps (P := Safe s) safe_same ?_
  dsimp only
  split
  · exact safe_next fun hs => inv_preemptFor (inv_switchAway hs q) ..
  · exact safe_next fun hs => inv_ite (inv_switchAway hs q) (inv_mk.2 hs)

theorem safe_execBlockRestore (launch : Nat) (s : State) : Safe s (execBlockRestore launch s) := by
  unfold execBlockRestore
  split
  · exact safe_same
  · refine if_keeps (P := Safe s) safe_same (if_keeps (P := Safe s) (if_keeps (P := Safe s) safe_same ?_) ?_)
    · split
      · exact safe_next (inv_restoreAll · ..)
      · exact safe_same
    · split
      · exact safe_next (inv_restoreAll · ..)
      · exact safe_same

theorem safe_execFaultServiceRewalk (ctx : Nat) (s : State) : Safe s (execFaultServiceRewalk ctx s) := by
  unfold execFaultServiceRewalk
  extract_lets now of blk lau que
  exact if_keeps (P := Safe s) safe_same (safe_next fun hs => inv_mk.2 (inv_setCtx hs ..))

/-! ### The March core's packets -/

theorem safe_execNopPacket (q : Nat) (order : Bool) (s : State) : Safe s (execNopPacket q order s) := safe_packet fun _ _ hs => hs

theorem safe_execCopy (q : Nat) (order : Bool) (src dst len ctr add : W64) (s : State) : Safe s (execCopy q order src dst len ctr add s) := by
  unfold execCopy
  extract_lets me c
  refine safe_packet fun s sent hs => ?_
  have hlast (s : State) (hs : s.Inv) :
      (if ctr == 0#64 then PktRes.done s none else addThen s q c ctr add (.signal q false ctr add 6#8) []).Inv :=
    if_keeps (P := PktRes.Inv) hs (inv_addThen hs ..)
  refine if_keeps (P := PktRes.Inv) hs (if_keeps (P := PktRes.Inv) (hlast _ (inv_dropSent hs _)) ?_)
  have hr := inv_readRange hs c src len.toNat sent
  split
  next e => exact inv_failRead (PktRead.inv_fail e hr) ..
  next e => exact PktRead.inv_ask e hr
  next e =>
    have hp := inv_packetRange (PktRead.inv_ok e hr) c dst len.toNat true
    split
    next e => exact inv_failRead (pair_inv e hp) ..
    next e => exact inv_writeThen (pair_inv e hp) hlast ..

theorem safe_execWrite (q : Nat) (order : Bool) (addr : W64) (data : List Byte) (s : State) : Safe s (execWrite q order addr data s) :=
  safe_writePacket fun _ hs => hs

theorem safe_execSignal (q : Nat) (order : Bool) (ctr add : W64) (scope : BitVec 8) (s : State) : Safe s (execSignal q order ctr add scope s) := by
  unfold execSignal
  exact safe_packet fun _ _ hs => inv_addThen hs ..

theorem safe_execWsig (q : Nat) (order : Bool) (addr : W64) (data : List Byte) (ctr add : W64) (s : State) :
    Safe s (execWsig q order addr data ctr add s) := by
  unfold execWsig
  exact safe_writePacket fun _ hs => inv_addThen hs ..

theorem safe_execFencePacket (q : Nat) (order : Bool) (scope : BitVec 8) (s : State) : Safe s (execFencePacket q order scope s) := by
  unfold execFencePacket
  refine safe_packet fun s sent hs => ?_
  split
  · exact if_keeps (P := PktRes.Inv) hs hs
  · exact hs

theorem safe_execTstamp (q : Nat) (order : Bool) (addr : W64) (s : State) : Safe s (execTstamp q order addr s) :=
  if_keeps (P := Safe s) (safe_packet fun _ _ hs => hs) (safe_writePacket fun _ hs => hs)

theorem safe_execWaitc (q : Nat) (order : Bool) (ctr value timeout : W64) (s : State) : Safe s (execWaitc q order ctr value timeout s) :=
  if_keeps (P := Safe s) safe_same (safe_next fun hs => inv_testWaitc (inv_startNext hs ..) ..)

theorem safe_execWaitcTimeout (q : Nat) (s : State) : Safe s (execWaitcTimeout q s) := by
  refine safe_next fun hs => inv_foldl (fun s k hs => ?_) _ hs
  split
  · split
    · split
      · exact inv_ite (inv_stopQueue (inv_modQueue hs ..) ..) hs
      · exact hs
    · exact inv_testWaitc hs ..
  · exact hs

theorem safe_execLaunch (q : Nat) (order : Bool) (record ctr add : W64) (s : State) : Safe s (execLaunch q order record ctr add s) := by
  unfold execLaunch
  extract_lets me x held sent waits others c put
  refine if_keeps (P := Safe s) safe_same ?_
  have hput {s : State} (hs : s.Inv) (new : List Started) : (put s new).Inv := inv_ite (inv_setHeld hs ..) (inv_ite hs (inv_modQueue hs ..))
  have hr (hs : s.Inv) := inv_readRange hs c record 256 sent
  split
  next e =>
    have hw (hs : s.Inv) := inv_packetWaits (PktRead.inv_fail e (hr hs)) q c
    split
    next e => exact safe_next fun hs => hput (Waits.inv_recorded e (hw hs ..)) _
    next => exact safe_next fun hs => hput (PktRead.inv_fail e (hr hs)) _
    next e => exact safe_next fun hs => hput (Waits.inv_stopped e (hw hs ..)) _
  next e => exact safe_next fun hs => inv_stopQueue (hput (PktRead.inv_fail e (hr hs)) _) ..
  next e => exact safe_next fun hs => hput (PktRead.inv_ask e (hr hs)) _
  next t _ e =>
    extract_lets s1
    have h1 (hs : s.Inv) : s1.Inv := inv_dropSent (hput (PktRead.inv_ok e (hr hs)) _) _
    split
    · exact safe_next fun hs => inv_stopQueue (h1 hs) ..
    · refine if_keeps (P := Safe s) (safe_next fun hs => inv_stopQueue (h1 hs) ..) ?_
      split
      · exact safe_next fun hs => inv_preemptFor (inv_pendLaunch (h1 hs) ..) ..
      · exact safe_next fun hs => inv_pendLaunch (h1 hs) ..

/-! ### The host, the security block, boot, power and the debug port -/

theorem safe_execHostMemRead (pa size : Nat) (s : State) : Safe s (execHostMemRead pa size s) :=
  safe_next fun hs => inv_ite (inv_mk.2 hs) hs

theorem safe_execHostMemWrite (pa : Nat) (data : List Byte) (s : State) : Safe s (execHostMemWrite pa data s) :=
  safe_next fun hs => inv_ite (inv_ssetAll hs _) hs

theorem safe_execRegisterWrite (offset : Nat) (data : List Byte) (s : State) : Safe s (execRegisterWrite offset data s) := by
  refine safe_next fun hs => inv_startCommands (inv_putOperands ?_ ..) ..
  refine inv_foldl (fun s c hs => inv_ite (inv_writeCtxReg hs ..) hs) _ ?_
  exact inv_foldl (fun s q hs => inv_ite (inv_writeQueueReg hs ..) hs) _ hs

theorem safe_execQueueWriteIndex (q : Nat) (index : W64) (s : State) : Safe s (execQueueWriteIndex q index s) :=
  safe_next fun hs => inv_ite (inv_modQueue hs ..) hs

theorem safe_execQueueDescriptorWrite (q : Nat) (enable clearStop : Bool) (s : State) :
    Safe s (execQueueDescriptorWrite q enable clearStop s) := safe_next fun hs => inv_ite (inv_modQueue hs ..) hs

theorem safe_execHostPortLinkUp (rate : Nat) (s : State) : Safe s (execHostPortLinkUp rate s) :=
  safe_next fun hs => inv_ite (inv_mk.2 hs) hs

theorem safe_execInvalidationRequest (ctx : Nat) (base len : W64) (s : State) : Safe s (execInvalidationRequest ctx base len s) := by
  unfold execInvalidationRequest
  extract_lets s1
  have h1 (hs : s.Inv) : s1.Inv := inv_putOperands hs ..
  exact if_keeps (P := Safe s) (safe_next fun hs => inv_mk.2 (h1 hs)) (safe_next fun hs => inv_mk.2 (h1 hs))

theorem safe_execPreemptQueue (q : Nat) (s : State) : Safe s (execPreemptQueue q s) := by
  unfold execPreemptQueue
  extract_lets s1 mine
  have h1 (hs : s.Inv) : s1.Inv := inv_hostCommand hs ..
  refine if_keeps (P := Safe s) (safe_next fun hs => inv_mk.2 (h1 hs)) (safe_next fun hs => inv_reportPreempted (inv_mk.2 ?_))
  exact inv_foldl (fun _ _ hs => inv_takeWhole hs _) _ (h1 hs)

theorem safe_execSetPowerLimit (watts : Nat) (s : State) : Safe s (execSetPowerLimit watts s) := by
  unfold execSetPowerLimit
  extract_lets s1
  have h1 (hs : s.Inv) : s1.Inv := inv_hostCommand hs ..
  exact safe_next fun hs => inv_ite (inv_mk.2 (h1 hs)) (inv_mk.2 (h1 hs))

theorem safe_execDestroyContext (ctx : Nat) (s : State) : Safe s (execDestroyContext ctx s) := by
  unfold execDestroyContext
  extract_lets s1 used
  have h1 (hs : s.Inv) : s1.Inv := inv_hostCommand hs ..
  exact if_keeps (P := Safe s) (safe_next fun hs => inv_mk.2 (h1 hs)) (safe_next fun hs => inv_mk.2 (inv_setCtx (h1 hs) ..))

theorem safe_execKeygen (ctx : Nat) (s : State) : Safe s (execKeygen ctx s) := by
  unfold execKeygen
  extract_lets s1
  have h1 (hs : s.Inv) : s1.Inv := inv_mailCommand hs ..
  refine if_keeps (P := Safe s) (safe_next h1) (if_keeps (P := Safe s) (safe_next fun hs => inv_mk.2 (h1 hs)) ?_)
  exact safe_next fun hs => inv_mk.2 (inv_setCtx (h1 hs) ..)

theorem safe_execTag (ctx : Nat) (base : W64) (count : Nat) (desc table : W64) (s : State) : Safe s (execTag ctx base count desc table s) := by
  unfold execTag
  extract_lets s1
  have h1 (hs : s.Inv) : s1.Inv := inv_mailCommand hs ..
  refine if_keeps (P := Safe s) (safe_next h1) ?_
  split
  · exact safe_next fun hs => inv_mk.2 (h1 hs)
  · have h2 (hs : s.Inv) := inv_wholeRead (h1 hs) ctx desc 64
    split
    next e => exact safe_next fun hs => inv_mk.2 (pair_inv e (h2 hs))
    next e =>
      have h3 (hs : s.Inv) := inv_wholeRead (pair_inv e (h2 hs)) ctx base (128 * count)
      split
      next e => exact safe_next fun hs => inv_mk.2 (pair_inv e (h3 hs))
      next e => exact safe_next fun hs => inv_mk.2 (inv_wholeWrite (pair_inv e (h3 hs)) ..)

theorem safe_execAttest (ctx : Nat) (nonce report : W64) (s : State) : Safe s (execAttest ctx nonce report s) := by
  unfold execAttest
  extract_lets s1
  have h1 (hs : s.Inv) : s1.Inv := inv_mailCommand hs ..
  refine if_keeps (P := Safe s) (safe_next h1) ?_
  have h2 (hs : s.Inv) := inv_wholeRead (h1 hs) ctx nonce 32
  split
  next e => exact safe_next fun hs => inv_mk.2 (pair_inv e (h2 hs))
  next e => exact safe_next fun hs => inv_mk.2 (inv_wholeWrite (pair_inv e (h2 hs)) ..)

theorem safe_execReset (stages : List Firmware) (s : State) : Safe s (execReset stages s) :=
  safe_next fun hs => ⟨swf_filter hs.1 _, swf_filter hs.2 _⟩

theorem safe_execHbmTrainingComplete (s : State) : Safe s (execHbmTrainingComplete s) :=
  if_keeps (P := Safe s) safe_same (safe_next fun hs => ⟨swf_filter hs.1 _, swf_filter hs.2 _⟩)

theorem safe_execPowerAdjust (island : Nat) (lowered : Bool) (s : State) : Safe s (execPowerAdjust island lowered s) :=
  if_keeps (P := Safe s) safe_same (if_keeps (P := Safe s) (safe_next fun hs => hs) (safe_next fun hs => hs))

theorem safe_execHbmScrub (pa : Nat) (s : State) : Safe s (execHbmScrub pa s) := safe_next fun hs => inv_ite (inv_mk.2 hs) hs

theorem safe_execStepRequest (r : GRef) (s : State) : Safe s (execStepRequest r s) := by
  refine safe_next fun hs => ?_
  split
  · exact inv_ite hs (inv_mk.2 hs)
  · exact hs

theorem safe_execDebuggerResume (r : GRef) (focus : Option Nat) (s : State) : Safe s (execDebuggerResume r focus s) :=
  safe_next fun hs => inv_modGrp (inv_mk.2 hs) ..

theorem safe_execMarker (link : OnLink) (s : State) : Safe s (execMarker link s) := by
  refine if_keeps (P := Safe s) safe_same (safe_next fun hs => inv_overLink hs (fun s hs => ?_) _)
  exact inv_endHarvest (inv_saveHarvest (inv_mk.2 (inv_startHarvest hs)))

theorem safe_execTriggerMessage (n : Nat) (origin : Origin) (tick : W64) (s : State) : Safe s (execTriggerMessage n origin tick s) := by
  refine safe_next fun hs => ?_
  split
  · exact inv_controlFlit hs (fun _ hs => inv_triggerActs hs ..) ..
  · exact inv_triggerActs hs ..

/-! ### The fabric -/

theorem safe_execPellorRequest (m : MsgHdr) (op : RemoteOp) (s : State) : Safe s (execPellorRequest m op s) :=
  safe_next fun hs => inv_ite hs (inv_receive hs ..)

theorem safe_execPellorResponse (m : MsgHdr) (data : List Byte) (s : State) : Safe s (execPellorResponse m data s) :=
  safe_next fun hs => inv_ite hs (inv_receive hs ..)

theorem safe_execPermitReturn (link : OnLink) (vc n : Nat) (s : State) : Safe s (execPermitReturn link vc n s) :=
  safe_next fun hs => inv_controlFlit hs (fun _ hs => inv_ite (inv_transmit (inv_mk.2 hs)) hs) ..

theorem safe_execPodConfiguration (own : Nat) (devices : List Nat) (tick : W64) (s : State) : Safe s (execPodConfiguration own devices tick s) :=
  if_keeps (P := Safe s) (safe_next fun hs => hs) safe_same

theorem safe_execSwitchChunkTimeout (dst : W64) (set : Nat) (s : State) : Safe s (execSwitchChunkTimeout dst set s) :=
  safe_next fun hs => inv_ite hs (inv_mk.2 hs)

theorem safe_execReductionAbort (dst : W64) (set : SetOn) (sources : List (List Byte)) (s : State) :
    Safe s (execReductionAbort dst set sources s) := safe_next fun hs => inv_controlFlit hs (fun _ hs => inv_abortChunk hs ..) ..

/-! ### Selects and predicates -/

theorem safe_execSel (h : Hdr) (x : Alu) (s : State) : Safe s (execSel h x s) := by
  unfold execSel
  exact safe_regOp

theorem safe_execSetp (h : Hdr) (x : SetpForm) (s : State) : Safe s (execSetp h x s) := by
  unfold execSetp
  exact safe_issue fun _ hi => hi

theorem safe_execV2p (h : Hdr) (u : Bool) (mask : BitVec 7) (a : BitVec 8) (s : State) : Safe s (execV2p h u mask a s) := by
  unfold execV2p
  exact safe_issue fun _ hi => hi

/-! ### Special registers, OPC 0xE8 and 0xE9 -/

theorem safe_execRdsr (h : Hdr) (ud : Bool) (num d : BitVec 8) (s : State) : Safe s (execRdsr h ud num d s) := by
  unfold execRdsr
  exact safe_issue fun _ hi => hi

theorem safe_execWrsr (h : Hdr) (num a : BitVec 8) (s : State) : Safe s (execWrsr h num a s) := by
  unfold execWrsr
  extract_lets w
  refine safe_issue fun i hi => ?_
  exact if_keeps (P := Act.Inv) (if_keeps (P := Act.Inv) hi (inv_setCtx (inv_modBlk hi ..) ..)) (inv_writeSpecial hi ..)

/-! ### Traps, results in flight and register allocation, OPC 0xE0 to 0xE6, 0xEA and 0xEB -/

theorem safe_execEmulatedEncoding (h : Hdr) (cause : BitVec 8) (raw ext : W64) (long uniform : Bool) (s : State) :
    Safe s (execEmulatedEncoding h cause raw ext long uniform s) := safe_issue fun _ hi => inv_enterHandler hi ..

theorem safe_execDeliveredCauseEntry (r : GRef) (s : State) : Safe s (execDeliveredCauseEntry r s) := by
  unfold execDeliveredCauseEntry
  split
  · exact safe_same
  · split
    · exact safe_same
    · refine if_keeps (P := Safe s) (safe_next (inv_passCauses · _)) (if_keeps (P := Safe s) safe_same ?_)
      exact safe_next fun hs => inv_enterHandler (inv_modGrp (inv_unparkAll hs _) ..) ..

theorem safe_execResultArrival (r : GRef) (k : Nat) (s : State) : Safe s (execResultArrival r k s) := by
  unfold execResultArrival
  split
  · exact safe_same
  · split
    · exact safe_same
    · exact safe_next fun hs => inv_ite (inv_writeCompletion (inv_modGrp hs ..) ..) (inv_modGrp hs ..)

theorem safe_execTrapKill (h : Hdr) (code : BitVec 8) (s : State) : Safe s (execTrapKill h code s) := by
  refine safe_issue fun i hi => ?_
  split
  · exact if_keeps (P := Act.Inv) (inv_terminate hi ..) (inv_terminateWith hi ..)
  · exact inv_terminateWith hi ..

theorem safe_execBkpt (h : Hdr) (n : BitVec 8) (s : State) : Safe s (execBkpt h n s) :=
  safe_issue fun _ hi => if_keeps (P := Act.Inv) (if_keeps (P := Act.Inv) hi (inv_modGrp hi ..)) hi

theorem safe_execEwrd (h : Hdr) (kind : BitVec 4) (nw : BitVec 2) (d a : BitVec 8) (s : State) : Safe s (execEwrd h kind nw d a s) := by
  unfold execEwrd
  extract_lets e
  refine safe_issue fun i hi => ?_
  split
  · exact hi
  · split
    · exact hi
    · exact Act.mk_later (inv_settleSel hi ..)

theorem safe_execEwwr (h : Hdr) (kind : BitVec 4) (nw : BitVec 2) (a b : BitVec 8) (s : State) : Safe s (execEwwr h kind nw a b s) := by
  unfold execEwwr
  extract_lets e
  refine safe_issue fun i hi => ?_
  split
  · exact hi
  · split
    · exact hi
    · exact if_keeps (P := Act.Inv) hi (Act.mk_done (inv_ewPut (inv_settleSel hi ..) ..))

theorem safe_execTrig (h : Hdr) (sc : BitVec 3) (n : BitVec 8) (s : State) : Safe s (execTrig h sc n s) :=
  safe_issue fun _ hi => Act.mk_done (inv_ite (inv_sendTrigger (inv_mk.2 hi) _) (inv_mk.2 hi))

theorem safe_execGrow (h : Hdr) (imm : Bool) (d b : BitVec 8) (s : State) : Safe s (execGrow h imm d b s) := by
  refine safe_issue fun i hi => ?_
  exact if_keeps (P := Act.Inv) (inv_countResult hi _) (if_keeps (P := Act.Inv) hi (Act.mk_again (inv_grantFrom (inv_mk.2 hi) ..)))

theorem safe_execShrink (h : Hdr) (imm : Bool) (d b : BitVec 8) (s : State) : Safe s (execShrink h imm d b s) := by
  refine safe_issue fun i hi => if_keeps (P := Act.Inv) (inv_countResult hi _) (if_keeps (P := Act.Inv) hi ?_)
  exact Act.mk_later (inv_grantFrom (inv_modGrp (inv_dropGrans hi ..) ..) ..)

/-! ### Every instruction and event -/

/-- Every arm of the dispatch is safe. -/
theorem safe_exec (i : Instr) (s : State) : Safe s (exec i s) := by
  cases i <;> simp only [exec]
  case nop | yield | plop | vote | pft | fetchb | trap => exact safe_issue fun _ hi => hi
  case iadd | isub | imul | imulh | imin | imax => exact safe_int2
  case imad | imadw | iabs | ineg | bfx | bfi | lea | mov | ffma | fmin | fmax | frnd | fcls | dfma | dmin | dmax | hadd2 | hmul2 | hfma2 | rng => exact safe_aluOp
  case and | or | xor | andn | shl | shr | sar | rotl => exact safe_bits2
  case not | clz | ctz | popc | brev => exact safe_bits1
  case movi | p2v | shfl | match_ => exact safe_regOp
  case fadd | fsub | fmul => exact safe_float2
  case frcp | frsq | fsqrt | fex2 | flg2 | fsin | fcos => exact safe_specialOp
  case dadd | dmul => exact safe_double2
  case cvt | cvtsr => exact safe_cvtOp
  case ballot | redux | v2s => exact safe_oneResult
  case ldw | ldcn | stf | ste | feget | feset => exact safe_feOp
  case monrdC | monrdP | monrdSt => exact safe_readMonitor
  case eret | eretx => exact safe_returnOp
  case scanReadout => exact safe_same
  case islandPoweredUp => exact safe_next fun hs => inv_mk.2 hs
  case blk => exact safe_execBlk ..
  case want => exact safe_execWant ..
  case wantv => exact safe_execWantv ..
  case call => exact safe_execCall ..
  case callv => exact safe_execCallv ..
  case ret => exact safe_execRet ..
  case exit => exact safe_execExit ..
  case sel => exact safe_execSel ..
  case setp => exact safe_execSetp ..
  case v2p => exact safe_execV2p ..
  case ld => exact safe_execLd ..
  case st => exact safe_execSt ..
  case ldu => exact safe_execLdu ..
  case atom => exact safe_execAtom ..
  case red => exact safe_execRed ..
  case cas => exact safe_execCas ..
  case cadd => exact safe_execCadd ..
  case mst => exact safe_execMst ..
  case cpy => exact safe_execCpy ..
  case cpyg => exact safe_execCpyg ..
  case cpyr => exact safe_execCpyr ..
  case wcond => exact safe_execWcond ..
  case wait => exact safe_execWait ..
  case bar => exact safe_execBar ..
  case bara => exact safe_execBara ..
  case sig => exact safe_execSig ..
  case fence => exact safe_execFence ..
  case fencex => exact safe_execFencex ..
  case tfetch => exact safe_execTfetch ..
  case mstart => exact safe_execMstart ..
  case mstartResume => exact safe_execMstartResume ..
  case mstartRetry => exact safe_execMstartRetry ..
  case mend => exact safe_execMend ..
  case mtile => exact safe_execMtile ..
  case mtileMemory => exact safe_execMtileMemory ..
  case mma => exact safe_execMma ..
  case mmas => exact safe_execMmas ..
  case mzero => exact safe_execMzero ..
  case mscale => exact safe_execMscale ..
  case mdrain => exact safe_execMdrain ..
  case mldacc => exact safe_execMldacc ..
  case cpyaccRd => exact safe_execCpyaccRd ..
  case cpyaccWr => exact safe_execCpyaccWr ..
  case cpyaccSt => exact safe_execCpyaccSt ..
  case cpyaccLd => exact safe_execCpyaccLd ..
  case msig => exact safe_execMsig ..
  case mwait => exact safe_execMwait ..
  case mchk => exact safe_execMchk ..
  case qpk => exact safe_execQpk ..
  case qpkTile => exact safe_execQpkTile ..
  case qunpk => exact safe_execQunpk ..
  case qunpkTile => exact safe_execQunpkTile ..
  case flrd => exact safe_execFlrd ..
  case flclr => exact safe_execFlclr ..
  case moncfg => exact safe_execMoncfg ..
  case monref => exact safe_execMonref ..
  case monclr => exact safe_execMonclr ..
  case monstp => exact safe_execMonstp ..
  case trapKill => exact safe_execTrapKill ..
  case bkpt => exact safe_execBkpt ..
  case ewrd => exact safe_execEwrd ..
  case ewwr => exact safe_execEwwr ..
  case trig => exact safe_execTrig ..
  case rdsr => exact safe_execRdsr ..
  case wrsr => exact safe_execWrsr ..
  case grow => exact safe_execGrow ..
  case shrink => exact safe_execShrink ..
  case emulatedEncoding => exact safe_execEmulatedEncoding ..
  case deliveredCauseEntry => exact safe_execDeliveredCauseEntry ..
  case resultArrival => exact safe_execResultArrival ..
  case census => exact safe_execCensus ..
  case sweepEnd => exact safe_execSweepEnd ..
  case remoteParkDelay => exact safe_execRemoteParkDelay ..
  case sideLogReplay => exact safe_execSideLogReplay ..
  case copyRetire => exact safe_execCopyRetire ..
  case copyAbort => exact safe_execCopyAbort ..
  case waitRetest => exact safe_execWaitRetest ..
  case waitTimeout => exact safe_execWaitTimeout ..
  case waitRemotePoll => exact safe_execWaitRemotePoll ..
  case faultServiceRewalk => exact safe_execFaultServiceRewalk ..
  case codeLineFill => exact safe_execCodeLineFill ..
  case matrixPass => exact safe_execMatrixPass ..
  case sequencerResume => exact safe_execSequencerResume ..
  case tileCommit => exact safe_execTileCommit ..
  case placement => exact safe_execPlacement ..
  case timeSliceExpiry => exact safe_execTimeSliceExpiry ..
  case blockRestore => exact safe_execBlockRestore ..
  case nopPacket => exact safe_execNopPacket ..
  case launch => exact safe_execLaunch ..
  case copy => exact safe_execCopy ..
  case write => exact safe_execWrite ..
  case signal => exact safe_execSignal ..
  case waitc => exact safe_execWaitc ..
  case waitcTimeout => exact safe_execWaitcTimeout ..
  case wsig => exact safe_execWsig ..
  case fencePacket => exact safe_execFencePacket ..
  case tstamp => exact safe_execTstamp ..
  case queueWriteIndex => exact safe_execQueueWriteIndex ..
  case hostMemRead => exact safe_execHostMemRead ..
  case hostMemWrite => exact safe_execHostMemWrite ..
  case invalidationRequest => exact safe_execInvalidationRequest ..
  case preemptQueue => exact safe_execPreemptQueue ..
  case setPowerLimit => exact safe_execSetPowerLimit ..
  case destroyContext => exact safe_execDestroyContext ..
  case keygen => exact safe_execKeygen ..
  case tag => exact safe_execTag ..
  case attest => exact safe_execAttest ..
  case registerWrite => exact safe_execRegisterWrite ..
  case pellorRequest => exact safe_execPellorRequest ..
  case pellorResponse => exact safe_execPellorResponse ..
  case permitReturn => exact safe_execPermitReturn ..
  case marker => exact safe_execMarker ..
  case triggerMessage => exact safe_execTriggerMessage ..
  case reductionAbort => exact safe_execReductionAbort ..
  case switchChunkTimeout => exact safe_execSwitchChunkTimeout ..
  case reset => exact safe_execReset ..
  case hbmTrainingComplete => exact safe_execHbmTrainingComplete ..
  case powerAdjust => exact safe_execPowerAdjust ..
  case hbmScrub => exact safe_execHbmScrub ..
  case stepRequest => exact safe_execStepRequest ..
  case queueDescriptorWrite => exact safe_execQueueDescriptorWrite ..
  case debuggerResume => exact safe_execDebuggerResume ..
  case badStreamWord => exact safe_execBadStreamWord ..
  case podConfiguration => exact safe_execPodConfiguration ..
  case hostPortLinkUp => exact safe_execHostPortLinkUp ..

/-! ### Every step -/

theorem inv_nextOf {s : State} (h : s.Inv) (t : Turn) : (nextOf s t).Inv := by
  cases t with
  | group r => exact inv_groupTurn h r
  | sequencer b => exact inv_sequencerTurn h b
  | march q => exact inv_marchTurn h q
  | event i => exact h

/-- What comes before an instruction's meaning keeps the form: the upkeep, the choice of a turn, and the turn itself. -/
theorem inv_nextMove {s : State} (h : s.Inv) : (nextMove s).Inv := by
  unfold nextMove
  have hu : (if s.frozen then s else upkeep s).Inv := inv_ite h (inv_upkeep h)
  split
  next e =>
  have hc := inv_chooseTurn hu
  rw [e] at hc
  dsimp only
  split
  · exact inv_mk.2 hc
  · exact if_keeps (P := Next.Inv) (inv_mk.2 hc) (inv_nextOf (inv_mk.2 hc) _)

theorem inv_step {s : State} (h : s.Inv) : outcomeInv (step s) := by
  have hm := inv_nextMove h
  unfold step
  split
  next e =>
    rw [e] at hm
    exact (safe_exec _ _).inv hm
  next e =>
    rw [e] at hm
    exact hm

/-- Settles O54: every arm of the dispatch is safe. -/
theorem nothingStops : Obligations.NothingStops := fun i s => (safe_exec i s).next

/-- Settles O57: the turn is found in a state of the form, and every arm of the dispatch is safe in it. -/
theorem stepKeepsInv : Obligations.StepKeepsInv := by
  intro s t hs e
  have h := inv_step hs
  rw [e] at h
  exact h

end Sys2Proof.Machine
end

section
/-! Links and messages (R142, R343 to R345): the rules of the operations that the events of the pod share (a change of one link,
flits that fail on their links, what is posted to other devices, a message that arrives), and what a request or a response comes to. -/
namespace Sys2Proof.Machine

/-! ### One entry of a vector -/

theorem getElem_vmod {α : Type} {n : Nat} (v : Vector α n) (k : Nat) (f : α → α) {j : Nat} (hj : j < n) :
    (vmod v k f)[j] = if j = k then f v[j] else v[j] := by
  simp [vmod]

theorem getElem?_vmod {α : Type} {n : Nat} (v : Vector α n) (k : Nat) (f : α → α) (j : Nat) :
    (vmod v k f)[j]? = if j = k then v[j]?.map f else v[j]? := by
  by_cases hj : j < n
  · rw [Vector.getElem?_eq_getElem hj, Vector.getElem?_eq_getElem hj, getElem_vmod]
    split <;> rfl
  · rw [Vector.getElem?_eq_none (by omega), Vector.getElem?_eq_none (by omega)]
    split <;> rfl

theorem vmod_eq_set {α : Type} {n : Nat} (v : Vector α n) {k : Nat} (hk : k < n) (f : α → α) :
    vmod v k f = v.set k (f v[k]) := by
  ext j hj
  rw [getElem_vmod, Vector.getElem_set]
  by_cases h : j = k
  · subst h; simp
  · simp [h, Ne.symm h]

theorem vmod_vmod {α : Type} {n : Nat} (v : Vector α n) (k : Nat) (f f' : α → α) :
    vmod (vmod v k f) k f' = vmod v k fun x => f' (f x) := by
  ext j hj
  simp only [getElem_vmod]
  split <;> rfl

/-! ### Flits that fail on a link (R343) -/

theorem tried_of_lt {n : Nat} (h : n < 16) (l : Link) : l.tried n = { l with retries := n } := if_neg (by omega)

theorem tried_of_le {n : Nat} (h : 16 ≤ n) (l : Link) : l.tried n = { l with retired := true, retries := 16 } := if_pos h

theorem tried_retired (l : Link) (n : Nat) : (l.tried n).retired = (l.retired || decide (16 ≤ n)) := by
  by_cases h : 16 ≤ n
  · simp [tried_of_le h, h]
  · simp [tried_of_lt (Nat.lt_of_not_le h), h]

/-- The links after some flits have been tried on them. -/
def triedLinks (ls : Vector Link 32) (ways : List (Nat × Nat)) : Vector Link 32 :=
  ways.foldl (fun ls e => vmod ls e.1 fun l => l.tried e.2) ls

theorem triedLinks_cons (ls : Vector Link 32) (e : Nat × Nat) (ways : List (Nat × Nat)) :
    triedLinks ls (e :: ways) = triedLinks (vmod ls e.1 fun l => l.tried e.2) ways := by
  rw [triedLinks, List.foldl_cons, triedLinks]

theorem foldl_triedOn (s : State) (ways : List (Nat × Nat)) :
    ways.foldl triedOn s = { s with links := triedLinks s.links ways } := by
  induction ways generalizing s with
  | nil => rfl
  | cons e ways ih => rw [List.foldl_cons, ih, triedLinks_cons, triedOn]

theorem triedLinks_untouched {ways : List (Nat × Nat)} (ls : Vector Link 32) {k : Nat} (hk : k < 32)
    (h : ∀ e ∈ ways, e.1 ≠ k) : (triedLinks ls ways)[k] = ls[k] := by
  induction ways generalizing ls with
  | nil => rfl
  | cons e ways ih =>
    rw [triedLinks_cons, ih _ fun x hx => h x (by simp [hx]), getElem_vmod, if_neg (h e (by simp)).symm]

/-- A link is retired once it was, or once a flit has failed 16 times in a row on it. -/
theorem triedLinks_retired (ways : List (Nat × Nat)) (ls : Vector Link 32) {k : Nat} (hk : k < 32) :
    (triedLinks ls ways)[k].retired = true ↔ ls[k].retired = true ∨ ∃ e ∈ ways, e.1 = k ∧ 16 ≤ e.2 := by
  induction ways generalizing ls with
  | nil => simp [triedLinks]
  | cons e ways ih =>
    rw [triedLinks_cons, ih, getElem_vmod]
    by_cases hek : k = e.1
    · simp [hek, tried_retired, or_assoc]
    · simp [hek, Ne.symm hek]

/-! ### What goes out to other devices (R343 to R345, R354) -/

/-- A message without the places that its flits have taken on the links. -/
def OutMsg.bare (m : OutMsg) : OutMsg := { m with flits := [] }

/-- What takes no permit and no number of a flow (log 17). -/
def OutBody.isControl : OutBody → Bool
  | .request _ | .response _ => false
  | .marker _ | .trigger .. | .permits .. => true

theorem sendOn_control (s : State) (dev : Nat) (vc : BitVec 2) {body : OutBody} (hb : body.isControl = true) (wait : Bool) :
    ∃ flits links, (sendOn s dev vc body wait).1 =
      { s with fresh := s.fresh + 1, links := links, outbox := s.outbox ++
        [{ id := s.fresh, dst := dev, vc := vc, seq := 0, body := body, flits := flits, wait := wait }] } := by
  cases body with
  | request _ => cases hb
  | response _ => cases hb
  | marker _ => exact ⟨_, _, rfl⟩
  | trigger _ _ => exact ⟨_, _, rfl⟩
  | permits _ _ _ => exact ⟨_, _, rfl⟩

/-- Control messages posted one after another: each stands in the outbox, in order, and of the rest only the links and the counter
of free values change. -/
theorem foldl_sendOn_control {α : Type} (dst : α → Nat) (body : Nat → α → OutBody) (hb : ∀ t x, (body t x).isControl = true)
    (xs : List α) (s : State) : ∃ posted ids fresh links,
      xs.foldl (fun s x => (sendOn s (dst x) 0 (body s.tick x) false).1) s =
        { s with fresh := fresh, links := links, outbox := s.outbox ++ posted }
      ∧ ids.length = xs.length
      ∧ posted.map OutMsg.bare = (xs.zip ids).map fun x =>
        { id := x.2, dst := dst x.1, vc := 0, seq := 0, body := body s.tick x.1, flits := [], wait := false } := by
  induction xs generalizing s with
  | nil => exact ⟨[], [], s.fresh, s.links, by simp, rfl, rfl⟩
  | cons x xs ih =>
    obtain ⟨flits, links, hx⟩ := sendOn_control s (dst x) 0 (hb s.tick x) false
    obtain ⟨posted, ids, fresh, links', hxs, hlen, hbare⟩ := ih (sendOn s (dst x) 0 (body s.tick x) false).1
    rw [hx] at hxs hbare
    refine ⟨{ id := s.fresh, dst := dst x, vc := 0, seq := 0, body := body s.tick x, flits := flits, wait := false } :: posted,
      s.fresh :: ids, fresh, links', ?_, by simp [hlen], ?_⟩
    · rw [List.foldl_cons, hx, hxs]
      simp
    · rw [List.map_cons, hbare]
      rfl

theorem sendFlits_bare (m : OutMsg) (fuel : Nat) (ls : Vector Link 32) : (sendFlits m fuel ls).1.bare = m.bare := by
  induction fuel generalizing m ls with
  | zero => rfl
  | succ fuel ih =>
    unfold sendFlits
    split
    · rfl
    · split
      · exact ih ..
      · rfl

theorem transmitFrom_bare (ms : List OutMsg) (ls : Vector Link 32) (full : List Nat) :
    (transmitFrom ls full ms).1.map OutMsg.bare = ms.map OutMsg.bare := by
  induction ms generalizing ls full with
  | nil => rfl
  | cons m ms ih =>
    unfold transmitFrom
    dsimp only
    split
    · simp [ih]
    · simp [ih, sendFlits_bare]

/-- A response joins its flow and the outbox, whose messages may find permits on the way. -/
theorem sendOn_response (s : State) (dev : Nat) (vc : BitVec 2) (data : List Byte) (wait : Bool) :
    ∃ outbox seq fresh flows links, (sendOn s dev vc (.response data) wait).1 =
        { s with fresh := fresh, flows := flows, outbox := outbox, links := links }
      ∧ outbox.map OutMsg.bare = s.outbox.map OutMsg.bare ++
        [{ id := s.fresh, dst := dev, vc := vc, seq := seq, body := .response data, flits := [], wait := wait }] :=
  ⟨_, _, _, _, _, rfl, (transmitFrom_bare ..).trans List.map_append⟩

/-! ### No permit left (R344) -/

/-- No link has a permit of any channel to give. -/
def NoPermits (ls : Vector Link 32) : Prop := ∀ l ∈ ls.toList, l.retired = true ∨ l.permits = Vector.replicate 4 0

theorem openLinks_noPermits {ls : Vector Link 32} (h : NoPermits ls) (vc : Nat) : openLinks (some vc) ls = [] := by
  unfold openLinks
  rw [List.filter_eq_nil_iff]
  intro k hk
  have hk : k < 32 := List.mem_range.1 hk
  rw [Vector.getElem?_eq_getElem hk]
  obtain hr | hp := h ls[k] (by simp)
  · simp [hr]
  · simp only [hp, Vector.getElem?_replicate]
    split <;> simp

theorem sendFlits_noPermits {ls : Vector Link 32} (h : NoPermits ls) (m : OutMsg) (fuel : Nat) :
    sendFlits m fuel ls = (m, ls) := by
  cases fuel with
  | zero => rfl
  | succ fuel =>
    unfold sendFlits
    split
    · rfl
    · simp [sendFlit, openLinks_noPermits h, flitRoute]

theorem transmitFrom_noPermits {ls : Vector Link 32} (h : NoPermits ls) (ms : List OutMsg) (full : List Nat) :
    transmitFrom ls full ms = (ms, ls) := by
  induction ms generalizing full with
  | nil => rfl
  | cons m ms ih =>
    unfold transmitFrom
    simp [sendFlits_noPermits h, ih]

/-! ### A message that arrives (R142, R343 to R345) -/

/-- A message that has got through comes to its flow: it is presented where it is next, and kept where it is ahead. -/
def joinFlow (s : State) (m : MsgHdr) (body : OutBody) : State :=
  let flow := flowOf m
  let next := sget 0 s.inFlows flow
  if m.seq == next then
    presentNext flow s.early.length (present { s with inFlows := sset 0 s.inFlows flow ((next + 1) % 2 ^ 16) } m body)
  else if (m.seq + 2 ^ 16 - next) % 2 ^ 16 < 2 ^ 15 && !(s.early.any fun e => flowOf e.hdr == flow && e.hdr.seq == m.seq) then
    { s with early := s.early ++ [{ hdr := m, body := body }] }
  else s

theorem receive_eq (s : State) (m : MsgHdr) (body : OutBody) (kind : Nat) :
    receive s m body kind =
      let t : State := { s with links := triedLinks s.links (flitWays m) }
      if (flitWays m).any fun e => e.2 ≥ 16 then t
      else joinFlow (m.flits.foldl (fun s k => (sendOn s m.src 0 (.permits k m.vc.toNat 1) false).1)
        { recordFlits t m kind with fresh := t.fresh + 1 }) m body := by
  unfold receive
  rw [foldl_triedOn]
  rfl

theorem recordFlits_noHarvest {s : State} (h : s.harvest = false) (m : MsgHdr) (kind : Nat) : recordFlits s m kind = s := by
  unfold recordFlits
  induction m.flits.zipIdx with
  | nil => rfl
  | cons e es ih =>
    rw [List.foldl_cons]
    cases s.links[e.1]? <;> simpa [h] using ih

/-- The message that gives back a flit's permit on its link, under its number. -/
def permitBack (m : MsgHdr) (x : Nat × Nat) : OutMsg :=
  { id := x.2, dst := m.src, vc := 0, seq := 0, body := .permits x.1 m.vc.toNat 1, flits := [], wait := false }

/-- The messages that give back a permit for each flit of a message. -/
def PermitsBack (m : MsgHdr) (posted : List OutMsg) : Prop :=
  ∃ ids : List Nat, ids.length = m.flits.length ∧ posted.map OutMsg.bare = (m.flits.zip ids).map (permitBack m)

/-- A message none of whose flits has failed 16 times in a row gives its permits back and comes to its flow. -/
theorem receive_through {s : State} (hh : s.harvest = false) {m : MsgHdr} (hm : ∀ x ∈ flitWays m, x.2 < 16) (body : OutBody)
    (kind : Nat) : ∃ posted fresh links, PermitsBack m posted ∧
      receive s m body kind = joinFlow { s with fresh := fresh, links := links, outbox := s.outbox ++ posted } m body := by
  have hfails : ((flitWays m).any fun e => decide (e.2 ≥ 16)) = false := by
    simpa [List.any_eq_false] using fun a b h => hm (a, b) h
  let t : State := { s with links := triedLinks s.links (flitWays m), fresh := s.fresh + 1 }
  obtain ⟨posted, ids, fresh, links, hfold, hlen, hbare⟩ :=
    foldl_sendOn_control (fun _ => m.src) (fun _ k => .permits k m.vc.toNat 1) (fun _ _ => rfl) m.flits t
  refine ⟨posted, fresh, links, ⟨ids, hlen, hbare⟩, ?_⟩
  rw [receive_eq, hfails]
  dsimp only
  rw [recordFlits_noHarvest (s := { s with links := triedLinks s.links (flitWays m) }) hh]
  exact congrArg (joinFlow · m body) hfold

/-- A message that is lost only counts the tries of its flits. -/
theorem receive_lost (s : State) {m : MsgHdr} (hm : ¬ ∀ x ∈ flitWays m, x.2 < 16) (body : OutBody) (kind : Nat) :
    receive s m body kind = { s with links := triedLinks s.links (flitWays m) } := by
  have hfails : ((flitWays m).any fun e => decide (e.2 ≥ 16)) = true := by
    simpa [List.any_eq_true] using hm
  rw [receive_eq, hfails]
  rfl

theorem joinFlow_next {s : State} {m : MsgHdr} (he : s.early = []) (hn : m.seq = sget 0 s.inFlows (flowOf m)) (body : OutBody) :
    joinFlow s m body = present { s with inFlows := sset 0 s.inFlows (flowOf m) ((m.seq + 1) % 2 ^ 16) } m body := by
  simp [joinFlow, he, ← hn, presentNext]

theorem joinFlow_ahead {s : State} {m : MsgHdr} (he : s.early = []) (hn : m.seq ≠ sget 0 s.inFlows (flowOf m))
    (hd : (m.seq + 2 ^ 16 - sget 0 s.inFlows (flowOf m)) % 2 ^ 16 < 2 ^ 15) (body : OutBody) :
    joinFlow s m body = { s with early := [{ hdr := m, body := body }] } := by
  unfold joinFlow
  rw [if_neg (by simpa using hn), he, if_pos (by simpa using hd)]
  rfl

theorem exec_pellorRequest_here {s : State} {m : MsgHdr} (hd : m.dst = s.device) (op : RemoteOp) :
    exec (.pellorRequest m op) s = .next (receive s m (.request op) 0) := by
  rw [exec, execPellorRequest, if_neg (by simpa using hd)]

theorem exec_pellorResponse_here {s : State} {m : MsgHdr} (hd : m.dst = s.device) (data : List Byte) :
    exec (.pellorResponse m data) s = .next (receive s m (.response data) 1) := by
  rw [exec, execPellorResponse, if_neg (by simpa using hd)]

/-- A request does this to memory and is answered so, whatever stands in the outbox and on the links. -/
def Serves (s : State) (op : RemoteOp) (mem : Memory) (data : List Byte) : Prop := ∀ fresh links outbox inFlows,
  serveRequest { s with fresh := fresh, links := links, outbox := outbox, inFlows := inFlows } op =
    ({ s with fresh := fresh, links := links, outbox := outbox, inFlows := inFlows, mem := mem }, data)

theorem serves_load {s : State} {pa n : Nat} (h : poisoned s pa n = false) :
    Serves s (.load pa n) s.mem (0#8 :: rdBytes s pa n) := fun _ _ _ _ => Prod.ext rfl (if_neg (Bool.eq_false_iff.1 h))

theorem serves_load_poisoned {s : State} {pa n : Nat} (h : poisoned s pa n = true) :
    Serves s (.load pa n) s.mem [0xE0#8] := fun _ _ _ _ => Prod.ext rfl (if_pos h)

theorem serves_store (s : State) (pa : Nat) (bs : List Byte) :
    Serves s (.store pa bs) (wrBytes s pa bs).mem [0#8] := fun _ _ _ _ => rfl

/-- A request has been served, with this memory, and answered on channel 2, after the permits of its flits have gone back. -/
def Answered (s : State) (m : MsgHdr) (mem : Memory) (data : List Byte) (t : State) : Prop :=
  t.mem = mem ∧ t.blocks = s.blocks ∧ sget 0 t.inFlows (flowOf m) = (m.seq + 1) % 2 ^ 16
  ∧ ∃ (ids : List Nat) (id seq : Nat), ids.length = m.flits.length
    ∧ t.outbox.map OutMsg.bare = s.outbox.map OutMsg.bare ++ (m.flits.zip ids).map (permitBack m) ++
      [{ id := id, dst := m.src, vc := 2, seq := seq, body := .response data, flits := [], wait := false }]

theorem pellorRequest_answered {s : State} {m : MsgHdr} (hh : s.harvest = false) (hd : m.dst = s.device)
    (hm : ∀ x ∈ flitWays m, x.2 < 16) (he : s.early = []) (hn : m.seq = sget 0 s.inFlows (flowOf m)) {op : RemoteOp} {mem : Memory}
    {data : List Byte} (hs : Serves s op mem data) : ∃ t, exec (.pellorRequest m op) s = .next t ∧ Answered s m mem data t := by
  obtain ⟨posted, fresh, links, ⟨ids, hlen, hback⟩, hrec⟩ := receive_through hh hm (.request op) 0
  let u : State := { s with fresh := fresh, links := links, outbox := s.outbox ++ posted, mem := mem,
                            inFlows := sset 0 s.inFlows (flowOf m) ((m.seq + 1) % 2 ^ 16) }
  obtain ⟨outbox, seq, fresh', flows, links', hsend, hbare⟩ := sendOn_response u m.src 2 data false
  have hserved : joinFlow { s with fresh := fresh, links := links, outbox := s.outbox ++ posted } m (.request op) =
      (sendOn u m.src 2 (.response data) false).1 := by
    rw [joinFlow_next (s := { s with fresh := fresh, links := links, outbox := s.outbox ++ posted }) he hn, present, hs]
  refine ⟨{ u with fresh := fresh', flows := flows, outbox := outbox, links := links' }, ?_, rfl, rfl, sget_sset_same ..,
    ids, fresh, seq, hlen, ?_⟩
  · rw [exec_pellorRequest_here hd, hrec, hserved, hsend]
  · rw [hbare, List.map_append, hback]

/-- Whether an outgoing message is the request that a response answers. -/
def answeredBy (m : MsgHdr) (o : OutMsg) : Bool := o.dst == m.src && o.seq == m.seq && (match o.body with
  | .request _ => true
  | _ => false)

theorem present_response {s : State} {m : MsgHdr} {o : OutMsg} (ho : s.outbox.find? (answeredBy m) = some o) {data : List Byte}
    (hdata : data ≠ []) : present s m (.response data) =
      { s with outbox := s.outbox.filter fun x => x.id != o.id,
               answers := if o.wait = true then sset [] s.answers o.id data else s.answers } := by
  have hmatch : present s m (.response data) = match s.outbox.find? (answeredBy m) with
      | none => s
      | some o => { s with outbox := s.outbox.filter fun x => x.id != o.id,
                           answers := if o.wait && !data.isEmpty then sset [] s.answers o.id data else s.answers } := rfl
  rw [hmatch, ho]
  simp [hdata]

theorem mem_permitsBack {m : MsgHdr} {posted : List OutMsg} (h : PermitsBack m posted) {x : OutMsg} (hx : x ∈ posted) :
    ∃ k, x.body = .permits k m.vc.toNat 1 := by
  obtain ⟨ids, -, hbare⟩ := h
  have hmem := List.mem_map_of_mem (f := OutMsg.bare) hx
  rw [hbare, List.mem_map] at hmem
  obtain ⟨y, -, hy⟩ := hmem
  exact ⟨y.1, (congrArg OutMsg.body hy).symm⟩

/-- A response in its turn takes its request out of the outbox, and leaves the answer for who waits. -/
theorem pellorResponse_answers {s : State} {m : MsgHdr} (hh : s.harvest = false) (hd : m.dst = s.device)
    (hm : ∀ x ∈ flitWays m, x.2 < 16) (he : s.early = []) (hn : m.seq = sget 0 s.inFlows (flowOf m)) {o : OutMsg}
    (ho : s.outbox.find? (answeredBy m) = some o) {data : List Byte} (hdata : data ≠ []) :
    ∃ t posted, exec (.pellorResponse m data) s = .next t ∧ (o.wait = true → sget [] t.answers o.id = data)
      ∧ PermitsBack m posted ∧ t.outbox = (s.outbox ++ posted).filter fun x => x.id != o.id := by
  obtain ⟨posted, fresh, links, hback, hrec⟩ := receive_through hh hm (.response data) 1
  have hfind : (s.outbox ++ posted).find? (answeredBy m) = some o := by rw [List.find?_append, ho]; rfl
  let u : State := { s with fresh := fresh, links := links, outbox := s.outbox ++ posted,
                            inFlows := sset 0 s.inFlows (flowOf m) ((m.seq + 1) % 2 ^ 16) }
  refine ⟨{ u with outbox := u.outbox.filter fun x => x.id != o.id,
                   answers := if o.wait = true then sset [] s.answers o.id data else s.answers }, posted, ?_, fun hw => ?_, hback, rfl⟩
  · rw [exec_pellorResponse_here hd, hrec,
      joinFlow_next (s := { s with fresh := fresh, links := links, outbox := s.outbox ++ posted }) he hn, present_response (s := u) hfind hdata]
  · simp [hw]

/-! ### The claims about messages -/

theorem claim_fabricMessages : Claim.FabricMessages := by
  intro s m pa n d bs o op wait
  refine ⟨fun hh hd hm he hn => ?_, fun hh hd hm he hn hdist => ?_, fun hd hm => ?_, fun hd => ?_, fun hp => ?_⟩
  · refine ⟨fun hok => pellorRequest_answered hh hd hm he hn (serves_load hok),
      fun hbad => pellorRequest_answered hh hd hm he hn (serves_load_poisoned hbad),
      pellorRequest_answered hh hd hm he hn (serves_store s pa bs), fun ho hbs => ?_⟩
    obtain ⟨t, posted, he, hans, hback, hout⟩ := pellorResponse_answers hh hd hm he hn ho hbs
    refine ⟨t, he, hans, fun x hx => ?_⟩
    have hnot : x ∉ posted := fun h => by
      obtain ⟨k, hk⟩ := mem_permitsBack hback h
      exact hx _ _ _ hk
    simp [hout, hnot]
  · obtain ⟨posted, fresh, links, -, hrec⟩ := receive_through hh hm (.request op) 0
    have hahead := joinFlow_ahead (s := { s with fresh := fresh, links := links, outbox := s.outbox ++ posted }) he hn hdist (.request op)
    exact ⟨_, (exec_pellorRequest_here hd op).trans (congrArg _ (hrec.trans hahead)), rfl, rfl, rfl⟩
  · refine ⟨triedLinks s.links (flitWays m), ?_, fun x hx hfail hlink => ?_, fun k hk => triedLinks_untouched _ k.isLt hk⟩
    · rw [exec_pellorRequest_here hd, receive_lost s hm]
    · rw [Vector.getElem?_eq_getElem hlink, Option.map_some, (triedLinks_retired ..).2 (.inr ⟨x, hx, rfl, hfail⟩)]
  · simp [exec, execPellorRequest, execPellorResponse, hd]
  · exact ⟨sget 0 s.flows (d * 4), congrArg Prod.fst (transmitFrom_noPermits hp _ [])⟩

end Sys2Proof.Machine
end

section
/-! The instructions that the debugger and the pod see: BKPT and TRIG (R138, R302, R353 to R355). -/
namespace Sys2Proof.Machine

theorem claim_bkptResult : Claim.BkptResult := by
  intro h n s i hi
  have hact : i.act ≠ 0#32 := hi.2.1
  refine ⟨fun hstops => ?_, fun hstops hrun => ?_, fun hstops hres => ?_⟩
  all_goals rw [exec, execBkpt, issue_issues hi]
  · rw [hstops, if_neg Bool.false_ne_true, finish_trap _ _ _ hact, found_long hi.1]
  · rw [if_pos hstops, if_neg hrun, finish_again]
    rfl
  · rw [if_pos hstops, if_pos hres, finish_done]

/-- An instruction as it issues stands in the state it was found in, but for the group on turn. -/
theorem Issues.state_eq {s : State} {h : Hdr} {long uniform : Bool} {u : Uses} {i : Iss} (hi : Issues s h long uniform u i) :
    i.s = s.modGrp i.w.r fun _ => i.g := by
  obtain ⟨hf, -⟩ := hi
  obtain ⟨w, -, rfl⟩ := Option.map_eq_some_iff.1 hf
  rfl

theorem mem_insTrigger (n : Nat) (t x : Turn) (l : List Turn) : x ∈ insTrigger n t l ↔ x = t ∨ x ∈ l := by
  unfold insTrigger
  generalize (l.findIdx? (triggerAbove n)).getD l.length = k
  rw [List.mem_append, List.mem_cons, or_left_comm, ← List.mem_append, List.take_append_drop]

/-- A trigger is posted to every other device of the pod, and only the links and the counter of free values change besides. -/
theorem sendTrigger_posts (s : State) (n : Nat) : ∃ posted fresh links,
    sendTrigger s n = { s with fresh := fresh, links := links, outbox := s.outbox ++ posted }
    ∧ posted.length = (s.devices.filter (· ≠ s.device)).length
    ∧ ∀ m ∈ posted, m.body = .trigger n (u64 s.tick) ∧ m.dst ∈ s.devices ∧ m.dst ≠ s.device := by
  obtain ⟨posted, ids, fresh, links, hfold, hlen, hbare⟩ :=
    foldl_sendOn_control id (fun tick _ => .trigger n (u64 tick)) (fun _ _ => rfl) (s.devices.filter (· ≠ s.device)) s
  refine ⟨posted, fresh, links, hfold, ?_, fun m hm => ?_⟩
  · simpa [hlen] using congrArg List.length hbare
  · have hmem := List.mem_map_of_mem (f := OutMsg.bare) hm
    rw [hbare, List.mem_map] at hmem
    obtain ⟨⟨d, id⟩, hzip, hm'⟩ := hmem
    have hdst : m.dst = d := (congrArg OutMsg.dst hm').symm
    have hd := List.mem_filter.1 (List.of_mem_zip hzip).1
    exact ⟨(congrArg OutMsg.body hm').symm, hdst ▸ hd.1, hdst ▸ of_decide_eq_true hd.2⟩

theorem claim_triggerPosts : Claim.TriggerPosts := by
  intro h sc n s i hi e t
  have hexec : exec (.trig h sc n) s = .next (passed h i (if sc == 5#3 then sendTrigger t n.toNat else t)) := by
    rw [exec, execTrig, issue_issues hi, finish_done]
  refine ⟨fun hsc => by rw [hexec, hsc]; rfl, fun hsc => ?_⟩
  obtain ⟨posted, fresh, links, hsend, hlen, hposted⟩ := sendTrigger_posts t n.toNat
  have hout : t.outbox = s.outbox := (congrArg State.outbox hi.state_eq :)
  have hdev : t.device = s.device := (congrArg State.device hi.state_eq :)
  have hdevs : t.devices = s.devices := (congrArg State.devices hi.state_eq :)
  rw [hdev, hdevs] at hlen hposted
  rw [hout] at hsend
  refine ⟨sendTrigger t n.toNat, by rw [hexec, hsc]; rfl, ?_⟩
  rw [hsend]
  refine ⟨rfl, ?_, List.prefix_append .., fun x => mem_insTrigger .., ?_⟩
  · rw [List.length_append, hlen]
  · rw [List.drop_left]
    exact hposted

/-- Settles O37: BKPT issues to a trap, a stop or nothing, and TRIG to its arrival here and a message to each other device. -/
theorem debugInstructions : Obligations.DebugInstructions := ⟨claim_bkptResult, claim_triggerPosts⟩

end Sys2Proof.Machine
end

section
/-! The debug port, triggers and markers (R138, R185, R274, R289, R353, R355 to R357). -/
namespace Sys2Proof.Machine

/-! ### Stops at safe points (R138, R185, R274, R289, R353) -/

theorem debugHold_issues {s : State} {w : Who} {x : W64}
    (h : x.getLsbD 62 = false ∨ w.g.status = .resumed ∨ w.g.sent ≠ []) (e : W64) : debugHold s w x e = none := by
  unfold debugHold
  refine if_pos ?_
  obtain h | h | h := h
  · rw [h]
    rfl
  · simp [h]
  · simp [h]

/-- The position of a group, as a breakpoint names it. -/
def Who.place (w : Who) : Breakpoint := { ctx := w.c, base := w.g.cl.base, label := w.g.cl.label, ord := w.g.cl.ord }

/-- A group stopped by the debugger, with the results on their way arrived. -/
def heldAt (diag : Bool) (s : State) (r : GRef) : State :=
  s.modGrp r fun g => { arriveIf diag (fun _ => true) g with status := .stopped }

/-- What holds a group that is about to issue at a safe point: a step, which is a stop or cause 0xD1, or else a breakpoint. -/
theorem debugHold_safePoint {s : State} {w : Who} {x : W64} (hx : x.getLsbD 62 = true) (hr : w.g.status ≠ .resumed)
    (hc : w.g.cl.callv = none) (hs : w.g.sent = []) (e : W64) :
    debugHold s w x e =
      let t : State := { s with steps1 := s.steps1.filter (· ≠ w.r) }
      if w.r ∈ s.steps1 ∧ debugStops s w.c = true then some (heldAt (diagMode s w.c) t w.r)
      else if w.r ∈ s.steps1 ∧ actsOn s w x e ≠ 0#32 then
        some (enterHandler t w.r (preciseEntry w 0xD1#8 (actsOn s w x e) [u64 (safeOrdinal s w)] (x.getLsbD 63)))
      else if activeMask w.g.cl ≠ 0#32 ∧ w.place ∈ s.breaks then some (heldAt (diagMode s w.c) s w.r)
      else none := by
  have hbreak : (s.breaks.any fun b => b.ctx == w.c && b.base == w.g.cl.base && b.label == w.g.cl.label && b.ord == w.g.cl.ord) =
      decide (w.place ∈ s.breaks) := by
    rw [Bool.eq_iff_iff, List.any_eq_true, decide_eq_true_iff]
    constructor
    · rintro ⟨⟨ctx, base, label, ord⟩, hb, heq⟩
      simp only [Bool.and_eq_true, beq_iff_eq, and_assoc] at heq
      obtain ⟨rfl, rfl, rfl, rfl⟩ := heq
      exact hb
    · exact fun hb => ⟨_, hb, by simp [Who.place]⟩
  unfold debugHold
  rw [if_neg (by simp [hx, hr, hc, hs])]
  simp only [hbreak, List.contains_eq_mem, Bool.and_eq_true, decide_eq_true_eq, bne_iff_ne]
  rfl

theorem claim_debugStops : Claim.DebugStops := by
  intro s w x e b n y a v held t
  refine ⟨fun hp => ?_, fun hp => ?_, fun hp => ?_, fun hp => ?_, fun h => debugHold_issues (h.imp_right .inl) e,
    fun h => debugHold_issues (.inr (.inr h)) e, fun hx hr hc hs => ?_⟩
  · unfold debugActs
    rw [hp]
    by_cases hb : b ∈ s.breaks <;> simp [debugAct, hb]
  · simp [debugActs, hp, debugAct]
  · simp [debugActs, hp, debugAct]
  · simp [debugActs, hp, debugAct]
  · rw [debugHold_safePoint hx hr hc hs e]
    refine ⟨fun hno hlive hbreak => ?_, fun hno hnone => ?_, fun hstep hstops => ?_, fun hstep hstops hact hnone => ?_,
      fun hstep hstops hact => ?_⟩
    · dsimp only
      rw [if_neg fun h => ?_, if_neg fun h => ?_, if_pos ⟨hlive, hbreak⟩]
      · rfl
      · exact hno.elim (absurd h.1) fun hnone => h.2 hnone.2
      · exact hno.elim (absurd h.1) fun hnone => absurd h.2 (by simp [hnone.1])
    · simp [hno, hnone]
    · simp only [hstep, hstops, true_and, if_true]
      rfl
    · simp [hstops, hact, hnone]
    · simp [hstep, hstops, hact, t]

/-! ### Steps, resumptions, scans and triggers (R185, R353, R355 to R357) -/

/-- An action of a trigger, where its entry asks for it. -/
def State.when (s : State) (b : Bool) (act : State → State) : State := if b then act s else s

theorem when_false (s : State) (act : State → State) : s.when false act = s := rfl

theorem when_opens (s : State) (b : Bool) : s.when b (fun s => { s with window := true }) = { s with window := s.window || b } := by
  cases b
  · rw [when_false, Bool.or_false]
  · rw [State.when, if_pos rfl, Bool.or_true]

theorem when_closes (s : State) (b : Bool) : s.when b (fun s => { s with window := false }) = { s with window := s.window && !b } := by
  cases b
  · rw [when_false, Bool.not_false, Bool.and_true]
  · rw [State.when, if_pos rfl, Bool.not_true, Bool.and_false]

theorem when_freezes (s : State) (b : Bool) : s.when b (fun s => { s with frozen := true }) = { s with frozen := s.frozen || b } := by
  cases b
  · rw [when_false, Bool.or_false]
  · rw [State.when, if_pos rfl, Bool.or_true]

/-- A trigger's arrival is recorded, and its actions follow in their order (R355). -/
theorem triggerActs_eq (s : State) (n : Fin 16) (origin : Nat) (tick : W64) :
    triggerActs s n origin tick =
      let a := s.trig[n].actions
      let arrived : State := { s with trig := s.trig.set n { s.trig[n] with arrival := u64 s.tick } }
      let windowed := (arrived.when (a.getLsbD 0) fun s => { s with window := true }).when (a.getLsbD 1) fun s => { s with window := false }
      let harvested := windowed.when (a.getLsbD 2) fun s => endHarvest (saveHarvest (startHarvest s))
      let caused := harvested.when (a.getLsbD 4) fun s => triggerCause s (field a.toNat 8 8) n origin tick
      caused.when (a.getLsbD 3) fun s => { s with frozen := true } := by
  unfold triggerActs
  rw [dif_pos n.isLt]
  rfl

/-- What a trigger comes to that asks for no Harvest and no cause. -/
theorem triggerActs_flags {s : State} (n : Fin 16) (h2 : s.trig[n].actions.getLsbD 2 = false)
    (h4 : s.trig[n].actions.getLsbD 4 = false) (origin : Nat) (tick : W64) :
    triggerActs s n origin tick =
      { s with trig := s.trig.set n { s.trig[n] with arrival := u64 s.tick },
               window := (s.window || s.trig[n].actions.getLsbD 0) && !s.trig[n].actions.getLsbD 1,
               frozen := s.frozen || s.trig[n].actions.getLsbD 3 } := by
  rw [triggerActs_eq]
  dsimp only
  rw [h2, h4, when_opens, when_closes, when_false, when_false, when_freezes]

/-! ### Markers (R356) -/

theorem overLink_through (s : State) {e : OnLink} (h : e.fails < 16) (act : State → State) :
    overLink s e act = act { s with links := vmod s.links e.link fun l => { l with retries := e.fails } } := by
  have htried : (fun l : Link => l.tried e.fails) = fun l => { l with retries := e.fails } := funext (tried_of_lt h)
  unfold overLink
  rw [if_neg (by omega), triedOn, htried]

theorem overLink_fails (s : State) {k : Fin 32} {x : Nat} (h : 16 ≤ x) (act : State → State) :
    overLink s { link := k.val, fails := x } act =
      { s with links := s.links.set k { s.links[k] with retired := true, retries := 16 } } := by
  unfold overLink
  rw [if_pos h, triedOn, vmod_eq_set _ k.isLt, tried_of_le h]
  rfl

theorem startHarvest_links (s : State) (before after : Vector Link 32) :
    { startHarvest { s with links := before } with links := after } = { startHarvest s with links := after } := by
  unfold startHarvest
  dsimp only
  split
  · rfl
  · rfl

/-- A link over which a marker has come after some failures. -/
def Link.markedAfter (x : Nat) (l : Link) : Link := { l with retries := x, marked := true }

/-- What a marker that got through does before the package goes on with its Harvest. -/
theorem exec_marker {s : State} {k x : Nat} (hk : k < 32) (hx : x < 16) :
    exec (.marker { link := k, fails := x }) s = .next (endHarvest (saveHarvest
      { startHarvest s with links := vmod s.links k (Link.markedAfter x) })) := by
  rw [exec, execMarker, if_neg (by simpa using hk), overLink_through s hx]
  dsimp only
  rw [vmod_vmod, startHarvest_links]
  rfl

theorem saveHarvest_begun {s : State} (h : s.harvestEnd ≠ 0) : saveHarvest s = s := by
  unfold saveHarvest
  exact if_pos (by simp [h])

theorem saveHarvest_unrested {s : State} (h : ∃ b ∈ s.blocks, b.st = .resident ∧ atRest b = false) : saveHarvest s = s := by
  unfold saveHarvest
  refine if_pos ?_
  obtain ⟨b, hb, hst, hrest⟩ := h
  have : (s.blocks.all fun b => b.st != .resident || atRest b) = false := List.all_eq_false.2 ⟨b, hb, by simp [hst, hrest]⟩
  simp [this]

theorem endHarvest_unsaved {s : State} (h : s.harvestEnd = 0) : endHarvest s = s := by
  unfold endHarvest
  exact if_pos (by simp [h])

/-- A change of a link that does not retire it leaves the links in use. -/
theorem usedLinks_vmod (s : State) (k : Nat) {f : Link → Link} (hf : ∀ l, (f l).retired = l.retired) :
    usedLinks { s with links := vmod s.links k f } = usedLinks s := by
  unfold usedLinks
  refine congrArg (fun p => if s.devices.length ≤ 1 then [] else (List.range 32).filter p) (funext fun j => ?_)
  dsimp only
  rw [getElem?_vmod]
  cases s.links[j]? with
  | none => simp
  | some l => by_cases h : j = k <;> simp [h, hf]

theorem endHarvest_unmarked {s : State} (h : ∃ j ∈ usedLinks s, (s.links[j]?).map (·.marked) = some false) : endHarvest s = s := by
  unfold endHarvest
  refine if_pos ?_
  obtain ⟨j, hj, hmark⟩ := h
  have : ((usedLinks s).any fun k => (s.links[k]?).map (·.marked) != some true) = true := List.any_eq_true.2 ⟨j, hj, by simp [hmark]⟩
  simp [this]

theorem claim_debugResults : Claim.DebugResults := by
  intro s r g focus n origin k x tick a marked
  refine ⟨fun hg hlive hno => ?_, rfl, rfl, fun h2 h4 => ?_, fun hk hx hh hbusy => ?_, fun hk hx hh hend hwait => ?_⟩
  · simp [exec, execStepRequest, hg, hlive, hno]
  · exact congrArg _ (triggerActs_flags n h2 h4 origin tick)
  · have hstart : startHarvest s = { s with harvest := true, harvestTick := s.tick, harvestEnd := 0 } := if_neg (by simp [hh])
    change exec _ s = _
    rw [exec_marker hk hx, hstart, saveHarvest_unrested (by exact hbusy), endHarvest_unsaved rfl]
    rfl
  · obtain ⟨j, hj, hne, hmark⟩ := hwait
    have hstart : startHarvest s = s := if_pos hh
    have hused : j ∈ usedLinks { s with links := vmod s.links k (Link.markedAfter x) } := by
      rw [usedLinks_vmod s k (f := Link.markedAfter x) fun _ => rfl]
      exact hj
    have hunmarked : ((vmod s.links k (Link.markedAfter x))[j]?).map (·.marked) = some false := by
      rw [getElem?_vmod, if_neg hne]
      exact hmark
    change exec _ s = _
    rw [exec_marker hk hx, hstart, saveHarvest_begun (by exact hend), endHarvest_unmarked ⟨j, hused, hunmarked⟩]
    rfl

end Sys2Proof.Machine
end

section
/-! Control flits, aborted chunks and the pod's numbers (R343, R344, R346, R347), and the obligation about the pod. -/
namespace Sys2Proof.Machine

/-! ### Control flits (R343, R344, log 17) -/

/-- The package once a control flit has come over a link, after some failures. -/
def afterControl (s : State) (e : OnLink) : State :=
  { s with links := vmod s.links e.link fun l => { l with retries := e.fails }, fresh := s.fresh + 1 }

theorem controlFlit_through {s : State} (hh : s.harvest = false) {e : OnLink} (h : e.fails < 16) (src : Option Nat) (vc : BitVec 2)
    (act : State → State) : controlFlit s e src vc act = act (afterControl s e) := by
  unfold controlFlit
  rw [overLink_through s h]
  dsimp only
  rw [recordFlits_noHarvest (s := { s with links := vmod s.links e.link fun l => { l with retries := e.fails } }) hh]
  rfl

theorem permitReturn_grants {s : State} (hh : s.harvest = false) (ho : s.outbox = []) {x : Nat} (hx : x < 16) (k : Fin 32) (vc : Fin 4)
    (n : Nat) : exec (.permitReturn { link := k.val, fails := x } vc.val n) s =
      .next { s with fresh := s.fresh + 1, links := vmod s.links k fun l =>
        { l with retries := x, permits := l.permits.set vc (min 32 (l.permits[vc] + n)) } } := by
  rw [exec, execPermitReturn, controlFlit_through hh hx]
  unfold afterControl
  dsimp only
  rw [if_pos (by simp), vmod_vmod]
  unfold transmit
  simp only [ho, transmitFrom, vmod_eq_set _ vc.isLt]
  rfl

theorem control_retires (s : State) (k : Fin 32) {x : Nat} (hx : 16 ≤ x) {e : Instr} {n vc set id : Nat} {tick dst : W64}
    {srcs : List (List Byte)} (he : e = .permitReturn { link := k.val, fails := x } vc n ∨ e = .marker { link := k.val, fails := x }
      ∨ e = .triggerMessage n { flit := some { link := k.val, fails := x }, device := id } tick
      ∨ e = .reductionAbort dst { flit := { link := k.val, fails := x }, num := set } srcs) :
    exec e s = .next { s with links := s.links.set k { s.links[k] with retired := true, retries := 16 } } := by
  obtain rfl | rfl | rfl | rfl := he
  · exact congrArg _ (overLink_fails s hx _)
  · rw [exec, execMarker, if_neg (by simp), overLink_fails s hx]
  · exact congrArg _ (overLink_fails s hx _)
  · exact congrArg _ (overLink_fails s hx _)

/-! ### Aborted chunks (R347) -/

theorem exec_reductionAbort {s : State} (hh : s.harvest = false) {x : Nat} (hx : x < 16) (link set : Nat) (dst : W64)
    (srcs : List (List Byte)) : exec (.reductionAbort dst { flit := { link := link, fails := x }, num := set } srcs) s =
      .next (abortChunk (afterControl s { link := link, fails := x }) dst set srcs) :=
  congrArg _ (controlFlit_through hh hx ..)

theorem abortChunk_owned {s : State} {dst : W64} {set : Nat} {r : GRef} {cp : CopyOp} {id : Nat} {z : RedSet}
    (hown : chunkOwner { s with chunks := s.chunks.filter (· ≠ (dst, set)) } dst = some (r, cp, id))
    (hset : s.sets.find? (fun z => z.num == set) = some z) (srcs : List (List Byte)) :
    abortChunk s dst set srcs =
      let c : State := { s with chunks := s.chunks.filter (· ≠ (dst, set)) }
      deliver { c with answers := sset [] s.answers id (0#8 :: combineRanks z s.device srcs (ownChunk c r cp)),
                       outbox := s.outbox.filter fun x => x.id != id } r 0xC0#8 [dst, u64 set] := by
  unfold abortChunk
  dsimp only
  rw [hown, hset]

theorem abortChunk_early {s : State} {dst : W64} {set : Nat} {z : RedSet}
    (hown : chunkOwner { s with chunks := s.chunks.filter (· ≠ (dst, set)) } dst = none)
    (hset : s.sets.find? (fun z => z.num == set) = some z) (hrank : s.device ∈ z.ranks)
    (hsent : s.outbox.filter (fun x => !isContribution dst set x) = s.outbox) (hlate : ∀ e ∈ s.lateChunks, e.1 ≠ (dst, set))
    (srcs : List (List Byte)) :
    abortChunk s dst set srcs =
      { s with chunks := s.chunks.filter (· ≠ (dst, set)), lateChunks := s.lateChunks ++ [((dst, set), srcs)] } := by
  have hkeep : s.lateChunks.filter (fun e => e.1 ≠ (dst, set)) = s.lateChunks :=
    List.filter_eq_self.2 fun e he => decide_eq_true (hlate e he)
  unfold abortChunk
  dsimp only
  rw [hown, hset]
  dsimp only
  rw [hsent, if_neg (by simp [hrank]), hkeep]

/-! ### The pod's numbers (R346, log 3) -/

theorem podConfiguration_sets {own : Nat} {devs : List Nat} (hown : own ∈ devs) (hdevs : ∀ d ∈ devs, d < 1024)
    (hlen : devs.length ≤ 1024) (tick : W64) (s : State) : exec (.podConfiguration own devs tick) s =
      .next { s with device := own, devices := devs, fresh := s.fresh + 1,
                     tick := if own == 0 then tick.toNat else tick.toNat + Config.tickAlignment s.fresh % 101 - 50 } := by
  rw [exec, execPodConfiguration, if_pos (by simpa [hown, hlen, hdevs own hown] using hdevs)]

/-! ### The claim and the obligation -/

theorem claim_fabricResults : Claim.FabricResults := by
  intro s n id link x k vc dst set r cp z srcs devs tick c out
  refine ⟨fun hh ho hx => ?_, fun hx e he => control_retires s k hx he, fun hno => ?_, fun hh hx hown hset => ?_,
    fun hh hx hown hset hrank hout hlate => ?_, fun h0 hdevs hlen => ?_, fun hn hne hdevs hlen => ?_⟩
  · refine ⟨_, permitReturn_grants hh ho hx k vc n, rfl, ?_, fun j hj => ?_⟩
    · rw [Fin.getElem_fin, getElem_vmod, if_pos rfl]
      rfl
    · rw [Fin.getElem_fin, getElem_vmod, if_neg fun h => hj (Fin.ext h)]
      rfl
  · simp [exec, execSwitchChunkTimeout, hno]
  · exact (exec_reductionAbort hh hx link set dst srcs).trans (congrArg _ (abortChunk_owned
      (s := afterControl s { link := link, fails := x }) hown hset srcs))
  · have hsent : s.outbox.filter (fun m => !isContribution dst set m) = s.outbox := by
      refine (List.filter_congr fun m _ => ?_).trans hout
      obtain ⟨id, dst', vc', seq, body, flits, wait⟩ := m
      cases body with
      | request op => cases op <;> rfl
      | _ => rfl
    exact (exec_reductionAbort hh hx link set dst srcs).trans (congrArg _ (abortChunk_early
      (s := afterControl s { link := link, fails := x }) hown hset hrank hsent hlate srcs))
  · rw [podConfiguration_sets h0 hdevs hlen]
    rfl
  · exact ⟨_, podConfiguration_sets hn hdevs hlen tick s, by simp [hne]; omega, by simp [hne]; omega⟩

/-- Settles O44: the debug port and triggers by what each event comes to, a group's stop by what `debugHold` answers at a safe point,
messages by their arrival in their flow, and control flits by whether they get through. -/
theorem podEvents : Obligations.PodEvents := ⟨claim_debugResults, claim_debugStops, claim_fabricMessages, claim_fabricResults⟩

end Sys2Proof.Machine
end
